-- ==== Sys2Proof/Word.lean ====
section
/-! DEFINITION. The words of the frame bus (R112): 32 data bits and one parity bit for each byte. -/
namespace Sys2Proof

/-- The 32 data bits of a bus word, bit 31 the most significant (section 10.1). -/
abbrev Word := BitVec 32

/-- A 32-bit byte address (00 section 1.3). -/
abbrev Addr := BitVec 32

/-- A word as the frame bus carries it (R112). Bit k of `par` belongs to the byte at word address + k,
whose place in `data` the byte order decides (R170). -/
structure BusWord where
  data : Word
  par : BitVec 4
  deriving DecidableEq, Repr

end Sys2Proof
end

