-- ==== Sys2Proof/Syntax.lean ====
section
/-! DEFINITION. The commands of the SC310: one constructor for each row of the opcode table. -/
namespace Sys2Proof

/-- A transaction as either side of the frame bus names it (R113). -/
inductive BusReq where
  /-- four words travel back, from `start`, in wrapped order -/
  | lineFetch (addr : Addr) (start : Fin 4)
  /-- four words travel to memory, from `start`, in wrapped order -/
  | lineStore (addr : Addr) (start : Fin 4)
  /-- one word travels to memory under four byte enables -/
  | wordStore (addr : Addr) (enables : BitVec 4)
  deriving DecidableEq, Repr

/-- The commands. A record command carries out the record that the intake holds in EXECUTING, whose
fields lie in the assembly buffer (R151, R155), so it has no operand. -/
inductive Instr where
  -- records
  | pad
  | wrap
  | sceneReset
  | park
  | setupPlane
  | setupReports
  | setColour
  | loadColours
  | defineObject
  | dropObject
  | place
  | move
  | setOpacity
  | remove
  | defineButton
  | buttonLook
  | enableButton
  | disableButton
  | deleteButton
  | keyDirection
  | keyEnter
  | select
  | showRecord
  | batchOpen
  | batchClose
  -- frame starts
  | frameStart
  | settleEnd
  | transitionDone
  | holdEnd
  -- lines
  | resetAssert
  | resetRelease
  | clearingSweepEnd
  | urgentLine (asserted : Bool)
  -- the controller side
  | cSideRequest (req : BusReq)
  | cStoreWord (w : BusWord)
  | cStoreComplete
  | passedFetchWord (w : BusWord)
  | passedTransactionComplete
  -- the display path
  | displayWordArrival (w : BusWord)
  | displayFirstFetchComplete
  -- the intake
  | captureDrain
  /-- the four words of the probe's line, in the order of arrival (R149, log 15) -/
  | probeComplete (w0 w1 w2 w3 : BusWord)
  | refetchWordArrival (w : BusWord)
  | refetchLineComplete
  -- the colour load
  | loadWordArrival (w : BusWord)
  | loadLineComplete
  | loadComplete
  -- the render engine
  | objectWordArrival (w : BusWord)
  | objectFetchComplete
  | renderStoreComplete
  | tileComplete
  -- the report unit
  | reportStoreComplete
  | controlWordStoreComplete
  -- the display path, last
  | displayFetchComplete
  deriving DecidableEq, Repr

end Sys2Proof
end

