-- ==== Sys2Proof/WellFormed.lean ====
section
/-! DEFINITION. Which commands are well formed: the alignment of C-side requests (R112, R113). -/
namespace Sys2Proof

/-- A line transaction names a line address, a multiple of 16; a word store a multiple of 4 (R113). -/
def BusReq.aligned : BusReq → Bool
  | .lineFetch a _ => a.toNat % 16 == 0
  | .lineStore a _ => a.toNat % 16 == 0
  | .wordStore a _ => a.toNat % 4 == 0

/-- Only a C-side request has an operand that can be ill formed. -/
def Instr.wf : Instr → Bool
  | .cSideRequest r => r.aligned
  | .pad | .wrap | .sceneReset | .park | .setupPlane | .setupReports | .setColour | .loadColours
  | .defineObject | .dropObject | .place | .move | .setOpacity | .remove | .defineButton
  | .buttonLook | .enableButton | .disableButton | .deleteButton | .keyDirection | .keyEnter
  | .select | .showRecord | .batchOpen | .batchClose | .frameStart | .settleEnd
  | .transitionDone | .holdEnd | .resetAssert | .resetRelease | .clearingSweepEnd
  | .urgentLine _ | .cStoreWord _ | .cStoreComplete | .passedFetchWord _
  | .passedTransactionComplete | .displayWordArrival _ | .displayFirstFetchComplete
  | .captureDrain | .probeComplete _ _ _ _ | .refetchWordArrival _ | .refetchLineComplete
  | .loadWordArrival _ | .loadLineComplete | .loadComplete | .objectWordArrival _
  | .objectFetchComplete | .renderStoreComplete | .tileComplete | .reportStoreComplete
  | .controlWordStoreComplete | .displayFetchComplete => true

end Sys2Proof
end

