-- ==== Sys2Proof/Decode.lean ====
section
/-! DEFINITION. The reading of commands from the bits of the opcode table: no row gives any bits. -/
namespace Sys2Proof

/-- The command that a word spells by the table's bits.
No row of the opcode table gives bits, so no word spells a command (log 24). -/
def decodeTableWord (_nbits _w : Nat) : Option Instr := none

end Sys2Proof
end

