-- ==== Sys2Proof/Config.lean ====
section
/-! DEFINITION. The sizes of the part's tables and queues, as the manual fixes them.
The manual leaves no result of a command open, so there is no free value here. -/
namespace Sys2Proof.Config

/-- Entries of the object directory (01 section 1.1). -/
abbrev objectCount : Nat := 256
/-- Colour tables (01 section 1.5). -/
abbrev tableCount : Nat := 8
/-- Entries of one colour table (01 section 1.5). -/
abbrev entryCount : Nat := 256
/-- Placement ids (02 section 2.1). -/
abbrev placementCount : Nat := 128
/-- Button ids (06 section 6.1). -/
abbrev buttonCount : Nat := 48
/-- Words of the assembly buffer (00 section 1.5). -/
abbrev slotCount : Nat := 16

end Sys2Proof.Config
end

