-- ==== Sys2Proof/Machine/State.lean ====
section
/-! DEFINITION. The state of the SC310: every table, register, queue, flag and line the manual names. -/
namespace Sys2Proof.Machine
open Sys2Proof

/-- Why a command stops. Each is raised only by a command that names an event which cannot arise in
the state it is given to, so that the manual gives it no effect (log 4). All are safe. -/
inductive Fault where
  /-- Raised by a record command when the intake does not hold such a record in EXECUTING. Safe. -/
  | noRecordInHand
  /-- Raised by a word or completion command when no transaction of its kind is on the M-side, or
  the wrong number of its words has moved. Safe. -/
  | noSuchTransfer
  /-- Raised by C_SIDE_REQUEST while a C-side transaction waits or is in progress (R114). Safe. -/
  | cSideBusy
  /-- Raised by C_SIDE_REQUEST whose address is not aligned for its kind (R113). Safe. -/
  | misaligned
  /-- Raised by SETTLE_END, TRANSITION_DONE and HOLD_END when the frame start is not that case. Safe. -/
  | frameCaseNotDue
  /-- Raised by CLEARING_SWEEP_END when the engine is not CLEARING (R134). Safe. -/
  | noSweep
  /-- Raised by CAPTURE_DRAIN when the capture queue is empty (R146). Safe. -/
  | nothingToDrain
  deriving DecidableEq, Repr

/-- Why a command has no meaning. -/
inductive Refusal where
  /-- Raised by an arm of exec that has no meaning yet, with the mnemonic of the table. Safe. -/
  | notModelled (mnemonic : String)
  deriving DecidableEq, Repr

/-! ## Colours and pixels -/

/-- A colour or pixel: four channels 0..255 (R33, R34). -/
structure Argb where
  a : BitVec 8
  r : BitVec 8
  g : BitVec 8
  b : BitVec 8
  deriving DecidableEq, Repr

/-- The colour (0, 0, 0, 0). -/
def Argb.transparent : Argb := ⟨0, 0, 0, 0⟩

/-! ## Engine control and the anchor -/

/-- R116. -/
inductive PathState where
  | bypass | service
  deriving DecidableEq, Repr

/-- R134. -/
inductive EngineState where
  | off | clearing | unanchored | active | parked
  deriving DecidableEq, Repr

/-- What an anchor line names: its address X, the ring length in lines, the byte order
(`bigEndian`: the byte at the lowest address is the most significant one, R6). -/
structure Anchor where
  addr : Addr
  lines : Nat
  bigEndian : Bool
  deriving DecidableEq, Repr

/-! ## Objects and colour tables -/

/-- R1. -/
inductive ObjState where
  | undefined | ready | faulty
  deriving DecidableEq, Repr

/-- Section 1.1 and R174. -/
inductive Coding where
  | direct32 | index8 | index4 | index2 | run8
  deriving DecidableEq, Repr

/-- An entry of the object directory (01 section 1.1). -/
structure ObjEntry where
  state : ObjState
  coding : Coding
  table : Fin Config.tableCount
  width : Nat
  height : Nat
  addr : Addr
  length : Word
  deriving DecidableEq, Repr

/-- An UNDEFINED entry has every other field 0 (R1). -/
def ObjEntry.undef : ObjEntry := ⟨.undefined, .direct32, 0, 0, 0, 0, 0⟩

/-- A colour load in progress (R13 to R16): `count` after clamping, and whether a needed word with
bad parity has come in the line now fetched, and in the load as a whole (R15). -/
structure Load where
  table : Fin Config.tableCount
  first : Nat
  count : Nat
  source : Nat
  lineBad : Bool
  anyBad : Bool
  deriving DecidableEq, Repr

/-- 01 section 1.5. -/
structure ColourTables where
  entries : Vector (Vector Argb Config.entryCount) Config.tableCount
  inFlight : Vector Bool Config.tableCount
  load : Option Load
  deriving DecidableEq, Repr

/-! ## The composition list -/

/-- What a placement shows (02 section 2.1). -/
inductive Source where
  | object (id : Fin Config.objectCount)
  | button (id : Fin Config.buttonCount)
  deriving DecidableEq, Repr

/-- A present placement (02 section 2.1). -/
structure Placement where
  id : Fin Config.placementCount
  source : Source
  x : Int
  y : Int
  layer : Nat
  opacity : BitVec 8
  deriving DecidableEq, Repr

/-! ## Buttons -/

/-- A rectangle of the plane (06 section 6.1). -/
structure Rect where
  x : Nat
  y : Nat
  w : Nat
  h : Nat
  deriving DecidableEq, Repr

/-- A look, its tint premultiplied (06 section 6.1, R36). -/
structure Look where
  tint : Argb
  high : Nat
  low : Nat
  floor : Nat
  period : Nat
  duty : Nat
  deriving DecidableEq, Repr

/-- A link: a button id, or none (R90). -/
abbrev Link := Option (Fin Config.buttonCount)

/-- The fields of an entry that DEFINE BUTTON writes (R90, R91). -/
structure ButtonDef where
  rect : Rect
  up : Link
  down : Link
  left : Link
  right : Link
  holdFrames : Nat
  normal : Fin Config.objectCount
  selected : Option (Fin Config.objectCount)
  activated : Option (Fin Config.objectCount)
  autoActivate : Bool
  command : Word
  deriving DecidableEq, Repr

/-- A button entry (06 section 6.1). -/
structure Button where
  defined : Bool
  enabled : Bool
  body : ButtonDef
  displayed : Option Rect
  selectedLook : Option Look
  activatedLook : Option Look
  deriving DecidableEq, Repr

/-- Every field at its empty value (R89). -/
def ButtonDef.empty : ButtonDef :=
  ⟨⟨0, 0, 0, 0⟩, none, none, none, none, 0, 0, none, none, false, 0⟩

/-- An undefined, disabled entry with every field at its empty value (R89). -/
def Button.empty : Button := ⟨false, false, ButtonDef.empty, none, none, none⟩

/-- 06 section 6.1. `activated` is the state of the selected button: ACTIVATED or SELECTED. -/
structure ButtonTable where
  entries : Vector Button Config.buttonCount
  selection : Option (Fin Config.buttonCount)
  activated : Bool
  hold : Nat
  phase : Nat
  deriving DecidableEq, Repr

/-- R89. -/
def ButtonTable.empty : ButtonTable :=
  ⟨Vector.replicate Config.buttonCount Button.empty, none, false, 0, 0⟩

/-! ## The tile map -/

/-- The fields of the plane; the clear colour is premultiplied (04 section 4.1). -/
structure Plane where
  width : Nat
  height : Nat
  baseA : Addr
  baseB : Addr
  clear : Argb
  deriving DecidableEq, Repr

/-- 04 section 4.3. -/
inductive TileState where
  | clean | dirty | busy | busyStale
  deriving DecidableEq, Repr

/-- The two pages (05 section 5.1). -/
inductive Page where
  | a | b
  deriving DecidableEq, Repr

/-- The plane's five fields are 0 while it is unset (R48). -/
def Plane.unset : Plane := ⟨0, 0, 0, 0, Argb.transparent⟩

/-- Whether the plane is set, its fields, one tile state a tile for each page while it is set, and flip
wanted (R48, R54, R56). -/
structure TileMap where
  planeSet : Bool
  fields : Plane
  a : List TileState
  b : List TileState
  flipWanted : Bool
  deriving DecidableEq, Repr

/-- The plane, while it is set. -/
def TileMap.plane (m : TileMap) : Option Plane := if m.planeSet then some m.fields else none

/-! ## The render engine -/

/-- Where a RUN8 decode stands between bytes (R7). -/
inductive RunMode where
  /-- the row table entry is awaited -/
  | entry
  /-- the next byte is a code byte -/
  | code
  /-- so many literal index bytes are still to come -/
  | literal (left : Nat)
  /-- the next byte is the index of a run of so many columns -/
  | run (columns : Nat)
  deriving DecidableEq, Repr

/-- What a RUN8 decode needs next (R8, R64). -/
inductive RunStatus where
  /-- the byte at `pos`, not yet at hand -/
  | needByte
  /-- column c1 has been produced -/
  | complete
  /-- the decode stopped short -/
  | short
  /-- the decode read a word that arrived with bad parity, at this address -/
  | bad (addr : Nat)
  deriving DecidableEq, Repr

/-- A RUN8 decode in progress: the address of the next byte, the indexes produced from column 0
on, and the words of the line fetched last, with their addresses (R64). -/
structure Run8 where
  pos : Nat
  mode : RunMode
  out : List Nat
  status : RunStatus
  line : List (Nat × BusWord)
  deriving DecidableEq, Repr

/-- The object data of an application so far. -/
inductive AppData where
  /-- uncompressed codings: the used words that have arrived, with their addresses (R63) -/
  | words (got : List (Nat × Word))
  /-- RUN8 (R64) -/
  | run8 (d : Run8)
  deriving DecidableEq, Repr

/-- The application of a placement to a row (R61, R62, R65): the placement as the row took it, the
object and its entry as taken, the plane columns of the span, the object columns and row, and whether
the application has ended (bad parity) or been abandoned (R65). -/
structure App where
  place : Placement
  obj : Fin Config.objectCount
  entry : ObjEntry
  px0 : Nat
  px1 : Nat
  c0 : Nat
  c1 : Nat
  row : Nat
  ended : Bool
  data : AppData
  deriving DecidableEq, Repr

/-- What the engine does with the row in hand (R61, R66). -/
inductive RowPhase where
  /-- an application fetches its data; the entries still to be taken follow -/
  | applying (app : App) (rest : List Placement)
  /-- the store of this line of the row, 0..15, is outstanding -/
  | storing (line : Nat)
  deriving DecidableEq, Repr

/-- The tile in flight: its index, the page it is composed into, the row in hand and its 64 pixels. -/
structure Flight where
  tile : Nat
  page : Page
  row : Nat
  pixels : List Argb
  phase : RowPhase
  deriving DecidableEq, Repr

/-- The scan pointer and the tile in flight (R60). -/
structure RenderEngine where
  scan : Nat
  flight : Option Flight
  deriving DecidableEq, Repr

/-! ## Page control -/

/-- The kinds a running transition may have (05 section 5.1). -/
inductive TransKind where
  | dissolve | wipeLeft | wipeRight | wipeDown | wipeUp
  deriving DecidableEq, Repr

/-- A transition other than CUT, with its length T and settle S. -/
structure TransSpec where
  kind : TransKind
  len : Nat
  settle : Nat
  deriving DecidableEq, Repr

/-- The phase of a running transition: SETTLE with its remaining count, or RAMP with its step k. -/
inductive TransPhase where
  | settle (left : Nat)
  | ramp (k : Nat)
  deriving DecidableEq, Repr

/-- A running transition with its level L for the present frame (R78a, R80). -/
structure Running where
  spec : TransSpec
  phase : TransPhase
  level : Nat
  deriving DecidableEq, Repr

/-- 05 section 5.1; a pending transition of none is CUT. -/
structure PageControl where
  front : Page
  batchOpen : Bool
  pendingShow : Option TransSpec
  running : Option Running
  deriving DecidableEq, Repr

/-- R72. -/
def PageControl.initial : PageControl := ⟨.a, false, none, none⟩

/-! ## Reports -/

/-- R158, R176. -/
inductive RecCause where
  | kind | size | field | bounds | overlap | parity
  deriving DecidableEq, Repr

/-- R10, R176. -/
inductive ObjCause where
  | short | parity
  deriving DecidableEq, Repr

/-- The place at which a bad word was found (09 section 9.6). -/
inductive ParityPlace where
  | capture | probe | load | render | display
  deriving DecidableEq, Repr

/-- The reports and their arguments (09 section 9.6, R176). -/
inductive Report where
  | selection (now : Link) (previous : Link)
  | activated (id : Fin Config.buttonCount) (command : Word)
  | flipped (front : Page) (frames : BitVec 16)
  | transitionDone (kind : TransKind)
  | recordFault (cause : RecCause) (p : Nat) (kind : Nat)
  | objectFault (cause : ObjCause) (id : Fin Config.objectCount)
  | parity (place : ParityPlace) (addr : Nat)
  | overflow (firstLost : BitVec 16) (lost : Nat)
  deriving DecidableEq, Repr

/-- A report in the queue, with the number it took (R163). -/
structure Queued where
  report : Report
  number : BitVec 16
  deriving DecidableEq, Repr

/-- The report ring while it is set (09 section 9.1). -/
structure ReportRing where
  base : Addr
  entries : Nat
  deriving DecidableEq, Repr

/-- 09 section 9.1. `inHand` holds whether the store in hand carries OVERFLOW. -/
structure ReportUnit where
  ring : Option ReportRing
  write : Nat
  read : Nat
  queue : List Queued
  seq : BitVec 16
  overflow : Bool
  firstLost : BitVec 16
  lost : Nat
  inHand : Option Bool
  attention : Bool
  deriving DecidableEq, Repr

/-- The number of entries, which is 0 while the ring is unset (R159). -/
def ReportUnit.entries (u : ReportUnit) : Nat := (u.ring.map ReportRing.entries).getD 0

/-- The report unit with no ring (R159). -/
def ReportUnit.empty : ReportUnit := ⟨none, 0, 0, [], 0, false, 0, 0, none, false⟩

/-! ## The intake -/

/-- An entry of the capture queue (R146). -/
structure CapEntry where
  addr : Addr
  word : Word
  enables : BitVec 4
  endMark : Bool
  deriving DecidableEq, Repr

/-- A line fetch as a block hands it to the arbiter. -/
structure LineReq where
  line : Addr
  start : Fin 4
  deriving DecidableEq, Repr

/-- The intake's own fetches (R149, R152). -/
inductive IntakeFetch where
  | probe (req : LineReq)
  | refetch (req : LineReq)
  deriving DecidableEq, Repr

/-- A refetch in progress: the number of the line now fetched, counted from 0; the kind field of a
header that arrived with bad parity; the address of the first bad body word (R152, R153). -/
structure Refetch where
  line : Nat
  headerBad : Option Nat
  bodyBad : Option Nat
  deriving DecidableEq, Repr

/-- What a record in EXECUTING waits for (R155): to be carried out, its colour load, or the
completion of the tile in flight (R51). -/
inductive ExecPhase where
  | ready | loading | planeWait
  deriving DecidableEq, Repr

/-- 08 section 8.5; `absent` while the intake has no ring. -/
inductive IntakeState where
  | absent
  | probing
  | waiting
  | fetching (r : Refetch)
  | executing (e : ExecPhase)
  | halted
  deriving DecidableEq, Repr

/-- 08, opening. `header` is the header as committed (R150); `deferred` a probe or refetch needed
while one is outstanding (R154); `probeLive` holds while the outstanding probe may still be used. -/
structure Intake where
  anchor : Option Anchor
  p : Nat
  expected : BitVec 8
  queue : List CapEntry
  slots : Vector (Option Word) Config.slotCount
  suspect : Bool
  state : IntakeState
  header : Word
  deferred : Option IntakeFetch
  probeLive : Bool
  deriving DecidableEq, Repr

/-- The assembly buffer cleared, every slot invalid (R157). -/
def emptySlots : Vector (Option Word) Config.slotCount := Vector.replicate Config.slotCount none

/-- The intake with no ring (R134). -/
def Intake.absent : Intake := ⟨none, 0, 0, [], emptySlots, false, .absent, 0, none, false⟩

/-! ## The frame bus path -/

/-- The control-line words the part stores (R142). -/
inductive ControlWord where
  /-- word 1, the script read index -/
  | scriptIndex
  /-- word 2, the report write index -/
  | reportIndex
  /-- word 3, the state word -/
  | stateWord
  deriving DecidableEq, Repr

/-- The stores of class 1 (R129), as they are issued (R126): a report line store with its start word, and
the word store of a control-line word with its byte enables. Each word has its parity. -/
inductive Class1 where
  | reportLine (addr : Addr) (start : Fin 4) (words : List BusWord)
  | control (n : ControlWord) (addr : Addr) (enables : BitVec 4) (word : BusWord)
  deriving DecidableEq, Repr

/-- The render engine's own transactions (R67). -/
inductive RenderReq where
  | fetch (req : LineReq)
  | store (line : Addr) (start : Fin 4) (words : List BusWord)
  deriving DecidableEq, Repr

/-- The own requests waiting at the arbiter, class by class (R129). -/
structure OwnWaiting where
  class1 : List Class1
  intake : Option IntakeFetch
  load : Option LineReq
  render : Option RenderReq
  deriving DecidableEq, Repr

/-- Nothing waits. -/
def OwnWaiting.empty : OwnWaiting := ⟨[], none, none, none⟩

/-- An own transaction as it is issued on the M-side (R126). -/
inductive OwnReq where
  | class1 (c : Class1)
  | intake (f : IntakeFetch)
  | load (r : LineReq)
  | render (r : RenderReq)
  deriving DecidableEq, Repr

/-- The M-side (R115): free; an own transaction with the number of fetch words that have arrived;
or a transaction carried for the controller, as it is issued to memory. -/
inductive MSide where
  | free
  | own (req : OwnReq) (got : Nat)
  | controller (req : BusReq)
  deriving DecidableEq, Repr

/-- The classes of a C-side transaction outside the display window (R118). -/
inductive PassClass where
  | script | control | other
  deriving DecidableEq, Repr

/-- What the tint needs of the button table at the acceptance of a fetch (06 section 6.6). -/
structure Tint where
  colour : Argb
  strength : Nat
  floor : Nat
  rect : Rect
  deriving DecidableEq, Repr

/-- How the words of a display fetch are formed (R84). -/
inductive Mix where
  /-- one fetch, returned as it arrived -/
  | asFetched
  /-- one fetch of the front line, tinted (R110) -/
  | tint (t : Tint)
  /-- two fetches, dissolved at this level (R42) -/
  | dissolve (level : Nat)
  /-- two fetches; columns below `boundary` from the front page when `frontBelow`, and the
  others from it otherwise (R45) -/
  | split (frontBelow : Bool) (boundary : Nat)
  deriving DecidableEq, Repr

/-- The treatment of a display-window fetch, fixed at its acceptance (R74, R84): row and first
column on the plane, and the page lines to fetch, in order. -/
structure DisplayPlan where
  row : Nat
  col : Nat
  start : Fin 4
  first : Addr
  second : Option Addr
  mix : Mix
  deriving DecidableEq, Repr

/-- The treatment of a C-side transaction, fixed at its acceptance (R114, R118). -/
inductive Treatment where
  | passed (c : PassClass)
  | redirected
  | display (plan : DisplayPlan)
  deriving DecidableEq, Repr

/-- A C-side transaction in progress: the request, its treatment, the words of a store or of the
first page line, and, once the second fetch is issued, the words of the second page line. -/
structure CTxn where
  req : BusReq
  treat : Treatment
  moved : List BusWord
  second : Option (List BusWord)
  deriving DecidableEq, Repr

/-- R114. -/
inductive CState where
  | idle
  | waiting (req : BusReq)
  | active (t : CTxn)
  deriving DecidableEq, Repr

/-- The C-side, with the words returned to the controller by the fetch in progress or the last one
(the model's own record of that output, log 19). -/
structure CSide where
  state : CState
  returned : List BusWord
  deriving DecidableEq, Repr

/-! ## The whole part -/

/-- The state of the SC310 and the queue of commands that wait for it. -/
structure State where
  pending : List Instr
  resetLine : Bool
  resetDue : Bool
  urgent : Bool
  path : PathState
  share : Nat
  passover : Nat
  mside : MSide
  cside : CSide
  waiting : OwnWaiting
  engine : EngineState
  latch : Option Anchor
  frames : BitVec 16
  intake : Intake
  objects : Vector ObjEntry Config.objectCount
  colours : ColourTables
  list : List Placement
  buttons : ButtonTable
  tiles : TileMap
  render : RenderEngine
  page : PageControl
  reports : ReportUnit
  deriving DecidableEq, Repr

/-- Every entry UNDEFINED (R1). -/
def emptyObjects : Vector ObjEntry Config.objectCount :=
  Vector.replicate Config.objectCount ObjEntry.undef

/-- Every colour (0, 0, 0, 0), every flag clear, no load (R11). -/
def ColourTables.empty : ColourTables :=
  ⟨Vector.replicate Config.tableCount (Vector.replicate Config.entryCount Argb.transparent),
   Vector.replicate Config.tableCount false, none⟩

/-- The plane unset, no tile state, flip wanted clear (R48, R56). -/
def TileMap.empty : TileMap := ⟨false, Plane.unset, [], [], false⟩

/-- Scan pointer 0, no tile in flight (R60). -/
def RenderEngine.idle : RenderEngine := ⟨0, none⟩

/-- The part right after the clearing sweep that follows a hard reset, no anchor having been latched
(log 1): every table at its cleared value, UNANCHORED, SERVICE, G 4, the counts 0 (R134, R117). -/
def State.reset : State where
  pending := []
  resetLine := false
  resetDue := false
  urgent := false
  path := .service
  share := 4
  passover := 0
  mside := .free
  cside := ⟨.idle, []⟩
  waiting := OwnWaiting.empty
  engine := .unanchored
  latch := none
  frames := 0
  intake := Intake.absent
  objects := emptyObjects
  colours := ColourTables.empty
  list := []
  buttons := ButtonTable.empty
  tiles := TileMap.empty
  render := RenderEngine.idle
  page := PageControl.initial
  reports := ReportUnit.empty

/-! ## One update for each field: every change of the state is made of these -/

/-- The state with `pending` replaced. -/
def State.setPending (s : State) (v : List Instr) : State := { s with pending := v }
/-- The state with `resetLine` replaced. -/
def State.setResetLine (s : State) (v : Bool) : State := { s with resetLine := v }
/-- The state with `resetDue` replaced. -/
def State.setResetDue (s : State) (v : Bool) : State := { s with resetDue := v }
/-- The state with `urgent` replaced. -/
def State.setUrgent (s : State) (v : Bool) : State := { s with urgent := v }
/-- The state with `path` replaced. -/
def State.setPath (s : State) (v : PathState) : State := { s with path := v }
/-- The state with `share` replaced. -/
def State.setShare (s : State) (v : Nat) : State := { s with share := v }
/-- The state with `passover` replaced. -/
def State.setPassover (s : State) (v : Nat) : State := { s with passover := v }
/-- The state with `mside` replaced. -/
def State.setMside (s : State) (v : MSide) : State := { s with mside := v }
/-- The state with `cside` replaced. -/
def State.setCside (s : State) (v : CSide) : State := { s with cside := v }
/-- The state with `waiting` replaced. -/
def State.setWaiting (s : State) (v : OwnWaiting) : State := { s with waiting := v }
/-- The state with `engine` replaced. -/
def State.setEngine (s : State) (v : EngineState) : State := { s with engine := v }
/-- The state with `latch` replaced. -/
def State.setLatch (s : State) (v : Option Anchor) : State := { s with latch := v }
/-- The state with `frames` replaced. -/
def State.setFrames (s : State) (v : BitVec 16) : State := { s with frames := v }
/-- The state with `intake` replaced. -/
def State.setIntake (s : State) (v : Intake) : State := { s with intake := v }
/-- The state with `objects` replaced. -/
def State.setObjects (s : State) (v : Vector ObjEntry Config.objectCount) : State := { s with objects := v }
/-- The state with `colours` replaced. -/
def State.setColours (s : State) (v : ColourTables) : State := { s with colours := v }
/-- The state with `list` replaced. -/
def State.setList (s : State) (v : List Placement) : State := { s with list := v }
/-- The state with `buttons` replaced. -/
def State.setButtons (s : State) (v : ButtonTable) : State := { s with buttons := v }
/-- The state with `tiles` replaced. -/
def State.setTiles (s : State) (v : TileMap) : State := { s with tiles := v }
/-- The state with `render` replaced. -/
def State.setRender (s : State) (v : RenderEngine) : State := { s with render := v }
/-- The state with `page` replaced. -/
def State.setPage (s : State) (v : PageControl) : State := { s with page := v }
/-- The state with `reports` replaced. -/
def State.setReports (s : State) (v : ReportUnit) : State := { s with reports := v }

end Sys2Proof.Machine
end

