-- ==== Sys2Proof/Machine/Bits.lean ====
section
/-! DEFINITION. Bit fields, parity, byte order and the colour word: how the part reads and makes words. -/
namespace Sys2Proof.Machine
open Sys2Proof

/-- Bits hi..lo of a word as an unsigned number (section 10.1). -/
def bits (w : Word) (hi lo : Nat) : Nat := w.toNat / 2 ^ lo % 2 ^ (hi + 1 - lo)

/-- Whether bit i of a word is set. -/
def bit (w : Word) (i : Nat) : Bool := bits w i i == 1

/-- A signed 16-bit field (R175). -/
def signed16 (n : Nat) : Int := if n < 32768 then (n : Int) else (n : Int) - 65536

/-! ## Byte order -/

/-- The byte order of the current anchor; `true` is byte order 1 (R6). -/
def byteOrder (s : State) : Bool :=
  match s.intake.anchor with
  | some x => x.bigEndian
  | none => false

/-- Which byte of a word's value, counted from bits 7..0, the byte at word address + k is (R6, R170). -/
def lane (bigEndian : Bool) (k : Nat) : Nat := if bigEndian then 3 - k else k

/-- The byte at word address + k of a word (R6, R170). -/
def byteAt (bigEndian : Bool) (w : Word) (k : Nat) : Nat :=
  bits w (8 * lane bigEndian k + 7) (8 * lane bigEndian k)

/-! ## Parity -/

/-- Whether the byte in bits 8j+7..8j holds an odd number of ones. -/
def byteOdd (w : Word) (j : Nat) : Bool :=
  (List.range 8).foldl (fun acc i => acc ^^ w.getLsbD (8 * j + i)) false

/-- The byte at word address + k and its parity bit together hold an odd number of ones (R112, R170). -/
def byteGood (bigEndian : Bool) (w : BusWord) (k : Nat) : Bool :=
  byteOdd w.data (lane bigEndian k) ^^ w.par.getLsbD k

/-- All four bytes have good parity (R112). -/
def wordGood (bigEndian : Bool) (w : BusWord) : Bool := (List.range 4).all (byteGood bigEndian w)

/-- The fresh odd parity bit of the byte at word address + k, as a number. -/
def freshBit (bigEndian : Bool) (w : Word) (k : Nat) : Nat :=
  if byteOdd w (lane bigEndian k) then 0 else 1

/-- A word with fresh odd parity, computed from its data bits alone (R112, R170). -/
def fresh (bigEndian : Bool) (w : Word) : BusWord :=
  ⟨w, BitVec.ofNat 4 (freshBit bigEndian w 0 + 2 * freshBit bigEndian w 1
    + 4 * freshBit bigEndian w 2 + 8 * freshBit bigEndian w 3)⟩

/-! ## Lines and wrapped order -/

/-- The address of the line that holds an address. -/
def lineOf (a : Nat) : Nat := a - a % 16

/-- The position in its line of the word that holds an address. -/
def posOf (a : Nat) : Fin 4 := Fin.ofNat 4 (a / 4)

/-- The position in the line of the n-th word of a wrapped order from `start` (R113). -/
def wrapPos (start : Fin 4) (n : Nat) : Nat := (start.val + n) % 4

/-- The word addresses of a line transaction, in the order its words travel (R113). -/
def wrapAddrs (line : Nat) (start : Fin 4) : List Nat :=
  (List.range 4).map fun n => line + 4 * wrapPos start n

/-! ## The colour word -/

/-- Section 10.6: alpha in bits 31..24, then red, green and blue. -/
def Argb.ofWord (w : Word) : Argb :=
  ⟨w.extractLsb' 24 8, w.extractLsb' 16 8, w.extractLsb' 8 8, w.extractLsb' 0 8⟩

/-- The word of a colour (section 10.6). -/
def Argb.toWord (c : Argb) : Word := c.a ++ c.r ++ c.g ++ c.b

/-! ## Lists by position -/

/-- A list with f applied to each position, counted from `i`, and its element. -/
def mapFrom {α : Type} (f : Nat → α → α) : Nat → List α → List α
  | _, [] => []
  | i, x :: xs => f i x :: mapFrom f (i + 1) xs

end Sys2Proof.Machine
end

