-- ==== Sys2Proof/Machine/Footprint.lean ====
section
/-! DEFINITION. Current objects, footprints, tile geometry and marking (R20 to R24, R53 to R55). -/
namespace Sys2Proof.Machine
open Sys2Proof

/-! ## Pages -/

/-- The other page. -/
def Page.other : Page → Page
  | .a => .b
  | .b => .a

/-- The page that is not shown (05 section 5.1); while a transition runs it is the retiring page. -/
def backPage (s : State) : Page := s.page.front.other

/-- The base of a page of a plane. -/
def Plane.base (pl : Plane) : Page → Nat
  | .a => pl.baseA.toNat
  | .b => pl.baseB.toNat

/-- The bytes of a page (04 section 4.1). -/
def pageSize (width height : Nat) : Nat := width * height * 4

/-- Tile columns (R53). -/
def Plane.tileCols (pl : Plane) : Nat := pl.width / 64

/-- The tile count (R53). -/
def Plane.tileCount (pl : Plane) : Nat := (pl.width / 64) * (pl.height / 8)

/-- The tile states of a page. -/
def TileMap.ofPage (t : TileMap) : Page → List TileState
  | .a => t.a
  | .b => t.b

/-- The tile map with the tile states of a page replaced. -/
def TileMap.setPage (t : TileMap) (p : Page) (l : List TileState) : TileMap :=
  match p with
  | .a => { t with a := l }
  | .b => { t with b := l }

/-! ## Current objects (R20, R21) -/

/-- The current object of a button, from its entry and state. -/
def buttonObject (bt : ButtonTable) (b : Fin Config.buttonCount) :
    Option (Fin Config.objectCount) :=
  let e := bt.entries[b]
  if e.defined then
    if bt.selection = some b then
      some ((if bt.activated then e.body.activated else e.body.selected).getD e.body.normal)
    else some e.body.normal
  else none

/-- The current object of a placement. -/
def currentObject (s : State) (p : Placement) : Option (Fin Config.objectCount) :=
  match p.source with
  | .object id => some id
  | .button b => buttonObject s.buttons b

/-! ## Footprints (R22, R23) -/

/-- A set of tiles: tile columns c0..c1 and tile rows r0..r1. -/
structure TileRect where
  c0 : Nat
  c1 : Nat
  r0 : Nat
  r1 : Nat
  deriving DecidableEq, Repr

/-- The footprint of a w by h rectangle at (x, y) on a plane; none when it lies wholly off it. -/
def rectFootprint (pl : Plane) (x y : Int) (w h : Nat) : Option TileRect :=
  if x + w - 1 < 0 ∨ (pl.width : Int) - 1 < x ∨ y + h - 1 < 0 ∨ (pl.height : Int) - 1 < y then none
  else some
    ⟨(max x 0).toNat / 64, (min (x + w - 1) (pl.width - 1)).toNat / 64,
     (max y 0).toNat / 8, (min (y + h - 1) (pl.height - 1)).toNat / 8⟩

/-- The footprint of a placement as everything stands; none when it is empty (R23). -/
def footprint (s : State) (p : Placement) : Option TileRect :=
  match s.tiles.plane, currentObject s p with
  | some pl, some id =>
    let e := s.objects[id]
    if e.state = .undefined then none else rectFootprint pl p.x p.y e.width e.height
  | _, _ => none

/-- The footprints of the placements that satisfy a condition. -/
def footprintsOf (s : State) (which : Placement → Bool) : List TileRect :=
  (s.list.filter which).filterMap (footprint s)

/-- Whether tile t, in a grid of so many columns, lies in a set of tiles. -/
def TileRect.holds (r : TileRect) (cols t : Nat) : Bool :=
  r.c0 ≤ t % cols && t % cols ≤ r.c1 && r.r0 ≤ t / cols && t / cols ≤ r.r1

/-! ## Marking (R55) -/

/-- The state of a tile that a marking has reached. -/
def TileState.marked : TileState → TileState
  | .clean | .dirty => .dirty
  | .busy | .busyStale => .busyStale

/-- The marking of a list of tiles. -/
def markTiles (rects : List TileRect) (cols : Nat) (l : List TileState) : List TileState :=
  mapFrom (fun t st => if rects.any (fun r => r.holds cols t) then st.marked else st) 0 l

/-- Marks sets of tiles on both pages and sets flip wanted; an empty marking changes nothing (R55). -/
def mark (rects : List TileRect) (s : State) : State :=
  match s.tiles.plane, rects with
  | some pl, _ :: _ =>
    s.setTiles
      { s.tiles with
        a := markTiles rects pl.tileCols s.tiles.a, b := markTiles rects pl.tileCols s.tiles.b,
        flipWanted := true }
  | _, _ => s

/-- Marks, in the state after an event, the footprints of the chosen placements before and after
the event (R24). -/
def markBeforeAfter (which : Placement → Bool) (before after : State) : State :=
  mark (footprintsOf before which ++ footprintsOf after which) after

/-- The placement is bound to this button (R31). -/
def boundTo (b : Fin Config.buttonCount) (p : Placement) : Bool := p.source == .button b

/-- The placement's current object is this one (R3). -/
def shows (s : State) (id : Fin Config.objectCount) (p : Placement) : Bool :=
  currentObject s p == some id

/-- The placement's current object is READY or FAULTY, indexed, and names this table (R12). -/
def indexedOn (s : State) (t : Fin Config.tableCount) (p : Placement) : Bool :=
  match currentObject s p with
  | some id =>
    let e := s.objects[id]
    e.state != .undefined && e.coding != .direct32 && e.table == t
  | none => false

end Sys2Proof.Machine
end

