-- ==== Sys2Proof/Machine/Flags.lean ====
section
/-! DEFINITION. What follows from the state: the state word, the render state, full rings, attention,
the strength and the tint decision. -/
namespace Sys2Proof.Machine
open Sys2Proof

/-- A flag as a number. -/
def flag (b : Bool) : Nat := if b then 1 else 0

/-- The engine state field of the state word (R172); stores are begun only in the first two. -/
def engineCode : EngineState → Nat
  | .active => 1
  | .parked => 2
  | .off | .clearing | .unanchored => 0

/-- The page as an argument or field: A 0, B 1 (R172, R176). -/
def pageCode : Page → Nat
  | .a => 0
  | .b => 1

/-- The state word (R143, R172). -/
def stateWord (s : State) : Word :=
  BitVec.ofNat 32
    (0xC3010000 + 512 * pageCode s.page.front + 256 * flag s.reports.ring.isSome
      + 128 * flag s.tiles.plane.isSome + 64 * flag s.page.running.isSome
      + 32 * flag s.page.batchOpen + 16 * flag (s.intake.state == .halted) + engineCode s.engine)

/-- The render states (04 section 4.4). -/
inductive RenderState where
  | held | idle | rendering
  deriving DecidableEq, Repr

/-- A SETUP PLANE waits for the tile in flight (R51). -/
def planeWaits (s : State) : Bool := s.intake.state == .executing .planeWait

/-- What holds the render engine (R59). -/
def renderHeld (s : State) : Bool :=
  s.tiles.plane.isNone || s.engine != .active || s.page.running.isSome || planeWaits s

/-- The render state (R59). -/
def renderState (s : State) : RenderState :=
  if renderHeld s then .held
  else if (s.tiles.ofPage (backPage s)).contains .dirty then .rendering else .idle

/-- Every tile of the back page is CLEAN (R54, R77). -/
def backClean (s : State) : Bool := (s.tiles.ofPage (backPage s)).all (· == .clean)

/-- The conditions of a flip, as they stand when the frame start arrives (R77). -/
def flipDue (s : State) : Bool :=
  s.engine == .active && s.tiles.plane.isSome && s.tiles.flipWanted && backClean s
    && !s.page.batchOpen && s.page.running.isNone && s.colours.inFlight.toList.all (!·)

/-- The report ring is full (R159); an unset ring counts as none. -/
def ReportUnit.full (u : ReportUnit) : Bool :=
  match u.ring with
  | some r => (u.write + 1) % r.entries == u.read
  | none => false

/-- The number of unconsumed slots (R159). -/
def ReportUnit.unconsumed (u : ReportUnit) : Nat :=
  match u.ring with
  | some r => (u.write + r.entries - u.read) % r.entries
  | none => 0

/-- The attention line follows the ring and the two indexes (R168). R168 also has the line go low at a
stored value of control word 2 that a report completed meanwhile has made stale, where the indexes differ;
the two cannot both hold, and that the comparison decides is the model's choice (log 31). -/
def ReportUnit.followIndexes (u : ReportUnit) : ReportUnit :=
  { u with attention := u.ring.isSome && u.write != u.read }

/-- The look of the state the selected button is in (R107). -/
def lookInUse (bt : ButtonTable) : Option Look :=
  match bt.selection with
  | some b =>
    let e := bt.entries[b]
    if bt.activated then e.activatedLook else e.selectedLook
  | none => none

/-- The strength that a look gives at a phase (R108). -/
def Look.strength (l : Look) (phase : Nat) : Nat :=
  if l.period = 0 ∨ l.period ≤ l.duty ∨ phase < l.duty then l.high else l.low

/-- The tint that applies to a display-window fetch accepted now (R109). -/
def tintNow (s : State) : Option Tint :=
  if s.page.running.isSome || s.engine != .active then none
  else match s.buttons.selection, lookInUse s.buttons with
    | some b, some l =>
      match s.buttons.entries[b].displayed with
      | some r =>
        if l.strength s.buttons.phase = 0 then none
        else some ⟨l.tint, l.strength s.buttons.phase, l.floor, r⟩
      | none => none
    | _, _ => none

end Sys2Proof.Machine
end

