-- ==== Sys2Proof/Machine/Operands.lean ====
section
/-! DEFINITION. The record header and the fields of every record (R144, R173, R174, R175). -/
namespace Sys2Proof.Machine
open Sys2Proof

/-- The record kinds (R173); KEY is one kind, carried out by two rows of the table. -/
inductive RecKind where
  | pad | wrap | sceneReset | park | setupPlane | setupReports | setColour | loadColours
  | defineObject | dropObject | place | move | setOpacity | remove | defineButton | buttonLook
  | enableButton | disableButton | deleteButton | key | select | showRecord | batchOpen | batchClose
  deriving DecidableEq, Repr

/-- The kind of a kind code (R173). -/
def kindOfCode : Nat → Option RecKind
  | 0x00 => some .pad | 0x01 => some .wrap | 0x02 => some .sceneReset | 0x03 => some .park
  | 0x10 => some .setupPlane | 0x11 => some .setupReports
  | 0x20 => some .setColour | 0x21 => some .loadColours
  | 0x22 => some .defineObject | 0x23 => some .dropObject
  | 0x30 => some .place | 0x31 => some .move | 0x32 => some .setOpacity | 0x33 => some .remove
  | 0x40 => some .defineButton | 0x41 => some .buttonLook | 0x42 => some .enableButton
  | 0x43 => some .disableButton | 0x44 => some .deleteButton | 0x45 => some .key
  | 0x46 => some .select
  | 0x50 => some .showRecord | 0x51 => some .batchOpen | 0x52 => some .batchClose
  | _ => none

/-- The length in words of a size code (R144). -/
def sizeWords : Nat → Nat
  | 0 => 1 | 1 => 2 | 2 => 3 | 3 => 4 | 4 => 6 | 5 => 8 | 6 => 12 | _ => 16

/-- The length a kind requires; none for PAD, which takes any (R155). -/
def kindWords : RecKind → Option Nat
  | .pad => none
  | .wrap | .sceneReset | .park | .dropObject | .remove | .enableButton | .disableButton
  | .deleteButton | .key | .select | .batchOpen | .batchClose => some 1
  | .setColour | .move | .setOpacity | .showRecord => some 2
  | .setupReports | .loadColours => some 3
  | .defineObject | .place | .buttonLook => some 4
  | .setupPlane | .defineButton => some 6

/-! ## The header (R173) -/

def hdrKind (h : Word) : Nat := bits h 31 24
def hdrWords (h : Word) : Nat := sizeWords (bits h 23 21)
def hdrSeq (h : Word) : BitVec 8 := BitVec.ofNat 8 (bits h 20 13)

/-- The kind of the committed record, when its code is one of R173. -/
def recordKind (s : State) : Option RecKind := kindOfCode (hdrKind s.intake.header)

/-- The length of the committed record, from its size code. -/
def recordWords (s : State) : Nat := hdrWords s.intake.header

/-- Bits hi..lo of the committed record's operand, which lies in bits 12..0 of the header. -/
def operand (s : State) (hi lo : Nat) : Nat := bits s.intake.header hi lo

/-- Body word i of the record in hand, from its slot of the assembly buffer (R151). -/
def body (s : State) (i : Nat) : Word := (s.intake.slots[i]?.getD none).getD 0

/-- Bits hi..lo of body word i. -/
def field (s : State) (i hi lo : Nat) : Nat := bits (body s i) hi lo

/-! ## Fields by record (R174, R175) -/

/-- A number as an id below n, when it is one. -/
def idBelow (n v : Nat) : Option (Fin n) := if h : v < n then some ⟨v, h⟩ else none

/-- A field of eight bits as an object id: every value is one. -/
def objectField (v : Nat) : Fin Config.objectCount := Fin.ofNat Config.objectCount v

/-- SETUP PLANE: width, height, page A base, page B base, clear colour, share (R174). -/
structure PlaneFields where
  width : Nat
  height : Nat
  baseA : Addr
  baseB : Addr
  clear : Argb
  share : Nat
  deriving DecidableEq, Repr

def planeFields (s : State) : PlaneFields where
  width := (body s 1).toNat
  height := (body s 2).toNat
  baseA := body s 3
  baseB := body s 4
  clear := Argb.ofWord (body s 5)
  share := operand s 3 0

/-- The coding of a coding value (R174). -/
def codingOf : Nat → Option Coding
  | 0 => some .direct32 | 1 => some .index8 | 2 => some .index4 | 3 => some .index2
  | 4 => some .run8 | _ => none

/-- The key values (R175). -/
inductive Key where
  | up | down | left | right | enter
  deriving DecidableEq, Repr

def keyOf : Nat → Option Key
  | 1 => some .up | 2 => some .down | 3 => some .left | 4 => some .right | 5 => some .enter
  | _ => none

/-- What a SHOW kind value names: CUT, or a kind of transition (R175). -/
inductive ShowKind where
  | cut
  | trans (k : TransKind)
  deriving DecidableEq, Repr

def showKindOf : Nat → Option ShowKind
  | 0 => some .cut | 1 => some (.trans .dissolve) | 2 => some (.trans .wipeLeft)
  | 3 => some (.trans .wipeRight) | 4 => some (.trans .wipeDown) | 5 => some (.trans .wipeUp)
  | _ => none

/-- A link field: 48 and above are stored as none (R90). -/
def linkField (v : Nat) : Link := idBelow Config.buttonCount v

/-- PLACE: the source, when its button id is in range; an object id is always (R25, R175). -/
def placeSource (s : State) : Option Source :=
  if bit (body s 1) 31 then (idBelow Config.buttonCount (field s 1 7 0)).map Source.button
  else some (.object (objectField (field s 1 7 0)))

/-- DEFINE BUTTON: the definition fields (R90, R175). -/
def buttonDefFields (s : State) : ButtonDef where
  rect := ⟨field s 1 15 0, field s 1 31 16, field s 2 15 0, field s 2 31 16⟩
  up := linkField (field s 3 7 0)
  down := linkField (field s 3 15 8)
  left := linkField (field s 3 23 16)
  right := linkField (field s 3 31 24)
  holdFrames := field s 4 31 24
  normal := objectField (field s 4 7 0)
  selected := if operand s 9 9 = 1 then some (objectField (field s 4 15 8)) else none
  activated := if operand s 10 10 = 1 then some (objectField (field s 4 23 16)) else none
  autoActivate := operand s 11 11 == 1
  command := body s 5

end Sys2Proof.Machine
end

