-- ==== Sys2Proof/Machine/Ops.lean ====
section
/-! DEFINITION. The operations that many events share: control-line stores, reports, the intake's
fetches, the end of a record, and the emptying of tables. -/
namespace Sys2Proof.Machine
open Sys2Proof

/-! ## Control-line stores (R142) -/

/-- The address of a control-line word, for the anchor at X (08 section 8.3). -/
def controlAddr (x : Addr) : ControlWord → Addr
  | .scriptIndex => x + 20
  | .reportIndex => x + 24
  | .stateWord => x + 28

/-- The waiting store is the store of this control-line word. -/
def Class1.isControl (n : ControlWord) : Class1 → Bool
  | .control m _ _ _ => m == n
  | .reportLine _ _ _ => false

/-- The store of a control-line word for the anchor at X, with all four byte enables set (R126, R142). -/
def controlStore (x : Addr) (n : ControlWord) (v : BusWord) : Class1 :=
  .control n (controlAddr x n) 15 v

/-- Class 1 after a value is handed for a control-line word: a waiting store of the word takes the
value and keeps its place, and otherwise the new store joins the back (R129, R142). -/
def handClass1 (x : Addr) (n : ControlWord) (v : BusWord) (l : List Class1) : List Class1 :=
  if l.any (Class1.isControl n) then
    l.map fun c => if c.isControl n then controlStore x n v else c
  else l ++ [controlStore x n v]

/-- Hands a value for a control-line word, with fresh parity, while a ring exists (R126, R142). -/
def handControl (n : ControlWord) (v : Word) (s : State) : State :=
  match s.intake.anchor with
  | some x =>
    s.setWaiting
      { s.waiting with class1 := handClass1 x.addr n (fresh x.bigEndian v) s.waiting.class1 }
  | none => s

/-- Hands the state word when a field of it differs from the state before the event (R143). -/
def handStateWord (before s : State) : State :=
  if stateWord before = stateWord s then s else handControl .stateWord (stateWord s) s

/-! ## Reports (R163, R164, R167, R176) -/

/-- A link or selection as an argument: 63 for none (R176). -/
def linkCode (l : Link) : Nat := (l.map Fin.val).getD 63

/-- The transition kind as an argument (R176). -/
def transCode : TransKind → Nat
  | .dissolve => 1 | .wipeLeft => 2 | .wipeRight => 3 | .wipeDown => 4 | .wipeUp => 5

def recCauseCode : RecCause → Nat
  | .kind => 1 | .size => 2 | .field => 3 | .bounds => 4 | .overlap => 5 | .parity => 6

def objCauseCode : ObjCause → Nat
  | .short => 1 | .parity => 2

def placeCode : ParityPlace → Nat
  | .capture => 1 | .probe => 2 | .load => 3 | .render => 4 | .display => 5

/-- Kind code, cause code and the two arguments of a report; the third is 0 in every kind (R176). -/
def Report.codes : Report → Nat × Nat × Word × Word
  | .selection n p => (1, 0, BitVec.ofNat 32 (linkCode n), BitVec.ofNat 32 (linkCode p))
  | .activated id cmd => (2, 0, BitVec.ofNat 32 id.val, cmd)
  | .flipped f c => (3, 0, BitVec.ofNat 32 (pageCode f), BitVec.ofNat 32 c.toNat)
  | .transitionDone k => (4, 0, BitVec.ofNat 32 (transCode k), 0)
  | .recordFault c p k => (5, recCauseCode c, BitVec.ofNat 32 p, BitVec.ofNat 32 k)
  | .objectFault c id => (6, objCauseCode c, BitVec.ofNat 32 id.val, 0)
  | .parity pl a => (7, placeCode pl, BitVec.ofNat 32 a, 0)
  | .overflow f n => (8, 0, BitVec.ofNat 32 f.toNat, BitVec.ofNat 32 n)

/-- The four words of a report line (R176). -/
def reportWords (q : Queued) : List Word :=
  let (k, c, a1, a2) := q.report.codes
  [BitVec.ofNat 32 (k * 2 ^ 24 + c * 2 ^ 16 + q.number.toNat), a1, a2, 0]

/-- The address of the slot at the write index (R164). -/
def slotAddr (r : ReportRing) (write : Nat) : Addr := BitVec.ofNat 32 (r.base.toNat + 16 * write)

/-- The OVERFLOW report as it stands, with the number it takes (R167). -/
def overflowReport (u : ReportUnit) : Queued := ⟨.overflow u.firstLost u.lost, u.seq⟩

/-- A report line store, from start word 0 and with fresh parity, joins class 1 (R129, R164). -/
def handLine (r : ReportRing) (q : Queued) (s : State) : State :=
  s.setWaiting { s.waiting with class1 :=
    s.waiting.class1 ++
      [.reportLine (slotAddr r s.reports.write) 0 ((reportWords q).map (fresh (byteOrder s)))] }

/-- Hands the next report line store when the conditions of R164 hold: the oldest report of the
queue, or OVERFLOW when the queue is empty and overflow is pending (R167). -/
def handReport (s : State) : State :=
  match s.reports.ring, s.reports.inHand with
  | some r, none =>
    if s.reports.full then s
    else match s.reports.queue with
      | q :: _ => (handLine r q s).setReports { s.reports with inHand := some false }
      | [] =>
        if s.reports.overflow then
          (handLine r (overflowReport s.reports) s).setReports
            { s.reports with
              inHand := some true, seq := s.reports.seq + 1, overflow := false, firstLost := 0,
              lost := 0 }
        else s
  | _, _ => s

/-- The report unit after a report arrives (R163). -/
def ReportUnit.arrive (r : Report) (u : ReportUnit) : ReportUnit :=
  if u.ring.isNone then u
  else if u.overflow then { u with seq := u.seq + 1, lost := min 65535 (u.lost + 1) }
  else if 8 ≤ u.queue.length then
    { u with seq := u.seq + 1, overflow := true, firstLost := u.seq, lost := 1 }
  else { u with seq := u.seq + 1, queue := u.queue ++ [⟨r, u.seq⟩] }

/-- A report reaches the report unit, which may at once hand a store (R163, R164). -/
def giveReport (r : Report) (s : State) : State :=
  handReport (s.setReports (s.reports.arrive r))

/-- Gives a report when there is one. -/
def giveReport? (r : Option Report) (s : State) : State :=
  match r with
  | some r => giveReport r s
  | none => s

/-! ## Probes and refetches (R149, R154) -/

/-- The byte address of ring word i (R144). -/
def ringAddr (x : Anchor) (i : Nat) : Nat := x.addr.toNat + 32 + 4 * i

/-- The words of a ring. -/
def Anchor.words (x : Anchor) : Nat := 4 * x.lines

/-- A probe or refetch is at the arbiter or on the M-side (R154). -/
def intakeOutstanding (s : State) : Bool :=
  s.waiting.intake.isSome ||
    match s.mside with
    | .own (.intake _) _ => true
    | .own (.class1 _) _ | .own (.load _) _ | .own (.render _) _ | .free | .controller _ => false

/-- A line fetch of the line that holds an address, from the word that holds it. -/
def lineReqAt (a : Nat) : LineReq := ⟨BitVec.ofNat 32 (lineOf a), posOf a⟩

/-- Whether an intake fetch is a probe. -/
def IntakeFetch.isProbe : IntakeFetch → Bool
  | .probe _ => true
  | .refetch _ => false

/-- Hands an intake fetch to the arbiter now; a probe may then be used until it is stale (log 25). -/
def handIntake (f : IntakeFetch) (s : State) : State :=
  (s.setWaiting { s.waiting with intake := some f }).setIntake
    { s.intake with deferred := none, probeLive := f.isProbe }

/-- Hands an intake fetch to the arbiter, or keeps it until the outstanding one completes (R154). -/
def wantIntake (f : IntakeFetch) (s : State) : State :=
  if intakeOutstanding s then s.setIntake { s.intake with deferred := some f }
  else handIntake f s

/-- Enters PROBING and hands a probe of the line holding P, from the word at P (R149). -/
def beginProbe (s : State) : State :=
  match s.intake.anchor with
  | some x =>
    wantIntake (.probe (lineReqAt (ringAddr x s.intake.p)))
      (s.setIntake { s.intake with state := .probing })
  | none => s

/-! ## The end of a record (R157) -/

/-- Where P goes past a record: advanced by its length, an advance that reaches 4n giving 0 (R145). -/
def advancedP (s : State) : Nat :=
  match s.intake.anchor with
  | some x =>
    if s.intake.p + recordWords s < x.words then s.intake.p + recordWords s else 0
  | none => 0

/-- The RECORD_FAULT of the record in hand (R158). -/
def recordFault (s : State) (c : RecCause) : Report :=
  .recordFault c s.intake.p (hdrKind s.intake.header)

/-- A record's end, with its fault if any and the new P (R157). -/
def endRecord (fault : Option RecCause) (newP : Nat) (s : State) : State :=
  let s1 := giveReport? (fault.map (recordFault s)) s
  let s2 := s1.setIntake { s1.intake with
    p := newP, expected := s1.intake.expected + 1, queue := [], slots := emptySlots,
    suspect := false }
  beginProbe (handControl .scriptIndex (BitVec.ofNat 32 newP) s2)

/-- What a record's checks and effect come to: refused with a cause, or the state it leaves. -/
abbrev RecordResult := Except RecCause State

/-- A record that is carried out in its own event: its effect, then its end (R155, R157).
A change of a state word field is handed before the end (R143, log 12). -/
def carryOut (effect : State → RecordResult) (s : State) : State :=
  match effect s with
  | .ok t => endRecord none (advancedP s) (handStateWord s t)
  | .error c => endRecord (some c) (advancedP s) s

/-- The intake holds, ready to be carried out, a record of this kind (R155). -/
def holdsRecord (k : RecKind) (s : State) : Bool :=
  s.intake.state == .executing .ready && recordKind s == some k

/-! ## Emptying (R1, R11, R18, R89) -/

/-- The emptying of the object directory, the colour tables, the composition list and the button
table, as the clearing sweep, re-anchor and scene reset make it. -/
def emptyTables (s : State) : State :=
  (((s.setObjects emptyObjects).setColours ColourTables.empty).setList []).setButtons
    ButtonTable.empty

/-- The plane unset with all that rests on it: no tile state, no tile in flight, flip wanted clear,
scan pointer 0 (R48, R56, R60, R70). -/
def unsetPlane (s : State) : State :=
  (s.setTiles TileMap.empty).setRender RenderEngine.idle

/-! ## Anchoring (R136) -/

/-- Attaches the part to a ring: P and the expected sequence 0, the engine ACTIVE, control words 1,
2 and 3 handed in that order, and a probe of the line holding word 0 (R136). -/
def attach (x : Anchor) (s : State) : State :=
  let s1 := (s.setIntake { Intake.absent with anchor := some x }).setEngine .active
  let s2 := handControl .reportIndex 0 (handControl .scriptIndex 0 s1)
  beginProbe (handControl .stateWord (stateWord s2) s2)

/-- The state as a re-anchor empties it, before it attaches (R137): the tables emptied, the plane
and the report ring unset, page control at its values of R72, G 4 and the count 0 (R132), every own
request withdrawn (R133). -/
def emptyForReanchor (s : State) : State :=
  (((((unsetPlane (emptyTables s)).setPage PageControl.initial).setReports
    ReportUnit.empty).setShare 4).setPassover 0).setWaiting OwnWaiting.empty

/-- A re-anchor (R137). -/
def reanchor (x : Anchor) (s : State) : State := attach x (emptyForReanchor s)

end Sys2Proof.Machine
end

