-- ==== Sys2Proof/Machine/Pixel.lean ====
section
/-! DEFINITION. Pixel arithmetic (chapter 3): every quotient rounds as its rule states. -/
namespace Sys2Proof.Machine
open Sys2Proof

/-- A channel from a whole number 0..255. -/
def chan (n : Nat) : BitVec 8 := BitVec.ofNat 8 n

/-- mul255 (R35). -/
def mul255 (x a : Nat) : Nat := (x * a + 128 + (x * a + 128) / 256) / 256

/-- One channel scaled by an alpha (R35). -/
def scale (c : BitVec 8) (a : BitVec 8) : BitVec 8 := chan (mul255 c.toNat a.toNat)

/-- The premultiplied form of a straight colour (R36). -/
def premultiply (c : Argb) : Argb := ⟨c.a, scale c.r c.a, scale c.g c.a, scale c.b c.a⟩

/-- The source pixel of a straight colour at an opacity (R37). -/
def sourcePixel (c : Argb) (opacity : BitVec 8) : Argb :=
  premultiply ⟨scale c.a opacity, c.r, c.g, c.b⟩

/-- One channel of the over operation (R38). -/
def overChannel (s d sA : BitVec 8) : BitVec 8 :=
  chan (s.toNat + mul255 d.toNat (255 - sA.toNat))

/-- The over operation: a source pixel laid on a destination pixel (R38). -/
def layOver (s d : Argb) : Argb :=
  ⟨overChannel s.a d.a s.a, overChannel s.r d.r s.a, overChannel s.g d.g s.a, overChannel s.b d.b s.a⟩

/-- One channel of a dissolve at level L of a retiring p and a front q (R42). -/
def dissolveChannel (level : Nat) (p q : BitVec 8) : BitVec 8 :=
  chan ((p.toNat * (1024 - level) + q.toNat * level + 512) / 1024)

/-- The dissolve of a retiring pixel and a front pixel (R42). -/
def dissolve (level : Nat) (p q : Argb) : Argb :=
  ⟨dissolveChannel level p.a q.a, dissolveChannel level p.r q.r, dissolveChannel level p.g q.g,
   dissolveChannel level p.b q.b⟩

/-- One channel of a tint h at strength a over a page channel c (R46). -/
def tintChannel (a : Nat) (c h : BitVec 8) : BitVec 8 :=
  chan ((c.toNat * (256 - a) + h.toNat * a + 128) / 256)

/-- A page pixel blended with the premultiplied tint at strength a (R46). -/
def tintPixel (a : Nat) (c h : Argb) : Argb :=
  ⟨tintChannel a c.a h.a, tintChannel a c.r h.r, tintChannel a c.g h.g, tintChannel a c.b h.b⟩

/-- Whether a kind of transition is a wipe that moves across columns. -/
def TransKind.horizontal : TransKind → Bool
  | .wipeLeft | .wipeRight => true
  | .dissolve | .wipeDown | .wipeUp => false

/-- The wipe frontier F of a level on a plane (R44). -/
def frontier (k : TransKind) (pl : Plane) (level : Nat) : Nat :=
  if k.horizontal then pl.width * level / 1024 else pl.height * level / 1024

/-- Whether the pixel at column x and row y shows the front page during a wipe (R45).
(A dissolve takes no side; the value given for it is never asked for.) -/
def frontSide (k : TransKind) (pl : Plane) (level x y : Nat) : Bool :=
  let f := frontier k pl level
  match k with
  | .wipeLeft => x < f
  | .wipeRight => pl.width - f ≤ x
  | .wipeDown => y < f
  | .wipeUp => pl.height - f ≤ y
  | .dissolve => true

/-- The straight colour has the premultiplied property: no colour channel above the alpha (R41). -/
def Argb.premultiplied (c : Argb) : Bool := c.r ≤ c.a && c.g ≤ c.a && c.b ≤ c.a

end Sys2Proof.Machine
end

