-- ==== Sys2Proof/Machine/Render.lean ====
section
/-! DEFINITION. The render engine's work: codings, the RUN8 decode, applications, rows and tiles
(R5 to R8, R60 to R66). -/
namespace Sys2Proof.Machine
open Sys2Proof

/-! ## Uncompressed codings (R5, R63) -/

/-- Bits of a pixel. RUN8 has index bytes (R7). -/
def Coding.pixelBits : Coding → Nat
  | .direct32 => 32 | .index8 => 8 | .index4 => 4 | .index2 => 2 | .run8 => 8

/-- The row stride in lines, rounded up (R5). -/
def rowStride (c : Coding) (width : Nat) : Nat := (width * c.pixelBits + 127) / 128

/-- The address of the first byte of object row r (R5). -/
def rowStart (e : ObjEntry) (r : Nat) : Nat := e.addr.toNat + r * rowStride e.coding e.width * 16

/-- The first byte needed for object columns from c0 on (R63). -/
def firstByte (a : App) : Nat := rowStart a.entry a.row + a.c0 * a.entry.coding.pixelBits / 8

/-- The last byte needed for object columns up to c1 (R63). -/
def lastByte (a : App) : Nat :=
  rowStart a.entry a.row + ((a.c1 + 1) * a.entry.coding.pixelBits + 7) / 8 - 1

/-- Whether the word at an address holds a needed byte (R9, R63). -/
def wordNeeded (a : App) (addr : Nat) : Bool := firstByte a < addr + 4 && addr ≤ lastByte a

/-- The word of the collected data that holds a byte address; one that never came reads 0. -/
def wordFor (got : List (Nat × Word)) (addr : Nat) : Word := (got.lookup (addr - addr % 4)).getD 0

/-- The byte at an address of the collected data (R6). -/
def dataByte (bigEndian : Bool) (got : List (Nat × Word)) (addr : Nat) : Nat :=
  byteAt bigEndian (wordFor got addr) (addr % 4)

/-- The index of object column x of an indexed, uncompressed row (R5). -/
def indexAt (bigEndian : Bool) (got : List (Nat × Word)) (e : ObjEntry) (start x : Nat) : Nat :=
  match e.coding with
  | .index4 =>
    let b := dataByte bigEndian got (start + x / 2)
    if x % 2 = 0 then b / 16 else b % 16
  | .index2 => dataByte bigEndian got (start + x / 4) / 4 ^ (3 - x % 4) % 4
  | .index8 | .direct32 | .run8 => dataByte bigEndian got (start + x)

/-! ## The RUN8 decode (R7, R8, R64) -/

/-- The address of row table entry r. -/
def tableEntryAddr (e : ObjEntry) (r : Nat) : Nat := e.addr.toNat + 4 * r

/-- The first address beyond the data of an object. -/
def dataLimit (e : ObjEntry) : Nat := e.addr.toNat + e.length.toNat

/-- The decode after it has read a byte, in a mode that awaits one, for columns up to c1. -/
def Run8.takeByte (d : Run8) (c1 b : Nat) : Run8 :=
  match d.mode with
  | .entry => d
  | .code =>
    if b < 128 then { d with pos := d.pos + 1, mode := .literal (b + 1) }
    else { d with pos := d.pos + 1, mode := .run (b - 128 + 2) }
  | .literal n =>
    { d with pos := d.pos + 1, out := d.out ++ [b],
             mode := if n ≤ 1 then .code else .literal (n - 1) }
  | .run n =>
    { d with pos := d.pos + 1, out := (d.out ++ List.replicate n b).take (c1 + 1), mode := .code }

/-- The row table entry, a whole word (R7): the decode is short at once when it is at or beyond the
data length, and otherwise goes on at the offset it gives (R8, R64). -/
def Run8.takeEntry (d : Run8) (e : ObjEntry) (offset : Word) : Run8 :=
  if e.length.toNat ≤ offset.toNat then { d with status := .short }
  else { d with pos := e.addr.toNat + offset.toNat, mode := .code }

/-- One step of the decode on the words at hand: it is complete, short, stopped by a bad word, in
need of a byte not at hand, or it reads on. -/
def Run8.step (d : Run8) (bigEndian : Bool) (e : ObjEntry) (c1 : Nat) : Run8 × Bool :=
  if d.mode ≠ .entry ∧ c1 < d.out.length then ({ d with status := .complete }, false)
  else if d.mode ≠ .entry ∧ dataLimit e ≤ d.pos then ({ d with status := .short }, false)
  else match d.line.lookup (d.pos - d.pos % 4) with
    | none => ({ d with status := .needByte }, false)
    | some w =>
      if !wordGood bigEndian w then ({ d with status := .bad (d.pos - d.pos % 4) }, false)
      else if d.mode = .entry then
        let t := d.takeEntry e w.data
        (t, t.status != .short)
      else (d.takeByte c1 (byteAt bigEndian w.data (d.pos % 4)), true)

/-- The decode carried on as far as the words at hand allow. The fuel bounds the steps. -/
def Run8.go (bigEndian : Bool) (e : ObjEntry) (c1 : Nat) : Nat → Run8 → Run8
  | 0, d => d
  | n + 1, d =>
    match d.step bigEndian e c1 with
    | (t, true) => Run8.go bigEndian e c1 n t
    | (t, false) => t

/-- The decode after a word of the line now fetched has arrived. The fuel is enough: a word at hand gives
at most four steps, the row table entry one more, and the step that stops is the last. -/
def Run8.arrive (d : Run8) (bigEndian : Bool) (e : ObjEntry) (c1 : Nat) (addr : Nat)
    (w : BusWord) : Run8 :=
  Run8.go bigEndian e c1 (4 * (d.line.length + 1) + 2) { d with line := d.line ++ [(addr, w)] }

/-! ## Applying a placement to a row (R37 to R39, R62, R65) -/

/-- The colour an index selects in a table, as it stands (R5). -/
def tableColour (s : State) (t : Fin Config.tableCount) (index : Nat) : Argb :=
  s.colours.entries[t][index]?.getD Argb.transparent

/-- The straight colour of object column x of an application whose data has arrived (R37). -/
def appColour (s : State) (a : App) (x : Nat) : Argb :=
  match a.data with
  | .run8 d =>
    match d.out[x]? with
    | some i => tableColour s a.entry.table i
    | none => Argb.transparent
  | .words got =>
    match a.entry.coding with
    | .direct32 => Argb.ofWord (wordFor got (rowStart a.entry a.row + 4 * x))
    | .index8 | .index4 | .index2 | .run8 =>
      tableColour s a.entry.table
        (indexAt (byteOrder s) got a.entry (rowStart a.entry a.row) x)

/-- The row's pixels after the application is laid over its span; `left` is the plane column of
the row's first pixel (R37, R38, R62). -/
def applySpan (s : State) (a : App) (left : Nat) (pixels : List Argb) : List Argb :=
  mapFrom (fun i px =>
    if a.px0 ≤ left + i && left + i ≤ a.px1 then
      layOver (sourcePixel (appColour s a (left + i - a.px0 + a.c0)) a.place.opacity) px
    else px) 0 pixels

/-! ## Rows (R61 to R63, R66) -/

/-- The plane column of the first pixel of a tile (R53). -/
def tileLeft (pl : Plane) (tile : Nat) : Nat := 64 * (tile % pl.tileCols)

/-- The plane row of row r of a tile (R53). -/
def tileRowY (pl : Plane) (tile r : Nat) : Nat := 8 * (tile / pl.tileCols) + r

/-- The address in a page of line n of row r of a tile (R53, R66). -/
def tileLineAddr (pl : Plane) (page : Page) (tile r n : Nat) : Nat :=
  pl.base page + 4 * (tileRowY pl tile r * pl.width + tileLeft pl tile) + 16 * n

/-- The first line fetch of an application (R63, R64). -/
def firstFetch (a : App) : LineReq :=
  match a.data with
  | .words _ => lineReqAt (firstByte a)
  | .run8 d => lineReqAt d.pos

/-- The application of a placement to row r of a tile, when its object is READY, its opacity above 0
and it covers a pixel of the row (R61, R62). -/
def startApp (s : State) (pl : Plane) (tile r : Nat) (p : Placement) : Option App :=
  match currentObject s p with
  | none => none
  | some id =>
    let e := s.objects[id]
    let left : Int := tileLeft pl tile
    let y : Int := tileRowY pl tile r
    let lo := max p.x left
    let hi := min (p.x + e.width - 1) (left + 63)
    if e.state = .ready ∧ p.opacity ≠ 0 ∧ lo ≤ hi ∧ p.y ≤ y ∧ y ≤ p.y + e.height - 1 then
      let row := (y - p.y).toNat
      some
        { place := p, obj := id, entry := e, px0 := lo.toNat, px1 := hi.toNat,
          c0 := (lo - p.x).toNat, c1 := (hi - p.x).toNat, row := row, ended := false,
          data := if e.coding = .run8 then
              .run8 ⟨tableEntryAddr e row, .entry, [], .needByte, []⟩
            else .words [] }
    else none

/-- The four words of line n of a row's pixels, with fresh parity (R66). -/
def rowLineWords (bigEndian : Bool) (pixels : List Argb) (n : Nat) : List BusWord :=
  ((pixels.drop (4 * n)).take 4).map fun c => fresh bigEndian c.toWord

/-- The render engine hands a request and holds the flight in a phase. -/
def setFlight (f : Flight) (req : RenderReq) (s : State) : State :=
  (s.setRender { s.render with flight := some f }).setWaiting { s.waiting with render := some req }

/-- Hands the store of line n of the row in hand, from start word 0 (R66). -/
def handRowStore (pl : Plane) (f : Flight) (n : Nat) (s : State) : State :=
  setFlight { f with phase := .storing n }
    (.store (BitVec.ofNat 32 (tileLineAddr pl f.page f.tile f.row n)) 0
      (rowLineWords (byteOrder s) f.pixels n)) s

/-- Takes the entries of the row one at a time: the first that applies begins its fetches, and when
none is left the row is final and its first line is stored (R61, R66). -/
def advanceRow (pl : Plane) (f : Flight) : List Placement → State → State
  | [], s => handRowStore pl f 0 s
  | p :: rest, s =>
    match startApp s pl f.tile f.row p with
    | some a => setFlight { f with phase := .applying a rest } (.fetch (firstFetch a)) s
    | none => advanceRow pl f rest s

/-- Begins a row: every pixel at the clear colour, the list taken as it stands (R39, R61). -/
def beginRow (pl : Plane) (page : Page) (tile r : Nat) (s : State) : State :=
  advanceRow pl ⟨tile, page, r, List.replicate 64 pl.clear, .storing 0⟩ s.list s

/-! ## Tiles (R60) -/

/-- The first DIRTY tile at or after the scan pointer, then from tile 0 (R60). -/
def nextDirty (scan : Nat) (l : List TileState) : Option Nat :=
  let isDirty := fun t => l[t]? == some .dirty
  (((List.range l.length).drop scan) ++ (List.range scan)).find? isDirty

/-- Takes a tile when the render state is RENDERING and none is in flight (R60). -/
def takeTile (s : State) : State :=
  match s.tiles.plane, s.render.flight with
  | some pl, none =>
    if renderState s = .rendering then
      match nextDirty s.render.scan (s.tiles.ofPage (backPage s)) with
      | some t =>
        beginRow pl (backPage s) t 0
          (s.setTiles (s.tiles.setPage (backPage s) ((s.tiles.ofPage (backPage s)).set t .busy)))
      | none => s
    else s
  | _, _ => s

/-! ## Faults of objects (R10) and abandoned applications (R65) -/

/-- An object becomes FAULTY: its report and the marking of every placement that shows it; an entry
that is not READY is left as it is (R10). -/
def objectFault (id : Fin Config.objectCount) (c : ObjCause) (s : State) : State :=
  if s.objects[id].state = .ready then
    mark (footprintsOf s (shows s id))
      (giveReport (.objectFault c id)
        (s.setObjects (s.objects.set id { s.objects[id] with state := .faulty })))
  else s

/-- A flight whose application, if it satisfies a condition, is ended or abandoned (R65). -/
def Flight.endApp (which : App → Bool) (f : Flight) : Flight :=
  match f.phase with
  | .applying a rest =>
    if which a then { f with phase := .applying { a with ended := true } rest } else f
  | .storing _ => f

/-- Ends the application in progress when it satisfies a condition (R65). -/
def endAppWhere (which : App → Bool) (s : State) : State :=
  s.setRender { s.render with flight := s.render.flight.map (Flight.endApp which) }

end Sys2Proof.Machine
end

