-- ==== Sys2Proof/Machine/Path.lean ====
section
/-! DEFINITION. The frame bus path: classification, the treatment of display fetches, the arbiter, the
path states, and what every event ends with (R84, R114 to R133). -/
namespace Sys2Proof.Machine
open Sys2Proof

/-! ## Classification (R118) -/

/-- The address of a request. -/
def reqAddr : BusReq → Addr
  | .lineFetch a _ | .lineStore a _ | .wordStore a _ => a

/-- The request with another address. -/
def withAddr (a : Addr) : BusReq → BusReq
  | .lineFetch _ s => .lineFetch a s
  | .lineStore _ s => .lineStore a s
  | .wordStore _ e => .wordStore a e

/-- Whether a request is a fetch. -/
def reqIsFetch : BusReq → Bool
  | .lineFetch _ _ => true
  | .lineStore _ _ | .wordStore _ _ => false

/-- The start word of a line transaction. -/
def reqStart : BusReq → Fin 4
  | .lineFetch _ s | .lineStore _ s => s
  | .wordStore _ _ => 0

/-- The words a transaction moves (R113). -/
def reqWordCount : BusReq → Nat
  | .lineFetch _ _ | .lineStore _ _ => 4
  | .wordStore _ _ => 1

/-- The addresses of the words of a transaction, in the order they travel (R113, R122). -/
def reqWordAddrs : BusReq → List Nat
  | .lineFetch a s | .lineStore a s => wrapAddrs a.toNat s
  | .wordStore a _ => [a.toNat]

/-- An address lies in the display window, page A's range (R118). -/
def inWindow (pl : Plane) (a : Nat) : Bool :=
  pl.baseA.toNat ≤ a && a < pl.baseA.toNat + pageSize pl.width pl.height

/-- The class of an address outside the display window; an anchor is held while the engine is
ACTIVE or PARKED (R118). -/
def passClass (s : State) (a : Nat) : PassClass :=
  match s.intake.anchor with
  | none => .other
  | some x =>
    if x.addr.toNat + 32 ≤ a ∧ a < x.addr.toNat + 32 + 16 * x.lines then .script
    else if a = x.addr.toNat + 16 then .control else .other

/-- The plane while the display window is present (R118). -/
def windowAt (s : State) (a : Nat) : Option Plane :=
  match s.tiles.plane with
  | some pl => if inWindow pl a then some pl else none
  | none => none

/-! ## The treatment of a display-window fetch (R84) -/

/-- The address in a page of a byte at an offset (05 section 5.2). -/
def pageAddr (pl : Plane) (p : Page) (offset : Nat) : Addr := BitVec.ofNat 32 (pl.base p + offset)

/-- The memory fetches of a display-window fetch and how its words are formed (R84). -/
def displayPlan (s : State) (pl : Plane) (a : Addr) (start : Fin 4) : DisplayPlan :=
  let off := a.toNat - pl.baseA.toNat
  let row := off / (4 * pl.width)
  let col := off % (4 * pl.width) / 4
  let front := pageAddr pl s.page.front off
  let retiring := pageAddr pl (backPage s) off
  match s.page.running with
  | none =>
    match tintNow s with
    | some t => ⟨row, col, start, front, none, .tint t⟩
    | none => ⟨row, col, start, front, none, .asFetched⟩
  | some r =>
    if r.spec.kind = .dissolve then
      if r.level = 0 then ⟨row, col, start, retiring, none, .asFetched⟩
      else ⟨row, col, start, retiring, some front, .dissolve r.level⟩
    else
      let side := fun i => frontSide r.spec.kind pl r.level (col + i) row
      if (List.range 4).all side then ⟨row, col, start, front, none, .asFetched⟩
      else if (List.range 4).all (fun i => !side i) then ⟨row, col, start, retiring, none, .asFetched⟩
      else
        let f := frontier r.spec.kind pl r.level
        ⟨row, col, start, retiring, some front,
         .split (r.spec.kind == .wipeLeft) (if r.spec.kind = .wipeLeft then f else pl.width - f)⟩

/-- The address at which a redirected store reaches memory (R73, R120). -/
def redirect (s : State) (pl : Plane) (a : Addr) : Addr :=
  pageAddr pl s.page.front (a.toNat - pl.baseA.toNat)

/-! ## Acceptance (R114, R119 to R121) -/

/-- Carries a C-side request with a treatment, its first M-side transaction issued as `m`. -/
def carry (r : BusReq) (treat : Treatment) (m : BusReq) (s : State) : State :=
  (s.setCside ⟨.active ⟨r, treat, [], none⟩, []⟩).setMside (.controller m)

/-- Accepts a C-side request: in BYPASS it is joined straight through (R116); in SERVICE it is
classified and its treatment fixed (R118). -/
def accept (r : BusReq) (s : State) : State :=
  match s.path with
  | .bypass => carry r (.passed .other) r s
  | .service =>
    match windowAt s (reqAddr r).toNat with
    | some pl =>
      if reqIsFetch r then
        let plan := displayPlan s pl (reqAddr r) (reqStart r)
        carry r (.display plan) (.lineFetch plan.first plan.start) s
      else carry r .redirected (withAddr (redirect s pl (reqAddr r)) r) s
    | none => carry r (.passed (passClass s (reqAddr r).toNat)) r s

/-! ## The arbiter (R128 to R131) -/

/-- The own-work selector: the request it picks and what then still waits (R129). -/
def selectOwn (w : OwnWaiting) : Option (OwnReq × OwnWaiting) :=
  match w.class1 with
  | c :: rest => some (.class1 c, { w with class1 := rest })
  | [] =>
    match w.intake with
    | some f => some (.intake f, { w with intake := none })
    | none =>
      match w.load with
      | some l => some (.load l, { w with load := none })
      | none =>
        match w.render with
        | some r => some (.render r, { w with render := none })
        | none => none

/-- Whether the share brings own work in at a grant with both contenders waiting (R130, R131). -/
def shareReached (s : State) : Bool := !s.urgent && 1 ≤ s.share && s.share ≤ s.passover

/-- Issues an own request (R126); every grant to own work sets the count to 0 (R130). -/
def grantOwn (r : OwnReq) (left : OwnWaiting) (s : State) : State :=
  ((s.setWaiting left).setMside (.own r 0)).setPassover 0

/-- The grant the arbiter makes when the M-side is free and something waits (R128, R130). In BYPASS
no own work contends (R116). -/
def grant (s : State) : State :=
  match s.mside, s.cside.state with
  | .free, .waiting r =>
    match s.path, selectOwn s.waiting with
    | .service, some (o, left) =>
      if shareReached s then grantOwn o left s
      else accept r (s.setPassover (min 15 (s.passover + 1)))
    | .service, none | .bypass, _ => accept r s
  | .free, .idle | .free, .active _ =>
    match s.path, selectOwn s.waiting with
    | .service, some (o, left) => grantOwn o left s
    | .service, none | .bypass, _ => s
  | .own _ _, _ | .controller _, _ => s

/-- What every event ends with: a tile is taken if one is due (R60), then the arbiter grants, which
so sees every request handed in the event (R128). That the tile is taken after every other effect of the
event, so that no marking of that event finds it in flight, is the model's choice (log 30). -/
def finish (s : State) : State := grant (takeTile s)

/-! ## Path states (R116, R117, R134) -/

/-- The entry to SERVICE at reset release: CLEARING begins, the latch empty, G 4, the count 0
(R117, R134, R135). -/
def enterService (s : State) : State :=
  ((((s.setPath .service).setEngine .clearing).setLatch none).setShare 4).setPassover 0

/-- The start of BYPASS: the engine goes OFF, own requests are dropped and all work is abandoned;
what the tables hold stays until the clearing sweep (R116, R134, R18). That G and the passover count, to
which table 7.13 gives no value while the line is held, stay until the entry to SERVICE is the model's
choice (R132, log 11). -/
def abandonAll (s : State) : State :=
  ((((((((unsetPlane s).setPath .bypass).setEngine .off).setLatch none).setWaiting
    OwnWaiting.empty).setIntake Intake.absent).setReports ReportUnit.empty).setColours
    { s.colours with load := none }).setPage { s.page with running := none }

/-- Enters SERVICE when the reset line is released. -/
def leaveBypass (s : State) : State := if s.resetLine then s else enterService s

/-- BYPASS begins at a free M-side; a line released meanwhile then brings SERVICE (log 9). -/
def beginBypass (s : State) : State := grant (leaveBypass ((abandonAll s).setResetDue false))

/-- The completion of an own transaction: its result is discarded when a reset is due (R116), and
otherwise it has its effect, with the M-side free. -/
def completeOwn (effect : State → State) (s : State) : State :=
  if s.resetDue then beginBypass (s.setMside .free) else finish (effect (s.setMside .free))

/-- The completion of a C-side transaction: in BYPASS it has no effect and a released reset line
brings SERVICE (R117); in SERVICE it has its effect, and then a reset that is due brings BYPASS. -/
def completeC (effect : State → State) (s : State) : State :=
  let s0 := (s.setMside .free).setCside ⟨.idle, s.cside.returned⟩
  match s.path with
  | .bypass => grant (leaveBypass s0)
  | .service => if s.resetDue then beginBypass (effect s0) else finish (effect s0)

end Sys2Proof.Machine
end

