-- ==== Sys2Proof/Machine/ControlRecords.lean ====
section
/-! DEFINITION. PAD, WRAP, SCENE RESET and PARK (R139, R141, R156), and how a record command runs. -/
namespace Sys2Proof.Machine
open Sys2Proof

/-- A record command: it carries out the record in hand, when that is of its kind (R155, log 5). -/
def runRecord (k : RecKind) (run : State → State) (s : State) :
    Host.Outcome State Fault Refusal :=
  if holdsRecord k s then .next (finish (run s)) else .fault .noRecordInHand

/-- PAD has no effect beyond its end (R156). -/
def padEffect (s : State) : RecordResult := .ok s

/-- A scene reset (R141, R57, R72): the tables emptied, every tile DIRTY and the tile in flight BUSY_STALE
with its application abandoned (R65), flip wanted set, the batch closed, CUT pending. R30 keeps present
a placement whose source becomes undefined at scene reset, while R18, R141 and table 2.9 empty the list;
that the list is emptied is the model's choice (log 27). -/
def sceneReset (s : State) : State :=
  let s1 := endAppWhere (fun _ => true) (emptyTables s)
  let s2 := s1.setTiles
    { s1.tiles with
      a := s1.tiles.a.map TileState.marked, b := s1.tiles.b.map TileState.marked,
      flipWanted := true }
  s2.setPage { s2.page with batchOpen := false, pendingShow := none }

def sceneResetEffect (s : State) : RecordResult := .ok (sceneReset s)

/-- The end of a running transition with its report (R79, R82). -/
def endTransition (s : State) : State :=
  match s.page.running with
  | some r => giveReport (.transitionDone r.spec.kind) (s.setPage { s.page with running := none })
  | none => s

/-- PARK: the engine enters PARKED and a running transition ends (R139, R82). -/
def parkEffect (s : State) : RecordResult := .ok ((endTransition s).setEngine .parked)

/-- PAD (R156). -/
def execPad (s : State) : Host.Outcome State Fault Refusal := runRecord .pad (carryOut padEffect) s

/-- WRAP: at its end P becomes 0 in place of advancing (R156). -/
def execWrap (s : State) : Host.Outcome State Fault Refusal := runRecord .wrap (endRecord none 0) s

/-- SCENE RESET (R141). -/
def execSceneReset (s : State) : Host.Outcome State Fault Refusal :=
  runRecord .sceneReset (carryOut sceneResetEffect) s

/-- PARK (R139). -/
def execPark (s : State) : Host.Outcome State Fault Refusal :=
  runRecord .park (carryOut parkEffect) s

end Sys2Proof.Machine
end

