-- ==== Sys2Proof/Machine/SetupRecords.lean ====
section
/-! DEFINITION. SETUP PLANE (R49 to R52) and SETUP REPORTS (R160, R161). -/
namespace Sys2Proof.Machine
open Sys2Proof

/-- The end of the address space. -/
def addressSpace : Nat := 2 ^ 32

/-- Two ranges, each a first byte and a length, have a byte in common (R50). -/
def overlap (x y : Nat × Nat) : Bool :=
  x.1 < y.1 + y.2 && y.1 < x.1 + x.2 && 0 < x.2 && 0 < y.2

/-- The anchor line, the control line and the script ring (R50). -/
def anchorRanges (s : State) : List (Nat × Nat) :=
  match s.intake.anchor with
  | some x => [(x.addr.toNat, 16), (x.addr.toNat + 16, 16), (x.addr.toNat + 32, 16 * x.lines)]
  | none => []

/-- The report ring, when one is set (R50). -/
def reportRange (s : State) : List (Nat × Nat) :=
  match s.reports.ring with
  | some r => [(r.base.toNat, 16 * r.entries)]
  | none => []

/-- The two pages, when a plane is set (R160). -/
def pageRanges (s : State) : List (Nat × Nat) :=
  match s.tiles.plane with
  | some pl => [(pl.baseA.toNat, pageSize pl.width pl.height), (pl.baseB.toNat, pageSize pl.width pl.height)]
  | none => []

/-- The field checks of SETUP PLANE (R49). -/
def planeFieldsOk (f : PlaneFields) : Bool :=
  f.width % 64 == 0 && 0 < f.width && f.width ≤ 1920
    && f.height % 8 == 0 && 0 < f.height && f.height ≤ 1080
    && f.baseA.toNat % 256 == 0 && f.baseB.toNat % 256 == 0
    && f.baseA.toNat + pageSize f.width f.height ≤ addressSpace
    && f.baseB.toNat + pageSize f.width f.height ≤ addressSpace

/-- The pages of SETUP PLANE overlap each other, the anchor's ranges or the report ring (R50). -/
def planeOverlaps (f : PlaneFields) (s : State) : Bool :=
  let a := (f.baseA.toNat, pageSize f.width f.height)
  let b := (f.baseB.toNat, pageSize f.width f.height)
  overlap a b || (anchorRanges s ++ reportRange s).any fun r => overlap a r || overlap b r

/-- The checks of SETUP PLANE, in order (R49, R50). -/
def planeCheck (s : State) : Option RecCause :=
  if !planeFieldsOk (planeFields s) then some .field
  else if planeOverlaps (planeFields s) s then some .overlap else none

/-- Every tile DIRTY. -/
def allDirty (pl : Plane) : List TileState := List.replicate pl.tileCount .dirty

/-- The plane that SETUP PLANE sets, its clear colour premultiplied (R36, R52). -/
def planeOf (f : PlaneFields) : Plane :=
  ⟨f.width, f.height, f.baseA, f.baseB, premultiply f.clear⟩

/-- SETUP PLANE executed (R52, R83, R132). -/
def applyPlane (s : State) : State :=
  let f := planeFields s
  let pl := planeOf f
  (((s.setTiles ⟨true, pl, allDirty pl, allDirty pl, true⟩).setRender
    { s.render with scan := 0 }).setPage { s.page with front := .a, running := none }).setShare f.share

def planeEffect (s : State) : RecordResult := .ok (applyPlane s)

/-- SETUP PLANE after its checks: at once when no tile is in flight, and otherwise the record waits
in execution for the tile's completion (R51). -/
def runSetupPlane (s : State) : State :=
  match planeCheck s with
  | some c => endRecord (some c) (advancedP s) s
  | none =>
    if s.render.flight.isNone then carryOut planeEffect s
    else s.setIntake { s.intake with state := .executing .planeWait }

/-- SETUP PLANE (R49 to R52). -/
def execSetupPlane (s : State) : Host.Outcome State Fault Refusal :=
  runRecord .setupPlane runSetupPlane s

/-- SETUP REPORTS: the ring its words name (R174). -/
def reportFields (s : State) : Addr × Nat := (body s 1, (body s 2).toNat)

/-- The field checks of SETUP REPORTS (R160). -/
def reportFieldsOk (s : State) : Bool :=
  let (base, n) := reportFields s
  s.reports.ring.isNone && base.toNat % 16 == 0 && 4 ≤ n && n ≤ 1024
    && base.toNat + 16 * n ≤ addressSpace

/-- The ring of SETUP REPORTS overlaps the anchor's ranges or a page (R160). -/
def reportOverlaps (s : State) : Bool :=
  let (base, n) := reportFields s
  (anchorRanges s ++ pageRanges s).any (overlap (base.toNat, 16 * n))

/-- SETUP REPORTS: refused, or taken with every index, number and count at 0 (R160, R161). -/
def reportsEffect (s : State) : RecordResult :=
  if !reportFieldsOk s then .error .field
  else if reportOverlaps s then .error .overlap
  else .ok (s.setReports { ReportUnit.empty with ring := some ⟨(reportFields s).1, (reportFields s).2⟩ })

/-- SETUP REPORTS (R160, R161). -/
def execSetupReports (s : State) : Host.Outcome State Fault Refusal :=
  runRecord .setupReports (carryOut reportsEffect) s

end Sys2Proof.Machine
end

