-- ==== Sys2Proof/Machine/ObjectRecords.lean ====
section
/-! DEFINITION. SET COLOUR, LOAD COLOURS, DEFINE OBJECT and DROP OBJECT (R2 to R4, R12, R13). -/
namespace Sys2Proof.Machine
open Sys2Proof

/-- The colour tables with one entry written. -/
def ColourTables.write (c : ColourTables) (t : Fin Config.tableCount)
    (i : Fin Config.entryCount) (v : Argb) : ColourTables :=
  { c with entries := c.entries.set t (c.entries[t].set i v) }

/-- Marks every placement indexed on a table (R12, R16). -/
def markIndexed (t : Fin Config.tableCount) (s : State) : State :=
  mark (footprintsOf s (indexedOn s t)) s

/-- SET COLOUR (R12). -/
def setColourEffect (s : State) : RecordResult :=
  match idBelow Config.tableCount (operand s 12 9), idBelow Config.entryCount (operand s 8 0) with
  | some t, some i =>
    .ok (markIndexed t (s.setColours (s.colours.write t i (Argb.ofWord (body s 1)))))
  | _, _ => .error .field

/-- SET COLOUR. -/
def execSetColour (s : State) : Host.Outcome State Fault Refusal :=
  runRecord .setColour (carryOut setColourEffect) s

/-- LOAD COLOURS: the load its fields ask for, its count clamped, or none when it is refused (R13). -/
def loadFields (s : State) : Option Load :=
  match idBelow Config.tableCount (operand s 12 9), idBelow Config.entryCount (operand s 8 0) with
  | some t, some first =>
    let count := (body s 1).toNat
    let source := (body s 2).toNat
    let n := min count (Config.entryCount - first.val)
    if count = 0 ∨ source % 4 ≠ 0 ∨ addressSpace < source + 4 * n then none
    else some ⟨t, first.val, n, source, false, false⟩
  | _, _ => none

/-- Hands a line fetch of the colour-table load class (R14). -/
def handLoad (r : LineReq) (s : State) : State :=
  s.setWaiting { s.waiting with load := some r }

/-- LOAD COLOURS: refused at once, or begun, staying in execution until the load completes (R13). -/
def runLoadColours (s : State) : State :=
  match loadFields s with
  | none => endRecord (some .field) (advancedP s) s
  | some l =>
    handLoad (lineReqAt l.source)
      ((s.setColours
        { s.colours with load := some l, inFlight := s.colours.inFlight.set l.table true }).setIntake
          { s.intake with state := .executing .loading })

/-- LOAD COLOURS. -/
def execLoadColours (s : State) : Host.Outcome State Fault Refusal :=
  runRecord .loadColours runLoadColours s

/-- The least data length of an object (R2). -/
def leastLength (c : Coding) (width height : Nat) : Nat :=
  match c with
  | .run8 => 4 * height
  | .direct32 | .index8 | .index4 | .index2 => rowStride c width * 16 * height

/-- The alignment a coding asks of its data address (R2). -/
def dataAlign : Coding → Nat
  | .run8 => 4
  | .direct32 | .index8 | .index4 | .index2 => 16

/-- DEFINE OBJECT: the id and entry of a record that passes every check (R2, R174). -/
def objectFields (s : State) : Option (Fin Config.objectCount × ObjEntry) :=
  match idBelow Config.objectCount (operand s 8 0), codingOf (operand s 12 9),
      idBelow Config.tableCount (field s 1 27 24) with
  | some id, some c, some t =>
    let w := field s 1 11 0
    let h := field s 1 23 12
    let addr := body s 2
    let len := body s 3
    if w = 0 ∨ 2048 < w ∨ h = 0 ∨ 2048 < h ∨ addr.toNat % dataAlign c ≠ 0
        ∨ len.toNat < leastLength c w h ∨ addressSpace < addr.toNat + len.toNat then none
    else some (id, ⟨.ready, c, t, w, h, addr, len⟩)
  | _, _, _ => none

/-- Writes an object entry, marks the placements that show it before and after, and abandons an
application of it (R3, R4, R65). -/
def writeObject (id : Fin Config.objectCount) (e : ObjEntry) (s : State) : State :=
  let t := endAppWhere (fun a => a.obj == id) (s.setObjects (s.objects.set id e))
  markBeforeAfter (shows s id) s t

/-- DEFINE OBJECT (R2, R3). -/
def defineObjectEffect (s : State) : RecordResult :=
  match objectFields s with
  | some (id, e) => .ok (writeObject id e s)
  | none => .error .field

/-- DEFINE OBJECT. -/
def execDefineObject (s : State) : Host.Outcome State Fault Refusal :=
  runRecord .defineObject (carryOut defineObjectEffect) s

/-- DROP OBJECT (R4). -/
def dropObjectEffect (s : State) : RecordResult :=
  match idBelow Config.objectCount (operand s 8 0) with
  | some id => .ok (writeObject id ObjEntry.undef s)
  | none => .error .field

/-- DROP OBJECT. -/
def execDropObject (s : State) : Host.Outcome State Fault Refusal :=
  runRecord .dropObject (carryOut dropObjectEffect) s

end Sys2Proof.Machine
end

