-- ==== Sys2Proof/Machine/ListRecords.lean ====
section
/-! DEFINITION. PLACE, MOVE, SET OPACITY and REMOVE (R19, R25 to R29). -/
namespace Sys2Proof.Machine
open Sys2Proof

/-- The order of the list: layer, then placement id (R19). -/
def placedBefore (p q : Placement) : Bool :=
  p.layer < q.layer || (p.layer == q.layer && p.id.val < q.id.val)

/-- A placement put in its place in a list that does not hold its id (R19). -/
def insertPlacement (p : Placement) : List Placement → List Placement
  | [] => [p]
  | q :: rest => if placedBefore p q then p :: q :: rest else q :: insertPlacement p rest

/-- The list without an id (R19). -/
def removePlacement (id : Fin Config.placementCount) (l : List Placement) : List Placement :=
  l.filter (fun p => p.id != id)

/-- The placement of this id. -/
def hasId (id : Fin Config.placementCount) (p : Placement) : Bool := p.id == id

/-- The list with the placement of an id changed in fields other than its id and layer. -/
def editPlacement (id : Fin Config.placementCount) (f : Placement → Placement)
    (l : List Placement) : List Placement :=
  l.map fun p => if p.id = id then f p else p

/-- Replaces the list in an event that concerns one id, with its footprints marked before and after. -/
def editList (id : Fin Config.placementCount) (l : List Placement) (s : State) : State :=
  markBeforeAfter (hasId id) s (s.setList l)

/-- The placement id of the record in hand, when it is in range (R175). -/
def placementId (s : State) : Option (Fin Config.placementCount) :=
  idBelow Config.placementCount (operand s 7 0)

/-- PLACE: the placement its fields give, when they pass the checks (R25, R175). -/
def placeFields (s : State) : Option Placement :=
  match placementId s, placeSource s with
  | some id, some src =>
    if 63 < field s 3 7 0 then none
    else some
      { id := id, source := src, x := signed16 (field s 2 15 0), y := signed16 (field s 2 31 16),
        layer := field s 3 7 0, opacity := BitVec.ofNat 8 (field s 3 15 8) }
  | _, _ => none

/-- PLACE (R25, R26). -/
def placeEffect (s : State) : RecordResult :=
  match placeFields s with
  | some p => .ok (editList p.id (insertPlacement p (removePlacement p.id s.list)) s)
  | none => .error .field

/-- PLACE. -/
def execPlace (s : State) : Host.Outcome State Fault Refusal :=
  runRecord .place (carryOut placeEffect) s

/-- MOVE: an absent id is left as it is (R27). -/
def moveEffect (s : State) : RecordResult :=
  match placementId s with
  | some id =>
    .ok (editList id
      (editPlacement id
        (fun p => { p with x := signed16 (field s 1 15 0), y := signed16 (field s 1 31 16) }) s.list) s)
  | none => .error .field

/-- MOVE. -/
def execMove (s : State) : Host.Outcome State Fault Refusal :=
  runRecord .move (carryOut moveEffect) s

/-- SET OPACITY: an absent id is left as it is (R28). -/
def setOpacityEffect (s : State) : RecordResult :=
  match placementId s with
  | some id =>
    .ok (editList id
      (editPlacement id (fun p => { p with opacity := BitVec.ofNat 8 (field s 1 7 0) }) s.list) s)
  | none => .error .field

/-- SET OPACITY. -/
def execSetOpacity (s : State) : Host.Outcome State Fault Refusal :=
  runRecord .setOpacity (carryOut setOpacityEffect) s

/-- REMOVE (R29). -/
def removeEffect (s : State) : RecordResult :=
  match placementId s with
  | some id => .ok (editList id (removePlacement id s.list) s)
  | none => .error .field

/-- REMOVE. -/
def execRemove (s : State) : Host.Outcome State Fault Refusal :=
  runRecord .remove (carryOut removeEffect) s

end Sys2Proof.Machine
end

