-- ==== Sys2Proof/Machine/ButtonRecords.lean ====
section
/-! DEFINITION. The records of the button table (R90 to R106). -/
namespace Sys2Proof.Machine
open Sys2Proof

/-- The button id of the record in hand, when it is in range (R175). -/
def buttonId (s : State) : Option (Fin Config.buttonCount) :=
  idBelow Config.buttonCount (operand s 7 0)

/-- The button table with one entry replaced. -/
def ButtonTable.put (bt : ButtonTable) (b : Fin Config.buttonCount) (e : Button) : ButtonTable :=
  { bt with entries := bt.entries.set b e }

/-- A button may be selected: it is defined and enabled (R98). -/
def ButtonTable.selectable (bt : ButtonTable) (b : Fin Config.buttonCount) : Bool :=
  bt.entries[b].defined && bt.entries[b].enabled

/-- Replaces the button table in an event that concerns one button, with the footprints of its bound
placements marked before and after (R31). -/
def editButtons (b : Fin Config.buttonCount) (bt : ButtonTable) (s : State) : State :=
  markBeforeAfter (boundTo b) s (s.setButtons bt)

/-! ## DEFINE BUTTON (R90, R91) -/

/-- The entry after a definition: a new one is enabled, with no look and no displayed rectangle, and
a redefinition keeps all three (R91). -/
def Button.define (e : Button) (d : ButtonDef) : Button :=
  if e.defined then { e with body := d } else ⟨true, true, d, none, none, none⟩

def defineButtonEffect (s : State) : RecordResult :=
  match buttonId s with
  | some b =>
    if operand s 8 8 = 1 then
      .ok (editButtons b (s.buttons.put b (s.buttons.entries[b].define (buttonDefFields s))) s)
    else .error .field
  | none => .error .field

/-- DEFINE BUTTON. -/
def execDefineButton (s : State) : Host.Outcome State Fault Refusal :=
  runRecord .defineButton (carryOut defineButtonEffect) s

/-! ## BUTTON LOOK (R94) -/

/-- The look a BUTTON LOOK gives: absent when its present flag is clear (R94). -/
def lookFields (s : State) : Option Look :=
  if operand s 10 10 = 1 then
    some
      { tint := premultiply (Argb.ofWord (body s 1)), high := min 256 (field s 2 15 0),
        low := min 256 (field s 2 31 16), floor := field s 3 7 0, period := field s 3 15 8,
        duty := field s 3 23 16 }
  else none

/-- Whether a BUTTON LOOK names the activated look; none for a state value that names neither. -/
def lookState (s : State) : Option Bool :=
  match operand s 9 8 with
  | 1 => some false
  | 2 => some true
  | _ => none

/-- The entry with one of its looks replaced. -/
def Button.setLook (e : Button) (activated : Bool) (l : Option Look) : Button :=
  if activated then { e with activatedLook := l } else { e with selectedLook := l }

/-- The button table after a look is written: the phase restarts when the look is in use (R94). -/
def ButtonTable.writeLook (bt : ButtonTable) (b : Fin Config.buttonCount) (activated : Bool)
    (l : Option Look) : ButtonTable :=
  let t := bt.put b (bt.entries[b].setLook activated l)
  if bt.selection = some b ∧ bt.activated = activated then { t with phase := 0 } else t

def buttonLookEffect (s : State) : RecordResult :=
  match buttonId s, lookState s with
  | some b, some act =>
    if s.buttons.entries[b].defined then
      .ok (s.setButtons (s.buttons.writeLook b act (lookFields s)))
    else .error .field
  | _, _ => .error .field

/-- BUTTON LOOK. -/
def execButtonLook (s : State) : Host.Outcome State Fault Refusal :=
  runRecord .buttonLook (carryOut buttonLookEffect) s

/-! ## ENABLE, DISABLE and DELETE BUTTON (R95 to R97) -/

/-- ENABLE BUTTON: an undefined button is left as it is (R95). -/
def enableButtonEffect (s : State) : RecordResult :=
  match buttonId s with
  | some b =>
    let e := s.buttons.entries[b]
    .ok (if e.defined then s.setButtons (s.buttons.put b { e with enabled := true }) else s)
  | none => .error .field

/-- ENABLE BUTTON. -/
def execEnableButton (s : State) : Host.Outcome State Fault Refusal :=
  runRecord .enableButton (carryOut enableButtonEffect) s

/-- The table with no selection, the hold count and the phase 0 (R96). -/
def ButtonTable.deselect (bt : ButtonTable) : ButtonTable :=
  { bt with selection := none, activated := false, hold := 0, phase := 0 }

/-- Replaces the entry of a button that can no longer be selected; if it was the selected one, the
selection is cleared with SELECTION (none, id) (R96, R97). -/
def dropButton (b : Fin Config.buttonCount) (e : Button) (s : State) : State :=
  if s.buttons.selection = some b then
    giveReport (.selection none (some b)) (editButtons b (s.buttons.put b e).deselect s)
  else editButtons b (s.buttons.put b e) s

/-- DISABLE BUTTON: an undefined button is left as it is (R96). -/
def disableButtonEffect (s : State) : RecordResult :=
  match buttonId s with
  | some b =>
    let e := s.buttons.entries[b]
    .ok (if !e.defined then s
      else if s.buttons.selection = some b then dropButton b { e with enabled := false } s
      else s.setButtons (s.buttons.put b { e with enabled := false }))
  | none => .error .field

/-- DISABLE BUTTON. -/
def execDisableButton (s : State) : Host.Outcome State Fault Refusal :=
  runRecord .disableButton (carryOut disableButtonEffect) s

/-- The entry of a deleted button: its definition fields are kept (R97). -/
def Button.deleted (e : Button) : Button := ⟨false, false, e.body, none, none, none⟩

/-- DELETE BUTTON: an undefined button is left as it is (R97). -/
def deleteButtonEffect (s : State) : RecordResult :=
  match buttonId s with
  | some b =>
    let e := s.buttons.entries[b]
    .ok (if e.defined then dropButton b e.deleted s else s)
  | none => .error .field

/-- DELETE BUTTON. -/
def execDeleteButton (s : State) : Host.Outcome State Fault Refusal :=
  runRecord .deleteButton (carryOut deleteButtonEffect) s

/-! ## Selection and activation (R99, R103) -/

/-- The placement is bound to the button or to the previously selected one. -/
def boundToEither (b : Fin Config.buttonCount) (previous : Link) (p : Placement) : Bool :=
  boundTo b p || (match previous with | some q => boundTo q p | none => false)

/-- Moves the selection to a button (R99). -/
def moveSelection (n : Fin Config.buttonCount) (s : State) : State :=
  let t := s.setButtons
    { s.buttons with selection := some n, activated := false, hold := 0, phase := 0 }
  giveReport (.selection (some n) s.buttons.selection)
    (markBeforeAfter (boundToEither n s.buttons.selection) s t)

/-- Activates the selected button n (R103). -/
def activate (n : Fin Config.buttonCount) (s : State) : State :=
  let e := s.buttons.entries[n]
  giveReport (.activated n e.body.command)
    (editButtons n { s.buttons with activated := true, hold := e.body.holdFrames, phase := 0 } s)

/-! ## KEY (R100 to R104) -/

/-- The link of an entry in a direction; enter follows none. -/
def Button.link (e : Button) : Key → Link
  | .up => e.body.up
  | .down => e.body.down
  | .left => e.body.left
  | .right => e.body.right
  | .enter => none

/-- The walk from a button in a direction: the button reached, if any, within so many steps (R102). -/
def walk (bt : ButtonTable) (k : Key) (start : Fin Config.buttonCount) :
    Nat → Fin Config.buttonCount → Option (Fin Config.buttonCount)
  | 0, _ => none
  | n + 1, at_ =>
    match bt.entries[at_].link k with
    | none => none
    | some b =>
      if b = start then none
      else if bt.selectable b then some b
      else walk bt k start n b

/-- The defined and enabled button with the lowest id (R101). -/
def lowestSelectable (bt : ButtonTable) : Option (Fin Config.buttonCount) :=
  (List.finRange Config.buttonCount).find? bt.selectable

/-- A KEY in a direction (R100 to R102). -/
def keyDirection (k : Key) (s : State) : State :=
  match s.buttons.selection with
  | none =>
    match lowestSelectable s.buttons with
    | some n => moveSelection n s
    | none => s
  | some b =>
    if s.buttons.activated then s
    else match walk s.buttons k b 48 b with
      | none => s
      | some n =>
        if s.buttons.entries[n].body.autoActivate then activate n (moveSelection n s)
        else moveSelection n s

/-- A KEY enter (R100, R101, R104). -/
def keyEnter (s : State) : State :=
  match s.buttons.selection with
  | none => s
  | some b => if s.buttons.activated then s else activate b s

/-- A KEY: a bad key value is refused in every state (R100). -/
def keyEffect (s : State) : RecordResult :=
  match keyOf (operand s 12 0) with
  | none => .error .field
  | some .enter => .ok (keyEnter s)
  | some k => .ok (keyDirection k s)

/-- KEY with up, down, left or right; a KEY with a bad value is refused by this row too (log 21). -/
def execKeyDirection (s : State) : Host.Outcome State Fault Refusal :=
  if keyOf (operand s 12 0) = some .enter then .fault .noRecordInHand
  else runRecord .key (carryOut keyEffect) s

/-- KEY with enter; a KEY with a bad value is refused by this row too (log 21). -/
def execKeyEnter (s : State) : Host.Outcome State Fault Refusal :=
  match keyOf (operand s 12 0) with
  | some .enter | none => runRecord .key (carryOut keyEffect) s
  | some .up | some .down | some .left | some .right => .fault .noRecordInHand

/-! ## SELECT (R106) -/

/-- SELECT of a button that may be selected. -/
def selectButton (n : Fin Config.buttonCount) (s : State) : State :=
  if s.buttons.selection = some n then
    if s.buttons.activated then
      editButtons n { s.buttons with activated := false, hold := 0, phase := 0 } s
    else s
  else moveSelection n s

/-- SELECT of none. -/
def selectNone (s : State) : State :=
  match s.buttons.selection with
  | some b => giveReport (.selection none (some b)) (editButtons b s.buttons.deselect s)
  | none => s

def selectEffect (s : State) : RecordResult :=
  if operand s 7 0 = 63 then .ok (selectNone s)
  else match buttonId s with
    | some n => if s.buttons.selectable n then .ok (selectButton n s) else .error .field
    | none => .error .field

/-- SELECT. -/
def execSelect (s : State) : Host.Outcome State Fault Refusal :=
  runRecord .select (carryOut selectEffect) s

end Sys2Proof.Machine
end

