-- ==== Sys2Proof/Machine/PageRecords.lean ====
section
/-! DEFINITION. SHOW, BATCH OPEN and BATCH CLOSE (R75, R76). -/
namespace Sys2Proof.Machine
open Sys2Proof

/-- What a SHOW makes pending: CUT for kind CUT or length 0 (R75). -/
def showTransition (k : ShowKind) (len settle : Nat) : Option TransSpec :=
  match k with
  | .cut => none
  | .trans t => if len = 0 then none else some ⟨t, len, settle⟩

/-- SHOW (R75). -/
def showEffect (s : State) : RecordResult :=
  match showKindOf (operand s 3 0) with
  | none => .error .field
  | some k =>
    if 15 < operand s 8 4 then .error .field
    else .ok
      ((s.setPage { s.page with pendingShow := showTransition k (field s 1 7 0) (operand s 8 4) }).setTiles
        { s.tiles with flipWanted := true })

/-- SHOW. -/
def execShow (s : State) : Host.Outcome State Fault Refusal :=
  runRecord .showRecord (carryOut showEffect) s

def batchOpenEffect (s : State) : RecordResult := .ok (s.setPage { s.page with batchOpen := true })

/-- BATCH OPEN (R76). -/
def execBatchOpen (s : State) : Host.Outcome State Fault Refusal :=
  runRecord .batchOpen (carryOut batchOpenEffect) s

def batchCloseEffect (s : State) : RecordResult := .ok (s.setPage { s.page with batchOpen := false })

/-- BATCH CLOSE (R76). -/
def execBatchClose (s : State) : Host.Outcome State Fault Refusal :=
  runRecord .batchClose (carryOut batchCloseEffect) s

end Sys2Proof.Machine
end

