-- ==== Sys2Proof/Machine/FrameEvents.lean ====
section
/-! DEFINITION. The frame start: the frame counter, the transition step, the flip, the activation hold and
the pulse (R77 to R80, R93, R105, R107, R138). -/
namespace Sys2Proof.Machine
open Sys2Proof

/-- The level of a RAMP at step k (R80). -/
def rampLevel (spec : TransSpec) (k : Nat) : Nat := 1024 * k / spec.len

/-- A running transition after one step; none when it ends (R79, R80). -/
def Running.step (r : Running) : Option Running :=
  match r.phase with
  | .settle n =>
    if n ≤ 1 then some { r with phase := .ramp 0, level := 0 }
    else some { r with phase := .settle (n - 1), level := 0 }
  | .ramp k =>
    if r.spec.len ≤ k + 1 then none
    else some { r with phase := .ramp (k + 1), level := rampLevel r.spec (k + 1) }

/-- Steps a running transition (R79). -/
def stepTransition (s : State) : State :=
  match s.page.running with
  | none => s
  | some r =>
    match r.step with
    | some t => s.setPage { s.page with running := some t }
    | none => endTransition s

/-- The transition a flip starts, with L 0 for the frame that begins (R78a). -/
def Running.start (spec : TransSpec) : Running :=
  ⟨spec, if spec.settle = 0 then .ramp 0 else .settle spec.settle, 0⟩

/-- A rectangle clipped to the plane (R93). -/
def Rect.clip (r : Rect) (pl : Plane) : Rect :=
  ⟨r.x, r.y, if r.x < pl.width then min r.w (pl.width - r.x) else 0,
   if r.y < pl.height then min r.h (pl.height - r.y) else 0⟩

/-- The entry with its displayed rectangle taken afresh (R93). -/
def Button.takeRect (pl : Plane) (e : Button) : Button :=
  { e with displayed := if e.defined then some (e.body.rect.clip pl) else none }

/-- Every displayed rectangle taken afresh against the plane in force (R93). -/
def takeRects (s : State) : State :=
  match s.tiles.plane with
  | some pl => s.setButtons { s.buttons with entries := s.buttons.entries.map (Button.takeRect pl) }
  | none => s

/-- A flip: the pages change roles, the displayed rectangles are taken, flip wanted is cleared,
FLIPPED is given, and a pending transition starts (R78, R78a). -/
def flip (s : State) : State :=
  let s1 := (takeRects s).setTiles { s.tiles with flipWanted := false }
  let s2 := s1.setPage
    { s1.page with
      front := s1.page.front.other, running := s1.page.pendingShow.map Running.start,
      pendingShow := none }
  giveReport (.flipped s2.page.front s2.frames) s2

/-- The phase after a frame start in which no hold has ended (R107). -/
def ButtonTable.nextPhase (bt : ButtonTable) : Nat :=
  match lookInUse bt with
  | some l => if l.period = 0 then 0 else (bt.phase + 1) % l.period
  | none => 0

/-- The hold of the selected button ends at this frame start (R105). -/
def holdEnds (bt : ButtonTable) : Bool := bt.selection.isSome && bt.activated && bt.hold == 0

/-- The activation hold is counted, and then the pulse moves (R105, R107). -/
def holdAndPulse (s : State) : State :=
  match s.buttons.selection with
  | none => s.setButtons { s.buttons with phase := 0 }
  | some b =>
    if holdEnds s.buttons then
      editButtons b { s.buttons with activated := false, hold := 0, phase := 0 } s
    else
      s.setButtons
        { s.buttons with
          hold := if s.buttons.activated then s.buttons.hold - 1 else s.buttons.hold,
          phase := s.buttons.nextPhase }

/-- Counts the frame (R138). -/
def countFrame (s : State) : State := s.setFrames (s.frames + 1)

/-- A frame start at an ACTIVE engine: the transition step, then the flip decided from the state as
the frame start found it, then the button table (R77 to R79, R105, R107). -/
def activeFrame (s : State) : State :=
  let s1 := stepTransition (countFrame s)
  let s2 := if flipDue s then flip s1 else s1
  holdAndPulse (handStateWord s s2)

/-- A frame start (R134, R138). -/
def frameStart (s : State) : State :=
  match s.engine with
  | .off | .clearing => s
  | .unanchored | .parked => countFrame s
  | .active => activeFrame s

/-- FRAME_START. -/
def execFrameStart (s : State) : Host.Outcome State Fault Refusal := .next (finish (frameStart s))

/-- The frame start is one in which the settle ends (R79). -/
def settleEndDue (s : State) : Bool :=
  s.engine == .active &&
    match s.page.running with
    | some ⟨_, .settle n, _⟩ => n ≤ 1
    | some ⟨_, .ramp _, _⟩ | none => false

/-- The frame start is one in which the ramp reaches T (R79). -/
def transitionDoneDue (s : State) : Bool :=
  s.engine == .active &&
    match s.page.running with
    | some ⟨spec, .ramp k, _⟩ => spec.len ≤ k + 1
    | some ⟨_, .settle _, _⟩ | none => false

/-- The frame start is one in which the hold ends (R105). -/
def holdEndDue (s : State) : Bool := s.engine == .active && holdEnds s.buttons

/-- A named case of the frame start (log 6). -/
def frameCase (due : Bool) (s : State) : Host.Outcome State Fault Refusal :=
  if due then .next (finish (frameStart s)) else .fault .frameCaseNotDue

/-- SETTLE_END: the frame start in which the remaining settle count reaches 0 (R79). -/
def execSettleEnd (s : State) : Host.Outcome State Fault Refusal := frameCase (settleEndDue s) s

/-- TRANSITION_DONE: the frame start in which k reaches T (R79). -/
def execTransitionDone (s : State) : Host.Outcome State Fault Refusal :=
  frameCase (transitionDoneDue s) s

/-- HOLD_END: the frame start that finds the hold count already 0 (R105). -/
def execHoldEnd (s : State) : Host.Outcome State Fault Refusal := frameCase (holdEndDue s) s

end Sys2Proof.Machine
end

