-- ==== Sys2Proof/Machine/LineEvents.lean ====
section
/-! DEFINITION. The reset and urgent lines, and the end of the clearing sweep (R116, R117, R131, R134). -/
namespace Sys2Proof.Machine
open Sys2Proof

/-- RESET_ASSERT: BYPASS begins at once at a free M-side, and otherwise at the completion of the
transaction on it; a line already asserted changes nothing (R116, log 18). -/
def assertReset (s : State) : State :=
  if s.resetLine then s
  else
    let s1 := s.setResetLine true
    match s.path, s.mside with
    | .bypass, _ => s1
    | .service, .free => beginBypass s1
    | .service, .own _ _ | .service, .controller _ => s1.setResetDue true

/-- RESET_ASSERT. -/
def execResetAssert (s : State) : Host.Outcome State Fault Refusal := .next (assertReset s)

/-- RESET_RELEASE: the path enters SERVICE at once at a free M-side, and otherwise at the completion
of the transaction accepted in BYPASS; a line already released changes nothing (R117, log 18). -/
def releaseReset (s : State) : State :=
  if s.resetLine then
    let s1 := s.setResetLine false
    match s.path, s.mside with
    | .bypass, .free => finish (enterService s1)
    | .bypass, .own _ _ | .bypass, .controller _ | .service, _ => s1
  else s

/-- RESET_RELEASE. -/
def execResetRelease (s : State) : Host.Outcome State Fault Refusal := .next (releaseReset s)

/-- Every table and map of the part at its cleared value, the frame counter 0 and the anchor latch
emptied, at the completion of the clearing sweep (R134, R135, log 26). -/
def sweep (s : State) : State :=
  (((((unsetPlane (emptyTables s)).setPage PageControl.initial).setReports
    ReportUnit.empty).setIntake Intake.absent).setFrames 0).setLatch none

/-- The completion of the clearing sweep: the part anchors on the latched anchor, or enters
UNANCHORED (R134, R136). -/
def endSweep (s : State) : State :=
  match s.latch with
  | some x => attach x (sweep s)
  | none => (sweep s).setEngine .unanchored

/-- CLEARING_SWEEP_END. -/
def execClearingSweepEnd (s : State) : Host.Outcome State Fault Refusal :=
  if s.engine = .clearing then .next (finish (endSweep s)) else .fault .noSweep

/-- URGENT_LINE: the line is read at each grant; its change makes none (R131). -/
def execUrgentLine (asserted : Bool) (s : State) : Host.Outcome State Fault Refusal :=
  .next (s.setUrgent asserted)

end Sys2Proof.Machine
end

