-- ==== Sys2Proof/Machine/IntakeEvents.lean ====
section
/-! DEFINITION. The intake's events: captures, drains, the commit, probes, refetches and the halt
(R146 to R154). -/
namespace Sys2Proof.Machine
open Sys2Proof

/-! ## Captures (R122, R146, R148) -/

/-- A word handed on by the path: it joins the queue, or is dropped when the queue holds 16, setting
the suspect flag and, in WAITING, sending the intake back to PROBING. The flag says whether the last
word of the transaction to join did so in this event. With no ring or HALTED it is discarded. -/
def captureWord (e : CapEntry) (acc : State × Bool) : State × Bool :=
  let (s, joined) := acc
  match s.intake.state with
  | .absent | .halted => (s, joined)
  | .probing | .waiting | .fetching _ | .executing _ =>
    if s.intake.queue.length < 16 then
      (s.setIntake { s.intake with queue := s.intake.queue ++ [e] }, true)
    else
      let t := s.setIntake { s.intake with suspect := true }
      if s.intake.state = .waiting then (beginProbe t, joined) else (t, joined)

/-- The queue with the end-of-transaction mark on its last entry (R146). -/
def markLast : List CapEntry → List CapEntry
  | [] => []
  | [e] => [{ e with endMark := true }]
  | e :: f :: rest => e :: markLast (f :: rest)

/-- Hands the good words of a store to the capture queue, and then the end of the transaction, which
marks whichever of its words joined last (R122, R146). -/
def captureWords (entries : List CapEntry) (s : State) : State :=
  let (t, joined) := entries.foldl (fun acc e => captureWord e acc) (s, false)
  if joined then t.setIntake { t.intake with queue := markLast t.intake.queue } else t

/-! ## The commit (R140, R150, R151, R155) -/

/-- A PARKED engine wakes in the commit event (R140). -/
def wake (s : State) : State :=
  if s.engine = .parked then handStateWord s (s.setEngine .active) else s

/-- A whole record enters EXECUTING; an unknown kind or a wrong size skips it (R155). -/
def enterExecuting (s : State) : State :=
  match recordKind s with
  | none => endRecord (some .kind) (advancedP s) s
  | some k =>
    match kindWords k with
    | some n =>
      if n = recordWords s then s.setIntake { s.intake with state := .executing .ready }
      else endRecord (some .size) (advancedP s) s
    | none => s.setIntake { s.intake with state := .executing .ready }

/-- Slots 1 to length - 1 are all valid (R151). -/
def bodyWhole (s : State) : Bool :=
  (List.range (recordWords s)).all fun i => i == 0 || (s.intake.slots[i]?.getD none).isSome

/-- The ring line, counted from 0, that the n-th fetch of a refetch reads (R152). -/
def refetchLine (s : State) (n : Nat) : Nat := s.intake.p / 4 + n

/-- The n-th line fetch of a refetch: the first starts at the word that holds P (R152). -/
def refetchReq (x : Anchor) (s : State) (n : Nat) : LineReq :=
  if n = 0 then lineReqAt (ringAddr x s.intake.p)
  else lineReqAt (ringAddr x (4 * refetchLine s n))

/-- Enters FETCHING (R152). -/
def beginRefetch (s : State) : State :=
  match s.intake.anchor with
  | some x =>
    wantIntake (.refetch (refetchReq x s 0))
      (s.setIntake { s.intake with state := .fetching ⟨0, none, none⟩ })
  | none => s

/-- The record would pass the ring's end (R151). -/
def passesEnd (s : State) : Bool :=
  match s.intake.anchor with
  | some x => x.words < s.intake.p + recordWords s
  | none => false

/-- The commit of a header at P (R150, R151): an outstanding probe is stale from here on, a PARKED
part wakes, a record past the ring's end is skipped, a whole record is executed and any other is
refetched. That a probe still deferred is dropped here is the model's choice (log 29). -/
def commit (header : Word) (s : State) : State :=
  let s1 := wake (s.setIntake
    { s.intake with header := header, deferred := none, probeLive := false })
  if passesEnd s1 then endRecord (some .bounds) 0 s1
  else if bodyWhole s1 && !s1.intake.suspect then enterExecuting s1
  else beginRefetch s1

/-- The commit check: slot 0 holds a header with the expected sequence number (R147). -/
def commitCheck (s : State) : State :=
  match s.intake.slots[0] with
  | some h => if hdrSeq h = s.intake.expected then commit h s else s
  | none => s

/-! ## Drains (R146, R147) -/

/-- The slot of the window that a captured word fills, if any (R147). -/
def windowSlot (s : State) (e : CapEntry) : Option (Fin Config.slotCount) :=
  match s.intake.anchor with
  | none => none
  | some x =>
    let i := (e.addr.toNat - ringAddr x 0) / 4
    if e.enables = 15 ∧ ringAddr x 0 ≤ e.addr.toNat ∧ s.intake.p ≤ i ∧ i < x.words then
      idBelow Config.slotCount (i - s.intake.p)
    else none

/-- The front entry of the queue drained into its slot, with the commit check after an
end-of-transaction mark (R147). -/
def drainInto (e : CapEntry) (rest : List CapEntry) (s : State) : State :=
  let s1 := s.setIntake
    { s.intake with
      queue := rest,
      slots := match windowSlot s e with
        | some i => s.intake.slots.set i (some e.word)
        | none => s.intake.slots }
  if e.endMark then commitCheck s1 else s1

/-- CAPTURE_DRAIN: in FETCHING the entry is discarded, and in EXECUTING nothing is drained (R146,
log 17). -/
def execCaptureDrain (s : State) : Host.Outcome State Fault Refusal :=
  match s.intake.queue with
  | [] => .fault .nothingToDrain
  | e :: rest =>
    match s.intake.state with
    | .probing | .waiting => .next (finish (drainInto e rest s))
    | .fetching _ => .next (finish (s.setIntake { s.intake with queue := rest }))
    | .executing _ => .next s
    | .absent | .halted => .next (s.setIntake { s.intake with queue := [] })

/-! ## The halt (R153) -/

/-- The address of the header word at P. -/
def headerAddr (s : State) : Nat :=
  match s.intake.anchor with
  | some x => ringAddr x s.intake.p
  | none => 0

/-- The intake halts on a header that arrived with bad parity and this kind field (R153); the suspect
flag stays as it is (log 16). -/
def halt (kind : Nat) (s : State) : State :=
  let s1 := giveReport (.recordFault .parity s.intake.p kind)
    (giveReport (.parity .probe (headerAddr s)) s)
  handStateWord s (s1.setIntake
    { s1.intake with state := .halted, queue := [], slots := emptySlots, deferred := none,
                     probeLive := false })

/-! ## Probes (R149, R154) -/

/-- Hands a fetch that waited for the outstanding one (R154). -/
def handDeferred (s : State) : State :=
  match s.intake.deferred with
  | some f => handIntake f s
  | none => s

/-- The slots after a probe: each good word of its line from P onward fills its slot (R149); a bad one
leaves its slot as it is, which for a slot that a capture filled is the model's choice (log 28). -/
def probeSlots (bigEndian : Bool) (start : Fin 4) (ws : List BusWord)
    (v : Vector (Option Word) Config.slotCount) : Vector (Option Word) Config.slotCount :=
  Vector.ofFn fun i =>
    if start.val + i.val < 4 then
      match ws[i.val]? with
      | some w => if wordGood bigEndian w then some w.data else v[i]
      | none => v[i]
    else v[i]

/-- The completion of a probe that may still be used, its words in order of arrival (R149). -/
def treatProbe (start : Fin 4) (w0 : BusWord) (ws : List BusWord) (s : State) : State :=
  if !wordGood (byteOrder s) w0 then halt (hdrKind w0.data) s
  else if hdrSeq w0.data = s.intake.expected then
    commit w0.data
      (s.setIntake
        { s.intake with slots := probeSlots (byteOrder s) start (w0 :: ws) s.intake.slots })
  else s.setIntake { s.intake with state := .waiting, probeLive := false }

/-- The effect of a probe's completion: a stale probe is disregarded whole (R149, R154). -/
def probeEffect (start : Fin 4) (w0 : BusWord) (ws : List BusWord) (s : State) : State :=
  if s.intake.probeLive ∧ s.intake.state = .probing then treatProbe start w0 ws s
  else handDeferred s

/-- PROBE_COMPLETE. -/
def execProbeComplete (w0 w1 w2 w3 : BusWord) (s : State) : Host.Outcome State Fault Refusal :=
  match s.mside with
  | .own (.intake (.probe req)) _ =>
    .next (completeOwn (probeEffect req.start w0 [w1, w2, w3]) s)
  | .own (.intake (.refetch _)) _ | .own (.class1 _) _ | .own (.load _) _ | .own (.render _) _
  | .free | .controller _ => .fault .noSuchTransfer

/-! ## Refetches (R152) -/

/-- A word of a refetch line arrives at ring word i: the header is disregarded beyond its parity, a
body word replaces its slot, and any other word is disregarded (R152). -/
def refetchWord (r : Refetch) (x : Anchor) (i : Nat) (w : BusWord) (s : State) : State :=
  if i = s.intake.p then
    if wordGood x.bigEndian w then s
    else s.setIntake
      { s.intake with state := .fetching { r with headerBad := some (hdrKind w.data) } }
  else if s.intake.p < i ∧ i < s.intake.p + recordWords s then
    match idBelow Config.slotCount (i - s.intake.p) with
    | some j =>
      s.setIntake
        { s.intake with
          slots := s.intake.slots.set j (some w.data),
          state := .fetching
            (if wordGood x.bigEndian w ∨ r.bodyBad.isSome then r
             else { r with bodyBad := some (ringAddr x i) }) }
    | none => s
  else s

/-- A word arrives while a reset is not due and the record is still being fetched. -/
def refetchArrival (req : LineReq) (got : Nat) (w : BusWord) (s : State) : State :=
  match s.intake.state, s.intake.anchor with
  | .fetching r, some x =>
    if s.resetDue then s
    else refetchWord r x (4 * refetchLine s r.line + wrapPos req.start got) w s
  | _, _ => s

/-- REFETCH_WORD_ARRIVAL. -/
def execRefetchWordArrival (w : BusWord) (s : State) : Host.Outcome State Fault Refusal :=
  match s.mside with
  | .own (.intake (.refetch req)) got =>
    if got < 4 then
      .next (refetchArrival req got w (s.setMside (.own (.intake (.refetch req)) (got + 1))))
    else .fault .noSuchTransfer
  | .own (.intake (.probe _)) _ | .own (.class1 _) _ | .own (.load _) _ | .own (.render _) _
  | .free | .controller _ => .fault .noSuchTransfer

/-- The number of ring lines a record touches (R152). -/
def refetchLines (s : State) : Nat :=
  (s.intake.p + recordWords s - 1) / 4 - s.intake.p / 4 + 1

/-- The effect of the completion of a refetch line (R152, R153). -/
def refetchEffect (s : State) : State :=
  match s.intake.state, s.intake.anchor with
  | .fetching r, some x =>
    match r.headerBad with
    | some kind => halt kind s
    | none =>
      if r.line + 1 < refetchLines s then
        handIntake (.refetch (refetchReq x s (r.line + 1)))
          (s.setIntake { s.intake with state := .fetching { r with line := r.line + 1 } })
      else match r.bodyBad with
        | some a => endRecord (some .parity) (advancedP s) (giveReport (.parity .probe a) s)
        | none => enterExecuting s
  | _, _ => handDeferred s

/-- REFETCH_LINE_COMPLETE. -/
def execRefetchLineComplete (s : State) : Host.Outcome State Fault Refusal :=
  match s.mside with
  | .own (.intake (.refetch _)) got =>
    if got = 4 then .next (completeOwn refetchEffect s) else .fault .noSuchTransfer
  | .own (.intake (.probe _)) _ | .own (.class1 _) _ | .own (.load _) _ | .own (.render _) _
  | .free | .controller _ => .fault .noSuchTransfer

end Sys2Proof.Machine
end

