-- ==== Sys2Proof/Machine/BusEvents.lean ====
section
/-! DEFINITION. The controller side and the display path: requests, words and completions, the capture, the
read-index latch, the anchor watch, and the words a display fetch returns (R85 to R87, R110, R114,
R119 to R125, R162). -/
namespace Sys2Proof.Machine
open Sys2Proof

/-! ## The request (R114) -/

/-- C_SIDE_REQUEST: the request waits for the arbiter, which grants it at once at a free M-side when
nothing else contends (R114, R128). -/
def execCSideRequest (r : BusReq) (s : State) : Host.Outcome State Fault Refusal :=
  if !r.aligned then .fault .misaligned
  else match s.cside.state with
    | .idle => .next (finish (s.setCside ⟨.waiting r, s.cside.returned⟩))
    | .waiting _ | .active _ => .fault .cSideBusy

/-! ## Stores (R114, R122 to R125) -/

/-- C_STORE_WORD: a word of an accepted store passes to memory as it arrives (R114). -/
def execCStoreWord (w : BusWord) (s : State) : Host.Outcome State Fault Refusal :=
  match s.cside.state with
  | .active t =>
    if !reqIsFetch t.req && t.moved.length < reqWordCount t.req then
      .next (s.setCside { s.cside with state := .active { t with moved := t.moved ++ [w] } })
    else .fault .noSuchTransfer
  | .idle | .waiting _ => .fault .noSuchTransfer

/-- The words of a transaction with their addresses, in the order sent. -/
def sentWords (t : CTxn) : List (Nat × BusWord) := (reqWordAddrs t.req).zip t.moved

/-- The enables that count for every word of a store: all four for a line store (R122). -/
def storeEnables : BusReq → BitVec 4
  | .wordStore _ e => e
  | .lineStore _ _ | .lineFetch _ _ => 15

/-- The address of the first word with bad parity. -/
def firstBad (bigEndian : Bool) (ws : List (Nat × BusWord)) : Option Nat :=
  (ws.find? fun w => !wordGood bigEndian w.2).map Prod.fst

/-- The capture entries of a store: its good words (R122). -/
def captureEntries (bigEndian : Bool) (t : CTxn) : List CapEntry :=
  ((sentWords t).filter fun w => wordGood bigEndian w.2).map fun w =>
    ⟨BitVec.ofNat 32 w.1, w.2.data, storeEnables t.req, false⟩

/-- The offer of a script-ring store for capture (R122). -/
def offerCapture (t : CTxn) (s : State) : State :=
  captureWords (captureEntries (byteOrder s) t)
    (giveReport? ((firstBad (byteOrder s) (sentWords t)).map (Report.parity .capture)) s)

/-- The captured read index takes a value handed from control word 0, clamped (R162). -/
def latchIndex (v : Nat) (s : State) : State :=
  match s.reports.ring with
  | none => s
  | some r =>
    handReport (s.setReports
      { s.reports with read := if v < r.entries then v else r.entries - 1 }.followIndexes)

/-- Word 0 of the control line in a store of that class: the word at the anchor plus 16 (R123). -/
def controlWord0 (t : CTxn) : Option (Nat × BusWord) :=
  (sentWords t).find? fun w => w.1 == (reqAddr t.req).toNat

/-- The offer of a store into control word 0 to the read-index latch (R123). -/
def offerLatch (t : CTxn) (s : State) : State :=
  match controlWord0 t with
  | none => s
  | some (a, w) =>
    if !wordGood (byteOrder s) w then giveReport (.parity .capture a) s
    else if storeEnables t.req = 15 then latchIndex w.data.toNat s else s

/-- The word at a position of the line of a line store. -/
def wordAtPos (t : CTxn) (i : Nat) : Option BusWord :=
  ((sentWords t).find? fun w => w.1 % 16 == 4 * i).map Prod.snd

/-- The signature words of the anchor line (R171). -/
def anchorWord0 : Word := 0x6E1BF0D4
def anchorWord1 : Word := 0x91E40F2B
def anchorCheck : Word := 0x3C5AA5C3

/-- The words of an anchor line have good parity, all by one of the two byte orders (R112, R124, R170).
No order is known when the line is read and the one it names does not govern it, so that either will
do is the model's choice (log 8). -/
def anchorParityGood (ws : List BusWord) : Bool :=
  ws.all (wordGood false) || ws.all (wordGood true)

/-- The anchor that four line words at an address name, when they carry the signature (R124, R171). The
byte order they name is only handed on. -/
def anchorOf (addr : Nat) (w0 w1 w2 w3 : BusWord) : Option Anchor :=
  let n := bits w2.data 12 0
  if anchorParityGood [w0, w1, w2, w3]
      ∧ w0.data = anchorWord0 ∧ w1.data = anchorWord1 ∧ w3.data = w2.data ^^^ anchorCheck
      ∧ 16 ≤ n ∧ n ≤ 4096 ∧ addr + 32 + 16 * n ≤ addressSpace then
    some ⟨BitVec.ofNat 32 addr, n, bit w2.data 31⟩
  else none

/-- The anchor a completed line store carries, at the address where it reached memory (R125). -/
def storeAnchor (t : CTxn) (reached : Nat) : Option Anchor :=
  match t.req with
  | .lineStore _ _ =>
    match wordAtPos t 0, wordAtPos t 1, wordAtPos t 2, wordAtPos t 3 with
    | some w0, some w1, some w2, some w3 => anchorOf reached w0 w1 w2 w3
    | _, _, _, _ => none
  | .lineFetch _ _ | .wordStore _ _ => none

/-- The anchor watch: a latch during CLEARING, an anchoring in UNANCHORED, a re-anchor in ACTIVE or
PARKED (R125, R135 to R137). -/
def anchorWatch (t : CTxn) (reached : Nat) (s : State) : State :=
  match storeAnchor t reached with
  | none => s
  | some x =>
    match s.engine with
    | .off => s
    | .clearing => s.setLatch (some x)
    | .unanchored => attach x s
    | .active | .parked => reanchor x s

/-- What a store's completion hands to the other blocks: the capture or the latch offer, and then
the anchor check (R114, R125). -/
def storeEffect (t : CTxn) (reached : Nat) (s : State) : State :=
  anchorWatch t reached
    (match t.treat with
      | .passed .script => offerCapture t s
      | .passed .control => offerLatch t s
      | .passed .other | .redirected | .display _ => s)

/-- C_STORE_COMPLETE. -/
def execCStoreComplete (s : State) : Host.Outcome State Fault Refusal :=
  match s.cside.state, s.mside with
  | .active t, .controller m =>
    if !reqIsFetch t.req && t.moved.length == reqWordCount t.req then
      .next (completeC (storeEffect t (reqAddr m).toNat) s)
    else .fault .noSuchTransfer
  | _, _ => .fault .noSuchTransfer

/-! ## Passed fetches (R119) -/

/-- A fetch outside the display window. -/
def isPassedFetch (t : CTxn) : Bool :=
  reqIsFetch t.req &&
    match t.treat with
    | .passed _ => true
    | .redirected | .display _ => false

/-- PASSED_FETCH_WORD: the word is returned unchanged (R119). -/
def execPassedFetchWord (w : BusWord) (s : State) : Host.Outcome State Fault Refusal :=
  match s.cside.state with
  | .active t =>
    if isPassedFetch t && t.moved.length < 4 then
      .next (s.setCside ⟨.active { t with moved := t.moved ++ [w] }, s.cside.returned ++ [w]⟩)
    else .fault .noSuchTransfer
  | .idle | .waiting _ => .fault .noSuchTransfer

/-- PASSED_TRANSACTION_COMPLETE. -/
def execPassedTransactionComplete (s : State) : Host.Outcome State Fault Refusal :=
  match s.cside.state with
  | .active t =>
    if isPassedFetch t && t.moved.length == 4 then .next (completeC id s)
    else .fault .noSuchTransfer
  | .idle | .waiting _ => .fault .noSuchTransfer

/-! ## Display fetches (R85 to R87, R110) -/

/-- The words of a page line with their addresses, in order of arrival. -/
def lineWords (line : Addr) (start : Fin 4) (ws : List BusWord) : List (Nat × BusWord) :=
  (wrapAddrs line.toNat start).zip ws

/-- Whether a tint reaches the pixel at column x and row y, of this alpha (R110). -/
def Tint.reaches (t : Tint) (x y alpha : Nat) : Bool :=
  t.rect.x ≤ x && x < t.rect.x + t.rect.w && t.rect.y ≤ y && y < t.rect.y + t.rect.h
    && t.floor ≤ alpha

/-- A front word as it is returned under a tint: a pixel it reaches is blended with fresh parity, any
other is returned as fetched (R46, R85, R110). -/
def tintWord (bigEndian : Bool) (t : Tint) (x y : Nat) (w : BusWord) : BusWord :=
  let c := Argb.ofWord w.data
  if t.reaches x y c.a.toNat then fresh bigEndian (tintPixel t.strength c t.colour).toWord else w

/-- The four words of a one-fetch answer, all of good parity, in order of arrival (R84, R110). -/
def oneFetchWords (bigEndian : Bool) (p : DisplayPlan) (ws : List BusWord) : List BusWord :=
  match p.mix with
  | .tint t => ws.mapIdx fun n w => tintWord bigEndian t (p.col + wrapPos p.start n) p.row w
  | .asFetched | .dissolve _ | .split _ _ => ws

/-- One word of a two-fetch answer, from the retiring and the front word of good parity (R42, R45). -/
def mixWord (bigEndian : Bool) (p : DisplayPlan) (n : Nat) (retiring front : BusWord) : BusWord :=
  match p.mix with
  | .dissolve l =>
    fresh bigEndian (dissolve l (Argb.ofWord retiring.data) (Argb.ofWord front.data)).toWord
  | .split frontBelow boundary =>
    if decide (p.col + wrapPos p.start n < boundary) == frontBelow then fresh bigEndian front.data
    else fresh bigEndian retiring.data
  | .asFetched | .tint _ => front

/-- The four words of a two-fetch answer, in order of arrival. -/
def twoFetchWords (bigEndian : Bool) (p : DisplayPlan) (rs fs : List BusWord) : List BusWord :=
  (rs.zip fs).mapIdx fun n w => mixWord bigEndian p n w.1 w.2

/-- What a display fetch returns, and the address of the bad word it reports (R85 to R87). -/
def displayAnswer (bigEndian : Bool) (p : DisplayPlan) (ws : List BusWord)
    (second : Option (List BusWord)) : List BusWord × Option Nat :=
  let bad := fun line words => firstBad bigEndian (lineWords line p.start words)
  match p.second, second with
  | some line2, some fs =>
    match bad line2 fs, bad p.first ws with
    | some a, _ => (fs, some a)
    | none, some a => (fs, some a)
    | none, none => (twoFetchWords bigEndian p ws fs, none)
  | _, _ =>
    match bad p.first ws with
    | some a => (ws, some a)
    | none => (oneFetchWords bigEndian p ws, none)

/-- Every word of every chosen fetch has arrived (R85). -/
def displayWhole (p : DisplayPlan) (t : CTxn) : Bool :=
  t.moved.length == 4 &&
    match p.second, t.second with
    | none, none => true
    | some _, some fs => fs.length == 4
    | none, some _ | some _, none => false

/-- A word is held; after the last one the four words are returned, with PARITY DISPLAY if a word was
bad (R85, R88). -/
def holdDisplayWord (p : DisplayPlan) (t : CTxn) (s : State) : State :=
  if displayWhole p t then
    let (ws, bad) := displayAnswer (byteOrder s) p t.moved t.second
    giveReport? (bad.map (Report.parity .display)) (s.setCside ⟨.active t, ws⟩)
  else s.setCside { s.cside with state := .active t }

/-- The transaction after a word of its current page line arrives; none when the line is whole. -/
def displayTake (t : CTxn) (w : BusWord) : Option CTxn :=
  match t.second with
  | none => if t.moved.length < 4 then some { t with moved := t.moved ++ [w] } else none
  | some fs => if fs.length < 4 then some { t with second := some (fs ++ [w]) } else none

/-- DISPLAY_WORD_ARRIVAL. -/
def execDisplayWordArrival (w : BusWord) (s : State) : Host.Outcome State Fault Refusal :=
  match s.cside.state with
  | .active t =>
    match t.treat, displayTake t w with
    | .display p, some t' => .next (finish (holdDisplayWord p t' s))
    | _, _ => .fault .noSuchTransfer
  | .idle | .waiting _ => .fault .noSuchTransfer

/-- DISPLAY_FIRST_FETCH_COMPLETE: the front-line fetch is issued under the same grant (R121). -/
def execDisplayFirstFetchComplete (s : State) : Host.Outcome State Fault Refusal :=
  match s.cside.state with
  | .active t =>
    match t.treat, t.second with
    | .display p, none =>
      match p.second with
      | some line2 =>
        if t.moved.length = 4 then
          .next ((s.setCside { s.cside with state := .active { t with second := some [] } }).setMside
            (.controller (.lineFetch line2 p.start)))
        else .fault .noSuchTransfer
      | none => .fault .noSuchTransfer
    | _, _ => .fault .noSuchTransfer
  | .idle | .waiting _ => .fault .noSuchTransfer

/-- DISPLAY_FETCH_COMPLETE: the C-side transaction completes and the M-side is free (R114, R121). -/
def execDisplayFetchComplete (s : State) : Host.Outcome State Fault Refusal :=
  match s.cside.state with
  | .active t =>
    match t.treat with
    | .display p => if displayWhole p t then .next (completeC id s) else .fault .noSuchTransfer
    | .passed _ | .redirected => .fault .noSuchTransfer
  | .idle | .waiting _ => .fault .noSuchTransfer

end Sys2Proof.Machine
end

