-- ==== Sys2Proof/Machine/LoadEvents.lean ====
section
/-! DEFINITION. The colour load: words, lines and completion (R14 to R17). -/
namespace Sys2Proof.Machine
open Sys2Proof

/-- The entry that the word at an address goes to, when the load needs that word (R14). -/
def loadEntry (l : Load) (addr : Nat) : Option (Fin Config.entryCount) :=
  if l.source ≤ addr ∧ addr < l.source + 4 * l.count then
    idBelow Config.entryCount (l.first + (addr - l.source) / 4)
  else none

/-- A needed word with bad parity: its entry is kept, and the first of its line gives PARITY (R15). -/
def badLoadWord (l : Load) (addr : Nat) (s : State) : State :=
  let s1 := s.setColours { s.colours with load := some { l with lineBad := true, anyBad := true } }
  if l.lineBad then s1 else giveReport (.parity .load addr) s1

/-- A word of a load arrives (R14, R15); with a reset due its data is discarded (R17). -/
def loadWord (addr : Nat) (w : BusWord) (s : State) : State :=
  match s.colours.load with
  | none => s
  | some l =>
    if s.resetDue then s
    else match loadEntry l addr with
      | none => s
      | some i =>
        if wordGood (byteOrder s) w then s.setColours (s.colours.write l.table i (Argb.ofWord w.data))
        else badLoadWord l addr s

/-- LOAD_WORD_ARRIVAL. -/
def execLoadWordArrival (w : BusWord) (s : State) : Host.Outcome State Fault Refusal :=
  match s.mside with
  | .own (.load r) got =>
    if got < 4 then
      .next (finish (loadWord (r.line.toNat + 4 * wrapPos r.start got) w
        (s.setMside (.own (.load r) (got + 1)))))
    else .fault .noSuchTransfer
  | .own (.class1 _) _ | .own (.intake _) _ | .own (.render _) _ | .free | .controller _ =>
    .fault .noSuchTransfer

/-- The line is the last of the load (R14). -/
def lastLoadLine (l : Load) (r : LineReq) : Bool :=
  l.source + 4 * l.count ≤ r.line.toNat + 16

/-- The next line fetch of the load is requested, from word 0 (R14). -/
def nextLoadLine (r : LineReq) (s : State) : State :=
  match s.colours.load with
  | none => s
  | some l =>
    handLoad ⟨r.line + 16, 0⟩
      (s.setColours { s.colours with load := some { l with lineBad := false } })

/-- LOAD_LINE_COMPLETE: a line other than the last; with a reset due any line (log 14). -/
def execLoadLineComplete (s : State) : Host.Outcome State Fault Refusal :=
  match s.mside, s.colours.load with
  | .own (.load r) got, some l =>
    if got = 4 ∧ (s.resetDue ∨ !lastLoadLine l r) then .next (completeOwn (nextLoadLine r) s)
    else .fault .noSuchTransfer
  | _, _ => .fault .noSuchTransfer

/-- The completion of a load: its flag cleared, the placements indexed on its table marked, and the
record's end, with RECORD_FAULT(PARITY) when a needed word was bad (R15, R16). -/
def endLoad (s : State) : State :=
  match s.colours.load with
  | none => s
  | some l =>
    let s1 := s.setColours
      { s.colours with load := none, inFlight := s.colours.inFlight.set l.table false }
    endRecord (if l.anyBad then some .parity else none) (advancedP s) (markIndexed l.table s1)

/-- LOAD_COMPLETE. -/
def execLoadComplete (s : State) : Host.Outcome State Fault Refusal :=
  match s.mside, s.colours.load with
  | .own (.load r) got, some l =>
    if got = 4 ∧ lastLoadLine l r then .next (completeOwn endLoad s) else .fault .noSuchTransfer
  | _, _ => .fault .noSuchTransfer

end Sys2Proof.Machine
end

