-- ==== Sys2Proof/Machine/RenderEvents.lean ====
section
/-! DEFINITION. The render engine's events: object words, fetch completions, row stores and tiles
(R62 to R67, R10, R51). -/
namespace Sys2Proof.Machine
open Sys2Proof

/-- The application in progress of the tile in flight, with its flight and the entries to come. -/
def currentApp (s : State) : Option (Flight × App × List Placement) :=
  match s.render.flight with
  | some f =>
    match f.phase with
    | .applying a rest => some (f, a, rest)
    | .storing _ => none
  | none => none

/-- Replaces the application in progress. -/
def setApp (f : Flight) (a : App) (rest : List Placement) (s : State) : State :=
  s.setRender { s.render with flight := some { f with phase := .applying a rest } }

/-- The application after a word at an address arrives, and whether that word (or one that arrived
before and is now known to be read) is a used word with bad parity, at which address (R9, R65). -/
def App.takeWord (a : App) (bigEndian : Bool) (addr : Nat) (w : BusWord) : App × Option Nat :=
  match a.data with
  | .words got =>
    if !wordNeeded a addr then (a, none)
    else if wordGood bigEndian w then ({ a with data := .words (got ++ [(addr, w.data)]) }, none)
    else (a, some addr)
  | .run8 d =>
    let d' := d.arrive bigEndian a.entry a.c1 addr w
    ({ a with data := .run8 d' }, match d'.status with | .bad x => some x | _ => none)

/-- The decode of an application has come to its end, so that it reads no further word (R8, R64). -/
def App.decodeStopped (a : App) : Bool :=
  match a.data with
  | .run8 d => d.status != .needByte
  | .words _ => false

/-- The decode of an application stopped short (R8). -/
def App.isShort (a : App) : Bool :=
  match a.data with
  | .run8 d => d.status == .short
  | .words _ => false

/-- A shortfall makes the object FAULTY with cause SHORT (R10, R65). -/
def faultIfShort (a : App) (s : State) : State :=
  if a.isShort then objectFault a.obj .short s else s

/-- A word of object data arrives: a used word with bad parity gives PARITY RENDER, makes the object
FAULTY and ends the application; a word that leaves the decode short makes the object FAULTY, and the
application goes on to its completion (R9, R10, R65). -/
def objectWord (addr : Nat) (w : BusWord) (s : State) : State :=
  match currentApp s with
  | none => s
  | some (f, a, rest) =>
    if a.ended || a.decodeStopped || s.resetDue then s
    else match a.takeWord (byteOrder s) addr w with
      | (a', none) => faultIfShort a' (setApp f a' rest s)
      | (a', some bad) =>
        objectFault a.obj .parity
          (giveReport (.parity .render bad) (setApp f { a' with ended := true } rest s))

/-- OBJECT_WORD_ARRIVAL. -/
def execObjectWordArrival (w : BusWord) (s : State) : Host.Outcome State Fault Refusal :=
  match s.mside with
  | .own (.render (.fetch r)) got =>
    if got < 4 then
      .next (finish (objectWord (r.line.toNat + 4 * wrapPos r.start got) w
        (s.setMside (.own (.render (.fetch r)) (got + 1)))))
    else .fault .noSuchTransfer
  | .own (.render (.store _ _ _)) _ | .own (.class1 _) _ | .own (.intake _) _ | .own (.load _) _
  | .free | .controller _ => .fault .noSuchTransfer

/-- The next fetch of an application after the completion of the fetch of a line, if it needs one
(R63, R64). -/
def App.nextFetch (a : App) (r : LineReq) : Option (App × LineReq) :=
  match a.data with
  | .words _ =>
    if r.line.toNat + 16 ≤ lastByte a then some (a, ⟨r.line + 16, 0⟩) else none
  | .run8 d =>
    match d.status with
    | .needByte => some ({ a with data := .run8 { d with line := [] } }, lineReqAt d.pos)
    | .complete | .short | .bad _ => none

/-- The application is laid over its span, and the engine takes the next entry of the row, finding
its object afresh (R62, R65). -/
def applyApp (pl : Plane) (f : Flight) (a : App) (rest : List Placement) (s : State) : State :=
  advanceRow pl { f with pixels := applySpan s a (tileLeft pl f.tile) f.pixels } rest s

/-- The effect of the completion of an object-data fetch (R65, R67). -/
def objectFetchEffect (r : LineReq) (s : State) : State :=
  match currentApp s, s.tiles.plane with
  | some (f, a, rest), some pl =>
    if a.ended then advanceRow pl f rest s
    else match a.nextFetch r with
      | some (a', next) => setFlight { f with phase := .applying a' rest } (.fetch next) s
      | none => applyApp pl f a rest s
  | _, _ => s

/-- OBJECT_FETCH_COMPLETE. -/
def execObjectFetchComplete (s : State) : Host.Outcome State Fault Refusal :=
  match s.mside with
  | .own (.render (.fetch r)) got =>
    if got = 4 then .next (completeOwn (objectFetchEffect r) s) else .fault .noSuchTransfer
  | .own (.render (.store _ _ _)) _ | .own (.class1 _) _ | .own (.intake _) _ | .own (.load _) _
  | .free | .controller _ => .fault .noSuchTransfer

/-- The tile in flight with the line of its row whose store is outstanding. -/
def currentStore (s : State) : Option (Flight × Nat) :=
  match s.render.flight with
  | some f =>
    match f.phase with
    | .storing n => some (f, n)
    | .applying _ _ => none
  | none => none

/-- The store is the last of the tile: line 15 of row 7 (R66). -/
def lastStore (f : Flight) (n : Nat) : Bool := f.row == 7 && n == 15

/-- The effect of the completion of a tile-line store that is not the tile's last (R66). -/
def renderStoreEffect (s : State) : State :=
  match currentStore s, s.tiles.plane with
  | some (f, n), some pl =>
    if n < 15 then handRowStore pl f (n + 1) s else beginRow pl f.page f.tile (f.row + 1) s
  | _, _ => s

/-- RENDER_STORE_COMPLETE: any store but the tile's last; with a reset due any store (log 14). -/
def execRenderStoreComplete (s : State) : Host.Outcome State Fault Refusal :=
  match s.mside, currentStore s with
  | .own (.render (.store _ _ _)) _, some (f, n) =>
    if s.resetDue ∨ !lastStore f n then .next (completeOwn renderStoreEffect s)
    else .fault .noSuchTransfer
  | _, _ => .fault .noSuchTransfer

/-- The state of a tile at its completion (R66). -/
def TileState.completed : TileState → TileState
  | .busy => .clean
  | .busyStale => .dirty
  | .clean => .clean
  | .dirty => .dirty

/-- The completion of a tile: CLEAN or DIRTY, the scan pointer at the tile after it (R66). -/
def completeTile (pl : Plane) (f : Flight) (s : State) : State :=
  (s.setTiles (s.tiles.setPage f.page
    ((s.tiles.ofPage f.page).modify f.tile TileState.completed))).setRender
      ⟨(f.tile + 1) % pl.tileCount, none⟩

/-- The completion steps of a tile, and then a SETUP PLANE that waited for it (R51, R66). -/
def tileEffect (s : State) : State :=
  match currentStore s, s.tiles.plane with
  | some (f, _), some pl =>
    let t := completeTile pl f s
    if planeWaits t then carryOut planeEffect t else t
  | _, _ => s

/-- TILE_COMPLETE. -/
def execTileComplete (s : State) : Host.Outcome State Fault Refusal :=
  match s.mside, currentStore s with
  | .own (.render (.store _ _ _)) _, some (f, n) =>
    if lastStore f n then .next (completeOwn tileEffect s) else .fault .noSuchTransfer
  | _, _ => .fault .noSuchTransfer

end Sys2Proof.Machine
end

