-- ==== Sys2Proof/Machine/ReportEvents.lean ====
section
/-! DEFINITION. The completion of the report unit's and the control line's stores (R142, R165). -/
namespace Sys2Proof.Machine
open Sys2Proof

/-- The report unit after a report line store completes: a queued report leaves the queue, and the
write index moves on with the attention line (R165, R168). -/
def ReportUnit.lineDone (u : ReportUnit) (overflow : Bool) (entries : Nat) : ReportUnit :=
  { u with
    queue := if overflow then u.queue else u.queue.tail,
    write := (u.write + 1) % entries, inHand := none }.followIndexes

/-- The effect of the completion of a report line store (R165). -/
def reportStoreEffect (s : State) : State :=
  match s.reports.ring, s.reports.inHand with
  | some r, some ov =>
    let s1 := s.setReports (s.reports.lineDone ov r.entries)
    handReport (handControl .reportIndex (BitVec.ofNat 32 s1.reports.write) s1)
  | _, _ => s

/-- REPORT_STORE_COMPLETE. -/
def execReportStoreComplete (s : State) : Host.Outcome State Fault Refusal :=
  match s.mside with
  | .own (.class1 (.reportLine _ _ _)) _ => .next (completeOwn reportStoreEffect s)
  | .own (.class1 (.control _ _ _ _)) _ | .own (.intake _) _ | .own (.load _) _ | .own (.render _) _
  | .free | .controller _ => .fault .noSuchTransfer

/-- CONTROL_WORD_STORE_COMPLETE: the store frees the M-side (R142). -/
def execControlWordStoreComplete (s : State) : Host.Outcome State Fault Refusal :=
  match s.mside with
  | .own (.class1 (.control _ _ _ _)) _ => .next (completeOwn id s)
  | .own (.class1 (.reportLine _ _ _)) _ | .own (.intake _) _ | .own (.load _) _ | .own (.render _) _
  | .free | .controller _ => .fault .noSuchTransfer

end Sys2Proof.Machine
end

