-- ==== Sys2Proof/Machine/Dispatch.lean ====
section
/-! DEFINITION. One arm for each command: its meaning, called directly. -/
namespace Sys2Proof.Machine
open Sys2Proof

def exec (i : Instr) (s : State) : Host.Outcome State Fault Refusal :=
  match i with
  | .pad => Sys2Proof.Machine.execPad s
  | .wrap => Sys2Proof.Machine.execWrap s
  | .sceneReset => Sys2Proof.Machine.execSceneReset s
  | .park => Sys2Proof.Machine.execPark s
  | .setupPlane => Sys2Proof.Machine.execSetupPlane s
  | .setupReports => Sys2Proof.Machine.execSetupReports s
  | .setColour => Sys2Proof.Machine.execSetColour s
  | .loadColours => Sys2Proof.Machine.execLoadColours s
  | .defineObject => Sys2Proof.Machine.execDefineObject s
  | .dropObject => Sys2Proof.Machine.execDropObject s
  | .place => Sys2Proof.Machine.execPlace s
  | .move => Sys2Proof.Machine.execMove s
  | .setOpacity => Sys2Proof.Machine.execSetOpacity s
  | .remove => Sys2Proof.Machine.execRemove s
  | .defineButton => Sys2Proof.Machine.execDefineButton s
  | .buttonLook => Sys2Proof.Machine.execButtonLook s
  | .enableButton => Sys2Proof.Machine.execEnableButton s
  | .disableButton => Sys2Proof.Machine.execDisableButton s
  | .deleteButton => Sys2Proof.Machine.execDeleteButton s
  | .keyDirection => Sys2Proof.Machine.execKeyDirection s
  | .keyEnter => Sys2Proof.Machine.execKeyEnter s
  | .select => Sys2Proof.Machine.execSelect s
  | .showRecord => Sys2Proof.Machine.execShow s
  | .batchOpen => Sys2Proof.Machine.execBatchOpen s
  | .batchClose => Sys2Proof.Machine.execBatchClose s
  | .frameStart => Sys2Proof.Machine.execFrameStart s
  | .settleEnd => Sys2Proof.Machine.execSettleEnd s
  | .transitionDone => Sys2Proof.Machine.execTransitionDone s
  | .holdEnd => Sys2Proof.Machine.execHoldEnd s
  | .resetAssert => Sys2Proof.Machine.execResetAssert s
  | .resetRelease => Sys2Proof.Machine.execResetRelease s
  | .clearingSweepEnd => Sys2Proof.Machine.execClearingSweepEnd s
  | .urgentLine asserted => Sys2Proof.Machine.execUrgentLine asserted s
  | .cSideRequest req => Sys2Proof.Machine.execCSideRequest req s
  | .cStoreWord w => Sys2Proof.Machine.execCStoreWord w s
  | .cStoreComplete => Sys2Proof.Machine.execCStoreComplete s
  | .passedFetchWord w => Sys2Proof.Machine.execPassedFetchWord w s
  | .passedTransactionComplete => Sys2Proof.Machine.execPassedTransactionComplete s
  | .displayWordArrival w => Sys2Proof.Machine.execDisplayWordArrival w s
  | .displayFirstFetchComplete => Sys2Proof.Machine.execDisplayFirstFetchComplete s
  | .captureDrain => Sys2Proof.Machine.execCaptureDrain s
  | .probeComplete w0 w1 w2 w3 => Sys2Proof.Machine.execProbeComplete w0 w1 w2 w3 s
  | .refetchWordArrival w => Sys2Proof.Machine.execRefetchWordArrival w s
  | .refetchLineComplete => Sys2Proof.Machine.execRefetchLineComplete s
  | .loadWordArrival w => Sys2Proof.Machine.execLoadWordArrival w s
  | .loadLineComplete => Sys2Proof.Machine.execLoadLineComplete s
  | .loadComplete => Sys2Proof.Machine.execLoadComplete s
  | .objectWordArrival w => Sys2Proof.Machine.execObjectWordArrival w s
  | .objectFetchComplete => Sys2Proof.Machine.execObjectFetchComplete s
  | .renderStoreComplete => Sys2Proof.Machine.execRenderStoreComplete s
  | .tileComplete => Sys2Proof.Machine.execTileComplete s
  | .reportStoreComplete => Sys2Proof.Machine.execReportStoreComplete s
  | .controlWordStoreComplete => Sys2Proof.Machine.execControlWordStoreComplete s
  | .displayFetchComplete => Sys2Proof.Machine.execDisplayFetchComplete s

end Sys2Proof.Machine
end

