-- ==== Sys2Proof/Safety.lean ====
section
/-! DEFINITION. The invariants of the part, and the words in which the statements say what a command
changes and what it leaves. -/
namespace Sys2Proof.Machine
open Sys2Proof

/-! ## Invariants -/

/-- An UNDEFINED entry has its other fields 0, and any other has sides of 1 to 2048 (R1, R2). -/
def ObjEntry.Sound (e : ObjEntry) : Prop :=
  if e.state = .undefined then e = ObjEntry.undef
  else 1 ≤ e.width ∧ e.width ≤ 2048 ∧ 1 ≤ e.height ∧ e.height ≤ 2048

/-- Every entry of the object directory is sound. -/
def ObjectsSound (s : State) : Prop := ∀ id : Fin Config.objectCount, s.objects[id].Sound

/-- The list is ordered by layer and id, and no id stands in it twice (R19). -/
def ListSound (s : State) : Prop :=
  s.list.Pairwise fun p q => placedBefore p q = true ∧ p.id ≠ q.id

/-- The selected button is defined and enabled; with no selection nothing is counted; and the phase
stays below the period of the look in use (R98, R107). -/
def ButtonsSound (s : State) : Prop :=
  (match s.buttons.selection with
    | some b => s.buttons.selectable b = true
    | none => s.buttons.activated = false ∧ s.buttons.hold = 0)
  ∧ (match lookInUse s.buttons with
    | some l => s.buttons.phase = 0 ∨ s.buttons.phase < l.period
    | none => s.buttons.phase = 0)

/-- An anchor's ring has 16 to 4096 lines and lies within the address space (R124). -/
def Anchor.Legal (x : Anchor) : Prop :=
  16 ≤ x.lines ∧ x.lines ≤ 4096 ∧ x.addr.toNat + 32 + 16 * x.lines ≤ 2 ^ 32

/-- The capture queue holds at most 16 entries, P names a word of the ring, and anchors are legal
(R144, R145, R146). -/
def IntakeSound (s : State) : Prop :=
  s.intake.queue.length ≤ 16
  ∧ (∀ x, s.intake.anchor = some x → x.Legal ∧ s.intake.p < 4 * x.lines)
  ∧ (∀ x, s.latch = some x → x.Legal)

/-- With no ring the report unit is at its values of R159; with one, its indexes name slots, its
queue holds at most 8 reports and the counts of lost reports are in range (R146, R159, R163). -/
def ReportsSound (s : State) : Prop :=
  match s.reports.ring with
  | none => s.reports = ReportUnit.empty
  | some r =>
    4 ≤ r.entries ∧ r.entries ≤ 1024 ∧ s.reports.write < r.entries ∧ s.reports.read < r.entries
    ∧ s.reports.queue.length ≤ 8 ∧ s.reports.lost ≤ 65535
    ∧ (s.reports.overflow = false → s.reports.firstLost = 0 ∧ s.reports.lost = 0)
    ∧ (s.reports.inHand = some false → s.reports.queue ≠ [])

/-- The attention line is asserted while the ring is set and the indexes differ (R168); that this holds
after the store of a stale value of control word 2 too is the model's choice (log 31). -/
def AttentionFollows (s : State) : Prop :=
  s.reports.attention = true ↔ (s.reports.ring.isSome = true ∧ s.reports.write ≠ s.reports.read)

/-- A transition has a length of 1 to 255 and a settle of at most 15 (R75). -/
def TransSpec.Legal (t : TransSpec) : Prop := 1 ≤ t.len ∧ t.len ≤ 255 ∧ t.settle ≤ 15

/-- The pending transition is legal, and a running one has its phase in range and its level as R80
gives it. -/
def PageSound (s : State) : Prop :=
  (∀ t, s.page.pendingShow = some t → t.Legal)
  ∧ ∀ r, s.page.running = some r → r.spec.Legal ∧
    match r.phase with
    | .settle n => 1 ≤ n ∧ n ≤ r.spec.settle ∧ r.level = 0
    | .ramp k => k < r.spec.len ∧ r.level = 1024 * k / r.spec.len

/-- A colour load runs just while the intake's record waits for it, and outside reset a table's flag is
set just while the load is into it (R11, R13, R16, R155). -/
def LoadSound (s : State) : Prop :=
  (s.colours.load.isSome = true ↔ s.intake.state = .executing .loading)
  ∧ (s.engine = .off ∨ s.engine = .clearing ∨ ∀ k : Fin Config.tableCount,
      (s.colours.inFlight[k] = true ↔ s.colours.load.map Load.table = some k))

/-- The share and the passover count are at most 15 (R130, R132). -/
def CountsSound (s : State) : Prop := s.share ≤ 15 ∧ s.passover ≤ 15

/-- The sizes and bases of a plane are those SETUP PLANE admits (R49). -/
def Plane.Legal (pl : Plane) : Prop :=
  pl.width % 64 = 0 ∧ 64 ≤ pl.width ∧ pl.width ≤ 1920
  ∧ pl.height % 8 = 0 ∧ 8 ≤ pl.height ∧ pl.height ≤ 1080
  ∧ pl.baseA.toNat % 256 = 0 ∧ pl.baseB.toNat % 256 = 0
  ∧ pl.baseA.toNat + pl.width * pl.height * 4 ≤ 2 ^ 32
  ∧ pl.baseB.toNat + pl.width * pl.height * 4 ≤ 2 ^ 32

/-- The tile is in flight. -/
def TileState.inFlight : TileState → Bool
  | .busy | .busyStale => true
  | .clean | .dirty => false

/-- The tile states of the page that is shown, and of the other one. -/
def frontTiles (s : State) : List TileState := s.tiles.ofPage s.page.front
def backTiles (s : State) : List TileState := s.tiles.ofPage (backPage s)

/-- The flight's page is the back page, its row and line are in range, its row holds 64 pixels, and
its tile is the one tile in flight of the back page. -/
def FlightSound (s : State) (pl : Plane) (f : Flight) : Prop :=
  f.page = backPage s ∧ f.row < 8 ∧ f.pixels.length = 64 ∧ f.tile < pl.tileCount
  ∧ s.page.running = none ∧ (∀ n, f.phase = .storing n → n < 16)
  ∧ ∀ (k : Nat) (st : TileState), (backTiles s)[k]? = some st → (st.inFlight = true ↔ k = f.tile)

/-- With no plane its five fields are 0 and there is no tile state and no tile in flight; with one, both
pages have a state for each tile, no front tile is in flight, at most one back tile is, and none while a
transition runs (R48, R53, R54, R58, R81). -/
def TilesSound (s : State) : Prop :=
  (planeWaits s = true → planeFieldsOk (planeFields s) = true)
  ∧ match s.tiles.plane with
    | none => s.tiles.fields = ⟨0, 0, 0, 0, ⟨0, 0, 0, 0⟩⟩ ∧ s.tiles.a = [] ∧ s.tiles.b = []
      ∧ s.render.flight = none
    | some pl =>
      pl.Legal ∧ s.tiles.a.length = pl.tileCount ∧ s.tiles.b.length = pl.tileCount
      ∧ s.render.scan < pl.tileCount
      ∧ (∀ st ∈ frontTiles s, st.inFlight = false)
      ∧ match s.render.flight with
        | none => ∀ st ∈ backTiles s, st.inFlight = false
        | some f => FlightSound s pl f

/-- A look's tint has the premultiplied property and its strengths are at most 256 (R36, R94). -/
def Look.Sound (l : Look) : Prop := l.tint.premultiplied = true ∧ l.high ≤ 256 ∧ l.low ≤ 256

/-- The clear colour, the tints and every pixel of the row in hand have the premultiplied property
(R36, R41). -/
def PixelsSound (s : State) : Prop :=
  (∀ pl, s.tiles.plane = some pl → pl.clear.premultiplied = true)
  ∧ (∀ f, s.render.flight = some f → ∀ c ∈ f.pixels, c.premultiplied = true)
  ∧ ∀ b : Fin Config.buttonCount,
    (∀ l, s.buttons.entries[b].selectedLook = some l → l.Sound)
    ∧ (∀ l, s.buttons.entries[b].activatedLook = some l → l.Sound)

/-- A ring is held just while the engine is ACTIVE or PARKED, the plane and the report ring rest on
it, the engine is OFF just in BYPASS, and in BYPASS no own work waits or is carried (R116, R118, R134). -/
def EngineSound (s : State) : Prop :=
  (s.intake.anchor.isSome = true ↔ s.engine = .active ∨ s.engine = .parked)
  ∧ (s.intake.state = .absent ↔ s.intake.anchor = none)
  ∧ (s.tiles.plane.isSome = true → s.intake.anchor.isSome = true)
  ∧ (s.reports.ring.isSome = true → s.intake.anchor.isSome = true)
  ∧ (s.path = .bypass ↔ s.engine = .off)
  ∧ (s.path = .bypass → s.waiting = OwnWaiting.empty ∧ ∀ o n, s.mside ≠ .own o n)

/-- At most one store of each control-line word waits, at its place in the control line with all four
enables set, and every class 1 store carries fresh parity (R126, R129, R142, R164). -/
def Class1Sound (s : State) : Prop :=
  (∀ n, (s.waiting.class1.filter (Class1.isControl n)).length ≤ 1)
  ∧ (∀ n a e w, Class1.control n a e w ∈ s.waiting.class1 →
    ∃ x, s.intake.anchor = some x ∧ a = controlAddr x.addr n ∧ e = 15
      ∧ w = fresh x.bigEndian w.data)
  ∧ ∀ a p ws, Class1.reportLine a p ws ∈ s.waiting.class1 →
    ∃ x, s.intake.anchor = some x ∧ p = 0 ∧ ws.length = 4
      ∧ ∀ w ∈ ws, w = fresh x.bigEndian w.data

def MSide.isController : MSide → Bool
  | .controller _ => true
  | .free | .own _ _ => false

def CState.isActive : CState → Bool
  | .active _ => true
  | .idle | .waiting _ => false

def CState.isWaiting : CState → Bool
  | .waiting _ => true
  | .idle | .active _ => false

/-- The M-side carries a controller transaction just while one is in progress on the C-side (R114). -/
def BusSound (s : State) : Prop := s.mside.isController = s.cside.state.isActive

/-- No request waits at a free M-side (R128). -/
def ArbiterServed (s : State) : Prop :=
  s.mside = .free →
    s.cside.state.isWaiting = false ∧ (s.path = .service → selectOwn s.waiting = none)

/-- While the render state is RENDERING a tile is in flight (R60). -/
def TileTaken (s : State) : Prop := renderState s = .rendering → s.render.flight.isSome = true

/-- A report or an OVERFLOW that could be handed has been (R164). -/
def ReportTaken (s : State) : Prop :=
  s.reports.ring.isSome = true → s.reports.inHand = none → s.reports.full = false →
    s.reports.queue = [] ∧ s.reports.overflow = false

/-! ## What a command leaves unchanged -/

/-- The command queue, the input lines, the path state, the latch and the frame counter. -/
def SameOuter (s t : State) : Prop :=
  t.pending = s.pending ∧ t.resetLine = s.resetLine ∧ t.resetDue = s.resetDue
  ∧ t.urgent = s.urgent ∧ t.path = s.path ∧ t.latch = s.latch ∧ t.frames = s.frames

/-- The object directory, the colour tables, the composition list and the button table. -/
def SameTables (s t : State) : Prop :=
  t.objects = s.objects ∧ t.colours = s.colours ∧ t.list = s.list ∧ t.buttons = s.buttons

/-- The engine state, the share and page control. -/
def SameControl (s t : State) : Prop :=
  t.engine = s.engine ∧ t.share = s.share ∧ t.page = s.page

/-- A busy M-side stays as it is, with the C-side and the passover count. -/
def BusKept (s t : State) : Prop :=
  s.mside ≠ .free → t.mside = s.mside ∧ t.cside = s.cside ∧ t.passover = s.passover

/-- While the M-side is busy, a waiting colour-load fetch stays as it is. -/
def LoadKept (s t : State) : Prop := s.mside ≠ .free → t.waiting.load = s.waiting.load

/-! ## Requests handed -/

/-- A store of this control-line word at its place in the control line, with this value, all enables set
and fresh parity, waits in class 1 or is on the M-side (R126, R142). -/
def ControlHanded (n : ControlWord) (v : Word) (t : State) : Prop :=
  ∃ x store, t.intake.anchor = some x
    ∧ store = Class1.control n (controlAddr x.addr n) 15 (fresh x.bigEndian v)
    ∧ (store ∈ t.waiting.class1 ∨ t.mside = .own (.class1 store) 0)

/-- This intake fetch waits at the arbiter or is on the M-side. -/
def FetchHanded (f : IntakeFetch) (t : State) : Prop :=
  t.waiting.intake = some f ∨ t.mside = .own (.intake f) 0

/-- This colour-load fetch waits at the arbiter or is on the M-side. -/
def LoadHanded (r : LineReq) (t : State) : Prop :=
  t.waiting.load = some r ∨ t.mside = .own (.load r) 0

/-- This render request waits at the arbiter or is on the M-side. -/
def RenderHanded (r : RenderReq) (t : State) : Prop :=
  t.waiting.render = some r ∨ t.mside = .own (.render r) 0

/-- A fetch the intake needs in the event from s: handed, or kept until the outstanding one
completes (R154). -/
def FetchDue (f : IntakeFetch) (s t : State) : Prop :=
  if intakeOutstanding s then t.intake.deferred = some f
  else FetchHanded f t ∧ t.intake.deferred = none

/-! ## Rows of a tile -/

/-- The row of the flight f goes on with these entries of the list (R61, R66): the first that applies
begins its fetches, and when none does the row's first line is stored. -/
def RowGoesOn (pl : Plane) (f : Flight) (l : List Placement) (s t : State) : Prop :=
  ((∀ p ∈ l, startApp s pl f.tile f.row p = none)
    ∧ t.render.flight = some { f with phase := .storing 0 }
    ∧ RenderHanded (.store (BitVec.ofNat 32 (tileLineAddr pl f.page f.tile f.row 0)) 0
        (rowLineWords (byteOrder s) f.pixels 0)) t)
  ∨ ∃ pre p rest a, l = pre ++ p :: rest ∧ (∀ q ∈ pre, startApp s pl f.tile f.row q = none)
      ∧ startApp s pl f.tile f.row p = some a
      ∧ t.render.flight = some { f with phase := .applying a rest }
      ∧ RenderHanded (.fetch (firstFetch a)) t

/-! ## Tiles taken -/

/-- The tile map and the render engine stand as given, but that, none being in flight, the first DIRTY tile
of the back page from the scan pointer on may have been taken and its row 0 begun at the clear colour
with the list as it stands (R39, R60, R61). That the taking comes after the event's other effects, its
markings among them, is the model's choice (log 30), in every statement that says TookFrom, TilesKept
or TilesMarked. -/
def TookFrom (tiles : TileMap) (render : RenderEngine) (back : Page) (t : State) : Prop :=
  (t.tiles = tiles ∧ t.render = render)
  ∨ (render.flight = none ∧ renderHeld t = false ∧ ∃ (k : Nat) (pl : Plane),
      tiles.plane = some pl
      ∧ (tiles.ofPage back)[k]? = some .dirty
      ∧ (∀ j : Nat, (tiles.ofPage back)[j]? = some .dirty →
        if render.scan ≤ k then j < render.scan ∨ k ≤ j else j < render.scan ∧ k ≤ j)
      ∧ t.tiles = tiles.setPage back ((tiles.ofPage back).set k .busy)
      ∧ t.render.scan = render.scan
      ∧ RowGoesOn pl ⟨k, back, 0, List.replicate 64 pl.clear, .storing 0⟩ t.list t t)

/-- No tile is marked; one may be taken. -/
def TilesKept (s t : State) : Prop := TookFrom s.tiles s.render (backPage s) t

/-- Just these sets of tiles are marked on both pages; a tile may be taken (R55, R60). -/
def TilesMarked (rects : List TileRect) (s t : State) : Prop :=
  TookFrom (mark rects s).tiles s.render (backPage s) t

/-! ## Records -/

/-- The intake holds a record of this kind, ready to be carried out, on the ring of x, within the
ring (R151, R155). -/
def InHand (k : RecKind) (x : Anchor) (s : State) : Prop :=
  s.intake.anchor = some x ∧ holdsRecord k s = true
  ∧ s.intake.p + recordWords s ≤ 4 * x.lines

/-- P past the record in hand; an advance that reaches 4n gives 0 (R145). -/
def nextIndex (x : Anchor) (s : State) : Nat := (s.intake.p + recordWords s) % (4 * x.lines)

/-- The end of a record, with P at its new value (R157). -/
structure RecordEnded (x : Anchor) (newP : Nat) (s t : State) : Prop where
  anchor : t.intake.anchor = some x
  p : t.intake.p = newP
  expected : t.intake.expected = s.intake.expected + 1
  queue : t.intake.queue = []
  slots : t.intake.slots = emptySlots
  suspect : t.intake.suspect = false
  state : t.intake.state = .probing
  index : ControlHanded .scriptIndex (BitVec.ofNat 32 newP) t
  probe : FetchDue (.probe (lineReqAt (ringAddr x newP))) s t

/-- A record carried out: its end, and what no record but those named changes. -/
def CarriedOut (x : Anchor) (s t : State) : Prop :=
  RecordEnded x (nextIndex x s) s t ∧ SameOuter s t ∧ BusKept s t ∧ LoadKept s t

/-- The record in hand is refused or skipped with a fault: RECORD_FAULT with its P and kind, its end,
and no other effect (R155, R157, R158). -/
def RefusedWith (c : RecCause) (x : Anchor) (s : State)
    (o : Host.Outcome State Fault Refusal) : Prop :=
  ∃ t, o = .next t ∧ CarriedOut x s t ∧ SameTables s t ∧ SameControl s t ∧ TilesKept s t
    ∧ t.reports
      = (giveReport (.recordFault c s.intake.p (bits s.intake.header 31 24)) s).reports

/-- The part is attached to the ring of x (R136). -/
structure Attached (x : Anchor) (t : State) : Prop where
  anchor : t.intake.anchor = some x
  p : t.intake.p = 0
  expected : t.intake.expected = 0
  queue : t.intake.queue = []
  slots : t.intake.slots = emptySlots
  suspect : t.intake.suspect = false
  state : t.intake.state = .probing
  engine : t.engine = .active
  index : ControlHanded .scriptIndex 0 t
  report : ControlHanded .reportIndex 0 t
  word : ControlHanded .stateWord (stateWord t) t
  probe : FetchHanded (.probe (lineReqAt (ringAddr x 0))) t

/-- The control-line stores of an attachment to the ring of x, in their order (R136, R142). -/
def attachStores (x : Anchor) (t : State) : List Class1 :=
  [.control .scriptIndex (x.addr + 20) 15 (fresh x.bigEndian 0),
    .control .reportIndex (x.addr + 24) 15 (fresh x.bigEndian 0),
    .control .stateWord (x.addr + 28) 15 (fresh x.bigEndian (stateWord t))]

/-- The first store of an attachment is on the M-side, and the two others and the probe are all the own
work that waits (R129, R133, R136). -/
def AttachmentIssued (x : Anchor) (t : State) : Prop :=
  ∃ c rest, attachStores x t = c :: rest ∧ t.mside = .own (.class1 c) 0
    ∧ t.waiting = ⟨rest, some (.probe (lineReqAt (ringAddr x 0))), none, none⟩

/-! ## Records with many checks -/

/-- The plane a SETUP PLANE record names, its clear colour premultiplied (R36, R174). -/
def planeNamed (s : State) : Plane :=
  ⟨(body s 1).toNat, (body s 2).toNat, body s 3, body s 4, premultiply (Argb.ofWord (body s 5))⟩

/-- Two ranges, each a first byte and a length, have a byte in common (R50). -/
def RangesMeet (b1 l1 b2 l2 : Nat) : Prop :=
  ∃ n, b1 ≤ n ∧ n < b1 + l1 ∧ b2 ≤ n ∧ n < b2 + l2

/-- A range is clear of the anchor line, the control line and the script ring (R50, R160). -/
def ClearOfAnchor (x : Anchor) (base len : Nat) : Prop :=
  ¬ RangesMeet base len x.addr.toNat 16 ∧ ¬ RangesMeet base len (x.addr.toNat + 16) 16
  ∧ ¬ RangesMeet base len (x.addr.toNat + 32) (16 * x.lines)

/-- The bytes of a page of a plane. -/
def Plane.bytes (pl : Plane) : Nat := pl.width * pl.height * 4

/-- A page is clear of the anchor's ranges and of the report ring (R50). -/
def PageClear (s : State) (x : Anchor) (base len : Nat) : Prop :=
  ClearOfAnchor x base len
  ∧ ∀ r, s.reports.ring = some r → ¬ RangesMeet base len r.base.toNat (16 * r.entries)

/-- The pages of a plane are clear of each other and of every other range (R50). -/
def PlaneClear (s : State) (x : Anchor) (pl : Plane) : Prop :=
  ¬ RangesMeet pl.baseA.toNat pl.bytes pl.baseB.toNat pl.bytes
  ∧ PageClear s x pl.baseA.toNat pl.bytes ∧ PageClear s x pl.baseB.toNat pl.bytes

/-- A report ring passes the field checks (R160). -/
def RingLegal (s : State) (base entries : Nat) : Prop :=
  s.reports.ring = none ∧ base % 16 = 0 ∧ 4 ≤ entries ∧ entries ≤ 1024
  ∧ base + 16 * entries ≤ 2 ^ 32

/-- A report ring is clear of the anchor's ranges and of both pages (R160). -/
def RingClear (s : State) (x : Anchor) (base entries : Nat) : Prop :=
  ClearOfAnchor x base (16 * entries)
  ∧ ∀ pl, s.tiles.plane = some pl →
    ¬ RangesMeet base (16 * entries) pl.baseA.toNat pl.bytes
    ∧ ¬ RangesMeet base (16 * entries) pl.baseB.toNat pl.bytes

/-- Size, address and length of an object pass the checks of R2. -/
def ObjectLegal (c : Coding) (w h addr len : Nat) : Prop :=
  1 ≤ w ∧ w ≤ 2048 ∧ 1 ≤ h ∧ h ≤ 2048 ∧ addr + len ≤ 2 ^ 32
  ∧ if c = .run8 then addr % 4 = 0 ∧ 4 * h ≤ len
    else addr % 16 = 0 ∧ (w * c.pixelBits + 127) / 128 * 16 * h ≤ len

/-- A source of colours and a count pass the checks of R13; `n` is the count after the clamp. -/
def LoadLegal (count n source : Nat) : Prop :=
  count ≠ 0 ∧ source % 4 = 0 ∧ source + 4 * n ≤ 2 ^ 32

/-! ## Cleared state -/

/-- The scene tables are empty (R1, R11, R18, R89). -/
def ScenesEmpty (t : State) : Prop :=
  (∀ id : Fin Config.objectCount, t.objects[id] = ⟨.undefined, .direct32, 0, 0, 0, 0, 0⟩)
  ∧ (∀ (k : Fin Config.tableCount) (i : Fin Config.entryCount),
      t.colours.entries[k][i] = ⟨0, 0, 0, 0⟩)
  ∧ (∀ k : Fin Config.tableCount, t.colours.inFlight[k] = false) ∧ t.colours.load = none
  ∧ t.list = []
  ∧ (∀ b : Fin Config.buttonCount, t.buttons.entries[b]
      = ⟨false, false, ⟨⟨0, 0, 0, 0⟩, none, none, none, none, 0, 0, none, none, false, 0⟩,
          none, none, none⟩)
  ∧ t.buttons.selection = none ∧ t.buttons.hold = 0 ∧ t.buttons.phase = 0

/-- Plane unset, all its fields 0, page control at its first values, report ring unset (R48, R56, R60,
R72, R159). -/
def UnitsCleared (t : State) : Prop :=
  t.tiles = ⟨false, ⟨0, 0, 0, 0, ⟨0, 0, 0, 0⟩⟩, [], [], false⟩
  ∧ t.render.scan = 0 ∧ t.render.flight = none
  ∧ t.page.front = .a ∧ t.page.batchOpen = false ∧ t.page.pendingShow = none
  ∧ t.page.running = none
  ∧ t.reports = ⟨none, 0, 0, [], 0, false, 0, 0, none, false⟩ ∧ t.reports.entries = 0

/-- BYPASS has begun (R116, R134): the engine OFF, own requests dropped, the work in progress and the
report unit gone, the scene tables, the frame counter, the share and the urgent line as they were
(log 11); where the line was released meanwhile, SERVICE and CLEARING have been entered through it, with
G 4 and the count 0 (R117, log 9). -/
structure BypassBegun (s t : State) : Prop where
  path : t.path = if t.resetLine then .bypass else .service
  engine : t.engine = if t.resetLine then .off else .clearing
  share : t.share = if t.resetLine then s.share else 4
  passover : t.passover = if t.resetLine then s.passover else 0
  resetDue : t.resetDue = false
  latch : t.latch = none
  waiting : t.waiting = OwnWaiting.empty
  intake : t.intake = Intake.absent
  reports : t.reports = ⟨none, 0, 0, [], 0, false, 0, 0, none, false⟩
  render : t.render = ⟨0, none⟩
  tiles : t.tiles = ⟨false, ⟨0, 0, 0, 0, ⟨0, 0, 0, 0⟩⟩, [], [], false⟩
  load : t.colours.load = none
  running : t.page.running = none
  objects : t.objects = s.objects
  entries : t.colours.entries = s.colours.entries
  inFlight : t.colours.inFlight = s.colours.inFlight
  list : t.list = s.list
  buttons : t.buttons = s.buttons
  frames : t.frames = s.frames
  urgent : t.urgent = s.urgent

/-! ## Frame starts -/

/-- The rectangle shown by the tint after a flip: a defined button's, clipped to the plane (R93). -/
def displayedAfterFlip (pl : Plane) (e : Button) : Option Rect :=
  if e.defined then
    some ⟨e.body.rect.x, e.body.rect.y,
      if e.body.rect.x < pl.width then min e.body.rect.w (pl.width - e.body.rect.x) else 0,
      if e.body.rect.y < pl.height then min e.body.rect.h (pl.height - e.body.rect.y) else 0⟩
  else none

/-! ## Stores of the controller, and commits -/

/-- A C-side store in SERVICE has sent all of its words, reaching memory as m; `due` says whether a reset
is due. -/
def StoreWhole (due : Bool) (s : State) (t : CTxn) (m : BusReq) : Prop :=
  s.cside.state = .active t ∧ s.mside = .controller m ∧ reqIsFetch t.req = false
  ∧ t.moved.length = reqWordCount t.req ∧ s.path = .service ∧ s.resetDue = due

/-- The completion of a C-side transaction with a reset due has begun BYPASS, the M-side free and the C-side
idle (R116). -/
def BypassAtCompletion (s t : State) : Prop :=
  BypassBegun s t ∧ t.mside = .free ∧ t.cside = ⟨.idle, s.cside.returned⟩

/-- The event a word or completion command names may arrive in the state: a transaction of its kind is in
progress and the number of its words that have moved is the right one (R113 to R115, log 4). -/
def UnderWay (c : Instr) (s : State) : Prop :=
  match c with
  | .cStoreWord _ => ∃ t, s.cside.state = .active t ∧ reqIsFetch t.req = false
      ∧ t.moved.length < reqWordCount t.req
  | .cStoreComplete => ∃ t m, s.cside.state = .active t ∧ s.mside = .controller m
      ∧ reqIsFetch t.req = false ∧ t.moved.length = reqWordCount t.req
  | .passedFetchWord _ => ∃ t k, s.cside.state = .active t ∧ reqIsFetch t.req = true
      ∧ t.treat = .passed k ∧ t.moved.length < 4
  | .passedTransactionComplete => ∃ t k, s.cside.state = .active t ∧ reqIsFetch t.req = true
      ∧ t.treat = .passed k ∧ t.moved.length = 4
  | .displayWordArrival _ => ∃ t p, s.cside.state = .active t ∧ t.treat = .display p
      ∧ ((t.second = none ∧ t.moved.length < 4) ∨ ∃ fs, t.second = some fs ∧ fs.length < 4)
  | .displayFirstFetchComplete => ∃ t p, s.cside.state = .active t ∧ t.treat = .display p
      ∧ p.second.isSome = true ∧ t.second = none ∧ t.moved.length = 4
  | .displayFetchComplete => ∃ t p, s.cside.state = .active t ∧ t.treat = .display p
      ∧ t.moved.length = 4 ∧ ((p.second = none ∧ t.second = none)
        ∨ ∃ fs, p.second.isSome = true ∧ t.second = some fs ∧ fs.length = 4)
  | .probeComplete _ _ _ _ => ∃ r n, s.mside = .own (.intake (.probe r)) n
  | .refetchWordArrival _ => ∃ r n, s.mside = .own (.intake (.refetch r)) n ∧ n < 4
  | .refetchLineComplete => ∃ r, s.mside = .own (.intake (.refetch r)) 4
  | .loadWordArrival _ => ∃ r n, s.mside = .own (.load r) n ∧ n < 4
  | .loadLineComplete => ∃ r l, s.mside = .own (.load r) 4 ∧ s.colours.load = some l
      ∧ (s.resetDue = true ∨ r.line.toNat + 16 < l.source + 4 * l.count)
  | .loadComplete => ∃ r l, s.mside = .own (.load r) 4 ∧ s.colours.load = some l
      ∧ l.source + 4 * l.count ≤ r.line.toNat + 16
  | .objectWordArrival _ => ∃ r n, s.mside = .own (.render (.fetch r)) n ∧ n < 4
  | .objectFetchComplete => ∃ r, s.mside = .own (.render (.fetch r)) 4
  | .renderStoreComplete => ∃ a p ws k f n, s.mside = .own (.render (.store a p ws)) k
      ∧ s.render.flight = some f ∧ f.phase = .storing n
      ∧ (s.resetDue = true ∨ ¬ (f.row = 7 ∧ n = 15))
  | .tileComplete => ∃ a p ws k f, s.mside = .own (.render (.store a p ws)) k
      ∧ s.render.flight = some f ∧ f.phase = .storing 15 ∧ f.row = 7
  | .reportStoreComplete => ∃ a p ws n, s.mside = .own (.class1 (.reportLine a p ws)) n
  | .controlWordStoreComplete => ∃ k a e w n, s.mside = .own (.class1 (.control k a e w)) n
  | .captureDrain => s.intake.queue ≠ []
  | _ => True

/-- A taken record skipped with a fault, P at its new value (R151, R155, R157, R158). -/
def SkippedWith (c : RecCause) (x : Anchor) (h : Word) (newP : Nat) (s t : State) : Prop :=
  RecordEnded x newP s t
  ∧ t.reports = (giveReport (.recordFault c s.intake.p (bits h 31 24)) s).reports

/-- A whole record enters EXECUTING, or is skipped for its kind or size (R155). -/
def EntersExecuting (x : Anchor) (h : Word) (s t : State) : Prop :=
  match kindOfCode (bits h 31 24) with
  | none =>
    SkippedWith .kind x h ((s.intake.p + sizeWords (bits h 23 21)) % (4 * x.lines)) s t
  | some k =>
    if kindWords k ≠ none ∧ kindWords k ≠ some (sizeWords (bits h 23 21)) then
      SkippedWith .size x h ((s.intake.p + sizeWords (bits h 23 21)) % (4 * x.lines)) s t
    else
      t.intake.state = .executing .ready ∧ t.intake.header = h ∧ t.intake.p = s.intake.p
      ∧ t.intake.expected = s.intake.expected ∧ t.reports = s.reports

/-- What a commit of the header h comes to, with the slots as they stand (R140, R150, R151): a PARKED
engine wakes; a record past the ring's end is skipped with BOUNDS and P 0; a record whole in the buffer
enters EXECUTING; any other is refetched from the word at P. -/
def CommitOutcome (x : Anchor) (h : Word) (slots : Vector (Option Word) Config.slotCount)
    (s t : State) : Prop :=
  t.engine = (if s.engine = .parked then .active else s.engine)
  ∧ if 4 * x.lines < s.intake.p + sizeWords (bits h 23 21) then SkippedWith .bounds x h 0 s t
    else if s.intake.suspect = false
        ∧ ∀ i : Fin 16, 1 ≤ i.val → i.val < sizeWords (bits h 23 21) → slots[i].isSome = true then
      EntersExecuting x h s t
        ∧ (t.intake.state = .executing .ready →
          t.intake.slots = slots ∧ t.intake.deferred = none)
    else
      t.intake.state = .fetching ⟨0, none, none⟩ ∧ t.intake.header = h
      ∧ t.intake.p = s.intake.p ∧ t.intake.expected = s.intake.expected
      ∧ t.reports = s.reports
      ∧ FetchDue (.refetch (lineReqAt (ringAddr x s.intake.p))) s t

/-- The intake halts at P on a bad header with this kind field (R153). -/
def Halted (x : Anchor) (kind : Nat) (s t : State) : Prop :=
  t.intake.state = .halted ∧ t.intake.queue = [] ∧ t.intake.slots = emptySlots
  ∧ t.intake.deferred = none ∧ t.intake.anchor = some x ∧ t.intake.p = s.intake.p
  ∧ t.intake.expected = s.intake.expected
  ∧ t.reports = (giveReport (.recordFault .parity s.intake.p kind)
      (giveReport (.parity .probe (ringAddr x s.intake.p)) s)).reports

/-- A completed intake fetch that is no longer wanted: a fetch that waited for it is handed, and nothing
else of the intake changes (R154). -/
def Disregarded (s t : State) : Prop :=
  t.reports = s.reports
  ∧ (s.intake.deferred = none → t.intake = s.intake)
  ∧ ∀ f, s.intake.deferred = some f → FetchHanded f t ∧ t.intake.deferred = none
      ∧ t.intake.state = s.intake.state ∧ t.intake.p = s.intake.p
      ∧ t.intake.expected = s.intake.expected ∧ t.intake.slots = s.intake.slots
      ∧ t.intake.queue = s.intake.queue ∧ t.intake.header = s.intake.header

/-! ## Faults of objects -/

/-- An object of a READY entry becomes FAULTY, its report after those already given, and the placements
that show it marked; an entry that is not READY is left as it is (R10). -/
def ObjectFaulted (id : Fin Config.objectCount) (c : ObjCause) (given s t : State) : Prop :=
  if s.objects[id].state = .ready then
    t.objects = s.objects.set id { s.objects[id] with state := .faulty }
    ∧ t.reports = (giveReport (.objectFault c id) given).reports
    ∧ t.tiles = (mark (footprintsOf s (shows s id)) s).tiles
  else t.objects = s.objects ∧ t.reports = given.reports ∧ t.tiles = s.tiles

/-! ## Geometry -/

/-- The placement covers the pixel at column px and row py of the plane (R22). -/
def Covers (s : State) (pl : Plane) (p : Placement) (px py : Nat) : Prop :=
  px < pl.width ∧ py < pl.height ∧
    ∃ id, currentObject s p = some id ∧ s.objects[id].state ≠ .undefined
      ∧ p.x ≤ px ∧ (px : Int) ≤ p.x + s.objects[id].width - 1
      ∧ p.y ≤ py ∧ (py : Int) ≤ p.y + s.objects[id].height - 1

/-- The tile that holds a pixel (R53). -/
def tileAt (pl : Plane) (px py : Nat) : Nat := py / 8 * (pl.width / 64) + px / 64

/-- The button that so many steps along the links in a direction lead to (R102). -/
def linkPath (bt : ButtonTable) (k : Key) (b : Fin Config.buttonCount) : Nat → Link
  | 0 => some b
  | m + 1 =>
    match linkPath bt k b m with
    | some q => bt.entries[q].link k
    | none => none

/-- A walk from b reaches n: n is the first button along the links that may be selected, within 48
steps and before b comes again (R102). -/
def WalkReaches (bt : ButtonTable) (k : Key) (b n : Fin Config.buttonCount) : Prop :=
  ∃ m, 1 ≤ m ∧ m ≤ 48 ∧ linkPath bt k b m = some n ∧ n ≠ b ∧ bt.selectable n = true
    ∧ ∀ j, 1 ≤ j → j < m →
      ∃ q, linkPath bt k b j = some q ∧ q ≠ b ∧ bt.selectable q = false

end Sys2Proof.Machine
end

