-- ==== Sys2Proof/Certificates/Slice0/Obligations.lean ====
section
/-! DEFINITION. The statements for the provers. -/
open Sys2Proof Sys2Proof.Machine

/-! ## The step and the queue -/

/-- The step takes the command at the front of the queue and runs it on the rest; on an empty queue the
part idles, which is the model's choice (log 7). -/
def Obligations.StepRunsFrontCommand : Prop :=
  (∀ (c : Instr) (s : State) (rest : List Instr),
    step (s.setPending (c :: rest)) = exec c (s.setPending rest))
  ∧ ∀ s : State, s.pending = [] → step s = .next s

/-- No command changes the queue of waiting commands (the queue is the model's own, logs 13 and 24); only
URGENT_LINE changes the urgent line, and only the two reset commands change the reset line. The frame
counter: one more at each frame start in UNANCHORED, ACTIVE and PARKED, 0 at the completion of the
clearing sweep, and kept by every other command; that RESET_ASSERT and RESET_RELEASE keep it, as does an
event that begins BYPASS, is the model's choice (log 11), and that SETTLE_END, TRANSITION_DONE and
HOLD_END are frame starts, each counting one, its reading (log 6). A FLIPPED report carries the counter as the
frame start leaves it. A frame start at an engine that is OFF or CLEARING
changes nothing of the counter, page control, the button table, the reports or the tables; in UNANCHORED
and PARKED it only counts the frame. -/
def Obligations.CommandsKeepQueueAndCountFrames : Prop :=
  (∀ (c : Instr) (s t : State), exec c s = .next t → t.pending = s.pending
      ∧ t.urgent = (match c with | .urgentLine b => b | _ => s.urgent)
      ∧ t.resetLine = (match c with | .resetAssert => true | .resetRelease => false | _ => s.resetLine))
  ∧ (((∀ (c : Instr) (s t : State), exec c s = .next t →
        t.frames =
          if c ∈ [.frameStart, .settleEnd, .transitionDone, .holdEnd] then
            if s.engine = .unanchored ∨ s.engine = .active ∨ s.engine = .parked then s.frames + 1
            else s.frames
          else if c = .clearingSweepEnd then 0 else s.frames)
      ∧ ∀ s : State, flipDue s = true →
        ∃ t, exec .frameStart s = .next t
          ∧ t.reports = (giveReport (.flipped s.page.front.other (s.frames + 1)) s).reports)
    ∧ (∀ s : State, s.engine ≠ .active →
        ∃ t, exec .frameStart s = .next t ∧ SameTables s t ∧ SameControl s t ∧ t.reports = s.reports
          ∧ t.intake = s.intake ∧ t.tiles = s.tiles ∧ t.render = s.render ∧ t.path = s.path
          ∧ t.latch = s.latch ∧ t.urgent = s.urgent ∧ t.resetLine = s.resetLine
          ∧ t.resetDue = s.resetDue ∧ BusKept s t ∧ LoadKept s t
          ∧ t.frames = if s.engine = .off ∨ s.engine = .clearing then s.frames else s.frames + 1))

/-! ## Reset -/

/-- The values right after the clearing sweep, with no anchor latched. The released urgent line and the
idle C-side are the model's choice (log 2). -/
def Obligations.ResetLeavesClearedTables : Prop :=
  ScenesEmpty State.reset ∧ UnitsCleared State.reset
  ∧ State.reset.engine = .unanchored ∧ State.reset.latch = none ∧ State.reset.frames = 0
  ∧ State.reset.path = .service ∧ State.reset.share = 4 ∧ State.reset.passover = 0
  ∧ State.reset.intake.anchor = none ∧ State.reset.intake.state = .absent
  ∧ State.reset.mside = .free ∧ State.reset.waiting = OwnWaiting.empty
  ∧ State.reset.urgent = false ∧ State.reset.cside.state = .idle
  ∧ renderState State.reset = .held

/-- Every invariant stated of every step holds at reset. -/
def Obligations.ResetMeetsInvariants : Prop :=
  ObjectsSound State.reset ∧ ListSound State.reset ∧ ButtonsSound State.reset
  ∧ IntakeSound State.reset ∧ ReportsSound State.reset ∧ AttentionFollows State.reset
  ∧ PageSound State.reset ∧ CountsSound State.reset ∧ LoadSound State.reset ∧ TilesSound State.reset
  ∧ PixelsSound State.reset ∧ EngineSound State.reset ∧ Class1Sound State.reset
  ∧ BusSound State.reset ∧ ArbiterServed State.reset ∧ TileTaken State.reset
  ∧ ReportTaken State.reset

/-! ## Pixel arithmetic -/

/-- mul255 is its formula, rounds x × a / 255 to the nearest whole number, has the properties of R35,
and is the product taken in the premultiplied form and the source pixel. -/
def Obligations.Mul255RoundsToNearest : Prop :=
  (∀ x a : Nat, x ≤ 255 → a ≤ 255 →
    mul255 x a = (x * a + 128 + (x * a + 128) / 256) / 256
    ∧ 2 * (255 * mul255 x a) < 2 * (x * a) + 255 ∧ 2 * (x * a) < 2 * (255 * mul255 x a) + 255
    ∧ mul255 x 0 = 0 ∧ mul255 0 a = 0 ∧ mul255 x 255 = x ∧ mul255 255 a = a
    ∧ mul255 x a = mul255 a x ∧ mul255 x a ≤ x ∧ mul255 x a ≤ a
    ∧ ∀ y : Nat, x ≤ y → y ≤ 255 → mul255 x a ≤ mul255 y a)
  ∧ (∀ c : Argb, (premultiply c).a = c.a
    ∧ (premultiply c).r.toNat = mul255 c.r.toNat c.a.toNat
    ∧ (premultiply c).g.toNat = mul255 c.g.toNat c.a.toNat
    ∧ (premultiply c).b.toNat = mul255 c.b.toNat c.a.toNat)
  ∧ ∀ (c : Argb) (o : BitVec 8), (sourcePixel c o).a.toNat = mul255 c.a.toNat o.toNat
    ∧ (sourcePixel c o).r.toNat = mul255 c.r.toNat (sourcePixel c o).a.toNat
    ∧ (sourcePixel c o).g.toNat = mul255 c.g.toNat (sourcePixel c o).a.toNat
    ∧ (sourcePixel c o).b.toNat = mul255 c.b.toNat (sourcePixel c o).a.toNat

/-- The over operation for a premultiplied source: the new channels of R38, whose sums stay within 255,
a premultiplied result on a premultiplied destination, and the limits of R40. -/
def Obligations.OverLaysSourceOnDestination : Prop :=
  ∀ s d : Argb, s.premultiplied = true →
    (layOver s d).a.toNat = s.a.toNat + mul255 d.a.toNat (255 - s.a.toNat)
    ∧ (layOver s d).r.toNat = s.r.toNat + mul255 d.r.toNat (255 - s.a.toNat)
    ∧ (layOver s d).g.toNat = s.g.toNat + mul255 d.g.toNat (255 - s.a.toNat)
    ∧ (layOver s d).b.toNat = s.b.toNat + mul255 d.b.toNat (255 - s.a.toNat)
    ∧ (d.premultiplied = true → (layOver s d).premultiplied = true)
    ∧ (s.a = 0 → layOver s d = d) ∧ (s.a = 255 → layOver s d = s)
    ∧ (d = Argb.transparent → layOver s d = s) ∧ (d.a = 255 → (layOver s d).a = 255)
    ∧ ∀ (c : Argb) (o : BitVec 8), (sourcePixel c o).premultiplied = true

/-- The dissolve is its formula, meets its limits exactly, lies between its inputs, and never turns
back as the level grows. -/
def Obligations.DissolveMeetsLimits : Prop :=
  (∀ (l : Nat) (p q : BitVec 8), l ≤ 1024 →
    (dissolveChannel l p q).toNat = (p.toNat * (1024 - l) + q.toNat * l + 512) / 1024
    ∧ dissolveChannel 0 p q = p ∧ dissolveChannel 1024 p q = q ∧ dissolveChannel l p p = p
    ∧ min p.toNat q.toNat ≤ (dissolveChannel l p q).toNat
    ∧ (dissolveChannel l p q).toNat ≤ max p.toNat q.toNat
    ∧ ∀ l' : Nat, l ≤ l' → l' ≤ 1024 →
      (p.toNat ≤ q.toNat → (dissolveChannel l p q).toNat ≤ (dissolveChannel l' p q).toNat)
      ∧ (q.toNat ≤ p.toNat → (dissolveChannel l' p q).toNat ≤ (dissolveChannel l p q).toNat))
  ∧ ∀ (l : Nat) (p q : Argb),
    dissolve l p q = ⟨dissolveChannel l p.a q.a, dissolveChannel l p.r q.r,
      dissolveChannel l p.g q.g, dissolveChannel l p.b q.b⟩

/-- The wipe frontier: its formula, its range, its limits, and that it never moves back. The side of a pixel
in a wipe, and that a line of four columns has pixels of both sides just when the wipe moves across
columns and its boundary falls inside the line. -/
def Obligations.WipeFrontierAndSides : Prop :=
  (∀ (k : TransKind) (pl : Plane) (l : Nat), l ≤ 1024 →
      (k = .wipeLeft ∨ k = .wipeRight →
        frontier k pl l = pl.width * l / 1024 ∧ frontier k pl l ≤ pl.width
        ∧ frontier k pl 1024 = pl.width)
      ∧ (k = .wipeDown ∨ k = .wipeUp →
        frontier k pl l = pl.height * l / 1024 ∧ frontier k pl l ≤ pl.height
        ∧ frontier k pl 1024 = pl.height)
      ∧ frontier k pl 0 = 0 ∧ ∀ l' : Nat, l ≤ l' → frontier k pl l ≤ frontier k pl l')
  ∧ (∀ (pl : Plane) (l x y : Nat),
      (frontSide .wipeLeft pl l x y = true ↔ x < frontier .wipeLeft pl l)
      ∧ (frontSide .wipeRight pl l x y = true ↔ pl.width - frontier .wipeRight pl l ≤ x)
      ∧ (frontSide .wipeDown pl l x y = true ↔ y < frontier .wipeDown pl l)
      ∧ (frontSide .wipeUp pl l x y = true ↔ pl.height - frontier .wipeUp pl l ≤ y)
      ∧ (∀ i, i < 4 → frontSide .wipeDown pl l (x + i) y = frontSide .wipeDown pl l x y)
      ∧ (∀ i, i < 4 → frontSide .wipeUp pl l (x + i) y = frontSide .wipeUp pl l x y)
      ∧ ((∃ i j, i < 4 ∧ j < 4
            ∧ frontSide .wipeLeft pl l (x + i) y ≠ frontSide .wipeLeft pl l (x + j) y)
          ↔ x < frontier .wipeLeft pl l ∧ frontier .wipeLeft pl l < x + 4)
      ∧ ((∃ i j, i < 4 ∧ j < 4
            ∧ frontSide .wipeRight pl l (x + i) y ≠ frontSide .wipeRight pl l (x + j) y)
          ↔ x < pl.width - frontier .wipeRight pl l ∧ pl.width - frontier .wipeRight pl l < x + 4))

/-- A pixel under a tint: blended, with fresh parity, when it lies in the rectangle and its alpha is at
least the floor, and returned as fetched otherwise; the blend is its formula and meets its limits. -/
def Obligations.TintBlendsPixelsItReaches : Prop :=
  (∀ (be : Bool) (t : Tint) (x y : Nat) (w : BusWord),
    tintWord be t x y w =
      if t.rect.x ≤ x ∧ x < t.rect.x + t.rect.w ∧ t.rect.y ≤ y ∧ y < t.rect.y + t.rect.h
          ∧ t.floor ≤ (Argb.ofWord w.data).a.toNat then
        fresh be (tintPixel t.strength (Argb.ofWord w.data) t.colour).toWord
      else w)
  ∧ (∀ (a : Nat) (c h : Argb), tintPixel a c h
      = ⟨tintChannel a c.a h.a, tintChannel a c.r h.r, tintChannel a c.g h.g,
          tintChannel a c.b h.b⟩)
  ∧ ∀ (a : Nat) (c h : BitVec 8), a ≤ 256 →
    (tintChannel a c h).toNat = (c.toNat * (256 - a) + h.toNat * a + 128) / 256
    ∧ tintChannel 0 c h = c ∧ tintChannel 256 c h = h ∧ tintChannel a c c = c
    ∧ min c.toNat h.toNat ≤ (tintChannel a c h).toNat
    ∧ (tintChannel a c h).toNat ≤ max c.toNat h.toNat

/-! ## Footprints and marking -/

/-- The footprint of a placement is the set of tiles that hold a pixel it covers, and is empty while no
plane is set. A marking makes each tile it reaches DIRTY on both pages, or BUSY_STALE where it is in
flight, sets flip wanted, and changes nothing else; a marking of no tiles, or without a plane, changes
nothing. The current object of a placement, and which placements an event on an object or a colour table
marks. -/
def Obligations.FootprintsAndMarking : Prop :=
  ((∀ (s : State) (pl : Plane) (p : Placement) (k : Nat),
      ObjectsSound s → s.tiles.plane = some pl → pl.Legal → k < pl.tileCount →
        ((∃ r, footprint s p = some r ∧ r.holds pl.tileCols k = true)
          ↔ ∃ px py, Covers s pl p px py ∧ tileAt pl px py = k))
    ∧ ∀ (s : State) (p : Placement), s.tiles.plane = none → footprint s p = none)
  ∧ ((∀ (s : State) (pl : Plane) (rects : List TileRect),
      s.tiles.plane = some pl → rects ≠ [] →
        (∃ a b, mark rects s = s.setTiles { s.tiles with a := a, b := b, flipWanted := true }
          ∧ a.length = s.tiles.a.length ∧ b.length = s.tiles.b.length)
        ∧ ∀ (g : Page) (k : Nat) (st : TileState), (s.tiles.ofPage g)[k]? = some st →
          ((mark rects s).tiles.ofPage g)[k]? = some
            (if ∃ r ∈ rects, r.holds pl.tileCols k = true then
              match st with
              | .clean | .dirty => .dirty
              | .busy | .busyStale => .busyStale
            else st))
    ∧ (∀ s : State, mark [] s = s)
    ∧ ∀ (s : State) (rects : List TileRect), s.tiles.plane = none → mark rects s = s)
  ∧ ∀ (s : State) (p : Placement),
    (∀ id, p.source = .object id → currentObject s p = some id)
    ∧ (∀ b, p.source = .button b → currentObject s p =
        if s.buttons.entries[b].defined = false then none
        else if s.buttons.selection ≠ some b then some s.buttons.entries[b].body.normal
        else if s.buttons.activated = true then
          some (s.buttons.entries[b].body.activated.getD s.buttons.entries[b].body.normal)
        else some (s.buttons.entries[b].body.selected.getD s.buttons.entries[b].body.normal))
    ∧ (∀ id, shows s id p = true ↔ currentObject s p = some id)
    ∧ (∀ k, indexedOn s k p = true ↔ ∃ id, currentObject s p = some id
        ∧ s.objects[id].state ≠ .undefined ∧ s.objects[id].coding ≠ .direct32
        ∧ s.objects[id].table = k)
    ∧ ∀ (which : Placement → Bool) (r : TileRect),
      r ∈ footprintsOf s which ↔ ∃ q ∈ s.list, which q = true ∧ footprint s q = some r

/-! ## Records of control and set-up -/

/-- PAD has no effect beyond its end, and WRAP returns P to 0 at its end. As in every statement on a record,
the record is the one in the intake's buffer (the model's choice, log 5). -/
def Obligations.PadAndWrapOnlyEnd : Prop :=
  ∀ (s : State) (x : Anchor),
    (InHand .pad x s → ∃ t, exec .pad s = .next t ∧ CarriedOut x s t ∧ SameTables s t
      ∧ SameControl s t ∧ t.reports = s.reports ∧ TilesKept s t)
    ∧ (InHand .wrap x s → ∃ t, exec .wrap s = .next t ∧ RecordEnded x 0 s t ∧ SameOuter s t
      ∧ BusKept s t ∧ LoadKept s t ∧ SameTables s t ∧ SameControl s t ∧ t.reports = s.reports
      ∧ TilesKept s t)

/-- SCENE RESET empties the scene tables, makes every tile DIRTY and the one in flight BUSY_STALE with
its application ended, sets flip wanted, closes the batch and makes CUT pending; it keeps the plane,
the front page, a running transition, the report unit, the engine state and the share. That the list is
emptied, R30 notwithstanding, is the model's choice (log 27). -/
def Obligations.SceneResetEmptiesScene : Prop :=
  ∀ (s : State) (x : Anchor), InHand .sceneReset x s →
    ∃ t, exec .sceneReset s = .next t ∧ CarriedOut x s t ∧ ScenesEmpty t
      ∧ t.engine = s.engine ∧ t.share = s.share ∧ t.reports = s.reports
      ∧ t.page = ⟨s.page.front, false, none, s.page.running⟩
      ∧ TookFrom
          ⟨s.tiles.planeSet, s.tiles.fields,
            s.tiles.a.map fun st => if st.inFlight then .busyStale else .dirty,
            s.tiles.b.map fun st => if st.inFlight then .busyStale else .dirty, true⟩
          ⟨s.render.scan, s.render.flight.map (Flight.endApp fun _ => true)⟩ (backPage s) t

/-- PARK parks the engine and ends a running transition with its report. -/
def Obligations.ParkParksAndEndsTransition : Prop :=
  ∀ (s : State) (x : Anchor), InHand .park x s →
    ∃ t, exec .park s = .next t ∧ CarriedOut x s t ∧ SameTables s t ∧ t.engine = .parked
      ∧ t.share = s.share ∧ t.page = { s.page with running := none }
      ∧ t.tiles = s.tiles ∧ t.render = s.render
      ∧ (s.page.running = none → t.reports = s.reports)
      ∧ ∀ r, s.page.running = some r →
        t.reports = (giveReport (.transitionDone r.spec.kind) s).reports

/-- A SETUP PLANE that passes its checks with no tile in flight: the plane and the share are the record's,
every tile is DIRTY, the scan pointer is 0, flip wanted is set, the front page is A and a running
transition has ended without report. A SETUP PLANE that passes its checks while a tile is in flight
stays in execution and changes nothing else; one that fails them is refused, with FIELD before OVERLAP. -/
def Obligations.SetupPlaneSetsPlane : Prop :=
  (∀ (s : State) (x : Anchor), InHand .setupPlane x s → (planeNamed s).Legal →
      PlaneClear s x (planeNamed s) → s.render.flight = none →
        ∃ t, exec .setupPlane s = .next t ∧ CarriedOut x s t ∧ SameTables s t
          ∧ t.engine = s.engine ∧ t.reports = s.reports ∧ t.share = bits s.intake.header 3 0
          ∧ t.page = { s.page with front := .a, running := none }
          ∧ TookFrom
              ⟨true, planeNamed s, List.replicate (planeNamed s).tileCount .dirty,
                List.replicate (planeNamed s).tileCount .dirty, true⟩ ⟨0, none⟩ .b t)
  ∧ (∀ (s : State) (x : Anchor), InHand .setupPlane x s →
      ((planeNamed s).Legal → PlaneClear s x (planeNamed s) → s.render.flight.isSome = true →
        ∃ t, exec .setupPlane s = .next t
          ∧ t.intake = { s.intake with state := .executing .planeWait } ∧ SameOuter s t
          ∧ BusKept s t ∧ LoadKept s t ∧ SameTables s t ∧ SameControl s t ∧ t.reports = s.reports
          ∧ t.tiles = s.tiles ∧ t.render = s.render)
      ∧ (¬ (planeNamed s).Legal → RefusedWith .field x s (exec .setupPlane s))
      ∧ ((planeNamed s).Legal → ¬ PlaneClear s x (planeNamed s) →
        RefusedWith .overlap x s (exec .setupPlane s)))

/-- SETUP REPORTS sets the ring with every index and count at 0, or is refused, FIELD before OVERLAP. -/
def Obligations.SetupReportsSetsRing : Prop :=
  ∀ (s : State) (x : Anchor), InHand .setupReports x s →
    (RingLegal s (body s 1).toNat (body s 2).toNat →
      RingClear s x (body s 1).toNat (body s 2).toNat →
        ∃ t, exec .setupReports s = .next t ∧ CarriedOut x s t ∧ SameTables s t
          ∧ SameControl s t ∧ TilesKept s t
          ∧ t.reports
            = ⟨some ⟨body s 1, (body s 2).toNat⟩, 0, 0, [], 0, false, 0, 0, none, false⟩)
    ∧ (¬ RingLegal s (body s 1).toNat (body s 2).toNat →
      RefusedWith .field x s (exec .setupReports s))
    ∧ (RingLegal s (body s 1).toNat (body s 2).toNat →
      ¬ RingClear s x (body s 1).toNat (body s 2).toNat →
        RefusedWith .overlap x s (exec .setupReports s))

/-! ## Records of colours and objects -/

/-- SET COLOUR writes one entry and marks the placements whose current object is defined, indexed and on
its table. -/
def Obligations.SetColourWritesEntry : Prop :=
  ∀ (s : State) (x : Anchor) (k : Fin 8) (i : Fin 256), InHand .setColour x s →
    bits s.intake.header 12 9 = k.val → bits s.intake.header 8 0 = i.val →
      ∃ t, exec .setColour s = .next t ∧ CarriedOut x s t ∧ SameControl s t
        ∧ t.reports = s.reports ∧ t.objects = s.objects ∧ t.list = s.list
        ∧ t.buttons = s.buttons ∧ t.colours.inFlight = s.colours.inFlight
        ∧ t.colours.load = s.colours.load
        ∧ t.colours.entries[k][i] = Argb.ofWord (body s 1)
        ∧ (∀ (k' : Fin 8) (i' : Fin 256), k' ≠ k ∨ i' ≠ i →
          t.colours.entries[k'][i'] = s.colours.entries[k'][i'])
        ∧ TilesMarked (footprintsOf s (indexedOn s k)) s t

/-- LOAD COLOURS, its count clamped, sets the table's flag, asks for the line of its first word from that
word, and stays in execution; a bad count, source, table or entry is refused. -/
def Obligations.LoadColoursBeginsLoad : Prop :=
  ∀ (s : State) (x : Anchor), InHand .loadColours x s →
    (∀ (k : Fin 8) (first : Fin 256), bits s.intake.header 12 9 = k.val →
      bits s.intake.header 8 0 = first.val →
      (LoadLegal (body s 1).toNat (min (body s 1).toNat (256 - first.val)) (body s 2).toNat →
        ∃ t, exec .loadColours s = .next t
          ∧ t.intake = { s.intake with state := .executing .loading }
          ∧ t.colours = ⟨s.colours.entries, s.colours.inFlight.set k true,
              some ⟨k, first.val, min (body s 1).toNat (256 - first.val), (body s 2).toNat,
                false, false⟩⟩
          ∧ LoadHanded
              ⟨BitVec.ofNat 32 ((body s 2).toNat - (body s 2).toNat % 16),
                Fin.ofNat 4 ((body s 2).toNat / 4)⟩ t
          ∧ SameOuter s t ∧ BusKept s t ∧ SameControl s t ∧ t.reports = s.reports
          ∧ t.objects = s.objects ∧ t.list = s.list ∧ t.buttons = s.buttons ∧ TilesKept s t)
      ∧ (¬ LoadLegal (body s 1).toNat (min (body s 1).toNat (256 - first.val))
            (body s 2).toNat →
          RefusedWith .field x s (exec .loadColours s)))
    ∧ (8 ≤ bits s.intake.header 12 9 ∨ 256 ≤ bits s.intake.header 8 0 →
      RefusedWith .field x s (exec .loadColours s))

/-- DEFINE OBJECT writes the entry, READY, or is refused; DROP OBJECT makes it UNDEFINED. Each marks the
placements that show the object before and after, and ends an application of it. The coding values. -/
def Obligations.ObjectRecordsWriteEntry : Prop :=
  [0, 1, 2, 3, 4].map codingOf
    = [some .direct32, some .index8, some .index4, some .index2, some .run8]
  ∧ ∀ (s : State) (x : Anchor) (id : Fin 256), bits s.intake.header 8 0 = id.val →
    (∀ (c : Coding) (k : Fin 8), InHand .defineObject x s →
      codingOf (bits s.intake.header 12 9) = some c → bits (body s 1) 27 24 = k.val →
      (ObjectLegal c (bits (body s 1) 11 0) (bits (body s 1) 23 12) (body s 2).toNat
          (body s 3).toNat →
        ∃ t, exec .defineObject s = .next t ∧ CarriedOut x s t ∧ SameControl s t
          ∧ t.reports = s.reports ∧ t.colours = s.colours ∧ t.list = s.list
          ∧ t.buttons = s.buttons
          ∧ t.objects = s.objects.set id ⟨.ready, c, k, bits (body s 1) 11 0,
              bits (body s 1) 23 12, body s 2, body s 3⟩
          ∧ TookFrom
              (mark (footprintsOf s (shows s id)
                ++ footprintsOf (s.setObjects t.objects) (shows s id)) s).tiles
              ⟨s.render.scan, s.render.flight.map (Flight.endApp fun a => a.obj == id)⟩
              (backPage s) t)
      ∧ (¬ ObjectLegal c (bits (body s 1) 11 0) (bits (body s 1) 23 12) (body s 2).toNat
            (body s 3).toNat →
          RefusedWith .field x s (exec .defineObject s)))
    ∧ (InHand .dropObject x s →
      ∃ t, exec .dropObject s = .next t ∧ CarriedOut x s t ∧ SameControl s t
        ∧ t.reports = s.reports ∧ t.colours = s.colours ∧ t.list = s.list
        ∧ t.buttons = s.buttons
        ∧ t.objects = s.objects.set id ⟨.undefined, .direct32, 0, 0, 0, 0, 0⟩
        ∧ TookFrom (mark (footprintsOf s (shows s id)) s).tiles
            ⟨s.render.scan, s.render.flight.map (Flight.endApp fun a => a.obj == id)⟩
            (backPage s) t)

/-! ## Records of the composition list -/

/-- PLACE makes the placement present with every field of the record, leaves every other placement, keeps
the list in order, and marks the footprints before and after. MOVE and SET OPACITY change the position
and the opacity of a present placement, and REMOVE takes it from the list; an absent id changes nothing.
Each marks the footprints before and after. A signed field is a 16-bit two's complement number. -/
def Obligations.ListRecordsEditPlacements : Prop :=
  (∀ n : Nat, (n < 32768 → signed16 n = n)
    ∧ (32768 ≤ n → n < 65536 → signed16 n = (n : Int) - 65536))
  ∧ (∀ (s : State) (x : Anchor) (id : Fin 128) (src : Source), InHand .place x s →
      bits s.intake.header 7 0 = id.val → bits (body s 3) 7 0 ≤ 63 →
      (match src with
        | .object o => bit (body s 1) 31 = false ∧ bits (body s 1) 7 0 = o.val
        | .button b => bit (body s 1) 31 = true ∧ bits (body s 1) 7 0 = b.val) →
        ∃ t, exec .place s = .next t ∧ CarriedOut x s t ∧ SameControl s t
          ∧ t.reports = s.reports ∧ t.objects = s.objects ∧ t.colours = s.colours
          ∧ t.buttons = s.buttons
          ∧ (∀ p : Placement, p ∈ t.list ↔
            (p.id ≠ id ∧ p ∈ s.list)
            ∨ p = ⟨id, src, signed16 (bits (body s 2) 15 0), signed16 (bits (body s 2) 31 16),
                bits (body s 3) 7 0, BitVec.ofNat 8 (bits (body s 3) 15 8)⟩)
          ∧ (ListSound s → ListSound t)
          ∧ TilesMarked (footprintsOf s (fun p => p.id == id)
              ++ footprintsOf (s.setList t.list) (fun p => p.id == id)) s t)
  ∧ (∀ (s : State) (x : Anchor) (id : Fin 128), bits s.intake.header 7 0 = id.val →
      (InHand .move x s → ∃ t, exec .move s = .next t ∧ CarriedOut x s t ∧ SameControl s t
        ∧ t.reports = s.reports ∧ t.objects = s.objects ∧ t.colours = s.colours
        ∧ t.buttons = s.buttons
        ∧ t.list = s.list.map (fun p => if p.id = id then
            { p with x := signed16 (bits (body s 1) 15 0), y := signed16 (bits (body s 1) 31 16) }
            else p)
        ∧ TilesMarked (footprintsOf s (fun p => p.id == id)
            ++ footprintsOf (s.setList t.list) (fun p => p.id == id)) s t)
      ∧ (InHand .setOpacity x s → ∃ t, exec .setOpacity s = .next t ∧ CarriedOut x s t
        ∧ SameControl s t ∧ t.reports = s.reports ∧ t.objects = s.objects
        ∧ t.colours = s.colours ∧ t.buttons = s.buttons
        ∧ t.list = s.list.map (fun p => if p.id = id then
            { p with opacity := BitVec.ofNat 8 (bits (body s 1) 7 0) } else p)
        ∧ TilesMarked (footprintsOf s (fun p => p.id == id)
            ++ footprintsOf (s.setList t.list) (fun p => p.id == id)) s t)
      ∧ (InHand .remove x s → ∃ t, exec .remove s = .next t ∧ CarriedOut x s t ∧ SameControl s t
        ∧ t.reports = s.reports ∧ t.objects = s.objects ∧ t.colours = s.colours
        ∧ t.buttons = s.buttons ∧ t.list = s.list.filter (fun p => p.id != id)
        ∧ TilesMarked (footprintsOf s (fun p => p.id == id)) s t))

/-! ## Records of the button table -/

/-- DEFINE BUTTON writes the definition of its entry: a new one is enabled, with no look and no displayed
rectangle; a defined one keeps its enabled flag, looks and displayed rectangle. The selection, its
state, the hold and the phase stay. A link field that names no button is none. -/
def Obligations.DefineButtonWritesEntry : Prop :=
  (∀ n v : Nat, (∀ i : Fin n, i.val = v → idBelow n v = some i) ∧ (n ≤ v → idBelow n v = none))
  ∧ ∀ (s : State) (x : Anchor) (b : Fin 48), InHand .defineButton x s →
    bits s.intake.header 7 0 = b.val → bits s.intake.header 8 8 = 1 →
      ∃ t, exec .defineButton s = .next t ∧ CarriedOut x s t ∧ SameControl s t
        ∧ t.reports = s.reports ∧ t.objects = s.objects ∧ t.colours = s.colours
        ∧ t.list = s.list
        ∧ t.buttons = { s.buttons with entries := s.buttons.entries.set b t.buttons.entries[b] }
        ∧ t.buttons.entries[b].defined = true
        ∧ t.buttons.entries[b].body.rect = ⟨bits (body s 1) 15 0, bits (body s 1) 31 16,
            bits (body s 2) 15 0, bits (body s 2) 31 16⟩
        ∧ t.buttons.entries[b].body.up = idBelow 48 (bits (body s 3) 7 0)
        ∧ t.buttons.entries[b].body.down = idBelow 48 (bits (body s 3) 15 8)
        ∧ t.buttons.entries[b].body.left = idBelow 48 (bits (body s 3) 23 16)
        ∧ t.buttons.entries[b].body.right = idBelow 48 (bits (body s 3) 31 24)
        ∧ t.buttons.entries[b].body.holdFrames = bits (body s 4) 31 24
        ∧ t.buttons.entries[b].body.normal.val = bits (body s 4) 7 0
        ∧ t.buttons.entries[b].body.selected
          = (if bits s.intake.header 9 9 = 1 then idBelow 256 (bits (body s 4) 15 8) else none)
        ∧ t.buttons.entries[b].body.activated
          = (if bits s.intake.header 10 10 = 1 then idBelow 256 (bits (body s 4) 23 16) else none)
        ∧ t.buttons.entries[b].body.autoActivate = (bits s.intake.header 11 11 == 1)
        ∧ t.buttons.entries[b].body.command = body s 5
        ∧ (s.buttons.entries[b].defined = true →
          t.buttons.entries[b].enabled = s.buttons.entries[b].enabled
          ∧ t.buttons.entries[b].displayed = s.buttons.entries[b].displayed
          ∧ t.buttons.entries[b].selectedLook = s.buttons.entries[b].selectedLook
          ∧ t.buttons.entries[b].activatedLook = s.buttons.entries[b].activatedLook)
        ∧ (s.buttons.entries[b].defined = false →
          t.buttons.entries[b].enabled = true ∧ t.buttons.entries[b].displayed = none
          ∧ t.buttons.entries[b].selectedLook = none
          ∧ t.buttons.entries[b].activatedLook = none)
        ∧ TilesMarked (footprintsOf s (fun p => p.source == .button b)
            ++ footprintsOf (s.setButtons t.buttons) (fun p => p.source == .button b)) s t

/-- BUTTON LOOK replaces one look of a defined button, its tint premultiplied and its strengths clamped to
256, or makes it absent; the phase becomes 0 when that look is in use, and no tile is marked. -/
def Obligations.ButtonLookSetsLook : Prop :=
  ∀ (s : State) (x : Anchor) (b : Fin 48) (act : Bool), InHand .buttonLook x s →
    bits s.intake.header 7 0 = b.val →
    bits s.intake.header 9 8 = (if act then 2 else 1) → s.buttons.entries[b].defined = true →
      ∃ t, exec .buttonLook s = .next t ∧ CarriedOut x s t ∧ SameControl s t
        ∧ t.reports = s.reports ∧ t.objects = s.objects ∧ t.colours = s.colours
        ∧ t.list = s.list ∧ TilesKept s t
        ∧ t.buttons.entries = s.buttons.entries.set b
            (let look : Option Look :=
              if bits s.intake.header 10 10 = 1 then
                some ⟨premultiply (Argb.ofWord (body s 1)), min 256 (bits (body s 2) 15 0),
                  min 256 (bits (body s 2) 31 16), bits (body s 3) 7 0, bits (body s 3) 15 8,
                  bits (body s 3) 23 16⟩
              else none
             if act then { s.buttons.entries[b] with activatedLook := look }
             else { s.buttons.entries[b] with selectedLook := look })
        ∧ t.buttons.selection = s.buttons.selection ∧ t.buttons.activated = s.buttons.activated
        ∧ t.buttons.hold = s.buttons.hold
        ∧ t.buttons.phase
          = (if s.buttons.selection = some b ∧ s.buttons.activated = act then 0
             else s.buttons.phase)

/-- ENABLE, DISABLE and DELETE BUTTON: an undefined button is left as it is; otherwise the enabled flag is
set, cleared, or the entry made undefined with its looks and displayed rectangle absent, and disabling
or deleting the selected button clears the selection with its report. -/
def Obligations.EnableDisableDeleteButton : Prop :=
  ∀ (s : State) (x : Anchor) (b : Fin 48), bits s.intake.header 7 0 = b.val →
    (InHand .enableButton x s → ∃ t, exec .enableButton s = .next t ∧ CarriedOut x s t
      ∧ SameControl s t ∧ t.reports = s.reports ∧ t.objects = s.objects
      ∧ t.colours = s.colours ∧ t.list = s.list ∧ TilesKept s t
      ∧ t.buttons = { s.buttons with entries := t.buttons.entries }
      ∧ t.buttons.entries = s.buttons.entries.set b
          (if s.buttons.entries[b].defined then { s.buttons.entries[b] with enabled := true }
           else s.buttons.entries[b]))
    ∧ (InHand .disableButton x s → ∃ t, exec .disableButton s = .next t ∧ CarriedOut x s t
      ∧ SameControl s t ∧ t.objects = s.objects ∧ t.colours = s.colours ∧ t.list = s.list
      ∧ (s.buttons.entries[b].defined = false → t.buttons = s.buttons ∧ t.reports = s.reports
        ∧ TilesKept s t)
      ∧ (s.buttons.entries[b].defined = true → s.buttons.selection ≠ some b →
        t.buttons = { s.buttons with
          entries := s.buttons.entries.set b { s.buttons.entries[b] with enabled := false } }
        ∧ t.reports = s.reports ∧ TilesKept s t)
      ∧ (s.buttons.entries[b].defined = true → s.buttons.selection = some b →
        t.buttons = ⟨s.buttons.entries.set b { s.buttons.entries[b] with enabled := false },
          none, false, 0, 0⟩
        ∧ t.reports = (giveReport (.selection none (some b)) s).reports
        ∧ TilesMarked (footprintsOf s (fun p => p.source == .button b)
            ++ footprintsOf (s.setButtons t.buttons) (fun p => p.source == .button b)) s t))
    ∧ (InHand .deleteButton x s → ∃ t, exec .deleteButton s = .next t ∧ CarriedOut x s t
      ∧ SameControl s t ∧ t.objects = s.objects ∧ t.colours = s.colours ∧ t.list = s.list
      ∧ (s.buttons.entries[b].defined = false → t.buttons = s.buttons ∧ t.reports = s.reports
        ∧ TilesKept s t)
      ∧ (s.buttons.entries[b].defined = true →
        t.buttons.entries = s.buttons.entries.set b
          ⟨false, false, s.buttons.entries[b].body, none, none, none⟩
        ∧ TilesMarked (footprintsOf s (fun p => p.source == .button b)) s t
        ∧ (s.buttons.selection ≠ some b → t.reports = s.reports
          ∧ t.buttons.selection = s.buttons.selection
          ∧ t.buttons.activated = s.buttons.activated ∧ t.buttons.hold = s.buttons.hold
          ∧ t.buttons.phase = s.buttons.phase)
        ∧ (s.buttons.selection = some b →
          t.reports = (giveReport (.selection none (some b)) s).reports
          ∧ t.buttons.selection = none ∧ t.buttons.activated = false ∧ t.buttons.hold = 0
          ∧ t.buttons.phase = 0)))

/-- KEY in a direction: discarded during an activation; with no selection it selects the lowest button that
may be selected; with one it selects the button the walk reaches, and activates it when it has
auto-activate. Where no button is reached nothing changes. That a tile is taken after the markings of both
the move and the activation is the model's choice (log 30). The key values, the link of each key, and
which buttons may be selected. -/
def Obligations.KeyDirectionMovesSelection : Prop :=
  [1, 2, 3, 4, 5].map keyOf = [some .up, some .down, some .left, some .right, some .enter]
  ∧ (∀ e : Button, e.link .up = e.body.up ∧ e.link .down = e.body.down
    ∧ e.link .left = e.body.left ∧ e.link .right = e.body.right)
  ∧ (∀ (bt : ButtonTable) (b : Fin 48), bt.selectable b = true
    ↔ bt.entries[b].defined = true ∧ bt.entries[b].enabled = true)
  ∧ ∀ (s : State) (x : Anchor) (k : Key), InHand .key x s →
    keyOf (bits s.intake.header 12 0) = some k → k ≠ .enter →
      ∃ t, exec .keyDirection s = .next t ∧ CarriedOut x s t ∧ SameControl s t
        ∧ t.objects = s.objects ∧ t.colours = s.colours ∧ t.list = s.list
        ∧ t.buttons.entries = s.buttons.entries
        ∧ ((s.buttons.selection.isSome = true ∧ s.buttons.activated = true)
            ∨ (s.buttons.selection = none ∧ ∀ b, s.buttons.selectable b = false)
            ∨ (∃ b, s.buttons.selection = some b ∧ ∀ n, ¬ WalkReaches s.buttons k b n) →
          t.buttons = s.buttons ∧ t.reports = s.reports ∧ TilesKept s t)
        ∧ (∀ n, s.buttons.selection = none → s.buttons.selectable n = true →
          (∀ m, m < n → s.buttons.selectable m = false) →
            t.buttons = ⟨s.buttons.entries, some n, false, 0, 0⟩
            ∧ t.reports = (giveReport (.selection (some n) none) s).reports
            ∧ TilesMarked (footprintsOf s (fun p => p.source == .button n)
                ++ footprintsOf (s.setButtons t.buttons) (fun p => p.source == .button n)) s t)
        ∧ (∀ b n, s.buttons.selection = some b → s.buttons.activated = false →
          WalkReaches s.buttons k b n →
            (s.buttons.entries[n].body.autoActivate = false →
              t.buttons = ⟨s.buttons.entries, some n, false, 0, 0⟩
              ∧ t.reports = (giveReport (.selection (some n) (some b)) s).reports
              ∧ TilesMarked
                  (footprintsOf s (fun p => p.source == .button n || p.source == .button b)
                    ++ footprintsOf (s.setButtons t.buttons)
                      (fun p => p.source == .button n || p.source == .button b)) s t)
            ∧ (s.buttons.entries[n].body.autoActivate = true →
              t.buttons = ⟨s.buttons.entries, some n, true,
                s.buttons.entries[n].body.holdFrames, 0⟩
              ∧ t.reports = (giveReport (.activated n s.buttons.entries[n].body.command)
                  (giveReport (.selection (some n) (some b)) s)).reports
              ∧ ∀ mid, mid = s.setButtons ⟨s.buttons.entries, some n, false, 0, 0⟩ →
                TookFrom
                  (mark (footprintsOf mid (fun p => p.source == .button n)
                      ++ footprintsOf (s.setButtons t.buttons) (fun p => p.source == .button n))
                    (mark (footprintsOf s (fun p => p.source == .button n || p.source == .button b)
                        ++ footprintsOf mid
                          (fun p => p.source == .button n || p.source == .button b)) s)).tiles
                  s.render (backPage s) t))

/-- KEY enter activates a selected button that is not activated, with its hold, the phase 0, its report and
its markings; with no selection or during an activation it changes nothing. SELECT, case by case as R106
tables them, and its refusals. -/
def Obligations.KeyEnterAndSelect : Prop :=
  (∀ (s : State) (x : Anchor), InHand .key x s → bits s.intake.header 12 0 = 5 →
      ∃ t, exec .keyEnter s = .next t ∧ CarriedOut x s t ∧ SameControl s t
        ∧ t.objects = s.objects ∧ t.colours = s.colours ∧ t.list = s.list
        ∧ (s.buttons.selection = none ∨ s.buttons.activated = true →
          t.buttons = s.buttons ∧ t.reports = s.reports ∧ TilesKept s t)
        ∧ ∀ b, s.buttons.selection = some b → s.buttons.activated = false →
          t.buttons = ⟨s.buttons.entries, some b, true, s.buttons.entries[b].body.holdFrames, 0⟩
          ∧ t.reports = (giveReport (.activated b s.buttons.entries[b].body.command) s).reports
          ∧ TilesMarked (footprintsOf s (fun p => p.source == .button b)
              ++ footprintsOf (s.setButtons t.buttons) (fun p => p.source == .button b)) s t)
  ∧ (∀ (s : State) (x : Anchor), InHand .select x s →
      (bits s.intake.header 7 0 = 63 →
        ∃ t, exec .select s = .next t ∧ CarriedOut x s t ∧ SameControl s t
          ∧ t.objects = s.objects ∧ t.colours = s.colours ∧ t.list = s.list
          ∧ (s.buttons.selection = none → t.buttons = s.buttons ∧ t.reports = s.reports
            ∧ TilesKept s t)
          ∧ ∀ b, s.buttons.selection = some b →
            t.buttons = ⟨s.buttons.entries, none, false, 0, 0⟩
            ∧ t.reports = (giveReport (.selection none (some b)) s).reports
            ∧ TilesMarked (footprintsOf s (fun p => p.source == .button b)
                ++ footprintsOf (s.setButtons t.buttons) (fun p => p.source == .button b)) s t)
      ∧ (∀ n : Fin 48, bits s.intake.header 7 0 = n.val → s.buttons.selectable n = true →
        ∃ t, exec .select s = .next t ∧ CarriedOut x s t ∧ SameControl s t
          ∧ t.objects = s.objects ∧ t.colours = s.colours ∧ t.list = s.list
          ∧ (s.buttons.selection = some n → s.buttons.activated = false →
            t.buttons = s.buttons ∧ t.reports = s.reports ∧ TilesKept s t)
          ∧ (s.buttons.selection = some n → s.buttons.activated = true →
            t.buttons = ⟨s.buttons.entries, some n, false, 0, 0⟩ ∧ t.reports = s.reports
            ∧ TilesMarked (footprintsOf s (fun p => p.source == .button n)
                ++ footprintsOf (s.setButtons t.buttons) (fun p => p.source == .button n)) s t)
          ∧ (s.buttons.selection ≠ some n →
            t.buttons = ⟨s.buttons.entries, some n, false, 0, 0⟩
            ∧ t.reports = (giveReport (.selection (some n) s.buttons.selection) s).reports
            ∧ TilesMarked
                (footprintsOf s (fun p => p.source == .button n
                    || s.buttons.selection.any fun q => p.source == .button q)
                  ++ footprintsOf (s.setButtons t.buttons) (fun p => p.source == .button n
                    || s.buttons.selection.any fun q => p.source == .button q)) s t))
      ∧ (bits s.intake.header 7 0 ≠ 63 → 48 ≤ bits s.intake.header 7 0 →
        RefusedWith .field x s (exec .select s))
      ∧ ∀ n : Fin 48, bits s.intake.header 7 0 = n.val → s.buttons.selectable n = false →
        RefusedWith .field x s (exec .select s))

/-! ## Records of page control -/

/-- SHOW makes its transition pending, CUT for kind CUT or length 0, and sets flip wanted, or is refused;
BATCH OPEN and BATCH CLOSE open and close the batch. The kind values of SHOW. -/
def Obligations.ShowAndBatchRecords : Prop :=
  [0, 1, 2, 3, 4, 5].map showKindOf = [some .cut, some (.trans .dissolve), some (.trans .wipeLeft),
    some (.trans .wipeRight), some (.trans .wipeDown), some (.trans .wipeUp)]
  ∧ ∀ (s : State) (x : Anchor),
    (∀ k, InHand .showRecord x s → showKindOf (bits s.intake.header 3 0) = some k →
      bits s.intake.header 8 4 ≤ 15 →
      ∃ t, exec .showRecord s = .next t ∧ CarriedOut x s t ∧ SameTables s t
        ∧ t.engine = s.engine ∧ t.share = s.share ∧ t.reports = s.reports
        ∧ t.page = { s.page with pendingShow :=
            match k with
            | .cut => none
            | .trans tk =>
              if bits (body s 1) 7 0 = 0 then none
              else some ⟨tk, bits (body s 1) 7 0, bits s.intake.header 8 4⟩ }
        ∧ TookFrom { s.tiles with flipWanted := true } s.render (backPage s) t)
    ∧ (InHand .showRecord x s → 6 ≤ bits s.intake.header 3 0 ∨ 16 ≤ bits s.intake.header 8 4 →
      RefusedWith .field x s (exec .showRecord s))
    ∧ (InHand .batchOpen x s → ∃ t, exec .batchOpen s = .next t ∧ CarriedOut x s t
      ∧ SameTables s t ∧ t.engine = s.engine ∧ t.share = s.share ∧ t.reports = s.reports
      ∧ t.page = { s.page with batchOpen := true } ∧ TilesKept s t)
    ∧ (InHand .batchClose x s → ∃ t, exec .batchClose s = .next t ∧ CarriedOut x s t
      ∧ SameTables s t ∧ t.engine = s.engine ∧ t.share = s.share ∧ t.reports = s.reports
      ∧ t.page = { s.page with batchOpen := false } ∧ TilesKept s t)

/-! ## Refusals of records -/

/-- Out-of-range ids and values of the records whose own statements do not give their refusals: each is
refused with FIELD. That either KEY command carries out the refusal of a KEY record whose key is none of
the five is the model's choice (log 21). -/
def Obligations.BadFieldsAreRefused : Prop :=
  ∀ (s : State) (x : Anchor),
    (InHand .setColour x s → 8 ≤ bits s.intake.header 12 9 ∨ 256 ≤ bits s.intake.header 8 0 →
      RefusedWith .field x s (exec .setColour s))
    ∧ (InHand .defineObject x s →
      256 ≤ bits s.intake.header 8 0 ∨ 5 ≤ bits s.intake.header 12 9
        ∨ 8 ≤ bits (body s 1) 27 24 →
      RefusedWith .field x s (exec .defineObject s))
    ∧ (InHand .dropObject x s → 256 ≤ bits s.intake.header 8 0 →
      RefusedWith .field x s (exec .dropObject s))
    ∧ (InHand .place x s →
      128 ≤ bits s.intake.header 7 0 ∨ 64 ≤ bits (body s 3) 7 0
        ∨ (bit (body s 1) 31 = true ∧ 48 ≤ bits (body s 1) 7 0) →
      RefusedWith .field x s (exec .place s))
    ∧ (128 ≤ bits s.intake.header 7 0 →
      (InHand .move x s → RefusedWith .field x s (exec .move s))
      ∧ (InHand .setOpacity x s → RefusedWith .field x s (exec .setOpacity s))
      ∧ (InHand .remove x s → RefusedWith .field x s (exec .remove s)))
    ∧ (InHand .defineButton x s →
      48 ≤ bits s.intake.header 7 0 ∨ bits s.intake.header 8 8 = 0 →
      RefusedWith .field x s (exec .defineButton s))
    ∧ (InHand .buttonLook x s →
      48 ≤ bits s.intake.header 7 0 ∨ bits s.intake.header 9 8 = 0
        ∨ bits s.intake.header 9 8 = 3 →
      RefusedWith .field x s (exec .buttonLook s))
    ∧ (∀ b : Fin 48, InHand .buttonLook x s → bits s.intake.header 7 0 = b.val →
      s.buttons.entries[b].defined = false → RefusedWith .field x s (exec .buttonLook s))
    ∧ (48 ≤ bits s.intake.header 7 0 →
      (InHand .enableButton x s → RefusedWith .field x s (exec .enableButton s))
      ∧ (InHand .disableButton x s → RefusedWith .field x s (exec .disableButton s))
      ∧ (InHand .deleteButton x s → RefusedWith .field x s (exec .deleteButton s)))
    ∧ (InHand .key x s → bits s.intake.header 12 0 = 0 ∨ 6 ≤ bits s.intake.header 12 0 →
      RefusedWith .field x s (exec .keyDirection s)
      ∧ RefusedWith .field x s (exec .keyEnter s))

/-- A record command stops by name when the intake does not hold a record of its kind ready to be carried
out, and a KEY command when the record's key is the other row's. A word, completion or drain command runs
just when the event it names is under way, and stops by name otherwise: with nothing in progress, with a
request that only waits, with a transaction of another kind, or with the wrong number of words moved.
All of this is the model's choice (log 4). When the intake holds a record ready, and its body words. -/
def Obligations.CommandsNeedTheirCause : Prop :=
  (∀ (s : State) (k : RecKind), (holdsRecord k s = true ↔
      s.intake.state = .executing .ready ∧ kindOfCode (bits s.intake.header 31 24) = some k)
    ∧ ∀ (i : Fin 16) (w : Word), s.intake.slots[i] = some w → body s i = w) ∧
  (∀ s : State,
      (∀ p ∈ [(Instr.pad, RecKind.pad), (.wrap, .wrap), (.sceneReset, .sceneReset), (.park, .park),
          (.setupPlane, .setupPlane), (.setupReports, .setupReports), (.setColour, .setColour),
          (.loadColours, .loadColours), (.defineObject, .defineObject), (.dropObject, .dropObject),
          (.place, .place), (.move, .move), (.setOpacity, .setOpacity), (.remove, .remove),
          (.defineButton, .defineButton), (.buttonLook, .buttonLook),
          (.enableButton, .enableButton), (.disableButton, .disableButton),
          (.deleteButton, .deleteButton), (.keyDirection, .key), (.keyEnter, .key),
          (.select, .select), (.showRecord, .showRecord), (.batchOpen, .batchOpen),
          (.batchClose, .batchClose)],
        holdsRecord p.2 s = false → exec p.1 s = .fault .noRecordInHand)
      ∧ (bits s.intake.header 12 0 = 5 → exec .keyDirection s = .fault .noRecordInHand)
      ∧ (1 ≤ bits s.intake.header 12 0 → bits s.intake.header 12 0 ≤ 4 →
        exec .keyEnter s = .fault .noRecordInHand))
  ∧ (∀ s : State,
      (∀ w w1 w2 w3 : BusWord,
        ∀ c ∈ [Instr.cStoreWord w, .cStoreComplete, .passedFetchWord w, .passedTransactionComplete,
            .displayWordArrival w, .displayFirstFetchComplete, .displayFetchComplete,
            .probeComplete w w1 w2 w3, .refetchWordArrival w, .refetchLineComplete,
            .loadWordArrival w, .loadLineComplete, .loadComplete, .objectWordArrival w,
            .objectFetchComplete, .renderStoreComplete, .tileComplete, .reportStoreComplete,
            .controlWordStoreComplete],
          (UnderWay c s → ∃ t, exec c s = .next t)
          ∧ (¬ UnderWay c s → exec c s = .fault .noSuchTransfer))
      ∧ (UnderWay .captureDrain s → ∃ t, exec .captureDrain s = .next t)
      ∧ (¬ UnderWay .captureDrain s → exec .captureDrain s = .fault .nothingToDrain))

/-! ## Frame starts -/

/-- The frame start at which every condition of R77 holds flips: the pages change roles, the displayed
rectangles are taken afresh, FLIPPED is given, the pending transition starts with level 0 and CUT
becomes pending; with no hold ending, flip wanted is cleared and no tile is marked. A frame start at
which a condition of R77 fails makes no flip: the front page, the batch, the pending transition and
every displayed rectangle stay, and FLIPPED is not given. -/
def Obligations.FlipExactlyWhenDue : Prop :=
  (∀ (s : State) (pl : Plane), s.engine = .active → s.tiles.plane = some pl →
      s.tiles.flipWanted = true → (∀ st ∈ backTiles s, st = .clean) → s.page.batchOpen = false →
      s.page.running = none → (∀ k : Fin 8, s.colours.inFlight[k] = false) →
        ∃ t, exec .frameStart s = .next t ∧ t.engine = .active ∧ t.share = s.share
          ∧ t.objects = s.objects ∧ t.colours = s.colours ∧ t.list = s.list
          ∧ t.intake = s.intake
          ∧ t.page = ⟨s.page.front.other, false, none,
              s.page.pendingShow.map fun p =>
                ⟨p, if p.settle = 0 then .ramp 0 else .settle p.settle, 0⟩⟩
          ∧ (∀ b : Fin 48, t.buttons.entries[b]
            = { s.buttons.entries[b] with displayed := displayedAfterFlip pl s.buttons.entries[b] })
          ∧ t.buttons.selection = s.buttons.selection
          ∧ t.reports = (giveReport (.flipped s.page.front.other (s.frames + 1)) s).reports
          ∧ ((s.buttons.selection.isSome && s.buttons.activated && s.buttons.hold == 0) = false →
            TookFrom { s.tiles with flipWanted := false } s.render s.page.front t))
  ∧ (∀ s : State,
      (s.engine ≠ .active ∨ s.tiles.plane = none ∨ s.tiles.flipWanted = false
        ∨ (∃ st ∈ backTiles s, st ≠ .clean) ∨ s.page.batchOpen = true
        ∨ s.page.running.isSome = true ∨ ∃ k : Fin 8, s.colours.inFlight[k] = true) →
        ∃ t, exec .frameStart s = .next t ∧ t.page.front = s.page.front
          ∧ t.page.batchOpen = s.page.batchOpen ∧ t.page.pendingShow = s.page.pendingShow
          ∧ t.buttons.entries = s.buttons.entries
          ∧ (s.page.running = none → t.reports = s.reports ∧ t.page = s.page)
          ∧ ((s.buttons.selection.isSome && s.buttons.activated && s.buttons.hold == 0) = false →
            TookFrom s.tiles s.render (backPage s) t))

/-- The step of a running transition at a frame start, case by case, with the two named cases: SETTLE_END
where the count reaches 0 and TRANSITION_DONE where k reaches T; each named command stops by name when
the frame start is not its case, whatever the engine and page control (the model's choice, log 6). -/
def Obligations.TransitionSteps : Prop :=
  (∀ (s : State) (r : Running), s.engine = .active → s.page.running = some r →
    (∀ n, r.phase = .settle n → 2 ≤ n →
      ∃ t, exec .frameStart s = .next t ∧ t.reports = s.reports
        ∧ t.page = { s.page with running := some ⟨r.spec, .settle (n - 1), 0⟩ })
    ∧ (r.phase = .settle 1 →
      ∃ t, exec .settleEnd s = .next t ∧ exec .frameStart s = .next t ∧ t.reports = s.reports
        ∧ t.page = { s.page with running := some ⟨r.spec, .ramp 0, 0⟩ })
    ∧ (∀ k, r.phase = .ramp k → k + 1 < r.spec.len →
      ∃ t, exec .frameStart s = .next t ∧ t.reports = s.reports
        ∧ t.page = { s.page with
            running := some ⟨r.spec, .ramp (k + 1), 1024 * (k + 1) / r.spec.len⟩ })
    ∧ ∀ k, r.phase = .ramp k → k + 1 = r.spec.len →
      ∃ t, exec .transitionDone s = .next t ∧ exec .frameStart s = .next t
        ∧ t.page = { s.page with running := none }
        ∧ t.reports = (giveReport (.transitionDone r.spec.kind) s).reports)
  ∧ ∀ s : State,
    (¬ (s.engine = .active ∧ ∃ r n, s.page.running = some r ∧ r.phase = .settle n ∧ n ≤ 1) →
      exec .settleEnd s = .fault .frameCaseNotDue)
    ∧ (¬ (s.engine = .active ∧ ∃ r k, s.page.running = some r ∧ r.phase = .ramp k
        ∧ r.spec.len ≤ k + 1) →
      exec .transitionDone s = .fault .frameCaseNotDue)

/-- The activation hold and the pulse at a frame start in ACTIVE: a hold above 0 is decreased, a hold of 0
ends the activation with the phase 0 and the bound placements marked, after the flip's clear of flip
wanted where the frame start flips as well; otherwise the phase moves by the look in use. HOLD_END names
the ending and stops by name elsewhere, whatever the engine (the model's choice, log 6). That a tile which
the flip or the end of a transition lets the engine take is taken after the hold's marking, and so is not
BUSY_STALE by it, is the model's choice too (log 30). The look in use is
the activated look of a selected button that is activated, and otherwise its selected look. -/
def Obligations.HoldAndPulseAtFrameStart : Prop :=
  (∀ s : State, s.engine = .active →
    ((s.buttons.selection.isSome = true ∧ s.buttons.activated = true ∧ s.buttons.hold = 0) →
      ∃ t, exec .holdEnd s = .next t ∧ exec .frameStart s = .next t
        ∧ t.buttons.selection = s.buttons.selection ∧ t.buttons.activated = false
        ∧ t.buttons.hold = 0 ∧ t.buttons.phase = 0
        ∧ (flipDue s = false → ∀ b, s.buttons.selection = some b →
          TilesMarked (footprintsOf s (fun p => p.source == .button b)
            ++ footprintsOf (s.setButtons t.buttons) (fun p => p.source == .button b)) s t)
        ∧ (flipDue s = true → ∀ b, s.buttons.selection = some b →
          TookFrom
            (mark (footprintsOf s (fun p => p.source == .button b)
                ++ footprintsOf (s.setButtons t.buttons) (fun p => p.source == .button b))
              (s.setTiles { s.tiles with flipWanted := false })).tiles
            s.render s.page.front t)
        ∧ (∀ b, s.buttons.selection = some b →
          footprintsOf s (fun p => p.source == .button b) ≠ [] → s.tiles.plane.isSome = true →
            t.tiles.flipWanted = true))
    ∧ (¬ (s.buttons.selection.isSome = true ∧ s.buttons.activated = true ∧ s.buttons.hold = 0) →
      exec .holdEnd s = .fault .frameCaseNotDue
      ∧ ∃ t, exec .frameStart s = .next t ∧ t.buttons.selection = s.buttons.selection
        ∧ t.buttons.activated = s.buttons.activated
        ∧ (s.buttons.selection.isSome = true → s.buttons.activated = true →
          t.buttons.hold = s.buttons.hold - 1)
        ∧ (s.buttons.activated = false → t.buttons.hold = s.buttons.hold)
        ∧ t.buttons.phase =
          match lookInUse s.buttons with
          | some l => if l.period = 0 then 0 else (s.buttons.phase + 1) % l.period
          | none => 0))
  ∧ (∀ s : State, s.engine ≠ .active → exec .holdEnd s = .fault .frameCaseNotDue)
  ∧ ∀ bt : ButtonTable, (bt.selection = none → lookInUse bt = none)
    ∧ ∀ b, bt.selection = some b → lookInUse bt
      = if bt.activated = true then bt.entries[b].activatedLook else bt.entries[b].selectedLook

/-! ## Lines -/

/-- RESET_ASSERT at a free M-side begins BYPASS at once: the engine is OFF, all work in progress is dropped,
the attention line is low, and the tables stay until the sweep (what they, G and the passover count hold
meanwhile is the model's reading, log 11). While a transaction is on the M-side it only makes the reset
due. With a reset due the words of an own fetch are discarded, and so is the result of its completion:
BYPASS begins with the M-side free (a line released meanwhile then brings SERVICE, log 9); a request that
waits is then accepted. That with a reset due LOAD_LINE_COMPLETE and RENDER_STORE_COMPLETE are taken for
any line or store, the last included, is the model's choice (log 14). -/
def Obligations.ResetAssertion : Prop :=
  (∀ s : State, s.resetLine = false → s.path = .service →
      (s.mside = .free → s.cside.state = .idle →
        ∃ t, exec .resetAssert s = .next t ∧ t.resetLine = true ∧ t.mside = .free
          ∧ t.cside = s.cside ∧ BypassBegun s t)
      ∧ (s.mside ≠ .free →
        exec .resetAssert s = .next ((s.setResetLine true).setResetDue true)))
  ∧ (∀ s : State, s.resetDue = true → s.path = .service →
      (∀ (r : LineReq) (n : Nat) (w : BusWord), n < 4 → TileTaken s →
        (s.mside = .own (.intake (.refetch r)) n →
          exec (.refetchWordArrival w) s = .next (s.setMside (.own (.intake (.refetch r)) (n + 1))))
        ∧ (s.mside = .own (.load r) n →
          exec (.loadWordArrival w) s = .next (s.setMside (.own (.load r) (n + 1))))
        ∧ (s.mside = .own (.render (.fetch r)) n →
          exec (.objectWordArrival w) s = .next (s.setMside (.own (.render (.fetch r)) (n + 1)))))
      ∧ ∃ u, u = beginBypass (s.setMside .free)
        ∧ BypassBegun s u
        ∧ (s.cside.state.isWaiting = false → u.mside = .free ∧ u.cside = s.cside)
        ∧ (∀ r, s.cside.state = .waiting r →
          u.mside = .controller r ∧ u.cside = ⟨.active ⟨r, .passed .other, [], none⟩, []⟩)
        ∧ (∀ a p ws n, s.mside = .own (.class1 (.reportLine a p ws)) n →
          exec .reportStoreComplete s = .next u)
        ∧ (∀ k a e w n, s.mside = .own (.class1 (.control k a e w)) n →
          exec .controlWordStoreComplete s = .next u)
        ∧ (∀ r n w0 w1 w2 w3, s.mside = .own (.intake (.probe r)) n →
          exec (.probeComplete w0 w1 w2 w3) s = .next u)
        ∧ (∀ r, s.mside = .own (.intake (.refetch r)) 4 → exec .refetchLineComplete s = .next u)
        ∧ (∀ r, s.mside = .own (.load r) 4 → s.colours.load.isSome = true →
          exec .loadLineComplete s = .next u
          ∧ ∀ l, s.colours.load = some l → l.source + 4 * l.count ≤ r.line.toNat + 16 →
            exec .loadComplete s = .next u)
        ∧ (∀ r a rest f, s.mside = .own (.render (.fetch r)) 4 → s.render.flight = some f →
          f.phase = .applying a rest → exec .objectFetchComplete s = .next u)
        ∧ ∀ a p ws n m f, s.mside = .own (.render (.store a p ws)) n → s.render.flight = some f →
          f.phase = .storing m → exec .renderStoreComplete s = .next u
            ∧ (f.row = 7 → m = 15 → exec .tileComplete s = .next u))

/-- RESET_RELEASE in BYPASS at a free M-side enters SERVICE and CLEARING, with G 4, the count 0 and the
latch empty; while a transaction of BYPASS is on the M-side only the line changes. A line released
before its assertion took effect, or one already released, changes nothing else (the model's reading,
logs 9 and 18). That the tables, the units and the frame counter are kept until the sweep completes is
the model's choice (log 11), as it is that the sweep acts at its completion (log 26). -/
def Obligations.ResetReleaseEntersService : Prop :=
  ∀ s : State,
    (s.resetLine = true → s.path = .bypass → s.mside = .free → s.waiting = OwnWaiting.empty →
      ∃ t, exec .resetRelease s = .next t ∧ t.resetLine = false ∧ t.path = .service
        ∧ t.engine = .clearing ∧ t.latch = none ∧ t.share = 4 ∧ t.passover = 0
        ∧ SameTables s t ∧ t.page = s.page ∧ t.reports = s.reports ∧ t.intake = s.intake
        ∧ t.tiles = s.tiles ∧ t.render = s.render ∧ t.frames = s.frames
        ∧ t.urgent = s.urgent ∧ t.waiting = OwnWaiting.empty)
    ∧ (s.resetLine = true → s.path = .bypass → s.mside ≠ .free →
      exec .resetRelease s = .next (s.setResetLine false))
    ∧ (s.resetLine = true → s.path = .service →
      exec .resetRelease s = .next (s.setResetLine false))
    ∧ (s.resetLine = false → exec .resetRelease s = .next s)

/-- CLEARING_SWEEP_END gives every table its cleared value, sets the frame counter to 0 and empties the
latch; the engine is UNANCHORED, or attached to the ring of the latched anchor, with the stores and the
probe of the attachment all the own work there is. That every entry takes its
cleared value in this one event is the model's reading (log 26), and that all the intake's registers are
0 while no ring is held its choice (log 11). In another engine state the command stops by name (the
model's choice, log 4). -/
def Obligations.SweepClearsAndAnchors : Prop :=
  ∀ s : State,
    (s.engine = .clearing → s.waiting = OwnWaiting.empty → (∀ o n, s.mside ≠ .own o n) →
      ∃ t, exec .clearingSweepEnd s = .next t ∧ ScenesEmpty t ∧ UnitsCleared t
        ∧ t.frames = 0 ∧ t.latch = none ∧ t.path = s.path ∧ t.share = s.share
        ∧ t.urgent = s.urgent ∧ t.resetLine = s.resetLine
        ∧ (s.latch = none → t.engine = .unanchored ∧ t.intake = Intake.absent)
        ∧ ∀ x, s.latch = some x → Attached x t
          ∧ (s.mside = .free → s.cside.state.isWaiting = false → s.path = .service →
            AttachmentIssued x t)
          ∧ (s.mside ≠ .free → t.mside = s.mside
            ∧ t.waiting = ⟨attachStores x t, some (.probe (lineReqAt (ringAddr x 0))), none, none⟩))
    ∧ (s.engine ≠ .clearing → exec .clearingSweepEnd s = .fault .noSweep)

/-! ## The arbiter -/

/-- A grant with both contenders waiting goes to own work when the urgent line is released, G is at least 1
and the count is at least G, and sets the count to 0; otherwise to the C-side, and the count rises to 15
at most. With one contender it goes to that one; a busy M-side grants nothing; in BYPASS own work never
contends. The own-work selector picks by class: class 1 in the order of waiting, then the intake's
fetch, then the colour load's, then the render engine's; it picks something just when something waits.
URGENT_LINE sets the line and changes nothing else, whatever the state. -/
def Obligations.ArbiterGrants : Prop :=
  (∀ s : State,
      (s.mside ≠ .free → grant s = s)
      ∧ (∀ r o left, s.mside = .free → s.cside.state = .waiting r → s.path = .service →
        selectOwn s.waiting = some (o, left) →
          (s.urgent = false ∧ 1 ≤ s.share ∧ s.share ≤ s.passover →
            (grant s).mside = .own o 0 ∧ (grant s).waiting = left ∧ (grant s).passover = 0
            ∧ (grant s).cside = s.cside)
          ∧ (¬ (s.urgent = false ∧ 1 ≤ s.share ∧ s.share ≤ s.passover) →
            (∃ m, (grant s).mside = .controller m) ∧ (grant s).waiting = s.waiting
            ∧ (grant s).passover = min 15 (s.passover + 1)
            ∧ ∃ t, (grant s).cside.state = .active t ∧ t.req = r ∧ t.moved = [] ∧ t.second = none))
      ∧ (∀ r, s.mside = .free → s.cside.state = .waiting r →
        (s.path = .bypass ∨ selectOwn s.waiting = none) →
          (∃ m, (grant s).mside = .controller m) ∧ (grant s).passover = s.passover
          ∧ (grant s).waiting = s.waiting ∧ ∃ t, (grant s).cside.state = .active t ∧ t.req = r)
      ∧ ∀ o left, s.mside = .free → s.cside.state.isWaiting = false → s.path = .service →
        selectOwn s.waiting = some (o, left) →
          (grant s).mside = .own o 0 ∧ (grant s).waiting = left ∧ (grant s).passover = 0
          ∧ (grant s).cside = s.cside)
  ∧ (∀ w : OwnWaiting,
      (∀ c rest, w.class1 = c :: rest → selectOwn w = some (.class1 c, { w with class1 := rest }))
      ∧ (∀ f, w.class1 = [] → w.intake = some f →
        selectOwn w = some (.intake f, { w with intake := none }))
      ∧ (∀ r, w.class1 = [] → w.intake = none → w.load = some r →
        selectOwn w = some (.load r, { w with load := none }))
      ∧ (∀ r, w.class1 = [] → w.intake = none → w.load = none → w.render = some r →
        selectOwn w = some (.render r, { w with render := none }))
      ∧ (selectOwn w = none ↔ w = OwnWaiting.empty))
  ∧ (∀ (s : State) (b : Bool), exec (.urgentLine b) s = .next (s.setUrgent b))

/-! ## The controller side -/

/-- C_SIDE_REQUEST at a free M-side with no own work waiting is accepted: in BYPASS, or outside the display
window, it reaches memory as the controller gave it, with its class; a store in the display window
reaches the front page; a fetch there has the treatment and first page line of the display plan.
C_SIDE_REQUEST at a busy M-side waits, whatever the path state; a misaligned request, and one made while
another waits or is in progress, stop by name (the model's choice, log 4); a line lies at a multiple of 16
bytes and a word at one of 4. That the record of returned
words begins empty at the acceptance is the model's own (log 19). -/
def Obligations.RequestsAreAccepted : Prop :=
  (∀ (s : State) (r : BusReq), r.aligned = true → s.cside.state = .idle → s.mside = .free →
      selectOwn s.waiting = none → TileTaken s →
        ∃ t, exec (.cSideRequest r) s = .next t ∧ SameTables s t ∧ SameControl s t
          ∧ t.reports = s.reports ∧ t.intake = s.intake ∧ SameOuter s t
          ∧ t.waiting = s.waiting ∧ t.passover = s.passover ∧ t.tiles = s.tiles
          ∧ t.render = s.render ∧ t.cside.returned = []
          ∧ (s.path = .bypass →
            t.mside = .controller r ∧ t.cside.state = .active ⟨r, .passed .other, [], none⟩)
          ∧ (s.path = .service →
            (∀ pl, s.tiles.plane = some pl → pl.baseA.toNat ≤ (reqAddr r).toNat →
              (reqAddr r).toNat < pl.baseA.toNat + pl.width * pl.height * 4 →
              ((∀ a p, r = .lineFetch a p →
                t.cside.state = .active ⟨r, .display (displayPlan s pl a p), [], none⟩
                ∧ t.mside = .controller (.lineFetch (displayPlan s pl a p).first p))
              ∧ ((∀ a p, r ≠ .lineFetch a p) →
                t.cside.state = .active ⟨r, .redirected, [], none⟩
                ∧ ∃ a', a'.toNat = (pl.base s.page.front
                      + ((reqAddr r).toNat - pl.baseA.toNat)) % 2 ^ 32
                  ∧ t.mside = .controller (withAddr a' r))))
            ∧ ((∀ pl, s.tiles.plane = some pl → ¬ (pl.baseA.toNat ≤ (reqAddr r).toNat
                  ∧ (reqAddr r).toNat < pl.baseA.toNat + pl.width * pl.height * 4)) →
              t.mside = .controller r
              ∧ (s.intake.anchor = none →
                t.cside.state = .active ⟨r, .passed .other, [], none⟩)
              ∧ ∀ x, s.intake.anchor = some x →
                t.cside.state = .active ⟨r, .passed
                  (if x.addr.toNat + 32 ≤ (reqAddr r).toNat
                      ∧ (reqAddr r).toNat < x.addr.toNat + 32 + 16 * x.lines then .script
                   else if (reqAddr r).toNat = x.addr.toNat + 16 then .control else .other),
                  [], none⟩)))
  ∧ (∀ (s : State) (r : BusReq),
      (r.aligned = true → s.cside.state = .idle → s.mside ≠ .free → TileTaken s →
        exec (.cSideRequest r) s = .next (s.setCside ⟨.waiting r, s.cside.returned⟩))
      ∧ (r.aligned = false → exec (.cSideRequest r) s = .fault .misaligned)
      ∧ (r.aligned = true → s.cside.state ≠ .idle →
        exec (.cSideRequest r) s = .fault .cSideBusy))
  ∧ (∀ (a : Addr) (p : Fin 4) (e : BitVec 4),
      ((BusReq.lineFetch a p).aligned = true ↔ a.toNat % 16 = 0)
      ∧ ((BusReq.lineStore a p).aligned = true ↔ a.toNat % 16 = 0)
      ∧ ((BusReq.wordStore a e).aligned = true ↔ a.toNat % 4 = 0))

/-- The treatment of a display-window fetch, row by row of R84's table: which page lines are fetched, in
which order, and how the words are formed. The strength of the present frame, and that tint applies just
when every condition of R109 holds. -/
def Obligations.DisplayFetchTreatmentAndTint : Prop :=
  (∀ (s : State) (pl : Plane) (a : Addr) (p : Fin 4),
      ∀ plan, plan = displayPlan s pl a p →
      ∀ off, off = a.toNat - pl.baseA.toNat →
      ∀ front, front = BitVec.ofNat 32 (pl.base s.page.front + off) →
      ∀ retiring, retiring = BitVec.ofNat 32 (pl.base s.page.front.other + off) →
        plan.start = p ∧ plan.row = off / (4 * pl.width) ∧ plan.col = off % (4 * pl.width) / 4
        ∧ (s.page.running = none → plan.first = front ∧ plan.second = none
          ∧ (tintNow s = none → plan.mix = .asFetched)
          ∧ ∀ t, tintNow s = some t → plan.mix = .tint t)
        ∧ ∀ r, s.page.running = some r →
          (r.spec.kind = .dissolve → r.level = 0 →
            plan.first = retiring ∧ plan.second = none ∧ plan.mix = .asFetched)
          ∧ (r.spec.kind = .dissolve → r.level ≠ 0 →
            plan.first = retiring ∧ plan.second = some front ∧ plan.mix = .dissolve r.level)
          ∧ (r.spec.kind ≠ .dissolve →
            (∀ i, i < 4 → frontSide r.spec.kind pl r.level (plan.col + i) plan.row = true) →
              plan.first = front ∧ plan.second = none ∧ plan.mix = .asFetched)
          ∧ (r.spec.kind ≠ .dissolve →
            (∀ i, i < 4 → frontSide r.spec.kind pl r.level (plan.col + i) plan.row = false) →
              plan.first = retiring ∧ plan.second = none ∧ plan.mix = .asFetched)
          ∧ (r.spec.kind ≠ .dissolve →
            (∃ i j, i < 4 ∧ j < 4 ∧ frontSide r.spec.kind pl r.level (plan.col + i) plan.row = true
              ∧ frontSide r.spec.kind pl r.level (plan.col + j) plan.row = false) →
              plan.first = retiring ∧ plan.second = some front
              ∧ ∀ (be : Bool) (n : Nat) (rw fw : BusWord), mixWord be plan n rw fw =
                if frontSide r.spec.kind pl r.level (plan.col + (p.val + n) % 4) plan.row
                then fresh be fw.data else fresh be rw.data))
  ∧ ((∀ (l : Look) (phase : Nat),
      (l.period = 0 ∨ l.period ≤ l.duty ∨ phase < l.duty → l.strength phase = l.high)
      ∧ (l.period ≠ 0 → l.duty < l.period → l.duty ≤ phase → l.strength phase = l.low))
    ∧ ∀ (s : State) (t : Tint), tintNow s = some t ↔
      s.page.running = none ∧ s.engine = .active
      ∧ ∃ b l r, s.buttons.selection = some b
        ∧ (if s.buttons.activated then s.buttons.entries[b].activatedLook
           else s.buttons.entries[b].selectedLook) = some l
        ∧ s.buttons.entries[b].displayed = some r ∧ l.strength s.buttons.phase ≠ 0
        ∧ t = ⟨l.tint, l.strength s.buttons.phase, l.floor, r⟩)

/-- Words on their way: a word of an accepted store passes to memory, and a word of a passed fetch returns
unchanged; nothing else changes (the returned words stand in the model's own record of that output, log
19). A fetch whose last word has been returned completes, and so does a
store that nothing takes in: the C-side is idle, and the M-side goes to the own request the selector
picks, or is free. With a reset due BYPASS begins; in BYPASS nothing else changes, but that a released
line brings SERVICE. What BYPASS keeps and what the intake's registers hold in it are the model's choice
(log 11), and that a line released early brings SERVICE as BYPASS begins is its reading (log 9). -/
def Obligations.TransfersAreCarried : Prop :=
  (∀ (s : State) (t : CTxn) (w : BusWord), s.cside.state = .active t →
      (reqIsFetch t.req = false → t.moved.length < reqWordCount t.req →
        ∃ u, exec (.cStoreWord w) s = .next u
          ∧ u = s.setCside ⟨.active { t with moved := t.moved ++ [w] }, s.cside.returned⟩)
      ∧ (reqIsFetch t.req = true → (∃ c, t.treat = .passed c) → t.moved.length < 4 →
        ∃ u, exec (.passedFetchWord w) s = .next u
          ∧ u = s.setCside ⟨.active { t with moved := t.moved ++ [w] }, s.cside.returned ++ [w]⟩))
  ∧ (∀ (s : State) (t : CTxn) (c : Instr), s.cside.state = .active t →
      ((c = .passedTransactionComplete ∧ reqIsFetch t.req = true ∧ (∃ k, t.treat = .passed k)
          ∧ t.moved.length = 4)
        ∨ (c = .displayFetchComplete ∧ t.moved.length = 4 ∧ ∃ p, t.treat = .display p
          ∧ ((p.second = none ∧ t.second = none)
            ∨ ∃ l fs, p.second = some l ∧ t.second = some fs ∧ fs.length = 4))
        ∨ (c = .cStoreComplete ∧ reqIsFetch t.req = false ∧ t.moved.length = reqWordCount t.req
          ∧ ∃ m, s.mside = .controller m
            ∧ (s.path = .service → storeAnchor t (reqAddr m).toNat = none
              ∧ (t.treat = .redirected ∨ t.treat = .passed .other)))) →
      (s.path = .bypass → s.resetLine = false → s.waiting = OwnWaiting.empty →
        ∃ u, exec c s = .next u ∧ u.path = .service ∧ u.engine = .clearing ∧ u.latch = none
          ∧ u.share = 4 ∧ u.passover = 0 ∧ u.mside = .free ∧ u.cside = ⟨.idle, s.cside.returned⟩
          ∧ SameTables s u ∧ u.page = s.page ∧ u.reports = s.reports ∧ u.intake = s.intake)
      ∧ (s.path = .service → s.resetDue = true →
        ∃ u, exec c s = .next u ∧ BypassAtCompletion s u)
      ∧ (s.path = .service → s.resetDue = false → TileTaken s →
        ∃ u, exec c s = .next u ∧ u.cside = ⟨.idle, s.cside.returned⟩
        ∧ SameTables s u ∧ SameControl s u ∧ SameOuter s u ∧ u.reports = s.reports
        ∧ u.intake = s.intake ∧ u.tiles = s.tiles ∧ u.render = s.render
        ∧ (selectOwn s.waiting = none → u.mside = .free ∧ u.waiting = s.waiting)
        ∧ ∀ o left, selectOwn s.waiting = some (o, left) →
          u.mside = .own o 0 ∧ u.waiting = left ∧ u.passover = 0)
      ∧ (s.path = .bypass → s.resetLine = true →
        ∃ u, exec c s = .next u ∧ u = (s.setMside .free).setCside ⟨.idle, s.cside.returned⟩))

/-- A script-ring store that is no anchor is captured at its completion: its good words join the queue in
the order sent, the last with the end mark, and its first bad word gives PARITY CAPTURE; with no room
for all of them the first that fit join, the last of those with the end mark, the rest are dropped and
the suspect flag is set. HALTED intakes take nothing. The addresses of the words of a store, in the order
they travel. With a reset due the completion begins BYPASS; what
BYPASS keeps is the model's choice (log 11), and what an early release of the line brings its reading
(log 9). -/
def Obligations.StoreIntoRingIsCaptured : Prop :=
  (∀ (s : State) (t : CTxn) (m : BusReq) (ws : List CapEntry), StoreWhole false s t m →
    t.treat = .passed .script → storeAnchor t (reqAddr m).toNat = none →
    ws = (((reqWordAddrs t.req).zip t.moved).filter fun w => wordGood (byteOrder s) w.2).map
      (fun w => ⟨BitVec.ofNat 32 w.1, w.2.data,
        match t.req with
        | .wordStore _ e => e
        | .lineStore _ _ | .lineFetch _ _ => 15, false⟩) →
      ∃ u, exec .cStoreComplete s = .next u ∧ SameTables s u ∧ SameControl s u ∧ SameOuter s u
        ∧ TilesKept s u ∧ u.cside = ⟨.idle, s.cside.returned⟩
        ∧ (∀ b, ((reqWordAddrs t.req).zip t.moved).find? (fun w => !wordGood (byteOrder s) w.2)
            = some b → u.reports = (giveReport (.parity .capture b.1) s).reports)
        ∧ ((∀ w ∈ t.moved, wordGood (byteOrder s) w = true) → u.reports = s.reports)
        ∧ (s.intake.state = .halted ∨ s.intake.state = .absent → u.intake = s.intake)
        ∧ (s.intake.state ≠ .halted → s.intake.state ≠ .absent →
          (s.intake.queue.length + ws.length ≤ 16 →
            u.intake = { s.intake with queue :=
              if ws = [] then s.intake.queue
              else s.intake.queue ++ ws.dropLast
                ++ ws.getLast?.toList.map (fun e => { e with endMark := true }) })
          ∧ (s.intake.queue.length ≤ 16 → 16 < s.intake.queue.length + ws.length →
            ∃ joined q, joined = ws.take (16 - s.intake.queue.length)
              ∧ q = (if joined = [] then s.intake.queue
                else s.intake.queue ++ joined.dropLast
                  ++ joined.getLast?.toList.map (fun e => { e with endMark := true }))
              ∧ u.intake.queue = q ∧ u.intake.suspect = true
              ∧ (s.intake.state ≠ .waiting →
                u.intake = { s.intake with queue := q, suspect := true })
              ∧ ∀ x, s.intake.anchor = some x → s.intake.state = .waiting →
                u.intake.state = .probing ∧ u.intake.slots = s.intake.slots
                ∧ u.intake.p = s.intake.p ∧ u.intake.expected = s.intake.expected
                ∧ FetchDue (.probe (lineReqAt (ringAddr x s.intake.p))) s u)))
  ∧ (∀ (a : Addr) (p : Fin 4) (e : BitVec 4), reqWordAddrs (.wordStore a e) = [a.toNat]
      ∧ reqWordAddrs (.lineStore a p) = [0, 1, 2, 3].map fun n => a.toNat + 4 * ((p.val + n) % 4))
  ∧ ∀ (s : State) (t : CTxn) (m : BusReq), StoreWhole true s t m → t.treat = .passed .script →
    storeAnchor t (reqAddr m).toNat = none →
      ∃ u, exec .cStoreComplete s = .next u ∧ BypassAtCompletion s u

/-- A store into control word 0 that is no anchor: a whole good word becomes the captured read index,
clamped to the ring, and the attention line follows in the same event, by the comparison of the indexes
whatever value firmware had read (the model's choice, log 31); with no ring it is disregarded;
a word store with an enable clear leaves the latch; a bad word gives PARITY CAPTURE. With a reset due the
completion begins BYPASS; what BYPASS keeps is the model's choice (log 11), and what an early release of
the line brings its reading (log 9). -/
def Obligations.StoreIntoControlWordSetsReadIndex : Prop :=
  (∀ (s : State) (t : CTxn) (m : BusReq) (w : BusWord), StoreWhole false s t m →
    t.treat = .passed .control → storeAnchor t (reqAddr m).toNat = none →
    ((reqWordAddrs t.req).zip t.moved).find? (fun v => v.1 == (reqAddr t.req).toNat)
      = some ((reqAddr t.req).toNat, w) →
      ∃ u, exec .cStoreComplete s = .next u ∧ SameTables s u ∧ SameControl s u ∧ SameOuter s u
        ∧ TilesKept s u ∧ u.intake = s.intake ∧ u.cside = ⟨.idle, s.cside.returned⟩
        ∧ (wordGood (byteOrder s) w = false →
          u.reports = (giveReport (.parity .capture (reqAddr t.req).toNat) s).reports)
        ∧ (wordGood (byteOrder s) w = true → ((∃ a e, t.req = .wordStore a e ∧ e ≠ 15)
            ∨ s.reports.ring = none) → u.reports = s.reports)
        ∧ ∀ r, wordGood (byteOrder s) w = true → (∀ a e, t.req = .wordStore a e → e = 15) →
          s.reports.ring = some r →
            u.reports.read = (if w.data.toNat < r.entries then w.data.toNat else r.entries - 1)
            ∧ u.reports.ring = some r ∧ u.reports.write = s.reports.write
            ∧ u.reports.attention
              = (s.reports.write != if w.data.toNat < r.entries then w.data.toNat
                  else r.entries - 1))
  ∧ ∀ (s : State) (t : CTxn) (m : BusReq), StoreWhole true s t m → t.treat = .passed .control →
    storeAnchor t (reqAddr m).toNat = none →
      ∃ u, exec .cStoreComplete s = .next u ∧ BypassAtCompletion s u

/-- A line store that carries the anchor signature, completed in SERVICE: latched in CLEARING, anchoring
in UNANCHORED, and a re-anchor in ACTIVE and PARKED, which empties the scene, unsets the plane and the
report ring, drops every own request, so that only those of the attachment stand, sets G to 4 and the
count to 0 and keeps the frame counter. With a reset
due BYPASS begins on what the anchor store leaves: the latch is lost, and a re-anchor has emptied the
tables; what BYPASS keeps is the model's choice (log 11), and what an early release of the line brings its
reading (log 9). -/
def Obligations.AnchorStoreAttachesPart : Prop :=
  (∀ (s : State) (t : CTxn) (m : BusReq) (x : Anchor), StoreWhole false s t m →
    storeAnchor t (reqAddr m).toNat = some x →
      (s.engine = .clearing → t.treat = .passed .other →
        ∃ u, exec .cStoreComplete s = .next u ∧ u.latch = some x ∧ u.engine = .clearing
          ∧ u.intake = s.intake ∧ SameTables s u ∧ u.page = s.page ∧ u.reports = s.reports
          ∧ u.frames = s.frames ∧ u.tiles = s.tiles)
      ∧ (s.engine = .unanchored → t.treat = .passed .other → s.waiting = OwnWaiting.empty →
        ∃ u, exec .cStoreComplete s = .next u ∧ Attached x u
          ∧ (s.tiles.plane = none → AttachmentIssued x u) ∧ SameTables s u
          ∧ u.page = s.page ∧ u.reports = s.reports ∧ u.share = s.share
          ∧ u.frames = s.frames)
      ∧ (s.engine = .active ∨ s.engine = .parked →
        ∃ u, exec .cStoreComplete s = .next u ∧ Attached x u ∧ AttachmentIssued x u
          ∧ ScenesEmpty u ∧ UnitsCleared u ∧ u.share = 4 ∧ u.passover = 0
          ∧ u.frames = s.frames ∧ u.latch = s.latch ∧ u.path = .service
          ∧ u.urgent = s.urgent))
  ∧ ∀ (s : State) (t : CTxn) (m : BusReq) (x : Anchor), StoreWhole true s t m →
    storeAnchor t (reqAddr m).toNat = some x →
      (s.engine = .clearing ∨ s.engine = .unanchored → t.treat = .passed .other →
        ∃ u, exec .cStoreComplete s = .next u ∧ BypassAtCompletion s u)
      ∧ (s.engine = .active ∨ s.engine = .parked →
        ∃ u, exec .cStoreComplete s = .next u ∧ ScenesEmpty u
          ∧ BypassAtCompletion (((emptyTables s).setShare 4).setPassover 0) u)

/-- When four words, by their places in the line, are an anchor: R124's conditions, and the anchor they
name; a line store carries its words in wrapped order, and no other transaction carries an anchor. The
byte order the line names does not govern the line; that its parity is good when it is good for all four
words by one of the two orders, whichever, is the model's choice (log 8). A single bad parity bit in a
word makes it bad by both. -/
def Obligations.AnchorSignatureRecognised : Prop :=
  (∀ (a : Nat) (w0 w1 w2 w3 : BusWord) (x : Anchor),
    anchorOf a w0 w1 w2 w3 = some x ↔
      ((∃ order : Bool, ∀ w ∈ [w0, w1, w2, w3], wordGood order w = true)
        ∧ w0.data = 0x6E1BF0D4 ∧ w1.data = 0x91E40F2B ∧ w3.data = w2.data ^^^ 0x3C5AA5C3
        ∧ 16 ≤ bits w2.data 12 0 ∧ bits w2.data 12 0 ≤ 4096
        ∧ a + 32 + 16 * bits w2.data 12 0 ≤ 2 ^ 32)
      ∧ x = ⟨BitVec.ofNat 32 a, bits w2.data 12 0, bit w2.data 31⟩)
  ∧ (∀ (t : CTxn) (line : Addr) (st : Fin 4) (v : Fin 4 → BusWord) (reached : Nat),
    t.req = .lineStore line st → line.toNat % 16 = 0 →
    t.moved = [v st, v (st + 1), v (st + 2), v (st + 3)] →
      storeAnchor t reached = anchorOf reached (v 0) (v 1) (v 2) (v 3))
  ∧ (∀ (t : CTxn) (reached : Nat), (∀ line st, t.req ≠ .lineStore line st) →
    storeAnchor t reached = none)
  ∧ ∀ (o o' : Bool) (d : Word) (p : BitVec 4) (k : Nat), k < 4 → wordGood o ⟨d, p⟩ = true →
    wordGood o' ⟨d, p ^^^ BitVec.ofNat 4 (2 ^ k)⟩ = false

/-! ## The display path -/

/-- A word of a display fetch is held until every word of every chosen fetch has arrived, and the four words
are then returned, as R84, R86 and R87 give, with PARITY DISPLAY for the first bad word. The returned
words stand in the model's own record of that output (log 19). -/
def Obligations.DisplayWordsHeldThenReturned : Prop :=
  ∀ (s : State) (t : CTxn) (p : DisplayPlan) (w : BusWord), s.cside.state = .active t →
    t.treat = .display p →
    (∀ l, p.second = some l → t.second = none → t.moved.length < 4 →
      ∃ u, exec (.displayWordArrival w) s = .next u ∧ u.reports = s.reports
        ∧ (s.mside ≠ .free → u.cside
          = ⟨.active { t with moved := t.moved ++ [w] }, s.cside.returned⟩))
    ∧ (t.second = none → t.moved.length < 3 →
      ∃ u, exec (.displayWordArrival w) s = .next u ∧ u.reports = s.reports
        ∧ (s.mside ≠ .free → u.cside
          = ⟨.active { t with moved := t.moved ++ [w] }, s.cside.returned⟩))
    ∧ (∀ fs, t.second = some fs → fs.length < 3 →
      ∃ u, exec (.displayWordArrival w) s = .next u ∧ u.reports = s.reports
        ∧ (s.mside ≠ .free → u.cside
          = ⟨.active { t with second := some (fs ++ [w]) }, s.cside.returned⟩))
    ∧ (p.second = none → t.second = none → t.moved.length = 3 → s.mside ≠ .free →
      ∃ u, exec (.displayWordArrival w) s = .next u
        ∧ u.cside = ⟨.active { t with moved := t.moved ++ [w] },
            (displayAnswer (byteOrder s) p (t.moved ++ [w]) none).1⟩
        ∧ u.reports = (giveReport? ((displayAnswer (byteOrder s) p (t.moved ++ [w]) none).2.map
            (Report.parity .display)) s).reports)
    ∧ (∀ l fs, p.second = some l → t.second = some fs → t.moved.length = 4 → fs.length = 3 →
      s.mside ≠ .free →
        ∃ u, exec (.displayWordArrival w) s = .next u
          ∧ u.cside = ⟨.active { t with second := some (fs ++ [w]) },
              (displayAnswer (byteOrder s) p t.moved (some (fs ++ [w]))).1⟩
          ∧ u.reports = (giveReport? ((displayAnswer (byteOrder s) p t.moved (some (fs ++ [w]))).2.map
              (Report.parity .display)) s).reports)
    ∧ ∀ l, p.second = some l → t.second = none → t.moved.length = 4 →
      ∃ u, exec .displayFirstFetchComplete s = .next u
        ∧ u = (s.setCside ⟨.active { t with second := some [] }, s.cside.returned⟩).setMside
            (.controller (.lineFetch l p.start))

/-- What a display fetch returns when words arrive good or bad: the table of R87, and R86, with the words of
a dissolve the retiring words dissolved with the front words and given fresh parity (the words of a split
line stand in DisplayFetchTreatmentAndTint); and when a byte and a word are good, the byte at word
address + k with parity bit k as the byte order places it, and that fresh parity is good. -/
def Obligations.DisplayAnswerByParity : Prop :=
  (∀ (be : Bool) (p : DisplayPlan) (ws fs : List BusWord) (l : Addr), ws.length = 4 → fs.length = 4 →
    (p.second = none →
      ((∃ w ∈ ws, wordGood be w = false) → (displayAnswer be p ws none).1 = ws
        ∧ ∃ n w, ws[n]? = some w ∧ wordGood be w = false
          ∧ (∀ (k : Nat) (v : BusWord), k < n → ws[k]? = some v → wordGood be v = true)
          ∧ (displayAnswer be p ws none).2 = some (p.first.toNat + 4 * ((p.start.val + n) % 4)))
      ∧ ((∀ w ∈ ws, wordGood be w = true) → (displayAnswer be p ws none).2 = none
        ∧ (p.mix = .asFetched → (displayAnswer be p ws none).1 = ws)
        ∧ ∀ t, p.mix = .tint t → ∀ (n : Nat) (w : BusWord), ws[n]? = some w →
          (displayAnswer be p ws none).1[n]?
            = some (tintWord be t (p.col + (p.start.val + n) % 4) p.row w)))
    ∧ (p.second = some l →
      ((∃ w ∈ fs, wordGood be w = false) → (displayAnswer be p ws (some fs)).1 = fs
        ∧ ∃ n w, fs[n]? = some w ∧ wordGood be w = false
          ∧ (∀ (k : Nat) (v : BusWord), k < n → fs[k]? = some v → wordGood be v = true)
          ∧ (displayAnswer be p ws (some fs)).2 = some (l.toNat + 4 * ((p.start.val + n) % 4)))
      ∧ ((∀ w ∈ fs, wordGood be w = true) → (∃ w ∈ ws, wordGood be w = false) →
        (displayAnswer be p ws (some fs)).1 = fs
        ∧ ∃ n w, ws[n]? = some w ∧ wordGood be w = false
          ∧ (∀ (k : Nat) (v : BusWord), k < n → ws[k]? = some v → wordGood be v = true)
          ∧ (displayAnswer be p ws (some fs)).2
            = some (p.first.toNat + 4 * ((p.start.val + n) % 4)))
      ∧ ((∀ w ∈ fs, wordGood be w = true) → (∀ w ∈ ws, wordGood be w = true) →
        (displayAnswer be p ws (some fs)).2 = none
        ∧ ∀ (n : Nat) (w v : BusWord), ws[n]? = some w → fs[n]? = some v →
          (displayAnswer be p ws (some fs)).1[n]? = some (mixWord be p n w v)
          ∧ ∀ L, p.mix = .dissolve L → (displayAnswer be p ws (some fs)).1[n]?
            = some (fresh be (dissolve L (Argb.ofWord w.data) (Argb.ofWord v.data)).toWord))))
  ∧ (∀ (be : Bool) (p : DisplayPlan) (n L : Nat) (w v : BusWord), p.mix = .dissolve L →
      mixWord be p n w v = fresh be (dissolve L (Argb.ofWord w.data) (Argb.ofWord v.data)).toWord)
  ∧ (∀ (be : Bool) (w : BusWord) (k : Nat), k < 4 →
      (byteGood be w k = true ↔
        ((((List.range 8).filter fun i => w.data.getLsbD (8 * (if be then 3 - k else k) + i)).length
          + (if w.par.getLsbD k then 1 else 0)) % 2 = 1)))
  ∧ ∀ (be : Bool) (w : BusWord) (d : Word),
    (wordGood be w = true ↔ ∀ k, k < 4 → byteGood be w k = true)
    ∧ (fresh be d).data = d ∧ wordGood be (fresh be d) = true

/-! ## The intake -/

/-- CAPTURE_DRAIN. In PROBING and WAITING the front entry fills the slot of its ring word when that lies
in the window and its enables are all set, and is discarded otherwise; after an end mark the header in
slot 0 is committed when its sequence number is the expected one. In FETCHING the entry is discarded,
and in EXECUTING nothing is drained (the model's reading of the row, log 17). That a commit drops a
deferred probe is its choice (log 29). The size codes, the kind codes, and the length each kind
requires. -/
def Obligations.DrainFillsSlotsAndCommits : Prop :=
  ([0, 1, 2, 3, 4, 5, 6, 7].map sizeWords = [1, 2, 3, 4, 6, 8, 12, 16]
    ∧ (∀ s : State, recordWords s = sizeWords (bits s.intake.header 23 21))
    ∧ ∃ table : List (Nat × RecKind × Option Nat),
      table = [(0x00, .pad, none), (0x01, .wrap, some 1), (0x02, .sceneReset, some 1),
        (0x03, .park, some 1), (0x10, .setupPlane, some 6), (0x11, .setupReports, some 3),
        (0x20, .setColour, some 2), (0x21, .loadColours, some 3), (0x22, .defineObject, some 4),
        (0x23, .dropObject, some 1), (0x30, .place, some 4), (0x31, .move, some 2),
        (0x32, .setOpacity, some 2), (0x33, .remove, some 1), (0x40, .defineButton, some 6),
        (0x41, .buttonLook, some 4), (0x42, .enableButton, some 1), (0x43, .disableButton, some 1),
        (0x44, .deleteButton, some 1), (0x45, .key, some 1), (0x46, .select, some 1),
        (0x50, .showRecord, some 2), (0x51, .batchOpen, some 1), (0x52, .batchClose, some 1)]
      ∧ (∀ e ∈ table, kindOfCode e.1 = some e.2.1 ∧ kindWords e.2.1 = e.2.2)
      ∧ ∀ n : Nat, (∀ e ∈ table, e.1 ≠ n) → kindOfCode n = none)
  ∧ ∀ (s : State) (x : Anchor) (e : CapEntry) (rest : List CapEntry)
    (v : Vector (Option Word) 16), s.intake.queue = e :: rest → s.intake.anchor = some x →
    ((∃ j : Fin 16, e.addr.toNat = x.addr.toNat + 32 + 4 * (s.intake.p + j.val)
        ∧ s.intake.p + j.val < 4 * x.lines ∧ e.enables = 15
        ∧ v = s.intake.slots.set j (some e.word))
      ∨ ((e.enables ≠ 15 ∨ e.addr.toNat < x.addr.toNat + 32 + 4 * s.intake.p
          ∨ x.addr.toNat + 32 + 4 * (s.intake.p + 16) ≤ e.addr.toNat
          ∨ x.addr.toNat + 32 + 16 * x.lines ≤ e.addr.toNat) ∧ v = s.intake.slots)) →
      (s.intake.state = .probing ∨ s.intake.state = .waiting →
        ((e.endMark = false ∨ v[0] = none
            ∨ ∃ h, v[0] = some h ∧ BitVec.ofNat 8 (bits h 20 13) ≠ s.intake.expected) →
          ∃ t, exec .captureDrain s = .next t ∧ SameTables s t ∧ SameControl s t
            ∧ SameOuter s t ∧ BusKept s t ∧ TilesKept s t ∧ t.reports = s.reports
            ∧ t.intake = { s.intake with queue := rest, slots := v })
        ∧ ∀ h, e.endMark = true → v[0] = some h →
          BitVec.ofNat 8 (bits h 20 13) = s.intake.expected →
            ∃ t, exec .captureDrain s = .next t ∧ SameTables s t ∧ t.page = s.page
              ∧ t.share = s.share ∧ SameOuter s t ∧ BusKept s t ∧ TilesKept s t
              ∧ CommitOutcome x h v s t)
      ∧ (∀ r, s.intake.state = .fetching r →
        ∃ t, exec .captureDrain s = .next t ∧ SameTables s t ∧ SameControl s t ∧ SameOuter s t
          ∧ BusKept s t ∧ t.reports = s.reports
          ∧ t.intake = { s.intake with queue := rest })
      ∧ ∀ ph, s.intake.state = .executing ph → exec .captureDrain s = .next s

/-- PROBE_COMPLETE. A probe that is stale is disregarded whole; one that is not halts the intake on a bad
word at P, commits the header when its sequence number is the expected one, the good words from P on in
their slots, and otherwise leaves the intake WAITING. That the four words come with the completion is
the model's choice (log 15); which probe is stale, which probeLive marks, is its reading (log 25); and
that a bad word after P leaves its slot as a capture filled it, and that a commit drops a deferred probe,
are its choices (logs 28 and 29). -/
def Obligations.ProbeCompletes : Prop :=
  ∀ (s u : State) (x : Anchor) (req : LineReq) (n : Nat) (w0 w1 w2 w3 : BusWord),
    s.mside = .own (.intake (.probe req)) n → s.resetDue = false → s.intake.anchor = some x →
    u = s.setMside .free →
      ∃ t, exec (.probeComplete w0 w1 w2 w3) s = .next t ∧ SameTables s t ∧ t.page = s.page
        ∧ t.share = s.share ∧ SameOuter s t ∧ TilesKept s t
        ∧ (¬ (s.intake.probeLive = true ∧ s.intake.state = .probing) →
          t.engine = s.engine ∧ Disregarded s t)
        ∧ (s.intake.probeLive = true → s.intake.state = .probing →
          (wordGood x.bigEndian w0 = false → t.engine = s.engine ∧ Halted x (bits w0.data 31 24) s t)
          ∧ (wordGood x.bigEndian w0 = true → BitVec.ofNat 8 (bits w0.data 20 13) ≠ s.intake.expected →
            t.engine = s.engine ∧ t.reports = s.reports
            ∧ t.intake = { s.intake with state := .waiting, probeLive := false })
          ∧ (wordGood x.bigEndian w0 = true → BitVec.ofNat 8 (bits w0.data 20 13) = s.intake.expected →
            ∃ v : Vector (Option Word) 16,
              (∀ i : Fin 16, v[i] = match [w0, w1, w2, w3][i.val]? with
                | some w => if req.start.val + i.val < 4 ∧ wordGood x.bigEndian w = true then some w.data
                    else s.intake.slots[i]
                | none => s.intake.slots[i])
              ∧ CommitOutcome x w0.data v u t))

/-- The words of a refetch: the header's parity is noted, a body word replaces its slot with the first bad
one noted, and any other word is disregarded. At the completion of a line, a bad header halts, the next
line follows, and after the last the record is skipped for a bad body word or enters EXECUTING. The
address of a ring word, and the line fetch of an address. -/
def Obligations.RefetchReadsRecord : Prop :=
  (∀ (x : Anchor) (i a : Nat), ringAddr x i = x.addr.toNat + 32 + 4 * i
    ∧ lineReqAt a = ⟨BitVec.ofNat 32 (a - a % 16), Fin.ofNat 4 (a / 4)⟩)
  ∧ ∀ (s u : State) (x : Anchor) (req : LineReq) (got : Nat) (r : Refetch),
    s.mside = .own (.intake (.refetch req)) got → s.resetDue = false →
    s.intake.anchor = some x → s.intake.state = .fetching r → u = s.setMside .free →
      (∀ (w : BusWord) (i : Nat), got < 4 →
        i = 4 * (s.intake.p / 4 + r.line) + (req.start.val + got) % 4 →
          ∃ t, exec (.refetchWordArrival w) s = .next t
            ∧ t = (s.setMside (.own (.intake (.refetch req)) (got + 1))).setIntake t.intake
            ∧ (i = s.intake.p → t.intake = { s.intake with
              state := .fetching (if wordGood x.bigEndian w = true then r
                else { r with headerBad := some (bits w.data 31 24) }) })
            ∧ (∀ j : Fin 16, 1 ≤ j.val → i = s.intake.p + j.val → j.val < recordWords s →
              t.intake = { s.intake with
                slots := s.intake.slots.set j (some w.data),
                state := .fetching (if wordGood x.bigEndian w = true ∨ r.bodyBad.isSome = true then r
                  else { r with bodyBad := some (x.addr.toNat + 32 + 4 * i) }) })
            ∧ (i < s.intake.p ∨ s.intake.p + recordWords s ≤ i → t.intake = s.intake))
      ∧ (got = 4 →
        ∃ t, exec .refetchLineComplete s = .next t ∧ SameTables s t ∧ SameControl s t
          ∧ SameOuter s t ∧ TilesKept s t
          ∧ (∀ k, r.headerBad = some k → Halted x k s t)
          ∧ (r.headerBad = none →
            r.line + 1 < (s.intake.p + recordWords s - 1) / 4 - s.intake.p / 4 + 1 →
              t.reports = s.reports
              ∧ t.intake = { s.intake with state := .fetching { r with line := r.line + 1 },
                                           deferred := none, probeLive := false }
              ∧ FetchHanded (.refetch (lineReqAt
                  (x.addr.toNat + 32 + 16 * (s.intake.p / 4 + (r.line + 1))))) t)
          ∧ (r.headerBad = none →
            (s.intake.p + recordWords s - 1) / 4 - s.intake.p / 4 + 1 ≤ r.line + 1 →
              s.intake.p + recordWords s ≤ 4 * x.lines →
              (∀ a, r.bodyBad = some a →
                RecordEnded x (nextIndex x s) u t
                ∧ t.reports = (giveReport
                    (.recordFault .parity s.intake.p (bits s.intake.header 31 24))
                    (giveReport (.parity .probe a) s)).reports)
              ∧ (r.bodyBad = none → EntersExecuting x s.intake.header u t
                ∧ (t.intake.state = .executing .ready → t.intake.slots = s.intake.slots))))

/-! ## The colour load -/

/-- The words and lines of a colour load: a needed good word is written to its entry, a needed bad word is
not and gives one PARITY LOAD a line, other words are disregarded; each line but the last asks for the
next from word 0; after the last the flag is cleared, the placements on the table are marked and the
record ends, with RECORD_FAULT(PARITY) when a needed word was bad. That the last line has a row of its
own is read from the table (log 14). -/
def Obligations.ColourLoadWritesEntries : Prop :=
  ∀ (s : State) (l : Load) (r : LineReq) (got : Nat), s.mside = .own (.load r) got →
    s.colours.load = some l → s.resetDue = false →
      (∀ (w : BusWord) (a : Nat), got < 4 → a = r.line.toNat + 4 * ((r.start.val + got) % 4) →
        ∃ t, exec (.loadWordArrival w) s = .next t ∧ t.objects = s.objects ∧ t.list = s.list
          ∧ t.buttons = s.buttons ∧ SameControl s t ∧ SameOuter s t ∧ TilesKept s t
          ∧ t.intake = s.intake ∧ t.mside = .own (.load r) (got + 1)
          ∧ (a < l.source ∨ l.source + 4 * l.count ≤ a →
            t.colours = s.colours ∧ t.reports = s.reports)
          ∧ (∀ i : Fin 256, l.source ≤ a → a < l.source + 4 * l.count →
            i.val = l.first + (a - l.source) / 4 →
            (wordGood (byteOrder s) w = true → t.reports = s.reports
              ∧ t.colours = ⟨s.colours.entries.set l.table
                  (s.colours.entries[l.table].set i (Argb.ofWord w.data)),
                s.colours.inFlight, some l⟩)
            ∧ (wordGood (byteOrder s) w = false →
              t.colours = ⟨s.colours.entries, s.colours.inFlight,
                some { l with lineBad := true, anyBad := true }⟩
              ∧ (l.lineBad = true → t.reports = s.reports)
              ∧ (l.lineBad = false →
                t.reports = (giveReport (.parity .load a) s).reports))))
      ∧ (got = 4 → r.line.toNat + 16 < l.source + 4 * l.count →
        ∃ t, exec .loadLineComplete s = .next t ∧ LoadHanded ⟨r.line + 16, 0⟩ t
          ∧ t.colours = { s.colours with load := some { l with lineBad := false } }
          ∧ t.objects = s.objects ∧ t.list = s.list ∧ t.buttons = s.buttons
          ∧ SameControl s t ∧ SameOuter s t ∧ TilesKept s t ∧ t.intake = s.intake
          ∧ t.reports = s.reports)
      ∧ ∀ x, got = 4 → l.source + 4 * l.count ≤ r.line.toNat + 16 →
        s.intake.anchor = some x → s.intake.p + recordWords s ≤ 4 * x.lines →
          ∃ t, exec .loadComplete s = .next t ∧ RecordEnded x (nextIndex x s) s t
            ∧ t.colours = ⟨s.colours.entries, s.colours.inFlight.set l.table false, none⟩
            ∧ t.objects = s.objects ∧ t.list = s.list ∧ t.buttons = s.buttons
            ∧ SameControl s t ∧ SameOuter s t
            ∧ t.reports = (if l.anyBad = true then
                (giveReport (.recordFault .parity s.intake.p (bits s.intake.header 31 24))
                  s).reports else s.reports)
            ∧ ∃ u, u = s.setIntake t.intake
              ∧ TookFrom (mark (footprintsOf s (indexedOn s l.table)) s).tiles s.render
                (backPage s) t

/-! ## The render engine -/

/-- A word of object data: one of an application that has ended, or whose decode has stopped, changes
nothing; a needed good word is kept; a bad needed word, or one a RUN8 decode reads, gives PARITY RENDER,
makes a READY object FAULTY and ends the application; a word that leaves a RUN8 decode short makes a
READY object FAULTY with cause SHORT, and the application goes on. When a bad RUN8 word shows is the
model's reading (log 10). The bytes an application of an uncompressed coding needs. -/
def Obligations.ObjectWordsTakenOrFaulted : Prop :=
  (∀ (s : State) (f : Flight) (a : App) (rest : List Placement) (r : LineReq) (got : Nat)
    (w : BusWord) (addr : Nat), s.mside = .own (.render (.fetch r)) got → got < 4 →
    s.render.flight = some f → f.phase = .applying a rest → s.resetDue = false →
    addr = r.line.toNat + 4 * ((r.start.val + got) % 4) →
      ∃ t, exec (.objectWordArrival w) s = .next t ∧ t.colours = s.colours ∧ t.list = s.list
        ∧ t.buttons = s.buttons ∧ SameControl s t ∧ SameOuter s t ∧ t.intake = s.intake
        ∧ t.mside = .own (.render (.fetch r)) (got + 1) ∧ t.cside = s.cside
        ∧ (a.ended = true → t.objects = s.objects ∧ t.reports = s.reports ∧ t.tiles = s.tiles
          ∧ t.render = s.render)
        ∧ (∀ g, a.ended = false → a.data = .words g →
          (¬ (firstByte a < addr + 4 ∧ addr ≤ lastByte a) → t.objects = s.objects
            ∧ t.reports = s.reports ∧ t.tiles = s.tiles ∧ t.render = s.render)
          ∧ (firstByte a < addr + 4 → addr ≤ lastByte a → wordGood (byteOrder s) w = true →
            t.objects = s.objects ∧ t.reports = s.reports ∧ t.tiles = s.tiles
            ∧ t.render = ⟨s.render.scan, (some ⟨f.tile, f.page, f.row, f.pixels,
                .applying { a with data := .words (g ++ [(addr, w.data)]) } rest⟩)⟩)
          ∧ (firstByte a < addr + 4 → addr ≤ lastByte a → wordGood (byteOrder s) w = false →
            ObjectFaulted a.obj .parity (giveReport (.parity .render addr) s) s t
            ∧ t.render = ⟨s.render.scan, (some ⟨f.tile, f.page, f.row, f.pixels,
                .applying { a with ended := true } rest⟩)⟩))
        ∧ ∀ d, a.ended = false → a.data = .run8 d →
          (d.status ≠ .needByte → t.objects = s.objects ∧ t.reports = s.reports
            ∧ t.tiles = s.tiles ∧ t.render = s.render)
          ∧ ∀ d', d.status = .needByte → d' = d.arrive (byteOrder s) a.entry a.c1 addr w →
            ((∀ b, d'.status ≠ .bad b) →
              t.render = ⟨s.render.scan, some ⟨f.tile, f.page, f.row, f.pixels,
                .applying { a with data := .run8 d' } rest⟩⟩
              ∧ (d'.status = .short → ObjectFaulted a.obj .short s s t)
              ∧ (d'.status ≠ .short → t.objects = s.objects ∧ t.reports = s.reports
                ∧ t.tiles = s.tiles))
            ∧ ∀ b, d'.status = .bad b →
              ObjectFaulted a.obj .parity (giveReport (.parity .render b) s) s t
              ∧ t.render = ⟨s.render.scan, (some ⟨f.tile, f.page, f.row, f.pixels,
                  .applying { a with data := .run8 d', ended := true } rest⟩)⟩)
  ∧ (∀ (a : App) (n start : Nat),
      (a.entry.coding = .direct32 ∧ n = 32) ∨ (a.entry.coding = .index8 ∧ n = 8)
        ∨ (a.entry.coding = .index4 ∧ n = 4) ∨ (a.entry.coding = .index2 ∧ n = 2) →
      start = a.entry.addr.toNat + a.row * ((a.entry.width * n + 127) / 128) * 16 →
        firstByte a = start + a.c0 * n / 8 ∧ lastByte a = start + ((a.c1 + 1) * n + 7) / 8 - 1)

/-- One step of the RUN8 decode, past the row table: complete once column c1 is produced, short at the end
of the data, waiting for a byte not at hand, stopped by a bad word; a code byte below 0x80 begins b + 1
literals and one above a run of (b − 0x80) + 2 columns; surplus columns are dropped. The row table entry
waits while it is not at hand, stops the decode when its word is bad, is short at or beyond the data
length, and otherwise gives the offset of the code. A word that arrives joins the words at hand, and the
step is repeated from there until it stops. -/
def Obligations.Run8DecodeSteps : Prop :=
  ∀ (d : Run8) (be : Bool) (e : ObjEntry) (c1 : Nat),
    (d.mode ≠ .entry → c1 < d.out.length →
      d.step be e c1 = ({ d with status := .complete }, false))
    ∧ (d.mode ≠ .entry → d.out.length ≤ c1 → e.addr.toNat + e.length.toNat ≤ d.pos →
      d.step be e c1 = ({ d with status := .short }, false))
    ∧ (d.mode ≠ .entry → d.out.length ≤ c1 → d.pos < e.addr.toNat + e.length.toNat →
      (d.line.lookup (d.pos - d.pos % 4) = none →
        d.step be e c1 = ({ d with status := .needByte }, false))
      ∧ ∀ w, d.line.lookup (d.pos - d.pos % 4) = some w →
        (wordGood be w = false →
          d.step be e c1 = ({ d with status := .bad (d.pos - d.pos % 4) }, false))
        ∧ ∀ b, wordGood be w = true → b = byteAt be w.data (d.pos % 4) →
          (d.mode = .code → b < 128 →
            d.step be e c1 = ({ d with pos := d.pos + 1, mode := .literal (b + 1) }, true))
          ∧ (d.mode = .code → 128 ≤ b →
            d.step be e c1 = ({ d with pos := d.pos + 1, mode := .run (b - 128 + 2) }, true))
          ∧ (∀ n, d.mode = .literal n → d.step be e c1 =
            ({ d with pos := d.pos + 1, out := d.out ++ [b],
                      mode := if n ≤ 1 then .code else .literal (n - 1) }, true))
          ∧ ∀ n, d.mode = .run n → d.step be e c1 =
            ({ d with pos := d.pos + 1,
                      out := (d.out ++ List.replicate n b).take (c1 + 1), mode := .code }, true))
    ∧ (d.mode = .entry → d.line.lookup (d.pos - d.pos % 4) = none →
      d.step be e c1 = ({ d with status := .needByte }, false))
    ∧ (∀ w, d.mode = .entry → d.line.lookup (d.pos - d.pos % 4) = some w →
      (wordGood be w = false →
        d.step be e c1 = ({ d with status := .bad (d.pos - d.pos % 4) }, false))
      ∧ (wordGood be w = true → e.length.toNat ≤ w.data.toNat →
        d.step be e c1 = ({ d with status := .short }, false))
      ∧ (wordGood be w = true → w.data.toNat < e.length.toNat → d.status ≠ .short →
        d.step be e c1 = ({ d with pos := e.addr.toNat + w.data.toNat, mode := .code }, true)))
    ∧ ∀ (addr : Nat) (w : BusWord), ∃ (k : Nat) (seq : Nat → Run8),
      seq 0 = { d with line := d.line ++ [(addr, w)] }
      ∧ (∀ j, j < k → (seq j).step be e c1 = (seq (j + 1), true))
      ∧ (seq k).step be e c1 = (d.arrive be e c1 addr w, false)

/-- The completion of an object fetch: an ended application is left; while data is still needed the next
line is fetched; otherwise the covered pixels take the placement by R37 and R38, and the row goes on with
its next entry. That an application is applied, or an ended one gives way, at this completion is the
model's reading (logs 10 and 23). When a placement applies to a row and with which span, where its first
fetch begins, the colour of a column, by coding and byte order, and the first column of a tile. -/
def Obligations.ObjectFetchAppliesPlacement : Prop :=
  (∀ (s : State) (pl : Plane) (f : Flight) (a : App) (rest : List Placement) (r : LineReq),
    s.mside = .own (.render (.fetch r)) 4 → s.render.flight = some f →
    f.phase = .applying a rest → s.tiles.plane = some pl → s.resetDue = false →
      ∃ t, exec .objectFetchComplete s = .next t ∧ t.colours = s.colours ∧ t.list = s.list
        ∧ t.buttons = s.buttons ∧ SameControl s t ∧ SameOuter s t ∧ t.intake = s.intake
        ∧ t.objects = s.objects ∧ t.reports = s.reports ∧ t.tiles = s.tiles
        ∧ (a.ended = true → RowGoesOn pl f rest s t)
        ∧ (∀ g, a.ended = false → a.data = .words g → r.line.toNat + 16 ≤ lastByte a →
          RenderHanded (.fetch ⟨r.line + 16, 0⟩) t ∧ t.render = s.render)
        ∧ (∀ d, a.ended = false → a.data = .run8 d → d.status = .needByte →
          RenderHanded (.fetch (lineReqAt d.pos)) t
          ∧ t.render.flight = some ⟨f.tile, f.page, f.row, f.pixels,
              .applying { a with data := .run8 { d with line := [] } } rest⟩)
        ∧ (a.ended = false →
          ((∃ g, a.data = .words g ∧ lastByte a < r.line.toNat + 16)
            ∨ ∃ d, a.data = .run8 d ∧ (d.status = .complete ∨ d.status = .short)) →
            ∃ px, px.length = f.pixels.length
              ∧ (∀ (i : Nat) (c : Argb), f.pixels[i]? = some c → px[i]? = some
                (if a.px0 ≤ tileLeft pl f.tile + i ∧ tileLeft pl f.tile + i ≤ a.px1 then
                  layOver (sourcePixel
                    (appColour s a (tileLeft pl f.tile + i - a.px0 + a.c0)) a.place.opacity) c
                 else c))
              ∧ RowGoesOn pl { f with pixels := px } rest s t))
  ∧ (∀ (s : State) (pl : Plane) (tile r : Nat) (p : Placement) (left y : Int),
      left = 64 * ((tile % (pl.width / 64) : Nat) : Int) →
      y = 8 * ((tile / (pl.width / 64) : Nat) : Int) + r →
        (currentObject s p = none → startApp s pl tile r p = none)
        ∧ ∀ id e, currentObject s p = some id → e = s.objects[id] →
          (¬ (e.state = .ready ∧ p.opacity ≠ 0 ∧ p.y ≤ y ∧ y < p.y + e.height
              ∧ ∃ c : Int, left ≤ c ∧ c < left + 64 ∧ p.x ≤ c ∧ c < p.x + e.width) →
            startApp s pl tile r p = none)
          ∧ (e.state = .ready → p.opacity ≠ 0 → p.y ≤ y → y < p.y + e.height →
            (∃ c : Int, left ≤ c ∧ c < left + 64 ∧ p.x ≤ c ∧ c < p.x + e.width) →
              ∃ a, startApp s pl tile r p = some a ∧ a.place = p ∧ a.obj = id ∧ a.entry = e
                ∧ a.ended = false ∧ (a.px0 : Int) = max p.x left
                ∧ (a.px1 : Int) = min (p.x + e.width - 1) (left + 63)
                ∧ (a.c0 : Int) = a.px0 - p.x ∧ (a.c1 : Int) = a.px1 - p.x
                ∧ (a.row : Int) = y - p.y
                ∧ a.data = if e.coding = .run8 then
                    .run8 ⟨e.addr.toNat + 4 * a.row, .entry, [], .needByte, []⟩ else .words []))
  ∧ (∀ (a : App) (g : List (Nat × Word)), a.data = .words g →
      firstFetch a = ⟨BitVec.ofNat 32 (firstByte a - firstByte a % 16),
        Fin.ofNat 4 (firstByte a / 4)⟩)
  ∧ (∀ (a : App) (d : Run8), a.data = .run8 d →
      firstFetch a = ⟨BitVec.ofNat 32 (d.pos - d.pos % 16), Fin.ofNat 4 (d.pos / 4)⟩)
  ∧ (∀ (w : Word) (k : Nat), k < 4 → byteAt false w k = w.toNat / 2 ^ (8 * k) % 256
      ∧ byteAt true w k = w.toNat / 2 ^ (24 - 8 * k) % 256)
  ∧ (∀ (s : State) (a : App) (g : List (Nat × Word)) (w : Word) (x start at_ b : Nat),
      a.data = .words g →
      start = a.entry.addr.toNat
        + a.row * ((a.entry.width * a.entry.coding.pixelBits + 127) / 128) * 16 →
      at_ = start + x * a.entry.coding.pixelBits / 8 → g.lookup (at_ - at_ % 4) = some w →
      b = byteAt (byteOrder s) w (at_ % 4) →
        (a.entry.coding = .direct32 → appColour s a x = Argb.ofWord w)
        ∧ ∀ i : Fin 256,
          (a.entry.coding = .index8 ∧ i.val = b)
            ∨ (a.entry.coding = .index4 ∧ i.val = (if x % 2 = 0 then b / 16 else b % 16))
            ∨ (a.entry.coding = .index2 ∧ i.val = b / 4 ^ (3 - x % 4) % 4) →
          appColour s a x = s.colours.entries[a.entry.table][i])
  ∧ ∀ (s : State) (a : App) (d : Run8) (x : Nat), a.data = .run8 d →
    (∀ i : Fin 256, d.out[x]? = some i.val → appColour s a x = s.colours.entries[a.entry.table][i])
    ∧ (d.out[x]? = none → appColour s a x = ⟨0, 0, 0, 0⟩)
    ∧ ∀ (pl : Plane) (tile : Nat), tileLeft pl tile = 64 * (tile % (pl.width / 64))

/-- The stores of a tile: the next line follows a row's line, the next row begins at the clear colour with
the list as it stands after a row's last, and after the last of row 7 the tile is CLEAN, or DIRTY if a
marking reached it, and the scan pointer names the tile after it. That the last store has a row of its
own is read from the table (log 14). When a SETUP PLANE waits for the tile in flight, where the lines of a
tile's rows lie, and the words they carry. -/
def Obligations.TileRowsAreStoredInOrder : Prop :=
  (∀ (s : State) (pl : Plane) (f : Flight) (n : Nat) (a : Addr) (p : Fin 4) (ws : List BusWord),
    s.mside = .own (.render (.store a p ws)) 0 → s.render.flight = some f →
    f.phase = .storing n → s.tiles.plane = some pl → s.resetDue = false →
      (n < 15 → ∃ t, exec .renderStoreComplete s = .next t ∧ SameTables s t ∧ SameControl s t
        ∧ SameOuter s t ∧ t.intake = s.intake ∧ t.reports = s.reports ∧ t.tiles = s.tiles
        ∧ t.render = ⟨s.render.scan, some { f with phase := .storing (n + 1) }⟩
        ∧ RenderHanded
            (.store (BitVec.ofNat 32 (tileLineAddr pl f.page f.tile f.row (n + 1))) 0
              (rowLineWords (byteOrder s) f.pixels (n + 1))) t)
      ∧ (n = 15 → f.row < 7 → ∃ t, exec .renderStoreComplete s = .next t ∧ SameTables s t
        ∧ SameControl s t ∧ SameOuter s t ∧ t.intake = s.intake ∧ t.reports = s.reports
        ∧ t.tiles = s.tiles
        ∧ RowGoesOn pl ⟨f.tile, f.page, f.row + 1, List.replicate 64 pl.clear, .storing 0⟩
            s.list s t)
      ∧ (n = 15 → f.row = 7 → planeWaits s = false →
        ∃ t, exec .tileComplete s = .next t ∧ SameTables s t ∧ SameControl s t
          ∧ SameOuter s t ∧ t.intake = s.intake ∧ t.reports = s.reports
          ∧ TookFrom
              (s.tiles.setPage f.page ((s.tiles.ofPage f.page).modify f.tile fun st =>
                match st with
                | .busy => .clean
                | .busyStale => .dirty
                | .clean => .clean
                | .dirty => .dirty))
              ⟨(f.tile + 1) % pl.tileCount, none⟩ (backPage s) t)
      ∧ ∀ x, n = 15 → f.row = 7 → planeWaits s = true → s.intake.anchor = some x →
        s.intake.p + recordWords s ≤ 4 * x.lines →
          ∃ t, exec .tileComplete s = .next t ∧ RecordEnded x (nextIndex x s) s t
            ∧ SameTables s t ∧ t.engine = s.engine ∧ SameOuter s t ∧ t.reports = s.reports
            ∧ t.share = bits s.intake.header 3 0
            ∧ t.page = { s.page with front := .a, running := none }
            ∧ TookFrom
                ⟨true, planeNamed s, List.replicate (planeNamed s).tileCount .dirty,
                  List.replicate (planeNamed s).tileCount .dirty, true⟩ ⟨0, none⟩ .b t)
  ∧ (∀ s : State, planeWaits s = true ↔ s.intake.state = .executing .planeWait)
  ∧ (∀ (pl : Plane) (g : Page) (tile r n y : Nat), y = 8 * (tile / (pl.width / 64)) + r →
      tileLineAddr pl g tile r n
        = (match g with | .a => pl.baseA.toNat | .b => pl.baseB.toNat)
          + 4 * (y * pl.width + 64 * (tile % (pl.width / 64))) + 16 * n)
  ∧ ∀ (be : Bool) (px : List Argb) (n : Nat), px.length = 64 → n < 16 →
    (rowLineWords be px n).length = 4
    ∧ ∀ (i : Nat) (c : Argb), i < 4 → px[4 * n + i]? = some c →
      (rowLineWords be px n)[i]? = some (fresh be c.toWord)
      ∧ c.toWord.toNat = c.a.toNat * 2 ^ 24 + c.r.toNat * 2 ^ 16 + c.g.toNat * 2 ^ 8 + c.b.toNat
      ∧ Argb.ofWord c.toWord = c

/-! ## Reports -/

/-- A report at its arrival, case by case, and the report line handed: the oldest report of the queue, or
OVERFLOW once the queue is empty, in the slot at the write index, while none is in hand and the ring is
not full (a ring is full while the slot after the one at the write index is that at the captured read
index). REPORT_STORE_COMPLETE: a queued report leaves the queue, the write index moves on modulo the
entries, control word 2 is handed with it, the attention line follows by the comparison of the indexes (R168
conflicts with itself where a stale index was stored: log 31), and the next report is then handed
if it may be, as by the case it falls under. CONTROL_WORD_STORE_COMPLETE only frees the M-side. The four words of each kind of report. -/
def Obligations.ReportsReachRing : Prop :=
  ((∀ (r : Report) (u : ReportUnit),
      (u.ring = none → u.arrive r = u)
      ∧ (u.ring.isSome = true → u.overflow = true →
        u.arrive r = { u with seq := u.seq + 1, lost := min 65535 (u.lost + 1) })
      ∧ (u.ring.isSome = true → u.overflow = false → 8 ≤ u.queue.length → u.arrive r
        = { u with seq := u.seq + 1, overflow := true, firstLost := u.seq, lost := 1 })
      ∧ (u.ring.isSome = true → u.overflow = false → u.queue.length < 8 → u.arrive r
        = { u with seq := u.seq + 1, queue := u.queue ++ [⟨r, u.seq⟩] }))
    ∧ (∀ (r : Report) (s : State),
      giveReport r s = handReport (s.setReports (s.reports.arrive r)))
    ∧ (∀ (u : ReportUnit) (r : ReportRing), u.ring = some r →
      (u.full = true ↔ (u.write + 1) % r.entries = u.read))
    ∧ ∀ s : State,
      (∀ r q rest, s.reports.ring = some r → s.reports.inHand = none → s.reports.full = false →
        s.reports.queue = q :: rest →
          (handReport s).reports = { s.reports with inHand := some false }
          ∧ (handReport s).waiting.class1 = s.waiting.class1 ++ [.reportLine
              (BitVec.ofNat 32 (r.base.toNat + 16 * s.reports.write)) 0
              ((reportWords q).map (fresh (byteOrder s)))])
      ∧ (∀ r, s.reports.ring = some r → s.reports.inHand = none → s.reports.full = false →
        s.reports.queue = [] → s.reports.overflow = true →
          (handReport s).reports = { s.reports with
            inHand := some true, seq := s.reports.seq + 1, overflow := false, firstLost := 0,
            lost := 0 }
          ∧ (handReport s).waiting.class1 = s.waiting.class1 ++ [.reportLine
              (BitVec.ofNat 32 (r.base.toNat + 16 * s.reports.write)) 0
              ((reportWords ⟨.overflow s.reports.firstLost s.reports.lost, s.reports.seq⟩).map
                (fresh (byteOrder s)))])
      ∧ ((s.reports.ring = none ∨ s.reports.inHand.isSome = true ∨ s.reports.full = true
          ∨ (s.reports.queue = [] ∧ s.reports.overflow = false)) → handReport s = s))
  ∧ (∀ (s : State) (x : Anchor), s.resetDue = false → s.intake.anchor = some x →
      (∀ (a : Addr) (p : Fin 4) (ws : List BusWord) (n : Nat) (r : ReportRing) (ov : Bool),
        s.mside = .own (.class1 (.reportLine a p ws)) n → s.reports.ring = some r →
        s.reports.inHand = some ov →
          ∃ t, exec .reportStoreComplete s = .next t ∧ SameTables s t ∧ SameControl s t
            ∧ SameOuter s t ∧ TilesKept s t ∧ t.intake = s.intake
            ∧ t.reports.ring = some r ∧ t.reports.write = (s.reports.write + 1) % r.entries
            ∧ t.reports.read = s.reports.read
            ∧ t.reports.queue = (if ov = true then s.reports.queue else s.reports.queue.tail)
            ∧ t.reports.attention = ((s.reports.write + 1) % r.entries != s.reports.read)
            ∧ ControlHanded .reportIndex
                (BitVec.ofNat 32 ((s.reports.write + 1) % r.entries)) t
            ∧ ∃ u, u = s.setReports { s.reports with
                queue := if ov = true then s.reports.queue else s.reports.queue.tail,
                write := (s.reports.write + 1) % r.entries, inHand := none,
                attention := (s.reports.write + 1) % r.entries != s.reports.read }
              ∧ t.reports = (handReport u).reports
              ∧ ∀ l, (handReport u).waiting.class1 = u.waiting.class1 ++ [l] →
                l ∈ t.waiting.class1 ∨ t.mside = .own (.class1 l) 0)
      ∧ ∀ (k : ControlWord) (a : Addr) (e : BitVec 4) (w : BusWord) (n : Nat),
        s.mside = .own (.class1 (.control k a e w)) n → TileTaken s →
          ∃ t, exec .controlWordStoreComplete s = .next t ∧ SameTables s t ∧ SameControl s t
            ∧ SameOuter s t ∧ t.tiles = s.tiles ∧ t.render = s.render ∧ t.intake = s.intake
            ∧ t.reports = s.reports
            ∧ (s.cside.state = .idle → s.path = .service →
              (selectOwn s.waiting = none → t.mside = .free ∧ t.waiting = s.waiting)
              ∧ ∀ o left, selectOwn s.waiting = some (o, left) →
                t.mside = .own o 0 ∧ t.waiting = left ∧ t.passover = 0))
  ∧ ∀ n : BitVec 16,
    (∀ now prev : Link, reportWords ⟨.selection now prev, n⟩
      = [BitVec.ofNat 32 (0x01000000 + n.toNat),
          (match now with | some b => BitVec.ofNat 32 b.val | none => 63),
          (match prev with | some b => BitVec.ofNat 32 b.val | none => 63), 0])
    ∧ (∀ (b : Fin 48) (v : Word), reportWords ⟨.activated b v, n⟩
      = [BitVec.ofNat 32 (0x02000000 + n.toNat), BitVec.ofNat 32 b.val, v, 0])
    ∧ (∀ (g : Page) (c : BitVec 16), reportWords ⟨.flipped g c, n⟩
      = [BitVec.ofNat 32 (0x03000000 + n.toNat), (match g with | .a => 0 | .b => 1),
          BitVec.ofNat 32 c.toNat, 0])
    ∧ (∀ k : TransKind, reportWords ⟨.transitionDone k, n⟩
      = [BitVec.ofNat 32 (0x04000000 + n.toNat),
          (match k with
            | .dissolve => 1 | .wipeLeft => 2 | .wipeRight => 3 | .wipeDown => 4 | .wipeUp => 5),
          0, 0])
    ∧ (∀ (c : RecCause) (p k : Nat), reportWords ⟨.recordFault c p k, n⟩
      = [BitVec.ofNat 32 (0x05000000 + 0x10000
            * (match c with
              | .kind => 1 | .size => 2 | .field => 3 | .bounds => 4 | .overlap => 5 | .parity => 6)
            + n.toNat), BitVec.ofNat 32 p, BitVec.ofNat 32 k, 0])
    ∧ (∀ (c : ObjCause) (id : Fin 256), reportWords ⟨.objectFault c id, n⟩
      = [BitVec.ofNat 32 (0x06000000 + 0x10000 * (match c with | .short => 1 | .parity => 2)
            + n.toNat), BitVec.ofNat 32 id.val, 0, 0])
    ∧ (∀ (c : ParityPlace) (a : Nat), reportWords ⟨.parity c a, n⟩
      = [BitVec.ofNat 32 (0x07000000 + 0x10000
            * (match c with
              | .capture => 1 | .probe => 2 | .load => 3 | .render => 4 | .display => 5)
            + n.toNat), BitVec.ofNat 32 a, 0, 0])
    ∧ ∀ (c : BitVec 16) (m : Nat), reportWords ⟨.overflow c m, n⟩
      = [BitVec.ofNat 32 (0x08000000 + n.toNat), BitVec.ofNat 32 c.toNat, BitVec.ofNat 32 m, 0]

/-! ## Invariants that every step keeps -/

/-- The attention line follows the ring and the two indexes, whatever command comes. That the comparison of
the indexes decides, also where a stale value of control word 2 is stored and R168 has the line go low all
the same, is the model's choice (log 31). -/
def Obligations.AttentionLineFollowsIndexes : Prop :=
  ∀ s t : State, AttentionFollows s → step s = .next t → AttentionFollows t

/-- The object directory, the composition list and the button table stay sound. -/
def Obligations.StepKeepsTablesSound : Prop :=
  ∀ s t : State, ObjectsSound s → ListSound s → ButtonsSound s → step s = .next t →
    ObjectsSound t ∧ ListSound t ∧ ButtonsSound t

/-- The intake, the report unit, page control, the colour load and the arbiter's counts stay sound, with the
engine states. -/
def Obligations.StepKeepsUnitsSound : Prop :=
  ∀ s t : State, EngineSound s → IntakeSound s → ReportsSound s → PageSound s → CountsSound s →
    LoadSound s → step s = .next t →
      EngineSound t ∧ IntakeSound t ∧ ReportsSound t ∧ PageSound t ∧ CountsSound t ∧ LoadSound t

/-- The tile map and the tile in flight stay sound, with the engine states: at most one tile in flight, on
the back page, and none while a transition runs. -/
def Obligations.StepKeepsTilesSound : Prop :=
  ∀ s t : State, EngineSound s → TilesSound s → step s = .next t → EngineSound t ∧ TilesSound t

/-- Every pixel the render engine has in hand keeps the premultiplied property. -/
def Obligations.StepKeepsPixelsPremultiplied : Prop :=
  ∀ s t : State, PixelsSound s → step s = .next t → PixelsSound t

/-- The engine states, the bus and the control-line stores stay sound. -/
def Obligations.StepKeepsEngineAndBusSound : Prop :=
  ∀ s t : State, EngineSound s → BusSound s → Class1Sound s → step s = .next t →
    EngineSound t ∧ BusSound t ∧ Class1Sound t

/-- No work is left lying: no request waits at a free M-side, a tile is in flight while the state is
RENDERING, and a report that may be handed has been. The render state: HELD while the plane is unset, the
engine is not ACTIVE, a transition runs or a SETUP PLANE waits; otherwise RENDERING while a tile of the
back page is DIRTY, and IDLE while none is. -/
def Obligations.StepLeavesNoWorkWaiting : Prop :=
  (∀ s t : State, ArbiterServed s → TileTaken s → ReportTaken s → step s = .next t →
    ArbiterServed t ∧ TileTaken t ∧ ReportTaken t)
  ∧ ∀ (s : State) (back : List TileState),
    back = (match s.page.front with | .a => s.tiles.b | .b => s.tiles.a) →
      (renderState s = .held ↔ s.tiles.plane = none ∨ s.engine ≠ .active ∨ s.page.running ≠ none
        ∨ s.intake.state = .executing .planeWait)
      ∧ (renderState s = .rendering ↔ s.tiles.plane ≠ none ∧ s.engine = .active
        ∧ s.page.running = none ∧ s.intake.state ≠ .executing .planeWait ∧ .dirty ∈ back)
      ∧ (renderState s = .idle ↔ s.tiles.plane ≠ none ∧ s.engine = .active
        ∧ s.page.running = none ∧ s.intake.state ≠ .executing .planeWait ∧ ¬ .dirty ∈ back)

/-- Every change of a state word field is handed with the word as it then stands; the fields of the state
word, and the places of the control-line words. -/
def Obligations.StateWordChangesAreHanded : Prop :=
  (∀ (c : Instr) (s t : State), EngineSound s → LoadSound s → exec c s = .next t →
    t.intake.anchor.isSome = true → stateWord t ≠ stateWord s →
      ControlHanded .stateWord (stateWord t) t)
  ∧ (∀ s : State,
      bits (stateWord s) 31 24 = 0xC3 ∧ bits (stateWord s) 23 16 = 1
      ∧ bits (stateWord s) 15 10 = 0
      ∧ bits (stateWord s) 9 9 = (if s.page.front = .b then 1 else 0)
      ∧ bits (stateWord s) 8 8 = (if s.reports.ring.isSome then 1 else 0)
      ∧ bits (stateWord s) 7 7 = (if s.tiles.planeSet then 1 else 0)
      ∧ bits (stateWord s) 6 6 = (if s.page.running.isSome then 1 else 0)
      ∧ bits (stateWord s) 5 5 = (if s.page.batchOpen then 1 else 0)
      ∧ bits (stateWord s) 4 4 = (if s.intake.state = .halted then 1 else 0)
      ∧ (s.engine = .active → bits (stateWord s) 3 0 = 1)
      ∧ (s.engine = .parked → bits (stateWord s) 3 0 = 2))
  ∧ ∀ x : Addr, controlAddr x .scriptIndex = x + 20 ∧ controlAddr x .reportIndex = x + 24
    ∧ controlAddr x .stateWord = x + 28
end

