-- ==== Sys2Proof/Laws/State.lean ====
section
/-! SUPPORT. What each field reads after each update of a field: one lemma per field per update. -/
namespace Sys2Proof.Machine
set_option Elab.async false
variable (s : State)

@[simp] theorem State.setPending_pending (v) : (s.setPending v).pending = v := rfl
@[simp] theorem State.setPending_resetLine (v) : (s.setPending v).resetLine = s.resetLine := rfl
@[simp] theorem State.setPending_resetDue (v) : (s.setPending v).resetDue = s.resetDue := rfl
@[simp] theorem State.setPending_urgent (v) : (s.setPending v).urgent = s.urgent := rfl
@[simp] theorem State.setPending_path (v) : (s.setPending v).path = s.path := rfl
@[simp] theorem State.setPending_share (v) : (s.setPending v).share = s.share := rfl
@[simp] theorem State.setPending_passover (v) : (s.setPending v).passover = s.passover := rfl
@[simp] theorem State.setPending_mside (v) : (s.setPending v).mside = s.mside := rfl
@[simp] theorem State.setPending_cside (v) : (s.setPending v).cside = s.cside := rfl
@[simp] theorem State.setPending_waiting (v) : (s.setPending v).waiting = s.waiting := rfl
@[simp] theorem State.setPending_engine (v) : (s.setPending v).engine = s.engine := rfl
@[simp] theorem State.setPending_latch (v) : (s.setPending v).latch = s.latch := rfl
@[simp] theorem State.setPending_frames (v) : (s.setPending v).frames = s.frames := rfl
@[simp] theorem State.setPending_intake (v) : (s.setPending v).intake = s.intake := rfl
@[simp] theorem State.setPending_objects (v) : (s.setPending v).objects = s.objects := rfl
@[simp] theorem State.setPending_colours (v) : (s.setPending v).colours = s.colours := rfl
@[simp] theorem State.setPending_list (v) : (s.setPending v).list = s.list := rfl
@[simp] theorem State.setPending_buttons (v) : (s.setPending v).buttons = s.buttons := rfl
@[simp] theorem State.setPending_tiles (v) : (s.setPending v).tiles = s.tiles := rfl
@[simp] theorem State.setPending_render (v) : (s.setPending v).render = s.render := rfl
@[simp] theorem State.setPending_page (v) : (s.setPending v).page = s.page := rfl
@[simp] theorem State.setPending_reports (v) : (s.setPending v).reports = s.reports := rfl

@[simp] theorem State.setResetLine_pending (v) : (s.setResetLine v).pending = s.pending := rfl
@[simp] theorem State.setResetLine_resetLine (v) : (s.setResetLine v).resetLine = v := rfl
@[simp] theorem State.setResetLine_resetDue (v) : (s.setResetLine v).resetDue = s.resetDue := rfl
@[simp] theorem State.setResetLine_urgent (v) : (s.setResetLine v).urgent = s.urgent := rfl
@[simp] theorem State.setResetLine_path (v) : (s.setResetLine v).path = s.path := rfl
@[simp] theorem State.setResetLine_share (v) : (s.setResetLine v).share = s.share := rfl
@[simp] theorem State.setResetLine_passover (v) : (s.setResetLine v).passover = s.passover := rfl
@[simp] theorem State.setResetLine_mside (v) : (s.setResetLine v).mside = s.mside := rfl
@[simp] theorem State.setResetLine_cside (v) : (s.setResetLine v).cside = s.cside := rfl
@[simp] theorem State.setResetLine_waiting (v) : (s.setResetLine v).waiting = s.waiting := rfl
@[simp] theorem State.setResetLine_engine (v) : (s.setResetLine v).engine = s.engine := rfl
@[simp] theorem State.setResetLine_latch (v) : (s.setResetLine v).latch = s.latch := rfl
@[simp] theorem State.setResetLine_frames (v) : (s.setResetLine v).frames = s.frames := rfl
@[simp] theorem State.setResetLine_intake (v) : (s.setResetLine v).intake = s.intake := rfl
@[simp] theorem State.setResetLine_objects (v) : (s.setResetLine v).objects = s.objects := rfl
@[simp] theorem State.setResetLine_colours (v) : (s.setResetLine v).colours = s.colours := rfl
@[simp] theorem State.setResetLine_list (v) : (s.setResetLine v).list = s.list := rfl
@[simp] theorem State.setResetLine_buttons (v) : (s.setResetLine v).buttons = s.buttons := rfl
@[simp] theorem State.setResetLine_tiles (v) : (s.setResetLine v).tiles = s.tiles := rfl
@[simp] theorem State.setResetLine_render (v) : (s.setResetLine v).render = s.render := rfl
@[simp] theorem State.setResetLine_page (v) : (s.setResetLine v).page = s.page := rfl
@[simp] theorem State.setResetLine_reports (v) : (s.setResetLine v).reports = s.reports := rfl

@[simp] theorem State.setResetDue_pending (v) : (s.setResetDue v).pending = s.pending := rfl
@[simp] theorem State.setResetDue_resetLine (v) : (s.setResetDue v).resetLine = s.resetLine := rfl
@[simp] theorem State.setResetDue_resetDue (v) : (s.setResetDue v).resetDue = v := rfl
@[simp] theorem State.setResetDue_urgent (v) : (s.setResetDue v).urgent = s.urgent := rfl
@[simp] theorem State.setResetDue_path (v) : (s.setResetDue v).path = s.path := rfl
@[simp] theorem State.setResetDue_share (v) : (s.setResetDue v).share = s.share := rfl
@[simp] theorem State.setResetDue_passover (v) : (s.setResetDue v).passover = s.passover := rfl
@[simp] theorem State.setResetDue_mside (v) : (s.setResetDue v).mside = s.mside := rfl
@[simp] theorem State.setResetDue_cside (v) : (s.setResetDue v).cside = s.cside := rfl
@[simp] theorem State.setResetDue_waiting (v) : (s.setResetDue v).waiting = s.waiting := rfl
@[simp] theorem State.setResetDue_engine (v) : (s.setResetDue v).engine = s.engine := rfl
@[simp] theorem State.setResetDue_latch (v) : (s.setResetDue v).latch = s.latch := rfl
@[simp] theorem State.setResetDue_frames (v) : (s.setResetDue v).frames = s.frames := rfl
@[simp] theorem State.setResetDue_intake (v) : (s.setResetDue v).intake = s.intake := rfl
@[simp] theorem State.setResetDue_objects (v) : (s.setResetDue v).objects = s.objects := rfl
@[simp] theorem State.setResetDue_colours (v) : (s.setResetDue v).colours = s.colours := rfl
@[simp] theorem State.setResetDue_list (v) : (s.setResetDue v).list = s.list := rfl
@[simp] theorem State.setResetDue_buttons (v) : (s.setResetDue v).buttons = s.buttons := rfl
@[simp] theorem State.setResetDue_tiles (v) : (s.setResetDue v).tiles = s.tiles := rfl
@[simp] theorem State.setResetDue_render (v) : (s.setResetDue v).render = s.render := rfl
@[simp] theorem State.setResetDue_page (v) : (s.setResetDue v).page = s.page := rfl
@[simp] theorem State.setResetDue_reports (v) : (s.setResetDue v).reports = s.reports := rfl

@[simp] theorem State.setUrgent_pending (v) : (s.setUrgent v).pending = s.pending := rfl
@[simp] theorem State.setUrgent_resetLine (v) : (s.setUrgent v).resetLine = s.resetLine := rfl
@[simp] theorem State.setUrgent_resetDue (v) : (s.setUrgent v).resetDue = s.resetDue := rfl
@[simp] theorem State.setUrgent_urgent (v) : (s.setUrgent v).urgent = v := rfl
@[simp] theorem State.setUrgent_path (v) : (s.setUrgent v).path = s.path := rfl
@[simp] theorem State.setUrgent_share (v) : (s.setUrgent v).share = s.share := rfl
@[simp] theorem State.setUrgent_passover (v) : (s.setUrgent v).passover = s.passover := rfl
@[simp] theorem State.setUrgent_mside (v) : (s.setUrgent v).mside = s.mside := rfl
@[simp] theorem State.setUrgent_cside (v) : (s.setUrgent v).cside = s.cside := rfl
@[simp] theorem State.setUrgent_waiting (v) : (s.setUrgent v).waiting = s.waiting := rfl
@[simp] theorem State.setUrgent_engine (v) : (s.setUrgent v).engine = s.engine := rfl
@[simp] theorem State.setUrgent_latch (v) : (s.setUrgent v).latch = s.latch := rfl
@[simp] theorem State.setUrgent_frames (v) : (s.setUrgent v).frames = s.frames := rfl
@[simp] theorem State.setUrgent_intake (v) : (s.setUrgent v).intake = s.intake := rfl
@[simp] theorem State.setUrgent_objects (v) : (s.setUrgent v).objects = s.objects := rfl
@[simp] theorem State.setUrgent_colours (v) : (s.setUrgent v).colours = s.colours := rfl
@[simp] theorem State.setUrgent_list (v) : (s.setUrgent v).list = s.list := rfl
@[simp] theorem State.setUrgent_buttons (v) : (s.setUrgent v).buttons = s.buttons := rfl
@[simp] theorem State.setUrgent_tiles (v) : (s.setUrgent v).tiles = s.tiles := rfl
@[simp] theorem State.setUrgent_render (v) : (s.setUrgent v).render = s.render := rfl
@[simp] theorem State.setUrgent_page (v) : (s.setUrgent v).page = s.page := rfl
@[simp] theorem State.setUrgent_reports (v) : (s.setUrgent v).reports = s.reports := rfl

@[simp] theorem State.setPath_pending (v) : (s.setPath v).pending = s.pending := rfl
@[simp] theorem State.setPath_resetLine (v) : (s.setPath v).resetLine = s.resetLine := rfl
@[simp] theorem State.setPath_resetDue (v) : (s.setPath v).resetDue = s.resetDue := rfl
@[simp] theorem State.setPath_urgent (v) : (s.setPath v).urgent = s.urgent := rfl
@[simp] theorem State.setPath_path (v) : (s.setPath v).path = v := rfl
@[simp] theorem State.setPath_share (v) : (s.setPath v).share = s.share := rfl
@[simp] theorem State.setPath_passover (v) : (s.setPath v).passover = s.passover := rfl
@[simp] theorem State.setPath_mside (v) : (s.setPath v).mside = s.mside := rfl
@[simp] theorem State.setPath_cside (v) : (s.setPath v).cside = s.cside := rfl
@[simp] theorem State.setPath_waiting (v) : (s.setPath v).waiting = s.waiting := rfl
@[simp] theorem State.setPath_engine (v) : (s.setPath v).engine = s.engine := rfl
@[simp] theorem State.setPath_latch (v) : (s.setPath v).latch = s.latch := rfl
@[simp] theorem State.setPath_frames (v) : (s.setPath v).frames = s.frames := rfl
@[simp] theorem State.setPath_intake (v) : (s.setPath v).intake = s.intake := rfl
@[simp] theorem State.setPath_objects (v) : (s.setPath v).objects = s.objects := rfl
@[simp] theorem State.setPath_colours (v) : (s.setPath v).colours = s.colours := rfl
@[simp] theorem State.setPath_list (v) : (s.setPath v).list = s.list := rfl
@[simp] theorem State.setPath_buttons (v) : (s.setPath v).buttons = s.buttons := rfl
@[simp] theorem State.setPath_tiles (v) : (s.setPath v).tiles = s.tiles := rfl
@[simp] theorem State.setPath_render (v) : (s.setPath v).render = s.render := rfl
@[simp] theorem State.setPath_page (v) : (s.setPath v).page = s.page := rfl
@[simp] theorem State.setPath_reports (v) : (s.setPath v).reports = s.reports := rfl

@[simp] theorem State.setShare_pending (v) : (s.setShare v).pending = s.pending := rfl
@[simp] theorem State.setShare_resetLine (v) : (s.setShare v).resetLine = s.resetLine := rfl
@[simp] theorem State.setShare_resetDue (v) : (s.setShare v).resetDue = s.resetDue := rfl
@[simp] theorem State.setShare_urgent (v) : (s.setShare v).urgent = s.urgent := rfl
@[simp] theorem State.setShare_path (v) : (s.setShare v).path = s.path := rfl
@[simp] theorem State.setShare_share (v) : (s.setShare v).share = v := rfl
@[simp] theorem State.setShare_passover (v) : (s.setShare v).passover = s.passover := rfl
@[simp] theorem State.setShare_mside (v) : (s.setShare v).mside = s.mside := rfl
@[simp] theorem State.setShare_cside (v) : (s.setShare v).cside = s.cside := rfl
@[simp] theorem State.setShare_waiting (v) : (s.setShare v).waiting = s.waiting := rfl
@[simp] theorem State.setShare_engine (v) : (s.setShare v).engine = s.engine := rfl
@[simp] theorem State.setShare_latch (v) : (s.setShare v).latch = s.latch := rfl
@[simp] theorem State.setShare_frames (v) : (s.setShare v).frames = s.frames := rfl
@[simp] theorem State.setShare_intake (v) : (s.setShare v).intake = s.intake := rfl
@[simp] theorem State.setShare_objects (v) : (s.setShare v).objects = s.objects := rfl
@[simp] theorem State.setShare_colours (v) : (s.setShare v).colours = s.colours := rfl
@[simp] theorem State.setShare_list (v) : (s.setShare v).list = s.list := rfl
@[simp] theorem State.setShare_buttons (v) : (s.setShare v).buttons = s.buttons := rfl
@[simp] theorem State.setShare_tiles (v) : (s.setShare v).tiles = s.tiles := rfl
@[simp] theorem State.setShare_render (v) : (s.setShare v).render = s.render := rfl
@[simp] theorem State.setShare_page (v) : (s.setShare v).page = s.page := rfl
@[simp] theorem State.setShare_reports (v) : (s.setShare v).reports = s.reports := rfl

@[simp] theorem State.setPassover_pending (v) : (s.setPassover v).pending = s.pending := rfl
@[simp] theorem State.setPassover_resetLine (v) : (s.setPassover v).resetLine = s.resetLine := rfl
@[simp] theorem State.setPassover_resetDue (v) : (s.setPassover v).resetDue = s.resetDue := rfl
@[simp] theorem State.setPassover_urgent (v) : (s.setPassover v).urgent = s.urgent := rfl
@[simp] theorem State.setPassover_path (v) : (s.setPassover v).path = s.path := rfl
@[simp] theorem State.setPassover_share (v) : (s.setPassover v).share = s.share := rfl
@[simp] theorem State.setPassover_passover (v) : (s.setPassover v).passover = v := rfl
@[simp] theorem State.setPassover_mside (v) : (s.setPassover v).mside = s.mside := rfl
@[simp] theorem State.setPassover_cside (v) : (s.setPassover v).cside = s.cside := rfl
@[simp] theorem State.setPassover_waiting (v) : (s.setPassover v).waiting = s.waiting := rfl
@[simp] theorem State.setPassover_engine (v) : (s.setPassover v).engine = s.engine := rfl
@[simp] theorem State.setPassover_latch (v) : (s.setPassover v).latch = s.latch := rfl
@[simp] theorem State.setPassover_frames (v) : (s.setPassover v).frames = s.frames := rfl
@[simp] theorem State.setPassover_intake (v) : (s.setPassover v).intake = s.intake := rfl
@[simp] theorem State.setPassover_objects (v) : (s.setPassover v).objects = s.objects := rfl
@[simp] theorem State.setPassover_colours (v) : (s.setPassover v).colours = s.colours := rfl
@[simp] theorem State.setPassover_list (v) : (s.setPassover v).list = s.list := rfl
@[simp] theorem State.setPassover_buttons (v) : (s.setPassover v).buttons = s.buttons := rfl
@[simp] theorem State.setPassover_tiles (v) : (s.setPassover v).tiles = s.tiles := rfl
@[simp] theorem State.setPassover_render (v) : (s.setPassover v).render = s.render := rfl
@[simp] theorem State.setPassover_page (v) : (s.setPassover v).page = s.page := rfl
@[simp] theorem State.setPassover_reports (v) : (s.setPassover v).reports = s.reports := rfl

@[simp] theorem State.setMside_pending (v) : (s.setMside v).pending = s.pending := rfl
@[simp] theorem State.setMside_resetLine (v) : (s.setMside v).resetLine = s.resetLine := rfl
@[simp] theorem State.setMside_resetDue (v) : (s.setMside v).resetDue = s.resetDue := rfl
@[simp] theorem State.setMside_urgent (v) : (s.setMside v).urgent = s.urgent := rfl
@[simp] theorem State.setMside_path (v) : (s.setMside v).path = s.path := rfl
@[simp] theorem State.setMside_share (v) : (s.setMside v).share = s.share := rfl
@[simp] theorem State.setMside_passover (v) : (s.setMside v).passover = s.passover := rfl
@[simp] theorem State.setMside_mside (v) : (s.setMside v).mside = v := rfl
@[simp] theorem State.setMside_cside (v) : (s.setMside v).cside = s.cside := rfl
@[simp] theorem State.setMside_waiting (v) : (s.setMside v).waiting = s.waiting := rfl
@[simp] theorem State.setMside_engine (v) : (s.setMside v).engine = s.engine := rfl
@[simp] theorem State.setMside_latch (v) : (s.setMside v).latch = s.latch := rfl
@[simp] theorem State.setMside_frames (v) : (s.setMside v).frames = s.frames := rfl
@[simp] theorem State.setMside_intake (v) : (s.setMside v).intake = s.intake := rfl
@[simp] theorem State.setMside_objects (v) : (s.setMside v).objects = s.objects := rfl
@[simp] theorem State.setMside_colours (v) : (s.setMside v).colours = s.colours := rfl
@[simp] theorem State.setMside_list (v) : (s.setMside v).list = s.list := rfl
@[simp] theorem State.setMside_buttons (v) : (s.setMside v).buttons = s.buttons := rfl
@[simp] theorem State.setMside_tiles (v) : (s.setMside v).tiles = s.tiles := rfl
@[simp] theorem State.setMside_render (v) : (s.setMside v).render = s.render := rfl
@[simp] theorem State.setMside_page (v) : (s.setMside v).page = s.page := rfl
@[simp] theorem State.setMside_reports (v) : (s.setMside v).reports = s.reports := rfl

@[simp] theorem State.setCside_pending (v) : (s.setCside v).pending = s.pending := rfl
@[simp] theorem State.setCside_resetLine (v) : (s.setCside v).resetLine = s.resetLine := rfl
@[simp] theorem State.setCside_resetDue (v) : (s.setCside v).resetDue = s.resetDue := rfl
@[simp] theorem State.setCside_urgent (v) : (s.setCside v).urgent = s.urgent := rfl
@[simp] theorem State.setCside_path (v) : (s.setCside v).path = s.path := rfl
@[simp] theorem State.setCside_share (v) : (s.setCside v).share = s.share := rfl
@[simp] theorem State.setCside_passover (v) : (s.setCside v).passover = s.passover := rfl
@[simp] theorem State.setCside_mside (v) : (s.setCside v).mside = s.mside := rfl
@[simp] theorem State.setCside_cside (v) : (s.setCside v).cside = v := rfl
@[simp] theorem State.setCside_waiting (v) : (s.setCside v).waiting = s.waiting := rfl
@[simp] theorem State.setCside_engine (v) : (s.setCside v).engine = s.engine := rfl
@[simp] theorem State.setCside_latch (v) : (s.setCside v).latch = s.latch := rfl
@[simp] theorem State.setCside_frames (v) : (s.setCside v).frames = s.frames := rfl
@[simp] theorem State.setCside_intake (v) : (s.setCside v).intake = s.intake := rfl
@[simp] theorem State.setCside_objects (v) : (s.setCside v).objects = s.objects := rfl
@[simp] theorem State.setCside_colours (v) : (s.setCside v).colours = s.colours := rfl
@[simp] theorem State.setCside_list (v) : (s.setCside v).list = s.list := rfl
@[simp] theorem State.setCside_buttons (v) : (s.setCside v).buttons = s.buttons := rfl
@[simp] theorem State.setCside_tiles (v) : (s.setCside v).tiles = s.tiles := rfl
@[simp] theorem State.setCside_render (v) : (s.setCside v).render = s.render := rfl
@[simp] theorem State.setCside_page (v) : (s.setCside v).page = s.page := rfl
@[simp] theorem State.setCside_reports (v) : (s.setCside v).reports = s.reports := rfl

@[simp] theorem State.setWaiting_pending (v) : (s.setWaiting v).pending = s.pending := rfl
@[simp] theorem State.setWaiting_resetLine (v) : (s.setWaiting v).resetLine = s.resetLine := rfl
@[simp] theorem State.setWaiting_resetDue (v) : (s.setWaiting v).resetDue = s.resetDue := rfl
@[simp] theorem State.setWaiting_urgent (v) : (s.setWaiting v).urgent = s.urgent := rfl
@[simp] theorem State.setWaiting_path (v) : (s.setWaiting v).path = s.path := rfl
@[simp] theorem State.setWaiting_share (v) : (s.setWaiting v).share = s.share := rfl
@[simp] theorem State.setWaiting_passover (v) : (s.setWaiting v).passover = s.passover := rfl
@[simp] theorem State.setWaiting_mside (v) : (s.setWaiting v).mside = s.mside := rfl
@[simp] theorem State.setWaiting_cside (v) : (s.setWaiting v).cside = s.cside := rfl
@[simp] theorem State.setWaiting_waiting (v) : (s.setWaiting v).waiting = v := rfl
@[simp] theorem State.setWaiting_engine (v) : (s.setWaiting v).engine = s.engine := rfl
@[simp] theorem State.setWaiting_latch (v) : (s.setWaiting v).latch = s.latch := rfl
@[simp] theorem State.setWaiting_frames (v) : (s.setWaiting v).frames = s.frames := rfl
@[simp] theorem State.setWaiting_intake (v) : (s.setWaiting v).intake = s.intake := rfl
@[simp] theorem State.setWaiting_objects (v) : (s.setWaiting v).objects = s.objects := rfl
@[simp] theorem State.setWaiting_colours (v) : (s.setWaiting v).colours = s.colours := rfl
@[simp] theorem State.setWaiting_list (v) : (s.setWaiting v).list = s.list := rfl
@[simp] theorem State.setWaiting_buttons (v) : (s.setWaiting v).buttons = s.buttons := rfl
@[simp] theorem State.setWaiting_tiles (v) : (s.setWaiting v).tiles = s.tiles := rfl
@[simp] theorem State.setWaiting_render (v) : (s.setWaiting v).render = s.render := rfl
@[simp] theorem State.setWaiting_page (v) : (s.setWaiting v).page = s.page := rfl
@[simp] theorem State.setWaiting_reports (v) : (s.setWaiting v).reports = s.reports := rfl

@[simp] theorem State.setEngine_pending (v) : (s.setEngine v).pending = s.pending := rfl
@[simp] theorem State.setEngine_resetLine (v) : (s.setEngine v).resetLine = s.resetLine := rfl
@[simp] theorem State.setEngine_resetDue (v) : (s.setEngine v).resetDue = s.resetDue := rfl
@[simp] theorem State.setEngine_urgent (v) : (s.setEngine v).urgent = s.urgent := rfl
@[simp] theorem State.setEngine_path (v) : (s.setEngine v).path = s.path := rfl
@[simp] theorem State.setEngine_share (v) : (s.setEngine v).share = s.share := rfl
@[simp] theorem State.setEngine_passover (v) : (s.setEngine v).passover = s.passover := rfl
@[simp] theorem State.setEngine_mside (v) : (s.setEngine v).mside = s.mside := rfl
@[simp] theorem State.setEngine_cside (v) : (s.setEngine v).cside = s.cside := rfl
@[simp] theorem State.setEngine_waiting (v) : (s.setEngine v).waiting = s.waiting := rfl
@[simp] theorem State.setEngine_engine (v) : (s.setEngine v).engine = v := rfl
@[simp] theorem State.setEngine_latch (v) : (s.setEngine v).latch = s.latch := rfl
@[simp] theorem State.setEngine_frames (v) : (s.setEngine v).frames = s.frames := rfl
@[simp] theorem State.setEngine_intake (v) : (s.setEngine v).intake = s.intake := rfl
@[simp] theorem State.setEngine_objects (v) : (s.setEngine v).objects = s.objects := rfl
@[simp] theorem State.setEngine_colours (v) : (s.setEngine v).colours = s.colours := rfl
@[simp] theorem State.setEngine_list (v) : (s.setEngine v).list = s.list := rfl
@[simp] theorem State.setEngine_buttons (v) : (s.setEngine v).buttons = s.buttons := rfl
@[simp] theorem State.setEngine_tiles (v) : (s.setEngine v).tiles = s.tiles := rfl
@[simp] theorem State.setEngine_render (v) : (s.setEngine v).render = s.render := rfl
@[simp] theorem State.setEngine_page (v) : (s.setEngine v).page = s.page := rfl
@[simp] theorem State.setEngine_reports (v) : (s.setEngine v).reports = s.reports := rfl

@[simp] theorem State.setLatch_pending (v) : (s.setLatch v).pending = s.pending := rfl
@[simp] theorem State.setLatch_resetLine (v) : (s.setLatch v).resetLine = s.resetLine := rfl
@[simp] theorem State.setLatch_resetDue (v) : (s.setLatch v).resetDue = s.resetDue := rfl
@[simp] theorem State.setLatch_urgent (v) : (s.setLatch v).urgent = s.urgent := rfl
@[simp] theorem State.setLatch_path (v) : (s.setLatch v).path = s.path := rfl
@[simp] theorem State.setLatch_share (v) : (s.setLatch v).share = s.share := rfl
@[simp] theorem State.setLatch_passover (v) : (s.setLatch v).passover = s.passover := rfl
@[simp] theorem State.setLatch_mside (v) : (s.setLatch v).mside = s.mside := rfl
@[simp] theorem State.setLatch_cside (v) : (s.setLatch v).cside = s.cside := rfl
@[simp] theorem State.setLatch_waiting (v) : (s.setLatch v).waiting = s.waiting := rfl
@[simp] theorem State.setLatch_engine (v) : (s.setLatch v).engine = s.engine := rfl
@[simp] theorem State.setLatch_latch (v) : (s.setLatch v).latch = v := rfl
@[simp] theorem State.setLatch_frames (v) : (s.setLatch v).frames = s.frames := rfl
@[simp] theorem State.setLatch_intake (v) : (s.setLatch v).intake = s.intake := rfl
@[simp] theorem State.setLatch_objects (v) : (s.setLatch v).objects = s.objects := rfl
@[simp] theorem State.setLatch_colours (v) : (s.setLatch v).colours = s.colours := rfl
@[simp] theorem State.setLatch_list (v) : (s.setLatch v).list = s.list := rfl
@[simp] theorem State.setLatch_buttons (v) : (s.setLatch v).buttons = s.buttons := rfl
@[simp] theorem State.setLatch_tiles (v) : (s.setLatch v).tiles = s.tiles := rfl
@[simp] theorem State.setLatch_render (v) : (s.setLatch v).render = s.render := rfl
@[simp] theorem State.setLatch_page (v) : (s.setLatch v).page = s.page := rfl
@[simp] theorem State.setLatch_reports (v) : (s.setLatch v).reports = s.reports := rfl

@[simp] theorem State.setFrames_pending (v) : (s.setFrames v).pending = s.pending := rfl
@[simp] theorem State.setFrames_resetLine (v) : (s.setFrames v).resetLine = s.resetLine := rfl
@[simp] theorem State.setFrames_resetDue (v) : (s.setFrames v).resetDue = s.resetDue := rfl
@[simp] theorem State.setFrames_urgent (v) : (s.setFrames v).urgent = s.urgent := rfl
@[simp] theorem State.setFrames_path (v) : (s.setFrames v).path = s.path := rfl
@[simp] theorem State.setFrames_share (v) : (s.setFrames v).share = s.share := rfl
@[simp] theorem State.setFrames_passover (v) : (s.setFrames v).passover = s.passover := rfl
@[simp] theorem State.setFrames_mside (v) : (s.setFrames v).mside = s.mside := rfl
@[simp] theorem State.setFrames_cside (v) : (s.setFrames v).cside = s.cside := rfl
@[simp] theorem State.setFrames_waiting (v) : (s.setFrames v).waiting = s.waiting := rfl
@[simp] theorem State.setFrames_engine (v) : (s.setFrames v).engine = s.engine := rfl
@[simp] theorem State.setFrames_latch (v) : (s.setFrames v).latch = s.latch := rfl
@[simp] theorem State.setFrames_frames (v) : (s.setFrames v).frames = v := rfl
@[simp] theorem State.setFrames_intake (v) : (s.setFrames v).intake = s.intake := rfl
@[simp] theorem State.setFrames_objects (v) : (s.setFrames v).objects = s.objects := rfl
@[simp] theorem State.setFrames_colours (v) : (s.setFrames v).colours = s.colours := rfl
@[simp] theorem State.setFrames_list (v) : (s.setFrames v).list = s.list := rfl
@[simp] theorem State.setFrames_buttons (v) : (s.setFrames v).buttons = s.buttons := rfl
@[simp] theorem State.setFrames_tiles (v) : (s.setFrames v).tiles = s.tiles := rfl
@[simp] theorem State.setFrames_render (v) : (s.setFrames v).render = s.render := rfl
@[simp] theorem State.setFrames_page (v) : (s.setFrames v).page = s.page := rfl
@[simp] theorem State.setFrames_reports (v) : (s.setFrames v).reports = s.reports := rfl

@[simp] theorem State.setIntake_pending (v) : (s.setIntake v).pending = s.pending := rfl
@[simp] theorem State.setIntake_resetLine (v) : (s.setIntake v).resetLine = s.resetLine := rfl
@[simp] theorem State.setIntake_resetDue (v) : (s.setIntake v).resetDue = s.resetDue := rfl
@[simp] theorem State.setIntake_urgent (v) : (s.setIntake v).urgent = s.urgent := rfl
@[simp] theorem State.setIntake_path (v) : (s.setIntake v).path = s.path := rfl
@[simp] theorem State.setIntake_share (v) : (s.setIntake v).share = s.share := rfl
@[simp] theorem State.setIntake_passover (v) : (s.setIntake v).passover = s.passover := rfl
@[simp] theorem State.setIntake_mside (v) : (s.setIntake v).mside = s.mside := rfl
@[simp] theorem State.setIntake_cside (v) : (s.setIntake v).cside = s.cside := rfl
@[simp] theorem State.setIntake_waiting (v) : (s.setIntake v).waiting = s.waiting := rfl
@[simp] theorem State.setIntake_engine (v) : (s.setIntake v).engine = s.engine := rfl
@[simp] theorem State.setIntake_latch (v) : (s.setIntake v).latch = s.latch := rfl
@[simp] theorem State.setIntake_frames (v) : (s.setIntake v).frames = s.frames := rfl
@[simp] theorem State.setIntake_intake (v) : (s.setIntake v).intake = v := rfl
@[simp] theorem State.setIntake_objects (v) : (s.setIntake v).objects = s.objects := rfl
@[simp] theorem State.setIntake_colours (v) : (s.setIntake v).colours = s.colours := rfl
@[simp] theorem State.setIntake_list (v) : (s.setIntake v).list = s.list := rfl
@[simp] theorem State.setIntake_buttons (v) : (s.setIntake v).buttons = s.buttons := rfl
@[simp] theorem State.setIntake_tiles (v) : (s.setIntake v).tiles = s.tiles := rfl
@[simp] theorem State.setIntake_render (v) : (s.setIntake v).render = s.render := rfl
@[simp] theorem State.setIntake_page (v) : (s.setIntake v).page = s.page := rfl
@[simp] theorem State.setIntake_reports (v) : (s.setIntake v).reports = s.reports := rfl

@[simp] theorem State.setObjects_pending (v) : (s.setObjects v).pending = s.pending := rfl
@[simp] theorem State.setObjects_resetLine (v) : (s.setObjects v).resetLine = s.resetLine := rfl
@[simp] theorem State.setObjects_resetDue (v) : (s.setObjects v).resetDue = s.resetDue := rfl
@[simp] theorem State.setObjects_urgent (v) : (s.setObjects v).urgent = s.urgent := rfl
@[simp] theorem State.setObjects_path (v) : (s.setObjects v).path = s.path := rfl
@[simp] theorem State.setObjects_share (v) : (s.setObjects v).share = s.share := rfl
@[simp] theorem State.setObjects_passover (v) : (s.setObjects v).passover = s.passover := rfl
@[simp] theorem State.setObjects_mside (v) : (s.setObjects v).mside = s.mside := rfl
@[simp] theorem State.setObjects_cside (v) : (s.setObjects v).cside = s.cside := rfl
@[simp] theorem State.setObjects_waiting (v) : (s.setObjects v).waiting = s.waiting := rfl
@[simp] theorem State.setObjects_engine (v) : (s.setObjects v).engine = s.engine := rfl
@[simp] theorem State.setObjects_latch (v) : (s.setObjects v).latch = s.latch := rfl
@[simp] theorem State.setObjects_frames (v) : (s.setObjects v).frames = s.frames := rfl
@[simp] theorem State.setObjects_intake (v) : (s.setObjects v).intake = s.intake := rfl
@[simp] theorem State.setObjects_objects (v) : (s.setObjects v).objects = v := rfl
@[simp] theorem State.setObjects_colours (v) : (s.setObjects v).colours = s.colours := rfl
@[simp] theorem State.setObjects_list (v) : (s.setObjects v).list = s.list := rfl
@[simp] theorem State.setObjects_buttons (v) : (s.setObjects v).buttons = s.buttons := rfl
@[simp] theorem State.setObjects_tiles (v) : (s.setObjects v).tiles = s.tiles := rfl
@[simp] theorem State.setObjects_render (v) : (s.setObjects v).render = s.render := rfl
@[simp] theorem State.setObjects_page (v) : (s.setObjects v).page = s.page := rfl
@[simp] theorem State.setObjects_reports (v) : (s.setObjects v).reports = s.reports := rfl

@[simp] theorem State.setColours_pending (v) : (s.setColours v).pending = s.pending := rfl
@[simp] theorem State.setColours_resetLine (v) : (s.setColours v).resetLine = s.resetLine := rfl
@[simp] theorem State.setColours_resetDue (v) : (s.setColours v).resetDue = s.resetDue := rfl
@[simp] theorem State.setColours_urgent (v) : (s.setColours v).urgent = s.urgent := rfl
@[simp] theorem State.setColours_path (v) : (s.setColours v).path = s.path := rfl
@[simp] theorem State.setColours_share (v) : (s.setColours v).share = s.share := rfl
@[simp] theorem State.setColours_passover (v) : (s.setColours v).passover = s.passover := rfl
@[simp] theorem State.setColours_mside (v) : (s.setColours v).mside = s.mside := rfl
@[simp] theorem State.setColours_cside (v) : (s.setColours v).cside = s.cside := rfl
@[simp] theorem State.setColours_waiting (v) : (s.setColours v).waiting = s.waiting := rfl
@[simp] theorem State.setColours_engine (v) : (s.setColours v).engine = s.engine := rfl
@[simp] theorem State.setColours_latch (v) : (s.setColours v).latch = s.latch := rfl
@[simp] theorem State.setColours_frames (v) : (s.setColours v).frames = s.frames := rfl
@[simp] theorem State.setColours_intake (v) : (s.setColours v).intake = s.intake := rfl
@[simp] theorem State.setColours_objects (v) : (s.setColours v).objects = s.objects := rfl
@[simp] theorem State.setColours_colours (v) : (s.setColours v).colours = v := rfl
@[simp] theorem State.setColours_list (v) : (s.setColours v).list = s.list := rfl
@[simp] theorem State.setColours_buttons (v) : (s.setColours v).buttons = s.buttons := rfl
@[simp] theorem State.setColours_tiles (v) : (s.setColours v).tiles = s.tiles := rfl
@[simp] theorem State.setColours_render (v) : (s.setColours v).render = s.render := rfl
@[simp] theorem State.setColours_page (v) : (s.setColours v).page = s.page := rfl
@[simp] theorem State.setColours_reports (v) : (s.setColours v).reports = s.reports := rfl

@[simp] theorem State.setList_pending (v) : (s.setList v).pending = s.pending := rfl
@[simp] theorem State.setList_resetLine (v) : (s.setList v).resetLine = s.resetLine := rfl
@[simp] theorem State.setList_resetDue (v) : (s.setList v).resetDue = s.resetDue := rfl
@[simp] theorem State.setList_urgent (v) : (s.setList v).urgent = s.urgent := rfl
@[simp] theorem State.setList_path (v) : (s.setList v).path = s.path := rfl
@[simp] theorem State.setList_share (v) : (s.setList v).share = s.share := rfl
@[simp] theorem State.setList_passover (v) : (s.setList v).passover = s.passover := rfl
@[simp] theorem State.setList_mside (v) : (s.setList v).mside = s.mside := rfl
@[simp] theorem State.setList_cside (v) : (s.setList v).cside = s.cside := rfl
@[simp] theorem State.setList_waiting (v) : (s.setList v).waiting = s.waiting := rfl
@[simp] theorem State.setList_engine (v) : (s.setList v).engine = s.engine := rfl
@[simp] theorem State.setList_latch (v) : (s.setList v).latch = s.latch := rfl
@[simp] theorem State.setList_frames (v) : (s.setList v).frames = s.frames := rfl
@[simp] theorem State.setList_intake (v) : (s.setList v).intake = s.intake := rfl
@[simp] theorem State.setList_objects (v) : (s.setList v).objects = s.objects := rfl
@[simp] theorem State.setList_colours (v) : (s.setList v).colours = s.colours := rfl
@[simp] theorem State.setList_list (v) : (s.setList v).list = v := rfl
@[simp] theorem State.setList_buttons (v) : (s.setList v).buttons = s.buttons := rfl
@[simp] theorem State.setList_tiles (v) : (s.setList v).tiles = s.tiles := rfl
@[simp] theorem State.setList_render (v) : (s.setList v).render = s.render := rfl
@[simp] theorem State.setList_page (v) : (s.setList v).page = s.page := rfl
@[simp] theorem State.setList_reports (v) : (s.setList v).reports = s.reports := rfl

@[simp] theorem State.setButtons_pending (v) : (s.setButtons v).pending = s.pending := rfl
@[simp] theorem State.setButtons_resetLine (v) : (s.setButtons v).resetLine = s.resetLine := rfl
@[simp] theorem State.setButtons_resetDue (v) : (s.setButtons v).resetDue = s.resetDue := rfl
@[simp] theorem State.setButtons_urgent (v) : (s.setButtons v).urgent = s.urgent := rfl
@[simp] theorem State.setButtons_path (v) : (s.setButtons v).path = s.path := rfl
@[simp] theorem State.setButtons_share (v) : (s.setButtons v).share = s.share := rfl
@[simp] theorem State.setButtons_passover (v) : (s.setButtons v).passover = s.passover := rfl
@[simp] theorem State.setButtons_mside (v) : (s.setButtons v).mside = s.mside := rfl
@[simp] theorem State.setButtons_cside (v) : (s.setButtons v).cside = s.cside := rfl
@[simp] theorem State.setButtons_waiting (v) : (s.setButtons v).waiting = s.waiting := rfl
@[simp] theorem State.setButtons_engine (v) : (s.setButtons v).engine = s.engine := rfl
@[simp] theorem State.setButtons_latch (v) : (s.setButtons v).latch = s.latch := rfl
@[simp] theorem State.setButtons_frames (v) : (s.setButtons v).frames = s.frames := rfl
@[simp] theorem State.setButtons_intake (v) : (s.setButtons v).intake = s.intake := rfl
@[simp] theorem State.setButtons_objects (v) : (s.setButtons v).objects = s.objects := rfl
@[simp] theorem State.setButtons_colours (v) : (s.setButtons v).colours = s.colours := rfl
@[simp] theorem State.setButtons_list (v) : (s.setButtons v).list = s.list := rfl
@[simp] theorem State.setButtons_buttons (v) : (s.setButtons v).buttons = v := rfl
@[simp] theorem State.setButtons_tiles (v) : (s.setButtons v).tiles = s.tiles := rfl
@[simp] theorem State.setButtons_render (v) : (s.setButtons v).render = s.render := rfl
@[simp] theorem State.setButtons_page (v) : (s.setButtons v).page = s.page := rfl
@[simp] theorem State.setButtons_reports (v) : (s.setButtons v).reports = s.reports := rfl

@[simp] theorem State.setTiles_pending (v) : (s.setTiles v).pending = s.pending := rfl
@[simp] theorem State.setTiles_resetLine (v) : (s.setTiles v).resetLine = s.resetLine := rfl
@[simp] theorem State.setTiles_resetDue (v) : (s.setTiles v).resetDue = s.resetDue := rfl
@[simp] theorem State.setTiles_urgent (v) : (s.setTiles v).urgent = s.urgent := rfl
@[simp] theorem State.setTiles_path (v) : (s.setTiles v).path = s.path := rfl
@[simp] theorem State.setTiles_share (v) : (s.setTiles v).share = s.share := rfl
@[simp] theorem State.setTiles_passover (v) : (s.setTiles v).passover = s.passover := rfl
@[simp] theorem State.setTiles_mside (v) : (s.setTiles v).mside = s.mside := rfl
@[simp] theorem State.setTiles_cside (v) : (s.setTiles v).cside = s.cside := rfl
@[simp] theorem State.setTiles_waiting (v) : (s.setTiles v).waiting = s.waiting := rfl
@[simp] theorem State.setTiles_engine (v) : (s.setTiles v).engine = s.engine := rfl
@[simp] theorem State.setTiles_latch (v) : (s.setTiles v).latch = s.latch := rfl
@[simp] theorem State.setTiles_frames (v) : (s.setTiles v).frames = s.frames := rfl
@[simp] theorem State.setTiles_intake (v) : (s.setTiles v).intake = s.intake := rfl
@[simp] theorem State.setTiles_objects (v) : (s.setTiles v).objects = s.objects := rfl
@[simp] theorem State.setTiles_colours (v) : (s.setTiles v).colours = s.colours := rfl
@[simp] theorem State.setTiles_list (v) : (s.setTiles v).list = s.list := rfl
@[simp] theorem State.setTiles_buttons (v) : (s.setTiles v).buttons = s.buttons := rfl
@[simp] theorem State.setTiles_tiles (v) : (s.setTiles v).tiles = v := rfl
@[simp] theorem State.setTiles_render (v) : (s.setTiles v).render = s.render := rfl
@[simp] theorem State.setTiles_page (v) : (s.setTiles v).page = s.page := rfl
@[simp] theorem State.setTiles_reports (v) : (s.setTiles v).reports = s.reports := rfl

@[simp] theorem State.setRender_pending (v) : (s.setRender v).pending = s.pending := rfl
@[simp] theorem State.setRender_resetLine (v) : (s.setRender v).resetLine = s.resetLine := rfl
@[simp] theorem State.setRender_resetDue (v) : (s.setRender v).resetDue = s.resetDue := rfl
@[simp] theorem State.setRender_urgent (v) : (s.setRender v).urgent = s.urgent := rfl
@[simp] theorem State.setRender_path (v) : (s.setRender v).path = s.path := rfl
@[simp] theorem State.setRender_share (v) : (s.setRender v).share = s.share := rfl
@[simp] theorem State.setRender_passover (v) : (s.setRender v).passover = s.passover := rfl
@[simp] theorem State.setRender_mside (v) : (s.setRender v).mside = s.mside := rfl
@[simp] theorem State.setRender_cside (v) : (s.setRender v).cside = s.cside := rfl
@[simp] theorem State.setRender_waiting (v) : (s.setRender v).waiting = s.waiting := rfl
@[simp] theorem State.setRender_engine (v) : (s.setRender v).engine = s.engine := rfl
@[simp] theorem State.setRender_latch (v) : (s.setRender v).latch = s.latch := rfl
@[simp] theorem State.setRender_frames (v) : (s.setRender v).frames = s.frames := rfl
@[simp] theorem State.setRender_intake (v) : (s.setRender v).intake = s.intake := rfl
@[simp] theorem State.setRender_objects (v) : (s.setRender v).objects = s.objects := rfl
@[simp] theorem State.setRender_colours (v) : (s.setRender v).colours = s.colours := rfl
@[simp] theorem State.setRender_list (v) : (s.setRender v).list = s.list := rfl
@[simp] theorem State.setRender_buttons (v) : (s.setRender v).buttons = s.buttons := rfl
@[simp] theorem State.setRender_tiles (v) : (s.setRender v).tiles = s.tiles := rfl
@[simp] theorem State.setRender_render (v) : (s.setRender v).render = v := rfl
@[simp] theorem State.setRender_page (v) : (s.setRender v).page = s.page := rfl
@[simp] theorem State.setRender_reports (v) : (s.setRender v).reports = s.reports := rfl

@[simp] theorem State.setPage_pending (v) : (s.setPage v).pending = s.pending := rfl
@[simp] theorem State.setPage_resetLine (v) : (s.setPage v).resetLine = s.resetLine := rfl
@[simp] theorem State.setPage_resetDue (v) : (s.setPage v).resetDue = s.resetDue := rfl
@[simp] theorem State.setPage_urgent (v) : (s.setPage v).urgent = s.urgent := rfl
@[simp] theorem State.setPage_path (v) : (s.setPage v).path = s.path := rfl
@[simp] theorem State.setPage_share (v) : (s.setPage v).share = s.share := rfl
@[simp] theorem State.setPage_passover (v) : (s.setPage v).passover = s.passover := rfl
@[simp] theorem State.setPage_mside (v) : (s.setPage v).mside = s.mside := rfl
@[simp] theorem State.setPage_cside (v) : (s.setPage v).cside = s.cside := rfl
@[simp] theorem State.setPage_waiting (v) : (s.setPage v).waiting = s.waiting := rfl
@[simp] theorem State.setPage_engine (v) : (s.setPage v).engine = s.engine := rfl
@[simp] theorem State.setPage_latch (v) : (s.setPage v).latch = s.latch := rfl
@[simp] theorem State.setPage_frames (v) : (s.setPage v).frames = s.frames := rfl
@[simp] theorem State.setPage_intake (v) : (s.setPage v).intake = s.intake := rfl
@[simp] theorem State.setPage_objects (v) : (s.setPage v).objects = s.objects := rfl
@[simp] theorem State.setPage_colours (v) : (s.setPage v).colours = s.colours := rfl
@[simp] theorem State.setPage_list (v) : (s.setPage v).list = s.list := rfl
@[simp] theorem State.setPage_buttons (v) : (s.setPage v).buttons = s.buttons := rfl
@[simp] theorem State.setPage_tiles (v) : (s.setPage v).tiles = s.tiles := rfl
@[simp] theorem State.setPage_render (v) : (s.setPage v).render = s.render := rfl
@[simp] theorem State.setPage_page (v) : (s.setPage v).page = v := rfl
@[simp] theorem State.setPage_reports (v) : (s.setPage v).reports = s.reports := rfl

@[simp] theorem State.setReports_pending (v) : (s.setReports v).pending = s.pending := rfl
@[simp] theorem State.setReports_resetLine (v) : (s.setReports v).resetLine = s.resetLine := rfl
@[simp] theorem State.setReports_resetDue (v) : (s.setReports v).resetDue = s.resetDue := rfl
@[simp] theorem State.setReports_urgent (v) : (s.setReports v).urgent = s.urgent := rfl
@[simp] theorem State.setReports_path (v) : (s.setReports v).path = s.path := rfl
@[simp] theorem State.setReports_share (v) : (s.setReports v).share = s.share := rfl
@[simp] theorem State.setReports_passover (v) : (s.setReports v).passover = s.passover := rfl
@[simp] theorem State.setReports_mside (v) : (s.setReports v).mside = s.mside := rfl
@[simp] theorem State.setReports_cside (v) : (s.setReports v).cside = s.cside := rfl
@[simp] theorem State.setReports_waiting (v) : (s.setReports v).waiting = s.waiting := rfl
@[simp] theorem State.setReports_engine (v) : (s.setReports v).engine = s.engine := rfl
@[simp] theorem State.setReports_latch (v) : (s.setReports v).latch = s.latch := rfl
@[simp] theorem State.setReports_frames (v) : (s.setReports v).frames = s.frames := rfl
@[simp] theorem State.setReports_intake (v) : (s.setReports v).intake = s.intake := rfl
@[simp] theorem State.setReports_objects (v) : (s.setReports v).objects = s.objects := rfl
@[simp] theorem State.setReports_colours (v) : (s.setReports v).colours = s.colours := rfl
@[simp] theorem State.setReports_list (v) : (s.setReports v).list = s.list := rfl
@[simp] theorem State.setReports_buttons (v) : (s.setReports v).buttons = s.buttons := rfl
@[simp] theorem State.setReports_tiles (v) : (s.setReports v).tiles = s.tiles := rfl
@[simp] theorem State.setReports_render (v) : (s.setReports v).render = s.render := rfl
@[simp] theorem State.setReports_page (v) : (s.setReports v).page = s.page := rfl
@[simp] theorem State.setReports_reports (v) : (s.setReports v).reports = v := rfl

/-! ## The plane of a tile map -/

@[simp] theorem TileMap.plane_set (f : Plane) (a b w) : (TileMap.mk true f a b w).plane = some f := rfl
@[simp] theorem TileMap.plane_unset (f : Plane) (a b w) : (TileMap.mk false f a b w).plane = none := rfl
@[simp] theorem TileMap.empty_plane : TileMap.empty.plane = none := rfl

theorem TileMap.plane_isSome (m : TileMap) : m.plane.isSome = m.planeSet := by
  cases h : m.planeSet <;> simp [TileMap.plane, h]

theorem TileMap.plane_eq_some (m : TileMap) (pl : Plane) :
    m.plane = some pl ↔ m.planeSet = true ∧ m.fields = pl := by
  cases h : m.planeSet <;> simp [TileMap.plane, h]

theorem TileMap.plane_eq_none (m : TileMap) : m.plane = none ↔ m.planeSet = false := by
  cases h : m.planeSet <;> simp [TileMap.plane, h]

end Sys2Proof.Machine
end

