-- ==== Sys2Proof/Laws/OpsFrames.lean ====
section
/-! SUPPORT. What each shared operation leaves unchanged: one lemma for each field it does not write. -/
namespace Sys2Proof.Machine
set_option Elab.async false
open Sys2Proof
variable (s : State)

@[simp] theorem mark_pending (rects : List TileRect) :
    (mark rects s).pending = s.pending := by unfold mark; (repeat' split) <;> simp
@[simp] theorem mark_resetLine (rects : List TileRect) :
    (mark rects s).resetLine = s.resetLine := by unfold mark; (repeat' split) <;> simp
@[simp] theorem mark_resetDue (rects : List TileRect) :
    (mark rects s).resetDue = s.resetDue := by unfold mark; (repeat' split) <;> simp
@[simp] theorem mark_urgent (rects : List TileRect) :
    (mark rects s).urgent = s.urgent := by unfold mark; (repeat' split) <;> simp
@[simp] theorem mark_path (rects : List TileRect) :
    (mark rects s).path = s.path := by unfold mark; (repeat' split) <;> simp
@[simp] theorem mark_share (rects : List TileRect) :
    (mark rects s).share = s.share := by unfold mark; (repeat' split) <;> simp
@[simp] theorem mark_passover (rects : List TileRect) :
    (mark rects s).passover = s.passover := by unfold mark; (repeat' split) <;> simp
@[simp] theorem mark_mside (rects : List TileRect) :
    (mark rects s).mside = s.mside := by unfold mark; (repeat' split) <;> simp
@[simp] theorem mark_cside (rects : List TileRect) :
    (mark rects s).cside = s.cside := by unfold mark; (repeat' split) <;> simp
@[simp] theorem mark_waiting (rects : List TileRect) :
    (mark rects s).waiting = s.waiting := by unfold mark; (repeat' split) <;> simp
@[simp] theorem mark_engine (rects : List TileRect) :
    (mark rects s).engine = s.engine := by unfold mark; (repeat' split) <;> simp
@[simp] theorem mark_latch (rects : List TileRect) :
    (mark rects s).latch = s.latch := by unfold mark; (repeat' split) <;> simp
@[simp] theorem mark_frames (rects : List TileRect) :
    (mark rects s).frames = s.frames := by unfold mark; (repeat' split) <;> simp
@[simp] theorem mark_intake (rects : List TileRect) :
    (mark rects s).intake = s.intake := by unfold mark; (repeat' split) <;> simp
@[simp] theorem mark_objects (rects : List TileRect) :
    (mark rects s).objects = s.objects := by unfold mark; (repeat' split) <;> simp
@[simp] theorem mark_colours (rects : List TileRect) :
    (mark rects s).colours = s.colours := by unfold mark; (repeat' split) <;> simp
@[simp] theorem mark_list (rects : List TileRect) :
    (mark rects s).list = s.list := by unfold mark; (repeat' split) <;> simp
@[simp] theorem mark_buttons (rects : List TileRect) :
    (mark rects s).buttons = s.buttons := by unfold mark; (repeat' split) <;> simp
@[simp] theorem mark_render (rects : List TileRect) :
    (mark rects s).render = s.render := by unfold mark; (repeat' split) <;> simp
@[simp] theorem mark_page (rects : List TileRect) :
    (mark rects s).page = s.page := by unfold mark; (repeat' split) <;> simp
@[simp] theorem mark_reports (rects : List TileRect) :
    (mark rects s).reports = s.reports := by unfold mark; (repeat' split) <;> simp

@[simp] theorem markBeforeAfter_pending (which : Placement → Bool) (b : State) :
    (markBeforeAfter which b s).pending = s.pending := by simp [markBeforeAfter]
@[simp] theorem markBeforeAfter_resetLine (which : Placement → Bool) (b : State) :
    (markBeforeAfter which b s).resetLine = s.resetLine := by simp [markBeforeAfter]
@[simp] theorem markBeforeAfter_resetDue (which : Placement → Bool) (b : State) :
    (markBeforeAfter which b s).resetDue = s.resetDue := by simp [markBeforeAfter]
@[simp] theorem markBeforeAfter_urgent (which : Placement → Bool) (b : State) :
    (markBeforeAfter which b s).urgent = s.urgent := by simp [markBeforeAfter]
@[simp] theorem markBeforeAfter_path (which : Placement → Bool) (b : State) :
    (markBeforeAfter which b s).path = s.path := by simp [markBeforeAfter]
@[simp] theorem markBeforeAfter_share (which : Placement → Bool) (b : State) :
    (markBeforeAfter which b s).share = s.share := by simp [markBeforeAfter]
@[simp] theorem markBeforeAfter_passover (which : Placement → Bool) (b : State) :
    (markBeforeAfter which b s).passover = s.passover := by simp [markBeforeAfter]
@[simp] theorem markBeforeAfter_mside (which : Placement → Bool) (b : State) :
    (markBeforeAfter which b s).mside = s.mside := by simp [markBeforeAfter]
@[simp] theorem markBeforeAfter_cside (which : Placement → Bool) (b : State) :
    (markBeforeAfter which b s).cside = s.cside := by simp [markBeforeAfter]
@[simp] theorem markBeforeAfter_waiting (which : Placement → Bool) (b : State) :
    (markBeforeAfter which b s).waiting = s.waiting := by simp [markBeforeAfter]
@[simp] theorem markBeforeAfter_engine (which : Placement → Bool) (b : State) :
    (markBeforeAfter which b s).engine = s.engine := by simp [markBeforeAfter]
@[simp] theorem markBeforeAfter_latch (which : Placement → Bool) (b : State) :
    (markBeforeAfter which b s).latch = s.latch := by simp [markBeforeAfter]
@[simp] theorem markBeforeAfter_frames (which : Placement → Bool) (b : State) :
    (markBeforeAfter which b s).frames = s.frames := by simp [markBeforeAfter]
@[simp] theorem markBeforeAfter_intake (which : Placement → Bool) (b : State) :
    (markBeforeAfter which b s).intake = s.intake := by simp [markBeforeAfter]
@[simp] theorem markBeforeAfter_objects (which : Placement → Bool) (b : State) :
    (markBeforeAfter which b s).objects = s.objects := by simp [markBeforeAfter]
@[simp] theorem markBeforeAfter_colours (which : Placement → Bool) (b : State) :
    (markBeforeAfter which b s).colours = s.colours := by simp [markBeforeAfter]
@[simp] theorem markBeforeAfter_list (which : Placement → Bool) (b : State) :
    (markBeforeAfter which b s).list = s.list := by simp [markBeforeAfter]
@[simp] theorem markBeforeAfter_buttons (which : Placement → Bool) (b : State) :
    (markBeforeAfter which b s).buttons = s.buttons := by simp [markBeforeAfter]
@[simp] theorem markBeforeAfter_render (which : Placement → Bool) (b : State) :
    (markBeforeAfter which b s).render = s.render := by simp [markBeforeAfter]
@[simp] theorem markBeforeAfter_page (which : Placement → Bool) (b : State) :
    (markBeforeAfter which b s).page = s.page := by simp [markBeforeAfter]
@[simp] theorem markBeforeAfter_reports (which : Placement → Bool) (b : State) :
    (markBeforeAfter which b s).reports = s.reports := by simp [markBeforeAfter]

@[simp] theorem handControl_pending (n : ControlWord) (v : Word) :
    (handControl n v s).pending = s.pending := by unfold handControl; (repeat' split) <;> simp
@[simp] theorem handControl_resetLine (n : ControlWord) (v : Word) :
    (handControl n v s).resetLine = s.resetLine := by unfold handControl; (repeat' split) <;> simp
@[simp] theorem handControl_resetDue (n : ControlWord) (v : Word) :
    (handControl n v s).resetDue = s.resetDue := by unfold handControl; (repeat' split) <;> simp
@[simp] theorem handControl_urgent (n : ControlWord) (v : Word) :
    (handControl n v s).urgent = s.urgent := by unfold handControl; (repeat' split) <;> simp
@[simp] theorem handControl_path (n : ControlWord) (v : Word) :
    (handControl n v s).path = s.path := by unfold handControl; (repeat' split) <;> simp
@[simp] theorem handControl_share (n : ControlWord) (v : Word) :
    (handControl n v s).share = s.share := by unfold handControl; (repeat' split) <;> simp
@[simp] theorem handControl_passover (n : ControlWord) (v : Word) :
    (handControl n v s).passover = s.passover := by unfold handControl; (repeat' split) <;> simp
@[simp] theorem handControl_mside (n : ControlWord) (v : Word) :
    (handControl n v s).mside = s.mside := by unfold handControl; (repeat' split) <;> simp
@[simp] theorem handControl_cside (n : ControlWord) (v : Word) :
    (handControl n v s).cside = s.cside := by unfold handControl; (repeat' split) <;> simp
@[simp] theorem handControl_engine (n : ControlWord) (v : Word) :
    (handControl n v s).engine = s.engine := by unfold handControl; (repeat' split) <;> simp
@[simp] theorem handControl_latch (n : ControlWord) (v : Word) :
    (handControl n v s).latch = s.latch := by unfold handControl; (repeat' split) <;> simp
@[simp] theorem handControl_frames (n : ControlWord) (v : Word) :
    (handControl n v s).frames = s.frames := by unfold handControl; (repeat' split) <;> simp
@[simp] theorem handControl_intake (n : ControlWord) (v : Word) :
    (handControl n v s).intake = s.intake := by unfold handControl; (repeat' split) <;> simp
@[simp] theorem handControl_objects (n : ControlWord) (v : Word) :
    (handControl n v s).objects = s.objects := by unfold handControl; (repeat' split) <;> simp
@[simp] theorem handControl_colours (n : ControlWord) (v : Word) :
    (handControl n v s).colours = s.colours := by unfold handControl; (repeat' split) <;> simp
@[simp] theorem handControl_list (n : ControlWord) (v : Word) :
    (handControl n v s).list = s.list := by unfold handControl; (repeat' split) <;> simp
@[simp] theorem handControl_buttons (n : ControlWord) (v : Word) :
    (handControl n v s).buttons = s.buttons := by unfold handControl; (repeat' split) <;> simp
@[simp] theorem handControl_tiles (n : ControlWord) (v : Word) :
    (handControl n v s).tiles = s.tiles := by unfold handControl; (repeat' split) <;> simp
@[simp] theorem handControl_render (n : ControlWord) (v : Word) :
    (handControl n v s).render = s.render := by unfold handControl; (repeat' split) <;> simp
@[simp] theorem handControl_page (n : ControlWord) (v : Word) :
    (handControl n v s).page = s.page := by unfold handControl; (repeat' split) <;> simp
@[simp] theorem handControl_reports (n : ControlWord) (v : Word) :
    (handControl n v s).reports = s.reports := by unfold handControl; (repeat' split) <;> simp

@[simp] theorem handStateWord_pending (b : State) :
    (handStateWord b s).pending = s.pending := by unfold handStateWord; (repeat' split) <;> simp
@[simp] theorem handStateWord_resetLine (b : State) :
    (handStateWord b s).resetLine = s.resetLine := by unfold handStateWord; (repeat' split) <;> simp
@[simp] theorem handStateWord_resetDue (b : State) :
    (handStateWord b s).resetDue = s.resetDue := by unfold handStateWord; (repeat' split) <;> simp
@[simp] theorem handStateWord_urgent (b : State) :
    (handStateWord b s).urgent = s.urgent := by unfold handStateWord; (repeat' split) <;> simp
@[simp] theorem handStateWord_path (b : State) :
    (handStateWord b s).path = s.path := by unfold handStateWord; (repeat' split) <;> simp
@[simp] theorem handStateWord_share (b : State) :
    (handStateWord b s).share = s.share := by unfold handStateWord; (repeat' split) <;> simp
@[simp] theorem handStateWord_passover (b : State) :
    (handStateWord b s).passover = s.passover := by unfold handStateWord; (repeat' split) <;> simp
@[simp] theorem handStateWord_mside (b : State) :
    (handStateWord b s).mside = s.mside := by unfold handStateWord; (repeat' split) <;> simp
@[simp] theorem handStateWord_cside (b : State) :
    (handStateWord b s).cside = s.cside := by unfold handStateWord; (repeat' split) <;> simp
@[simp] theorem handStateWord_engine (b : State) :
    (handStateWord b s).engine = s.engine := by unfold handStateWord; (repeat' split) <;> simp
@[simp] theorem handStateWord_latch (b : State) :
    (handStateWord b s).latch = s.latch := by unfold handStateWord; (repeat' split) <;> simp
@[simp] theorem handStateWord_frames (b : State) :
    (handStateWord b s).frames = s.frames := by unfold handStateWord; (repeat' split) <;> simp
@[simp] theorem handStateWord_intake (b : State) :
    (handStateWord b s).intake = s.intake := by unfold handStateWord; (repeat' split) <;> simp
@[simp] theorem handStateWord_objects (b : State) :
    (handStateWord b s).objects = s.objects := by unfold handStateWord; (repeat' split) <;> simp
@[simp] theorem handStateWord_colours (b : State) :
    (handStateWord b s).colours = s.colours := by unfold handStateWord; (repeat' split) <;> simp
@[simp] theorem handStateWord_list (b : State) :
    (handStateWord b s).list = s.list := by unfold handStateWord; (repeat' split) <;> simp
@[simp] theorem handStateWord_buttons (b : State) :
    (handStateWord b s).buttons = s.buttons := by unfold handStateWord; (repeat' split) <;> simp
@[simp] theorem handStateWord_tiles (b : State) :
    (handStateWord b s).tiles = s.tiles := by unfold handStateWord; (repeat' split) <;> simp
@[simp] theorem handStateWord_render (b : State) :
    (handStateWord b s).render = s.render := by unfold handStateWord; (repeat' split) <;> simp
@[simp] theorem handStateWord_page (b : State) :
    (handStateWord b s).page = s.page := by unfold handStateWord; (repeat' split) <;> simp
@[simp] theorem handStateWord_reports (b : State) :
    (handStateWord b s).reports = s.reports := by unfold handStateWord; (repeat' split) <;> simp

@[simp] theorem handLine_pending (r : ReportRing) (q : Queued) :
    (handLine r q s).pending = s.pending := by unfold handLine; (repeat' split) <;> simp
@[simp] theorem handLine_resetLine (r : ReportRing) (q : Queued) :
    (handLine r q s).resetLine = s.resetLine := by unfold handLine; (repeat' split) <;> simp
@[simp] theorem handLine_resetDue (r : ReportRing) (q : Queued) :
    (handLine r q s).resetDue = s.resetDue := by unfold handLine; (repeat' split) <;> simp
@[simp] theorem handLine_urgent (r : ReportRing) (q : Queued) :
    (handLine r q s).urgent = s.urgent := by unfold handLine; (repeat' split) <;> simp
@[simp] theorem handLine_path (r : ReportRing) (q : Queued) :
    (handLine r q s).path = s.path := by unfold handLine; (repeat' split) <;> simp
@[simp] theorem handLine_share (r : ReportRing) (q : Queued) :
    (handLine r q s).share = s.share := by unfold handLine; (repeat' split) <;> simp
@[simp] theorem handLine_passover (r : ReportRing) (q : Queued) :
    (handLine r q s).passover = s.passover := by unfold handLine; (repeat' split) <;> simp
@[simp] theorem handLine_mside (r : ReportRing) (q : Queued) :
    (handLine r q s).mside = s.mside := by unfold handLine; (repeat' split) <;> simp
@[simp] theorem handLine_cside (r : ReportRing) (q : Queued) :
    (handLine r q s).cside = s.cside := by unfold handLine; (repeat' split) <;> simp
@[simp] theorem handLine_engine (r : ReportRing) (q : Queued) :
    (handLine r q s).engine = s.engine := by unfold handLine; (repeat' split) <;> simp
@[simp] theorem handLine_latch (r : ReportRing) (q : Queued) :
    (handLine r q s).latch = s.latch := by unfold handLine; (repeat' split) <;> simp
@[simp] theorem handLine_frames (r : ReportRing) (q : Queued) :
    (handLine r q s).frames = s.frames := by unfold handLine; (repeat' split) <;> simp
@[simp] theorem handLine_intake (r : ReportRing) (q : Queued) :
    (handLine r q s).intake = s.intake := by unfold handLine; (repeat' split) <;> simp
@[simp] theorem handLine_objects (r : ReportRing) (q : Queued) :
    (handLine r q s).objects = s.objects := by unfold handLine; (repeat' split) <;> simp
@[simp] theorem handLine_colours (r : ReportRing) (q : Queued) :
    (handLine r q s).colours = s.colours := by unfold handLine; (repeat' split) <;> simp
@[simp] theorem handLine_list (r : ReportRing) (q : Queued) :
    (handLine r q s).list = s.list := by unfold handLine; (repeat' split) <;> simp
@[simp] theorem handLine_buttons (r : ReportRing) (q : Queued) :
    (handLine r q s).buttons = s.buttons := by unfold handLine; (repeat' split) <;> simp
@[simp] theorem handLine_tiles (r : ReportRing) (q : Queued) :
    (handLine r q s).tiles = s.tiles := by unfold handLine; (repeat' split) <;> simp
@[simp] theorem handLine_render (r : ReportRing) (q : Queued) :
    (handLine r q s).render = s.render := by unfold handLine; (repeat' split) <;> simp
@[simp] theorem handLine_page (r : ReportRing) (q : Queued) :
    (handLine r q s).page = s.page := by unfold handLine; (repeat' split) <;> simp
@[simp] theorem handLine_reports (r : ReportRing) (q : Queued) :
    (handLine r q s).reports = s.reports := by unfold handLine; (repeat' split) <;> simp

@[simp] theorem handReport_pending :
    (handReport s).pending = s.pending := by unfold handReport; (repeat' split) <;> simp
@[simp] theorem handReport_resetLine :
    (handReport s).resetLine = s.resetLine := by unfold handReport; (repeat' split) <;> simp
@[simp] theorem handReport_resetDue :
    (handReport s).resetDue = s.resetDue := by unfold handReport; (repeat' split) <;> simp
@[simp] theorem handReport_urgent :
    (handReport s).urgent = s.urgent := by unfold handReport; (repeat' split) <;> simp
@[simp] theorem handReport_path :
    (handReport s).path = s.path := by unfold handReport; (repeat' split) <;> simp
@[simp] theorem handReport_share :
    (handReport s).share = s.share := by unfold handReport; (repeat' split) <;> simp
@[simp] theorem handReport_passover :
    (handReport s).passover = s.passover := by unfold handReport; (repeat' split) <;> simp
@[simp] theorem handReport_mside :
    (handReport s).mside = s.mside := by unfold handReport; (repeat' split) <;> simp
@[simp] theorem handReport_cside :
    (handReport s).cside = s.cside := by unfold handReport; (repeat' split) <;> simp
@[simp] theorem handReport_engine :
    (handReport s).engine = s.engine := by unfold handReport; (repeat' split) <;> simp
@[simp] theorem handReport_latch :
    (handReport s).latch = s.latch := by unfold handReport; (repeat' split) <;> simp
@[simp] theorem handReport_frames :
    (handReport s).frames = s.frames := by unfold handReport; (repeat' split) <;> simp
@[simp] theorem handReport_intake :
    (handReport s).intake = s.intake := by unfold handReport; (repeat' split) <;> simp
@[simp] theorem handReport_objects :
    (handReport s).objects = s.objects := by unfold handReport; (repeat' split) <;> simp
@[simp] theorem handReport_colours :
    (handReport s).colours = s.colours := by unfold handReport; (repeat' split) <;> simp
@[simp] theorem handReport_list :
    (handReport s).list = s.list := by unfold handReport; (repeat' split) <;> simp
@[simp] theorem handReport_buttons :
    (handReport s).buttons = s.buttons := by unfold handReport; (repeat' split) <;> simp
@[simp] theorem handReport_tiles :
    (handReport s).tiles = s.tiles := by unfold handReport; (repeat' split) <;> simp
@[simp] theorem handReport_render :
    (handReport s).render = s.render := by unfold handReport; (repeat' split) <;> simp
@[simp] theorem handReport_page :
    (handReport s).page = s.page := by unfold handReport; (repeat' split) <;> simp

@[simp] theorem giveReport_pending (r : Report) :
    (giveReport r s).pending = s.pending := by simp [giveReport]
@[simp] theorem giveReport_resetLine (r : Report) :
    (giveReport r s).resetLine = s.resetLine := by simp [giveReport]
@[simp] theorem giveReport_resetDue (r : Report) :
    (giveReport r s).resetDue = s.resetDue := by simp [giveReport]
@[simp] theorem giveReport_urgent (r : Report) :
    (giveReport r s).urgent = s.urgent := by simp [giveReport]
@[simp] theorem giveReport_path (r : Report) :
    (giveReport r s).path = s.path := by simp [giveReport]
@[simp] theorem giveReport_share (r : Report) :
    (giveReport r s).share = s.share := by simp [giveReport]
@[simp] theorem giveReport_passover (r : Report) :
    (giveReport r s).passover = s.passover := by simp [giveReport]
@[simp] theorem giveReport_mside (r : Report) :
    (giveReport r s).mside = s.mside := by simp [giveReport]
@[simp] theorem giveReport_cside (r : Report) :
    (giveReport r s).cside = s.cside := by simp [giveReport]
@[simp] theorem giveReport_engine (r : Report) :
    (giveReport r s).engine = s.engine := by simp [giveReport]
@[simp] theorem giveReport_latch (r : Report) :
    (giveReport r s).latch = s.latch := by simp [giveReport]
@[simp] theorem giveReport_frames (r : Report) :
    (giveReport r s).frames = s.frames := by simp [giveReport]
@[simp] theorem giveReport_intake (r : Report) :
    (giveReport r s).intake = s.intake := by simp [giveReport]
@[simp] theorem giveReport_objects (r : Report) :
    (giveReport r s).objects = s.objects := by simp [giveReport]
@[simp] theorem giveReport_colours (r : Report) :
    (giveReport r s).colours = s.colours := by simp [giveReport]
@[simp] theorem giveReport_list (r : Report) :
    (giveReport r s).list = s.list := by simp [giveReport]
@[simp] theorem giveReport_buttons (r : Report) :
    (giveReport r s).buttons = s.buttons := by simp [giveReport]
@[simp] theorem giveReport_tiles (r : Report) :
    (giveReport r s).tiles = s.tiles := by simp [giveReport]
@[simp] theorem giveReport_render (r : Report) :
    (giveReport r s).render = s.render := by simp [giveReport]
@[simp] theorem giveReport_page (r : Report) :
    (giveReport r s).page = s.page := by simp [giveReport]

@[simp] theorem giveReportOpt_pending (r : Option Report) :
    (giveReport? r s).pending = s.pending := by unfold giveReport?; (repeat' split) <;> simp
@[simp] theorem giveReportOpt_resetLine (r : Option Report) :
    (giveReport? r s).resetLine = s.resetLine := by unfold giveReport?; (repeat' split) <;> simp
@[simp] theorem giveReportOpt_resetDue (r : Option Report) :
    (giveReport? r s).resetDue = s.resetDue := by unfold giveReport?; (repeat' split) <;> simp
@[simp] theorem giveReportOpt_urgent (r : Option Report) :
    (giveReport? r s).urgent = s.urgent := by unfold giveReport?; (repeat' split) <;> simp
@[simp] theorem giveReportOpt_path (r : Option Report) :
    (giveReport? r s).path = s.path := by unfold giveReport?; (repeat' split) <;> simp
@[simp] theorem giveReportOpt_share (r : Option Report) :
    (giveReport? r s).share = s.share := by unfold giveReport?; (repeat' split) <;> simp
@[simp] theorem giveReportOpt_passover (r : Option Report) :
    (giveReport? r s).passover = s.passover := by unfold giveReport?; (repeat' split) <;> simp
@[simp] theorem giveReportOpt_mside (r : Option Report) :
    (giveReport? r s).mside = s.mside := by unfold giveReport?; (repeat' split) <;> simp
@[simp] theorem giveReportOpt_cside (r : Option Report) :
    (giveReport? r s).cside = s.cside := by unfold giveReport?; (repeat' split) <;> simp
@[simp] theorem giveReportOpt_engine (r : Option Report) :
    (giveReport? r s).engine = s.engine := by unfold giveReport?; (repeat' split) <;> simp
@[simp] theorem giveReportOpt_latch (r : Option Report) :
    (giveReport? r s).latch = s.latch := by unfold giveReport?; (repeat' split) <;> simp
@[simp] theorem giveReportOpt_frames (r : Option Report) :
    (giveReport? r s).frames = s.frames := by unfold giveReport?; (repeat' split) <;> simp
@[simp] theorem giveReportOpt_intake (r : Option Report) :
    (giveReport? r s).intake = s.intake := by unfold giveReport?; (repeat' split) <;> simp
@[simp] theorem giveReportOpt_objects (r : Option Report) :
    (giveReport? r s).objects = s.objects := by unfold giveReport?; (repeat' split) <;> simp
@[simp] theorem giveReportOpt_colours (r : Option Report) :
    (giveReport? r s).colours = s.colours := by unfold giveReport?; (repeat' split) <;> simp
@[simp] theorem giveReportOpt_list (r : Option Report) :
    (giveReport? r s).list = s.list := by unfold giveReport?; (repeat' split) <;> simp
@[simp] theorem giveReportOpt_buttons (r : Option Report) :
    (giveReport? r s).buttons = s.buttons := by unfold giveReport?; (repeat' split) <;> simp
@[simp] theorem giveReportOpt_tiles (r : Option Report) :
    (giveReport? r s).tiles = s.tiles := by unfold giveReport?; (repeat' split) <;> simp
@[simp] theorem giveReportOpt_render (r : Option Report) :
    (giveReport? r s).render = s.render := by unfold giveReport?; (repeat' split) <;> simp
@[simp] theorem giveReportOpt_page (r : Option Report) :
    (giveReport? r s).page = s.page := by unfold giveReport?; (repeat' split) <;> simp

@[simp] theorem handIntake_pending (f : IntakeFetch) :
    (handIntake f s).pending = s.pending := by unfold handIntake; (repeat' split) <;> simp
@[simp] theorem handIntake_resetLine (f : IntakeFetch) :
    (handIntake f s).resetLine = s.resetLine := by unfold handIntake; (repeat' split) <;> simp
@[simp] theorem handIntake_resetDue (f : IntakeFetch) :
    (handIntake f s).resetDue = s.resetDue := by unfold handIntake; (repeat' split) <;> simp
@[simp] theorem handIntake_urgent (f : IntakeFetch) :
    (handIntake f s).urgent = s.urgent := by unfold handIntake; (repeat' split) <;> simp
@[simp] theorem handIntake_path (f : IntakeFetch) :
    (handIntake f s).path = s.path := by unfold handIntake; (repeat' split) <;> simp
@[simp] theorem handIntake_share (f : IntakeFetch) :
    (handIntake f s).share = s.share := by unfold handIntake; (repeat' split) <;> simp
@[simp] theorem handIntake_passover (f : IntakeFetch) :
    (handIntake f s).passover = s.passover := by unfold handIntake; (repeat' split) <;> simp
@[simp] theorem handIntake_mside (f : IntakeFetch) :
    (handIntake f s).mside = s.mside := by unfold handIntake; (repeat' split) <;> simp
@[simp] theorem handIntake_cside (f : IntakeFetch) :
    (handIntake f s).cside = s.cside := by unfold handIntake; (repeat' split) <;> simp
@[simp] theorem handIntake_engine (f : IntakeFetch) :
    (handIntake f s).engine = s.engine := by unfold handIntake; (repeat' split) <;> simp
@[simp] theorem handIntake_latch (f : IntakeFetch) :
    (handIntake f s).latch = s.latch := by unfold handIntake; (repeat' split) <;> simp
@[simp] theorem handIntake_frames (f : IntakeFetch) :
    (handIntake f s).frames = s.frames := by unfold handIntake; (repeat' split) <;> simp
@[simp] theorem handIntake_objects (f : IntakeFetch) :
    (handIntake f s).objects = s.objects := by unfold handIntake; (repeat' split) <;> simp
@[simp] theorem handIntake_colours (f : IntakeFetch) :
    (handIntake f s).colours = s.colours := by unfold handIntake; (repeat' split) <;> simp
@[simp] theorem handIntake_list (f : IntakeFetch) :
    (handIntake f s).list = s.list := by unfold handIntake; (repeat' split) <;> simp
@[simp] theorem handIntake_buttons (f : IntakeFetch) :
    (handIntake f s).buttons = s.buttons := by unfold handIntake; (repeat' split) <;> simp
@[simp] theorem handIntake_tiles (f : IntakeFetch) :
    (handIntake f s).tiles = s.tiles := by unfold handIntake; (repeat' split) <;> simp
@[simp] theorem handIntake_render (f : IntakeFetch) :
    (handIntake f s).render = s.render := by unfold handIntake; (repeat' split) <;> simp
@[simp] theorem handIntake_page (f : IntakeFetch) :
    (handIntake f s).page = s.page := by unfold handIntake; (repeat' split) <;> simp
@[simp] theorem handIntake_reports (f : IntakeFetch) :
    (handIntake f s).reports = s.reports := by unfold handIntake; (repeat' split) <;> simp

@[simp] theorem wantIntake_pending (f : IntakeFetch) :
    (wantIntake f s).pending = s.pending := by unfold wantIntake; (repeat' split) <;> simp
@[simp] theorem wantIntake_resetLine (f : IntakeFetch) :
    (wantIntake f s).resetLine = s.resetLine := by unfold wantIntake; (repeat' split) <;> simp
@[simp] theorem wantIntake_resetDue (f : IntakeFetch) :
    (wantIntake f s).resetDue = s.resetDue := by unfold wantIntake; (repeat' split) <;> simp
@[simp] theorem wantIntake_urgent (f : IntakeFetch) :
    (wantIntake f s).urgent = s.urgent := by unfold wantIntake; (repeat' split) <;> simp
@[simp] theorem wantIntake_path (f : IntakeFetch) :
    (wantIntake f s).path = s.path := by unfold wantIntake; (repeat' split) <;> simp
@[simp] theorem wantIntake_share (f : IntakeFetch) :
    (wantIntake f s).share = s.share := by unfold wantIntake; (repeat' split) <;> simp
@[simp] theorem wantIntake_passover (f : IntakeFetch) :
    (wantIntake f s).passover = s.passover := by unfold wantIntake; (repeat' split) <;> simp
@[simp] theorem wantIntake_mside (f : IntakeFetch) :
    (wantIntake f s).mside = s.mside := by unfold wantIntake; (repeat' split) <;> simp
@[simp] theorem wantIntake_cside (f : IntakeFetch) :
    (wantIntake f s).cside = s.cside := by unfold wantIntake; (repeat' split) <;> simp
@[simp] theorem wantIntake_engine (f : IntakeFetch) :
    (wantIntake f s).engine = s.engine := by unfold wantIntake; (repeat' split) <;> simp
@[simp] theorem wantIntake_latch (f : IntakeFetch) :
    (wantIntake f s).latch = s.latch := by unfold wantIntake; (repeat' split) <;> simp
@[simp] theorem wantIntake_frames (f : IntakeFetch) :
    (wantIntake f s).frames = s.frames := by unfold wantIntake; (repeat' split) <;> simp
@[simp] theorem wantIntake_objects (f : IntakeFetch) :
    (wantIntake f s).objects = s.objects := by unfold wantIntake; (repeat' split) <;> simp
@[simp] theorem wantIntake_colours (f : IntakeFetch) :
    (wantIntake f s).colours = s.colours := by unfold wantIntake; (repeat' split) <;> simp
@[simp] theorem wantIntake_list (f : IntakeFetch) :
    (wantIntake f s).list = s.list := by unfold wantIntake; (repeat' split) <;> simp
@[simp] theorem wantIntake_buttons (f : IntakeFetch) :
    (wantIntake f s).buttons = s.buttons := by unfold wantIntake; (repeat' split) <;> simp
@[simp] theorem wantIntake_tiles (f : IntakeFetch) :
    (wantIntake f s).tiles = s.tiles := by unfold wantIntake; (repeat' split) <;> simp
@[simp] theorem wantIntake_render (f : IntakeFetch) :
    (wantIntake f s).render = s.render := by unfold wantIntake; (repeat' split) <;> simp
@[simp] theorem wantIntake_page (f : IntakeFetch) :
    (wantIntake f s).page = s.page := by unfold wantIntake; (repeat' split) <;> simp
@[simp] theorem wantIntake_reports (f : IntakeFetch) :
    (wantIntake f s).reports = s.reports := by unfold wantIntake; (repeat' split) <;> simp

@[simp] theorem beginProbe_pending :
    (beginProbe s).pending = s.pending := by unfold beginProbe; (repeat' split) <;> simp
@[simp] theorem beginProbe_resetLine :
    (beginProbe s).resetLine = s.resetLine := by unfold beginProbe; (repeat' split) <;> simp
@[simp] theorem beginProbe_resetDue :
    (beginProbe s).resetDue = s.resetDue := by unfold beginProbe; (repeat' split) <;> simp
@[simp] theorem beginProbe_urgent :
    (beginProbe s).urgent = s.urgent := by unfold beginProbe; (repeat' split) <;> simp
@[simp] theorem beginProbe_path :
    (beginProbe s).path = s.path := by unfold beginProbe; (repeat' split) <;> simp
@[simp] theorem beginProbe_share :
    (beginProbe s).share = s.share := by unfold beginProbe; (repeat' split) <;> simp
@[simp] theorem beginProbe_passover :
    (beginProbe s).passover = s.passover := by unfold beginProbe; (repeat' split) <;> simp
@[simp] theorem beginProbe_mside :
    (beginProbe s).mside = s.mside := by unfold beginProbe; (repeat' split) <;> simp
@[simp] theorem beginProbe_cside :
    (beginProbe s).cside = s.cside := by unfold beginProbe; (repeat' split) <;> simp
@[simp] theorem beginProbe_engine :
    (beginProbe s).engine = s.engine := by unfold beginProbe; (repeat' split) <;> simp
@[simp] theorem beginProbe_latch :
    (beginProbe s).latch = s.latch := by unfold beginProbe; (repeat' split) <;> simp
@[simp] theorem beginProbe_frames :
    (beginProbe s).frames = s.frames := by unfold beginProbe; (repeat' split) <;> simp
@[simp] theorem beginProbe_objects :
    (beginProbe s).objects = s.objects := by unfold beginProbe; (repeat' split) <;> simp
@[simp] theorem beginProbe_colours :
    (beginProbe s).colours = s.colours := by unfold beginProbe; (repeat' split) <;> simp
@[simp] theorem beginProbe_list :
    (beginProbe s).list = s.list := by unfold beginProbe; (repeat' split) <;> simp
@[simp] theorem beginProbe_buttons :
    (beginProbe s).buttons = s.buttons := by unfold beginProbe; (repeat' split) <;> simp
@[simp] theorem beginProbe_tiles :
    (beginProbe s).tiles = s.tiles := by unfold beginProbe; (repeat' split) <;> simp
@[simp] theorem beginProbe_render :
    (beginProbe s).render = s.render := by unfold beginProbe; (repeat' split) <;> simp
@[simp] theorem beginProbe_page :
    (beginProbe s).page = s.page := by unfold beginProbe; (repeat' split) <;> simp
@[simp] theorem beginProbe_reports :
    (beginProbe s).reports = s.reports := by unfold beginProbe; (repeat' split) <;> simp

@[simp] theorem endRecord_pending (fault : Option RecCause) (p : Nat) :
    (endRecord fault p s).pending = s.pending := by simp [endRecord]
@[simp] theorem endRecord_resetLine (fault : Option RecCause) (p : Nat) :
    (endRecord fault p s).resetLine = s.resetLine := by simp [endRecord]
@[simp] theorem endRecord_resetDue (fault : Option RecCause) (p : Nat) :
    (endRecord fault p s).resetDue = s.resetDue := by simp [endRecord]
@[simp] theorem endRecord_urgent (fault : Option RecCause) (p : Nat) :
    (endRecord fault p s).urgent = s.urgent := by simp [endRecord]
@[simp] theorem endRecord_path (fault : Option RecCause) (p : Nat) :
    (endRecord fault p s).path = s.path := by simp [endRecord]
@[simp] theorem endRecord_share (fault : Option RecCause) (p : Nat) :
    (endRecord fault p s).share = s.share := by simp [endRecord]
@[simp] theorem endRecord_passover (fault : Option RecCause) (p : Nat) :
    (endRecord fault p s).passover = s.passover := by simp [endRecord]
@[simp] theorem endRecord_mside (fault : Option RecCause) (p : Nat) :
    (endRecord fault p s).mside = s.mside := by simp [endRecord]
@[simp] theorem endRecord_cside (fault : Option RecCause) (p : Nat) :
    (endRecord fault p s).cside = s.cside := by simp [endRecord]
@[simp] theorem endRecord_engine (fault : Option RecCause) (p : Nat) :
    (endRecord fault p s).engine = s.engine := by simp [endRecord]
@[simp] theorem endRecord_latch (fault : Option RecCause) (p : Nat) :
    (endRecord fault p s).latch = s.latch := by simp [endRecord]
@[simp] theorem endRecord_frames (fault : Option RecCause) (p : Nat) :
    (endRecord fault p s).frames = s.frames := by simp [endRecord]
@[simp] theorem endRecord_objects (fault : Option RecCause) (p : Nat) :
    (endRecord fault p s).objects = s.objects := by simp [endRecord]
@[simp] theorem endRecord_colours (fault : Option RecCause) (p : Nat) :
    (endRecord fault p s).colours = s.colours := by simp [endRecord]
@[simp] theorem endRecord_list (fault : Option RecCause) (p : Nat) :
    (endRecord fault p s).list = s.list := by simp [endRecord]
@[simp] theorem endRecord_buttons (fault : Option RecCause) (p : Nat) :
    (endRecord fault p s).buttons = s.buttons := by simp [endRecord]
@[simp] theorem endRecord_tiles (fault : Option RecCause) (p : Nat) :
    (endRecord fault p s).tiles = s.tiles := by simp [endRecord]
@[simp] theorem endRecord_render (fault : Option RecCause) (p : Nat) :
    (endRecord fault p s).render = s.render := by simp [endRecord]
@[simp] theorem endRecord_page (fault : Option RecCause) (p : Nat) :
    (endRecord fault p s).page = s.page := by simp [endRecord]

@[simp] theorem emptyTables_pending :
    (emptyTables s).pending = s.pending := by unfold emptyTables; (repeat' split) <;> simp
@[simp] theorem emptyTables_resetLine :
    (emptyTables s).resetLine = s.resetLine := by unfold emptyTables; (repeat' split) <;> simp
@[simp] theorem emptyTables_resetDue :
    (emptyTables s).resetDue = s.resetDue := by unfold emptyTables; (repeat' split) <;> simp
@[simp] theorem emptyTables_urgent :
    (emptyTables s).urgent = s.urgent := by unfold emptyTables; (repeat' split) <;> simp
@[simp] theorem emptyTables_path :
    (emptyTables s).path = s.path := by unfold emptyTables; (repeat' split) <;> simp
@[simp] theorem emptyTables_share :
    (emptyTables s).share = s.share := by unfold emptyTables; (repeat' split) <;> simp
@[simp] theorem emptyTables_passover :
    (emptyTables s).passover = s.passover := by unfold emptyTables; (repeat' split) <;> simp
@[simp] theorem emptyTables_mside :
    (emptyTables s).mside = s.mside := by unfold emptyTables; (repeat' split) <;> simp
@[simp] theorem emptyTables_cside :
    (emptyTables s).cside = s.cside := by unfold emptyTables; (repeat' split) <;> simp
@[simp] theorem emptyTables_waiting :
    (emptyTables s).waiting = s.waiting := by unfold emptyTables; (repeat' split) <;> simp
@[simp] theorem emptyTables_engine :
    (emptyTables s).engine = s.engine := by unfold emptyTables; (repeat' split) <;> simp
@[simp] theorem emptyTables_latch :
    (emptyTables s).latch = s.latch := by unfold emptyTables; (repeat' split) <;> simp
@[simp] theorem emptyTables_frames :
    (emptyTables s).frames = s.frames := by unfold emptyTables; (repeat' split) <;> simp
@[simp] theorem emptyTables_intake :
    (emptyTables s).intake = s.intake := by unfold emptyTables; (repeat' split) <;> simp
@[simp] theorem emptyTables_tiles :
    (emptyTables s).tiles = s.tiles := by unfold emptyTables; (repeat' split) <;> simp
@[simp] theorem emptyTables_render :
    (emptyTables s).render = s.render := by unfold emptyTables; (repeat' split) <;> simp
@[simp] theorem emptyTables_page :
    (emptyTables s).page = s.page := by unfold emptyTables; (repeat' split) <;> simp
@[simp] theorem emptyTables_reports :
    (emptyTables s).reports = s.reports := by unfold emptyTables; (repeat' split) <;> simp

@[simp] theorem unsetPlane_pending :
    (unsetPlane s).pending = s.pending := by unfold unsetPlane; (repeat' split) <;> simp
@[simp] theorem unsetPlane_resetLine :
    (unsetPlane s).resetLine = s.resetLine := by unfold unsetPlane; (repeat' split) <;> simp
@[simp] theorem unsetPlane_resetDue :
    (unsetPlane s).resetDue = s.resetDue := by unfold unsetPlane; (repeat' split) <;> simp
@[simp] theorem unsetPlane_urgent :
    (unsetPlane s).urgent = s.urgent := by unfold unsetPlane; (repeat' split) <;> simp
@[simp] theorem unsetPlane_path :
    (unsetPlane s).path = s.path := by unfold unsetPlane; (repeat' split) <;> simp
@[simp] theorem unsetPlane_share :
    (unsetPlane s).share = s.share := by unfold unsetPlane; (repeat' split) <;> simp
@[simp] theorem unsetPlane_passover :
    (unsetPlane s).passover = s.passover := by unfold unsetPlane; (repeat' split) <;> simp
@[simp] theorem unsetPlane_mside :
    (unsetPlane s).mside = s.mside := by unfold unsetPlane; (repeat' split) <;> simp
@[simp] theorem unsetPlane_cside :
    (unsetPlane s).cside = s.cside := by unfold unsetPlane; (repeat' split) <;> simp
@[simp] theorem unsetPlane_waiting :
    (unsetPlane s).waiting = s.waiting := by unfold unsetPlane; (repeat' split) <;> simp
@[simp] theorem unsetPlane_engine :
    (unsetPlane s).engine = s.engine := by unfold unsetPlane; (repeat' split) <;> simp
@[simp] theorem unsetPlane_latch :
    (unsetPlane s).latch = s.latch := by unfold unsetPlane; (repeat' split) <;> simp
@[simp] theorem unsetPlane_frames :
    (unsetPlane s).frames = s.frames := by unfold unsetPlane; (repeat' split) <;> simp
@[simp] theorem unsetPlane_intake :
    (unsetPlane s).intake = s.intake := by unfold unsetPlane; (repeat' split) <;> simp
@[simp] theorem unsetPlane_objects :
    (unsetPlane s).objects = s.objects := by unfold unsetPlane; (repeat' split) <;> simp
@[simp] theorem unsetPlane_colours :
    (unsetPlane s).colours = s.colours := by unfold unsetPlane; (repeat' split) <;> simp
@[simp] theorem unsetPlane_list :
    (unsetPlane s).list = s.list := by unfold unsetPlane; (repeat' split) <;> simp
@[simp] theorem unsetPlane_buttons :
    (unsetPlane s).buttons = s.buttons := by unfold unsetPlane; (repeat' split) <;> simp
@[simp] theorem unsetPlane_page :
    (unsetPlane s).page = s.page := by unfold unsetPlane; (repeat' split) <;> simp
@[simp] theorem unsetPlane_reports :
    (unsetPlane s).reports = s.reports := by unfold unsetPlane; (repeat' split) <;> simp

@[simp] theorem attach_pending (x : Anchor) :
    (attach x s).pending = s.pending := by simp [attach]
@[simp] theorem attach_resetLine (x : Anchor) :
    (attach x s).resetLine = s.resetLine := by simp [attach]
@[simp] theorem attach_resetDue (x : Anchor) :
    (attach x s).resetDue = s.resetDue := by simp [attach]
@[simp] theorem attach_urgent (x : Anchor) :
    (attach x s).urgent = s.urgent := by simp [attach]
@[simp] theorem attach_path (x : Anchor) :
    (attach x s).path = s.path := by simp [attach]
@[simp] theorem attach_share (x : Anchor) :
    (attach x s).share = s.share := by simp [attach]
@[simp] theorem attach_passover (x : Anchor) :
    (attach x s).passover = s.passover := by simp [attach]
@[simp] theorem attach_mside (x : Anchor) :
    (attach x s).mside = s.mside := by simp [attach]
@[simp] theorem attach_cside (x : Anchor) :
    (attach x s).cside = s.cside := by simp [attach]
@[simp] theorem attach_latch (x : Anchor) :
    (attach x s).latch = s.latch := by simp [attach]
@[simp] theorem attach_frames (x : Anchor) :
    (attach x s).frames = s.frames := by simp [attach]
@[simp] theorem attach_objects (x : Anchor) :
    (attach x s).objects = s.objects := by simp [attach]
@[simp] theorem attach_colours (x : Anchor) :
    (attach x s).colours = s.colours := by simp [attach]
@[simp] theorem attach_list (x : Anchor) :
    (attach x s).list = s.list := by simp [attach]
@[simp] theorem attach_buttons (x : Anchor) :
    (attach x s).buttons = s.buttons := by simp [attach]
@[simp] theorem attach_tiles (x : Anchor) :
    (attach x s).tiles = s.tiles := by simp [attach]
@[simp] theorem attach_render (x : Anchor) :
    (attach x s).render = s.render := by simp [attach]
@[simp] theorem attach_page (x : Anchor) :
    (attach x s).page = s.page := by simp [attach]
@[simp] theorem attach_reports (x : Anchor) :
    (attach x s).reports = s.reports := by simp [attach]

@[simp] theorem emptyForReanchor_pending :
    (emptyForReanchor s).pending = s.pending := by unfold emptyForReanchor; (repeat' split) <;> simp
@[simp] theorem emptyForReanchor_resetLine :
    (emptyForReanchor s).resetLine = s.resetLine := by unfold emptyForReanchor; (repeat' split) <;> simp
@[simp] theorem emptyForReanchor_resetDue :
    (emptyForReanchor s).resetDue = s.resetDue := by unfold emptyForReanchor; (repeat' split) <;> simp
@[simp] theorem emptyForReanchor_urgent :
    (emptyForReanchor s).urgent = s.urgent := by unfold emptyForReanchor; (repeat' split) <;> simp
@[simp] theorem emptyForReanchor_path :
    (emptyForReanchor s).path = s.path := by unfold emptyForReanchor; (repeat' split) <;> simp
@[simp] theorem emptyForReanchor_mside :
    (emptyForReanchor s).mside = s.mside := by unfold emptyForReanchor; (repeat' split) <;> simp
@[simp] theorem emptyForReanchor_cside :
    (emptyForReanchor s).cside = s.cside := by unfold emptyForReanchor; (repeat' split) <;> simp
@[simp] theorem emptyForReanchor_engine :
    (emptyForReanchor s).engine = s.engine := by unfold emptyForReanchor; (repeat' split) <;> simp
@[simp] theorem emptyForReanchor_latch :
    (emptyForReanchor s).latch = s.latch := by unfold emptyForReanchor; (repeat' split) <;> simp
@[simp] theorem emptyForReanchor_frames :
    (emptyForReanchor s).frames = s.frames := by unfold emptyForReanchor; (repeat' split) <;> simp
@[simp] theorem emptyForReanchor_intake :
    (emptyForReanchor s).intake = s.intake := by unfold emptyForReanchor; (repeat' split) <;> simp

@[simp] theorem reanchor_pending (x : Anchor) :
    (reanchor x s).pending = s.pending := by simp [reanchor]
@[simp] theorem reanchor_resetLine (x : Anchor) :
    (reanchor x s).resetLine = s.resetLine := by simp [reanchor]
@[simp] theorem reanchor_resetDue (x : Anchor) :
    (reanchor x s).resetDue = s.resetDue := by simp [reanchor]
@[simp] theorem reanchor_urgent (x : Anchor) :
    (reanchor x s).urgent = s.urgent := by simp [reanchor]
@[simp] theorem reanchor_path (x : Anchor) :
    (reanchor x s).path = s.path := by simp [reanchor]
@[simp] theorem reanchor_mside (x : Anchor) :
    (reanchor x s).mside = s.mside := by simp [reanchor]
@[simp] theorem reanchor_cside (x : Anchor) :
    (reanchor x s).cside = s.cside := by simp [reanchor]
@[simp] theorem reanchor_latch (x : Anchor) :
    (reanchor x s).latch = s.latch := by simp [reanchor]
@[simp] theorem reanchor_frames (x : Anchor) :
    (reanchor x s).frames = s.frames := by simp [reanchor]

end Sys2Proof.Machine
end

