-- ==== Sys2Proof/Laws/RenderFrames.lean ====
section
/-! SUPPORT. What each operation of the render engine leaves unchanged. -/
namespace Sys2Proof.Machine
set_option Elab.async false
open Sys2Proof
variable (s : State)

@[simp] theorem setFlight_pending (f : Flight) (req : RenderReq) :
    (setFlight f req s).pending = s.pending := by unfold setFlight; (repeat' split) <;> simp
@[simp] theorem setFlight_resetLine (f : Flight) (req : RenderReq) :
    (setFlight f req s).resetLine = s.resetLine := by unfold setFlight; (repeat' split) <;> simp
@[simp] theorem setFlight_resetDue (f : Flight) (req : RenderReq) :
    (setFlight f req s).resetDue = s.resetDue := by unfold setFlight; (repeat' split) <;> simp
@[simp] theorem setFlight_urgent (f : Flight) (req : RenderReq) :
    (setFlight f req s).urgent = s.urgent := by unfold setFlight; (repeat' split) <;> simp
@[simp] theorem setFlight_path (f : Flight) (req : RenderReq) :
    (setFlight f req s).path = s.path := by unfold setFlight; (repeat' split) <;> simp
@[simp] theorem setFlight_share (f : Flight) (req : RenderReq) :
    (setFlight f req s).share = s.share := by unfold setFlight; (repeat' split) <;> simp
@[simp] theorem setFlight_passover (f : Flight) (req : RenderReq) :
    (setFlight f req s).passover = s.passover := by unfold setFlight; (repeat' split) <;> simp
@[simp] theorem setFlight_mside (f : Flight) (req : RenderReq) :
    (setFlight f req s).mside = s.mside := by unfold setFlight; (repeat' split) <;> simp
@[simp] theorem setFlight_cside (f : Flight) (req : RenderReq) :
    (setFlight f req s).cside = s.cside := by unfold setFlight; (repeat' split) <;> simp
@[simp] theorem setFlight_engine (f : Flight) (req : RenderReq) :
    (setFlight f req s).engine = s.engine := by unfold setFlight; (repeat' split) <;> simp
@[simp] theorem setFlight_latch (f : Flight) (req : RenderReq) :
    (setFlight f req s).latch = s.latch := by unfold setFlight; (repeat' split) <;> simp
@[simp] theorem setFlight_frames (f : Flight) (req : RenderReq) :
    (setFlight f req s).frames = s.frames := by unfold setFlight; (repeat' split) <;> simp
@[simp] theorem setFlight_intake (f : Flight) (req : RenderReq) :
    (setFlight f req s).intake = s.intake := by unfold setFlight; (repeat' split) <;> simp
@[simp] theorem setFlight_objects (f : Flight) (req : RenderReq) :
    (setFlight f req s).objects = s.objects := by unfold setFlight; (repeat' split) <;> simp
@[simp] theorem setFlight_colours (f : Flight) (req : RenderReq) :
    (setFlight f req s).colours = s.colours := by unfold setFlight; (repeat' split) <;> simp
@[simp] theorem setFlight_list (f : Flight) (req : RenderReq) :
    (setFlight f req s).list = s.list := by unfold setFlight; (repeat' split) <;> simp
@[simp] theorem setFlight_buttons (f : Flight) (req : RenderReq) :
    (setFlight f req s).buttons = s.buttons := by unfold setFlight; (repeat' split) <;> simp
@[simp] theorem setFlight_tiles (f : Flight) (req : RenderReq) :
    (setFlight f req s).tiles = s.tiles := by unfold setFlight; (repeat' split) <;> simp
@[simp] theorem setFlight_page (f : Flight) (req : RenderReq) :
    (setFlight f req s).page = s.page := by unfold setFlight; (repeat' split) <;> simp
@[simp] theorem setFlight_reports (f : Flight) (req : RenderReq) :
    (setFlight f req s).reports = s.reports := by unfold setFlight; (repeat' split) <;> simp

@[simp] theorem handRowStore_pending (pl : Plane) (f : Flight) (n : Nat) :
    (handRowStore pl f n s).pending = s.pending := by unfold handRowStore; (repeat' split) <;> simp
@[simp] theorem handRowStore_resetLine (pl : Plane) (f : Flight) (n : Nat) :
    (handRowStore pl f n s).resetLine = s.resetLine := by unfold handRowStore; (repeat' split) <;> simp
@[simp] theorem handRowStore_resetDue (pl : Plane) (f : Flight) (n : Nat) :
    (handRowStore pl f n s).resetDue = s.resetDue := by unfold handRowStore; (repeat' split) <;> simp
@[simp] theorem handRowStore_urgent (pl : Plane) (f : Flight) (n : Nat) :
    (handRowStore pl f n s).urgent = s.urgent := by unfold handRowStore; (repeat' split) <;> simp
@[simp] theorem handRowStore_path (pl : Plane) (f : Flight) (n : Nat) :
    (handRowStore pl f n s).path = s.path := by unfold handRowStore; (repeat' split) <;> simp
@[simp] theorem handRowStore_share (pl : Plane) (f : Flight) (n : Nat) :
    (handRowStore pl f n s).share = s.share := by unfold handRowStore; (repeat' split) <;> simp
@[simp] theorem handRowStore_passover (pl : Plane) (f : Flight) (n : Nat) :
    (handRowStore pl f n s).passover = s.passover := by unfold handRowStore; (repeat' split) <;> simp
@[simp] theorem handRowStore_mside (pl : Plane) (f : Flight) (n : Nat) :
    (handRowStore pl f n s).mside = s.mside := by unfold handRowStore; (repeat' split) <;> simp
@[simp] theorem handRowStore_cside (pl : Plane) (f : Flight) (n : Nat) :
    (handRowStore pl f n s).cside = s.cside := by unfold handRowStore; (repeat' split) <;> simp
@[simp] theorem handRowStore_engine (pl : Plane) (f : Flight) (n : Nat) :
    (handRowStore pl f n s).engine = s.engine := by unfold handRowStore; (repeat' split) <;> simp
@[simp] theorem handRowStore_latch (pl : Plane) (f : Flight) (n : Nat) :
    (handRowStore pl f n s).latch = s.latch := by unfold handRowStore; (repeat' split) <;> simp
@[simp] theorem handRowStore_frames (pl : Plane) (f : Flight) (n : Nat) :
    (handRowStore pl f n s).frames = s.frames := by unfold handRowStore; (repeat' split) <;> simp
@[simp] theorem handRowStore_intake (pl : Plane) (f : Flight) (n : Nat) :
    (handRowStore pl f n s).intake = s.intake := by unfold handRowStore; (repeat' split) <;> simp
@[simp] theorem handRowStore_objects (pl : Plane) (f : Flight) (n : Nat) :
    (handRowStore pl f n s).objects = s.objects := by unfold handRowStore; (repeat' split) <;> simp
@[simp] theorem handRowStore_colours (pl : Plane) (f : Flight) (n : Nat) :
    (handRowStore pl f n s).colours = s.colours := by unfold handRowStore; (repeat' split) <;> simp
@[simp] theorem handRowStore_list (pl : Plane) (f : Flight) (n : Nat) :
    (handRowStore pl f n s).list = s.list := by unfold handRowStore; (repeat' split) <;> simp
@[simp] theorem handRowStore_buttons (pl : Plane) (f : Flight) (n : Nat) :
    (handRowStore pl f n s).buttons = s.buttons := by unfold handRowStore; (repeat' split) <;> simp
@[simp] theorem handRowStore_tiles (pl : Plane) (f : Flight) (n : Nat) :
    (handRowStore pl f n s).tiles = s.tiles := by unfold handRowStore; (repeat' split) <;> simp
@[simp] theorem handRowStore_page (pl : Plane) (f : Flight) (n : Nat) :
    (handRowStore pl f n s).page = s.page := by unfold handRowStore; (repeat' split) <;> simp
@[simp] theorem handRowStore_reports (pl : Plane) (f : Flight) (n : Nat) :
    (handRowStore pl f n s).reports = s.reports := by unfold handRowStore; (repeat' split) <;> simp

@[simp] theorem advanceRow_pending (pl : Plane) (f : Flight) (l : List Placement) :
    (advanceRow pl f l s).pending = s.pending := by induction l <;> simp only [advanceRow, handRowStore_pending] <;> split <;> simp [*]
@[simp] theorem advanceRow_resetLine (pl : Plane) (f : Flight) (l : List Placement) :
    (advanceRow pl f l s).resetLine = s.resetLine := by induction l <;> simp only [advanceRow, handRowStore_resetLine] <;> split <;> simp [*]
@[simp] theorem advanceRow_resetDue (pl : Plane) (f : Flight) (l : List Placement) :
    (advanceRow pl f l s).resetDue = s.resetDue := by induction l <;> simp only [advanceRow, handRowStore_resetDue] <;> split <;> simp [*]
@[simp] theorem advanceRow_urgent (pl : Plane) (f : Flight) (l : List Placement) :
    (advanceRow pl f l s).urgent = s.urgent := by induction l <;> simp only [advanceRow, handRowStore_urgent] <;> split <;> simp [*]
@[simp] theorem advanceRow_path (pl : Plane) (f : Flight) (l : List Placement) :
    (advanceRow pl f l s).path = s.path := by induction l <;> simp only [advanceRow, handRowStore_path] <;> split <;> simp [*]
@[simp] theorem advanceRow_share (pl : Plane) (f : Flight) (l : List Placement) :
    (advanceRow pl f l s).share = s.share := by induction l <;> simp only [advanceRow, handRowStore_share] <;> split <;> simp [*]
@[simp] theorem advanceRow_passover (pl : Plane) (f : Flight) (l : List Placement) :
    (advanceRow pl f l s).passover = s.passover := by induction l <;> simp only [advanceRow, handRowStore_passover] <;> split <;> simp [*]
@[simp] theorem advanceRow_mside (pl : Plane) (f : Flight) (l : List Placement) :
    (advanceRow pl f l s).mside = s.mside := by induction l <;> simp only [advanceRow, handRowStore_mside] <;> split <;> simp [*]
@[simp] theorem advanceRow_cside (pl : Plane) (f : Flight) (l : List Placement) :
    (advanceRow pl f l s).cside = s.cside := by induction l <;> simp only [advanceRow, handRowStore_cside] <;> split <;> simp [*]
@[simp] theorem advanceRow_engine (pl : Plane) (f : Flight) (l : List Placement) :
    (advanceRow pl f l s).engine = s.engine := by induction l <;> simp only [advanceRow, handRowStore_engine] <;> split <;> simp [*]
@[simp] theorem advanceRow_latch (pl : Plane) (f : Flight) (l : List Placement) :
    (advanceRow pl f l s).latch = s.latch := by induction l <;> simp only [advanceRow, handRowStore_latch] <;> split <;> simp [*]
@[simp] theorem advanceRow_frames (pl : Plane) (f : Flight) (l : List Placement) :
    (advanceRow pl f l s).frames = s.frames := by induction l <;> simp only [advanceRow, handRowStore_frames] <;> split <;> simp [*]
@[simp] theorem advanceRow_intake (pl : Plane) (f : Flight) (l : List Placement) :
    (advanceRow pl f l s).intake = s.intake := by induction l <;> simp only [advanceRow, handRowStore_intake] <;> split <;> simp [*]
@[simp] theorem advanceRow_objects (pl : Plane) (f : Flight) (l : List Placement) :
    (advanceRow pl f l s).objects = s.objects := by induction l <;> simp only [advanceRow, handRowStore_objects] <;> split <;> simp [*]
@[simp] theorem advanceRow_colours (pl : Plane) (f : Flight) (l : List Placement) :
    (advanceRow pl f l s).colours = s.colours := by induction l <;> simp only [advanceRow, handRowStore_colours] <;> split <;> simp [*]
@[simp] theorem advanceRow_list (pl : Plane) (f : Flight) (l : List Placement) :
    (advanceRow pl f l s).list = s.list := by induction l <;> simp only [advanceRow, handRowStore_list] <;> split <;> simp [*]
@[simp] theorem advanceRow_buttons (pl : Plane) (f : Flight) (l : List Placement) :
    (advanceRow pl f l s).buttons = s.buttons := by induction l <;> simp only [advanceRow, handRowStore_buttons] <;> split <;> simp [*]
@[simp] theorem advanceRow_tiles (pl : Plane) (f : Flight) (l : List Placement) :
    (advanceRow pl f l s).tiles = s.tiles := by induction l <;> simp only [advanceRow, handRowStore_tiles] <;> split <;> simp [*]
@[simp] theorem advanceRow_page (pl : Plane) (f : Flight) (l : List Placement) :
    (advanceRow pl f l s).page = s.page := by induction l <;> simp only [advanceRow, handRowStore_page] <;> split <;> simp [*]
@[simp] theorem advanceRow_reports (pl : Plane) (f : Flight) (l : List Placement) :
    (advanceRow pl f l s).reports = s.reports := by induction l <;> simp only [advanceRow, handRowStore_reports] <;> split <;> simp [*]

@[simp] theorem beginRow_pending (pl : Plane) (page : Page) (tile : Nat) (r : Nat) :
    (beginRow pl page tile r s).pending = s.pending := by simp [beginRow]
@[simp] theorem beginRow_resetLine (pl : Plane) (page : Page) (tile : Nat) (r : Nat) :
    (beginRow pl page tile r s).resetLine = s.resetLine := by simp [beginRow]
@[simp] theorem beginRow_resetDue (pl : Plane) (page : Page) (tile : Nat) (r : Nat) :
    (beginRow pl page tile r s).resetDue = s.resetDue := by simp [beginRow]
@[simp] theorem beginRow_urgent (pl : Plane) (page : Page) (tile : Nat) (r : Nat) :
    (beginRow pl page tile r s).urgent = s.urgent := by simp [beginRow]
@[simp] theorem beginRow_path (pl : Plane) (page : Page) (tile : Nat) (r : Nat) :
    (beginRow pl page tile r s).path = s.path := by simp [beginRow]
@[simp] theorem beginRow_share (pl : Plane) (page : Page) (tile : Nat) (r : Nat) :
    (beginRow pl page tile r s).share = s.share := by simp [beginRow]
@[simp] theorem beginRow_passover (pl : Plane) (page : Page) (tile : Nat) (r : Nat) :
    (beginRow pl page tile r s).passover = s.passover := by simp [beginRow]
@[simp] theorem beginRow_mside (pl : Plane) (page : Page) (tile : Nat) (r : Nat) :
    (beginRow pl page tile r s).mside = s.mside := by simp [beginRow]
@[simp] theorem beginRow_cside (pl : Plane) (page : Page) (tile : Nat) (r : Nat) :
    (beginRow pl page tile r s).cside = s.cside := by simp [beginRow]
@[simp] theorem beginRow_engine (pl : Plane) (page : Page) (tile : Nat) (r : Nat) :
    (beginRow pl page tile r s).engine = s.engine := by simp [beginRow]
@[simp] theorem beginRow_latch (pl : Plane) (page : Page) (tile : Nat) (r : Nat) :
    (beginRow pl page tile r s).latch = s.latch := by simp [beginRow]
@[simp] theorem beginRow_frames (pl : Plane) (page : Page) (tile : Nat) (r : Nat) :
    (beginRow pl page tile r s).frames = s.frames := by simp [beginRow]
@[simp] theorem beginRow_intake (pl : Plane) (page : Page) (tile : Nat) (r : Nat) :
    (beginRow pl page tile r s).intake = s.intake := by simp [beginRow]
@[simp] theorem beginRow_objects (pl : Plane) (page : Page) (tile : Nat) (r : Nat) :
    (beginRow pl page tile r s).objects = s.objects := by simp [beginRow]
@[simp] theorem beginRow_colours (pl : Plane) (page : Page) (tile : Nat) (r : Nat) :
    (beginRow pl page tile r s).colours = s.colours := by simp [beginRow]
@[simp] theorem beginRow_list (pl : Plane) (page : Page) (tile : Nat) (r : Nat) :
    (beginRow pl page tile r s).list = s.list := by simp [beginRow]
@[simp] theorem beginRow_buttons (pl : Plane) (page : Page) (tile : Nat) (r : Nat) :
    (beginRow pl page tile r s).buttons = s.buttons := by simp [beginRow]
@[simp] theorem beginRow_tiles (pl : Plane) (page : Page) (tile : Nat) (r : Nat) :
    (beginRow pl page tile r s).tiles = s.tiles := by simp [beginRow]
@[simp] theorem beginRow_page (pl : Plane) (page : Page) (tile : Nat) (r : Nat) :
    (beginRow pl page tile r s).page = s.page := by simp [beginRow]
@[simp] theorem beginRow_reports (pl : Plane) (page : Page) (tile : Nat) (r : Nat) :
    (beginRow pl page tile r s).reports = s.reports := by simp [beginRow]

@[simp] theorem takeTile_pending :
    (takeTile s).pending = s.pending := by unfold takeTile; (repeat' split) <;> simp
@[simp] theorem takeTile_resetLine :
    (takeTile s).resetLine = s.resetLine := by unfold takeTile; (repeat' split) <;> simp
@[simp] theorem takeTile_resetDue :
    (takeTile s).resetDue = s.resetDue := by unfold takeTile; (repeat' split) <;> simp
@[simp] theorem takeTile_urgent :
    (takeTile s).urgent = s.urgent := by unfold takeTile; (repeat' split) <;> simp
@[simp] theorem takeTile_path :
    (takeTile s).path = s.path := by unfold takeTile; (repeat' split) <;> simp
@[simp] theorem takeTile_share :
    (takeTile s).share = s.share := by unfold takeTile; (repeat' split) <;> simp
@[simp] theorem takeTile_passover :
    (takeTile s).passover = s.passover := by unfold takeTile; (repeat' split) <;> simp
@[simp] theorem takeTile_mside :
    (takeTile s).mside = s.mside := by unfold takeTile; (repeat' split) <;> simp
@[simp] theorem takeTile_cside :
    (takeTile s).cside = s.cside := by unfold takeTile; (repeat' split) <;> simp
@[simp] theorem takeTile_engine :
    (takeTile s).engine = s.engine := by unfold takeTile; (repeat' split) <;> simp
@[simp] theorem takeTile_latch :
    (takeTile s).latch = s.latch := by unfold takeTile; (repeat' split) <;> simp
@[simp] theorem takeTile_frames :
    (takeTile s).frames = s.frames := by unfold takeTile; (repeat' split) <;> simp
@[simp] theorem takeTile_intake :
    (takeTile s).intake = s.intake := by unfold takeTile; (repeat' split) <;> simp
@[simp] theorem takeTile_objects :
    (takeTile s).objects = s.objects := by unfold takeTile; (repeat' split) <;> simp
@[simp] theorem takeTile_colours :
    (takeTile s).colours = s.colours := by unfold takeTile; (repeat' split) <;> simp
@[simp] theorem takeTile_list :
    (takeTile s).list = s.list := by unfold takeTile; (repeat' split) <;> simp
@[simp] theorem takeTile_buttons :
    (takeTile s).buttons = s.buttons := by unfold takeTile; (repeat' split) <;> simp
@[simp] theorem takeTile_page :
    (takeTile s).page = s.page := by unfold takeTile; (repeat' split) <;> simp
@[simp] theorem takeTile_reports :
    (takeTile s).reports = s.reports := by unfold takeTile; (repeat' split) <;> simp

@[simp] theorem objectFault_pending (id : Fin Config.objectCount) (c : ObjCause) :
    (objectFault id c s).pending = s.pending := by unfold objectFault; (repeat' split) <;> simp
@[simp] theorem objectFault_resetLine (id : Fin Config.objectCount) (c : ObjCause) :
    (objectFault id c s).resetLine = s.resetLine := by unfold objectFault; (repeat' split) <;> simp
@[simp] theorem objectFault_resetDue (id : Fin Config.objectCount) (c : ObjCause) :
    (objectFault id c s).resetDue = s.resetDue := by unfold objectFault; (repeat' split) <;> simp
@[simp] theorem objectFault_urgent (id : Fin Config.objectCount) (c : ObjCause) :
    (objectFault id c s).urgent = s.urgent := by unfold objectFault; (repeat' split) <;> simp
@[simp] theorem objectFault_path (id : Fin Config.objectCount) (c : ObjCause) :
    (objectFault id c s).path = s.path := by unfold objectFault; (repeat' split) <;> simp
@[simp] theorem objectFault_share (id : Fin Config.objectCount) (c : ObjCause) :
    (objectFault id c s).share = s.share := by unfold objectFault; (repeat' split) <;> simp
@[simp] theorem objectFault_passover (id : Fin Config.objectCount) (c : ObjCause) :
    (objectFault id c s).passover = s.passover := by unfold objectFault; (repeat' split) <;> simp
@[simp] theorem objectFault_mside (id : Fin Config.objectCount) (c : ObjCause) :
    (objectFault id c s).mside = s.mside := by unfold objectFault; (repeat' split) <;> simp
@[simp] theorem objectFault_cside (id : Fin Config.objectCount) (c : ObjCause) :
    (objectFault id c s).cside = s.cside := by unfold objectFault; (repeat' split) <;> simp
@[simp] theorem objectFault_engine (id : Fin Config.objectCount) (c : ObjCause) :
    (objectFault id c s).engine = s.engine := by unfold objectFault; (repeat' split) <;> simp
@[simp] theorem objectFault_latch (id : Fin Config.objectCount) (c : ObjCause) :
    (objectFault id c s).latch = s.latch := by unfold objectFault; (repeat' split) <;> simp
@[simp] theorem objectFault_frames (id : Fin Config.objectCount) (c : ObjCause) :
    (objectFault id c s).frames = s.frames := by unfold objectFault; (repeat' split) <;> simp
@[simp] theorem objectFault_intake (id : Fin Config.objectCount) (c : ObjCause) :
    (objectFault id c s).intake = s.intake := by unfold objectFault; (repeat' split) <;> simp
@[simp] theorem objectFault_colours (id : Fin Config.objectCount) (c : ObjCause) :
    (objectFault id c s).colours = s.colours := by unfold objectFault; (repeat' split) <;> simp
@[simp] theorem objectFault_list (id : Fin Config.objectCount) (c : ObjCause) :
    (objectFault id c s).list = s.list := by unfold objectFault; (repeat' split) <;> simp
@[simp] theorem objectFault_buttons (id : Fin Config.objectCount) (c : ObjCause) :
    (objectFault id c s).buttons = s.buttons := by unfold objectFault; (repeat' split) <;> simp
@[simp] theorem objectFault_render (id : Fin Config.objectCount) (c : ObjCause) :
    (objectFault id c s).render = s.render := by unfold objectFault; (repeat' split) <;> simp
@[simp] theorem objectFault_page (id : Fin Config.objectCount) (c : ObjCause) :
    (objectFault id c s).page = s.page := by unfold objectFault; (repeat' split) <;> simp

@[simp] theorem endAppWhere_pending (which : App → Bool) :
    (endAppWhere which s).pending = s.pending := by unfold endAppWhere; (repeat' split) <;> simp
@[simp] theorem endAppWhere_resetLine (which : App → Bool) :
    (endAppWhere which s).resetLine = s.resetLine := by unfold endAppWhere; (repeat' split) <;> simp
@[simp] theorem endAppWhere_resetDue (which : App → Bool) :
    (endAppWhere which s).resetDue = s.resetDue := by unfold endAppWhere; (repeat' split) <;> simp
@[simp] theorem endAppWhere_urgent (which : App → Bool) :
    (endAppWhere which s).urgent = s.urgent := by unfold endAppWhere; (repeat' split) <;> simp
@[simp] theorem endAppWhere_path (which : App → Bool) :
    (endAppWhere which s).path = s.path := by unfold endAppWhere; (repeat' split) <;> simp
@[simp] theorem endAppWhere_share (which : App → Bool) :
    (endAppWhere which s).share = s.share := by unfold endAppWhere; (repeat' split) <;> simp
@[simp] theorem endAppWhere_passover (which : App → Bool) :
    (endAppWhere which s).passover = s.passover := by unfold endAppWhere; (repeat' split) <;> simp
@[simp] theorem endAppWhere_mside (which : App → Bool) :
    (endAppWhere which s).mside = s.mside := by unfold endAppWhere; (repeat' split) <;> simp
@[simp] theorem endAppWhere_cside (which : App → Bool) :
    (endAppWhere which s).cside = s.cside := by unfold endAppWhere; (repeat' split) <;> simp
@[simp] theorem endAppWhere_waiting (which : App → Bool) :
    (endAppWhere which s).waiting = s.waiting := by unfold endAppWhere; (repeat' split) <;> simp
@[simp] theorem endAppWhere_engine (which : App → Bool) :
    (endAppWhere which s).engine = s.engine := by unfold endAppWhere; (repeat' split) <;> simp
@[simp] theorem endAppWhere_latch (which : App → Bool) :
    (endAppWhere which s).latch = s.latch := by unfold endAppWhere; (repeat' split) <;> simp
@[simp] theorem endAppWhere_frames (which : App → Bool) :
    (endAppWhere which s).frames = s.frames := by unfold endAppWhere; (repeat' split) <;> simp
@[simp] theorem endAppWhere_intake (which : App → Bool) :
    (endAppWhere which s).intake = s.intake := by unfold endAppWhere; (repeat' split) <;> simp
@[simp] theorem endAppWhere_objects (which : App → Bool) :
    (endAppWhere which s).objects = s.objects := by unfold endAppWhere; (repeat' split) <;> simp
@[simp] theorem endAppWhere_colours (which : App → Bool) :
    (endAppWhere which s).colours = s.colours := by unfold endAppWhere; (repeat' split) <;> simp
@[simp] theorem endAppWhere_list (which : App → Bool) :
    (endAppWhere which s).list = s.list := by unfold endAppWhere; (repeat' split) <;> simp
@[simp] theorem endAppWhere_buttons (which : App → Bool) :
    (endAppWhere which s).buttons = s.buttons := by unfold endAppWhere; (repeat' split) <;> simp
@[simp] theorem endAppWhere_tiles (which : App → Bool) :
    (endAppWhere which s).tiles = s.tiles := by unfold endAppWhere; (repeat' split) <;> simp
@[simp] theorem endAppWhere_page (which : App → Bool) :
    (endAppWhere which s).page = s.page := by unfold endAppWhere; (repeat' split) <;> simp
@[simp] theorem endAppWhere_reports (which : App → Bool) :
    (endAppWhere which s).reports = s.reports := by unfold endAppWhere; (repeat' split) <;> simp

end Sys2Proof.Machine
end

