-- ==== Sys2Proof/Laws/PathFrames.lean ====
section
/-! SUPPORT. What each operation of the frame bus path leaves unchanged. -/
namespace Sys2Proof.Machine
set_option Elab.async false
open Sys2Proof
variable (s : State)

@[simp] theorem carry_pending (r : BusReq) (treat : Treatment) (m : BusReq) :
    (carry r treat m s).pending = s.pending := by unfold carry; (repeat' split) <;> simp
@[simp] theorem carry_resetLine (r : BusReq) (treat : Treatment) (m : BusReq) :
    (carry r treat m s).resetLine = s.resetLine := by unfold carry; (repeat' split) <;> simp
@[simp] theorem carry_resetDue (r : BusReq) (treat : Treatment) (m : BusReq) :
    (carry r treat m s).resetDue = s.resetDue := by unfold carry; (repeat' split) <;> simp
@[simp] theorem carry_urgent (r : BusReq) (treat : Treatment) (m : BusReq) :
    (carry r treat m s).urgent = s.urgent := by unfold carry; (repeat' split) <;> simp
@[simp] theorem carry_path (r : BusReq) (treat : Treatment) (m : BusReq) :
    (carry r treat m s).path = s.path := by unfold carry; (repeat' split) <;> simp
@[simp] theorem carry_share (r : BusReq) (treat : Treatment) (m : BusReq) :
    (carry r treat m s).share = s.share := by unfold carry; (repeat' split) <;> simp
@[simp] theorem carry_passover (r : BusReq) (treat : Treatment) (m : BusReq) :
    (carry r treat m s).passover = s.passover := by unfold carry; (repeat' split) <;> simp
@[simp] theorem carry_waiting (r : BusReq) (treat : Treatment) (m : BusReq) :
    (carry r treat m s).waiting = s.waiting := by unfold carry; (repeat' split) <;> simp
@[simp] theorem carry_engine (r : BusReq) (treat : Treatment) (m : BusReq) :
    (carry r treat m s).engine = s.engine := by unfold carry; (repeat' split) <;> simp
@[simp] theorem carry_latch (r : BusReq) (treat : Treatment) (m : BusReq) :
    (carry r treat m s).latch = s.latch := by unfold carry; (repeat' split) <;> simp
@[simp] theorem carry_frames (r : BusReq) (treat : Treatment) (m : BusReq) :
    (carry r treat m s).frames = s.frames := by unfold carry; (repeat' split) <;> simp
@[simp] theorem carry_intake (r : BusReq) (treat : Treatment) (m : BusReq) :
    (carry r treat m s).intake = s.intake := by unfold carry; (repeat' split) <;> simp
@[simp] theorem carry_objects (r : BusReq) (treat : Treatment) (m : BusReq) :
    (carry r treat m s).objects = s.objects := by unfold carry; (repeat' split) <;> simp
@[simp] theorem carry_colours (r : BusReq) (treat : Treatment) (m : BusReq) :
    (carry r treat m s).colours = s.colours := by unfold carry; (repeat' split) <;> simp
@[simp] theorem carry_list (r : BusReq) (treat : Treatment) (m : BusReq) :
    (carry r treat m s).list = s.list := by unfold carry; (repeat' split) <;> simp
@[simp] theorem carry_buttons (r : BusReq) (treat : Treatment) (m : BusReq) :
    (carry r treat m s).buttons = s.buttons := by unfold carry; (repeat' split) <;> simp
@[simp] theorem carry_tiles (r : BusReq) (treat : Treatment) (m : BusReq) :
    (carry r treat m s).tiles = s.tiles := by unfold carry; (repeat' split) <;> simp
@[simp] theorem carry_render (r : BusReq) (treat : Treatment) (m : BusReq) :
    (carry r treat m s).render = s.render := by unfold carry; (repeat' split) <;> simp
@[simp] theorem carry_page (r : BusReq) (treat : Treatment) (m : BusReq) :
    (carry r treat m s).page = s.page := by unfold carry; (repeat' split) <;> simp
@[simp] theorem carry_reports (r : BusReq) (treat : Treatment) (m : BusReq) :
    (carry r treat m s).reports = s.reports := by unfold carry; (repeat' split) <;> simp

@[simp] theorem accept_pending (r : BusReq) :
    (accept r s).pending = s.pending := by unfold accept; (repeat' split) <;> simp
@[simp] theorem accept_resetLine (r : BusReq) :
    (accept r s).resetLine = s.resetLine := by unfold accept; (repeat' split) <;> simp
@[simp] theorem accept_resetDue (r : BusReq) :
    (accept r s).resetDue = s.resetDue := by unfold accept; (repeat' split) <;> simp
@[simp] theorem accept_urgent (r : BusReq) :
    (accept r s).urgent = s.urgent := by unfold accept; (repeat' split) <;> simp
@[simp] theorem accept_path (r : BusReq) :
    (accept r s).path = s.path := by unfold accept; (repeat' split) <;> simp
@[simp] theorem accept_share (r : BusReq) :
    (accept r s).share = s.share := by unfold accept; (repeat' split) <;> simp
@[simp] theorem accept_passover (r : BusReq) :
    (accept r s).passover = s.passover := by unfold accept; (repeat' split) <;> simp
@[simp] theorem accept_waiting (r : BusReq) :
    (accept r s).waiting = s.waiting := by unfold accept; (repeat' split) <;> simp
@[simp] theorem accept_engine (r : BusReq) :
    (accept r s).engine = s.engine := by unfold accept; (repeat' split) <;> simp
@[simp] theorem accept_latch (r : BusReq) :
    (accept r s).latch = s.latch := by unfold accept; (repeat' split) <;> simp
@[simp] theorem accept_frames (r : BusReq) :
    (accept r s).frames = s.frames := by unfold accept; (repeat' split) <;> simp
@[simp] theorem accept_intake (r : BusReq) :
    (accept r s).intake = s.intake := by unfold accept; (repeat' split) <;> simp
@[simp] theorem accept_objects (r : BusReq) :
    (accept r s).objects = s.objects := by unfold accept; (repeat' split) <;> simp
@[simp] theorem accept_colours (r : BusReq) :
    (accept r s).colours = s.colours := by unfold accept; (repeat' split) <;> simp
@[simp] theorem accept_list (r : BusReq) :
    (accept r s).list = s.list := by unfold accept; (repeat' split) <;> simp
@[simp] theorem accept_buttons (r : BusReq) :
    (accept r s).buttons = s.buttons := by unfold accept; (repeat' split) <;> simp
@[simp] theorem accept_tiles (r : BusReq) :
    (accept r s).tiles = s.tiles := by unfold accept; (repeat' split) <;> simp
@[simp] theorem accept_render (r : BusReq) :
    (accept r s).render = s.render := by unfold accept; (repeat' split) <;> simp
@[simp] theorem accept_page (r : BusReq) :
    (accept r s).page = s.page := by unfold accept; (repeat' split) <;> simp
@[simp] theorem accept_reports (r : BusReq) :
    (accept r s).reports = s.reports := by unfold accept; (repeat' split) <;> simp

@[simp] theorem grantOwn_pending (r : OwnReq) (left : OwnWaiting) :
    (grantOwn r left s).pending = s.pending := by unfold grantOwn; (repeat' split) <;> simp
@[simp] theorem grantOwn_resetLine (r : OwnReq) (left : OwnWaiting) :
    (grantOwn r left s).resetLine = s.resetLine := by unfold grantOwn; (repeat' split) <;> simp
@[simp] theorem grantOwn_resetDue (r : OwnReq) (left : OwnWaiting) :
    (grantOwn r left s).resetDue = s.resetDue := by unfold grantOwn; (repeat' split) <;> simp
@[simp] theorem grantOwn_urgent (r : OwnReq) (left : OwnWaiting) :
    (grantOwn r left s).urgent = s.urgent := by unfold grantOwn; (repeat' split) <;> simp
@[simp] theorem grantOwn_path (r : OwnReq) (left : OwnWaiting) :
    (grantOwn r left s).path = s.path := by unfold grantOwn; (repeat' split) <;> simp
@[simp] theorem grantOwn_share (r : OwnReq) (left : OwnWaiting) :
    (grantOwn r left s).share = s.share := by unfold grantOwn; (repeat' split) <;> simp
@[simp] theorem grantOwn_cside (r : OwnReq) (left : OwnWaiting) :
    (grantOwn r left s).cside = s.cside := by unfold grantOwn; (repeat' split) <;> simp
@[simp] theorem grantOwn_engine (r : OwnReq) (left : OwnWaiting) :
    (grantOwn r left s).engine = s.engine := by unfold grantOwn; (repeat' split) <;> simp
@[simp] theorem grantOwn_latch (r : OwnReq) (left : OwnWaiting) :
    (grantOwn r left s).latch = s.latch := by unfold grantOwn; (repeat' split) <;> simp
@[simp] theorem grantOwn_frames (r : OwnReq) (left : OwnWaiting) :
    (grantOwn r left s).frames = s.frames := by unfold grantOwn; (repeat' split) <;> simp
@[simp] theorem grantOwn_intake (r : OwnReq) (left : OwnWaiting) :
    (grantOwn r left s).intake = s.intake := by unfold grantOwn; (repeat' split) <;> simp
@[simp] theorem grantOwn_objects (r : OwnReq) (left : OwnWaiting) :
    (grantOwn r left s).objects = s.objects := by unfold grantOwn; (repeat' split) <;> simp
@[simp] theorem grantOwn_colours (r : OwnReq) (left : OwnWaiting) :
    (grantOwn r left s).colours = s.colours := by unfold grantOwn; (repeat' split) <;> simp
@[simp] theorem grantOwn_list (r : OwnReq) (left : OwnWaiting) :
    (grantOwn r left s).list = s.list := by unfold grantOwn; (repeat' split) <;> simp
@[simp] theorem grantOwn_buttons (r : OwnReq) (left : OwnWaiting) :
    (grantOwn r left s).buttons = s.buttons := by unfold grantOwn; (repeat' split) <;> simp
@[simp] theorem grantOwn_tiles (r : OwnReq) (left : OwnWaiting) :
    (grantOwn r left s).tiles = s.tiles := by unfold grantOwn; (repeat' split) <;> simp
@[simp] theorem grantOwn_render (r : OwnReq) (left : OwnWaiting) :
    (grantOwn r left s).render = s.render := by unfold grantOwn; (repeat' split) <;> simp
@[simp] theorem grantOwn_page (r : OwnReq) (left : OwnWaiting) :
    (grantOwn r left s).page = s.page := by unfold grantOwn; (repeat' split) <;> simp
@[simp] theorem grantOwn_reports (r : OwnReq) (left : OwnWaiting) :
    (grantOwn r left s).reports = s.reports := by unfold grantOwn; (repeat' split) <;> simp

@[simp] theorem grant_pending :
    (grant s).pending = s.pending := by unfold grant; (repeat' split) <;> simp
@[simp] theorem grant_resetLine :
    (grant s).resetLine = s.resetLine := by unfold grant; (repeat' split) <;> simp
@[simp] theorem grant_resetDue :
    (grant s).resetDue = s.resetDue := by unfold grant; (repeat' split) <;> simp
@[simp] theorem grant_urgent :
    (grant s).urgent = s.urgent := by unfold grant; (repeat' split) <;> simp
@[simp] theorem grant_path :
    (grant s).path = s.path := by unfold grant; (repeat' split) <;> simp
@[simp] theorem grant_share :
    (grant s).share = s.share := by unfold grant; (repeat' split) <;> simp
@[simp] theorem grant_engine :
    (grant s).engine = s.engine := by unfold grant; (repeat' split) <;> simp
@[simp] theorem grant_latch :
    (grant s).latch = s.latch := by unfold grant; (repeat' split) <;> simp
@[simp] theorem grant_frames :
    (grant s).frames = s.frames := by unfold grant; (repeat' split) <;> simp
@[simp] theorem grant_intake :
    (grant s).intake = s.intake := by unfold grant; (repeat' split) <;> simp
@[simp] theorem grant_objects :
    (grant s).objects = s.objects := by unfold grant; (repeat' split) <;> simp
@[simp] theorem grant_colours :
    (grant s).colours = s.colours := by unfold grant; (repeat' split) <;> simp
@[simp] theorem grant_list :
    (grant s).list = s.list := by unfold grant; (repeat' split) <;> simp
@[simp] theorem grant_buttons :
    (grant s).buttons = s.buttons := by unfold grant; (repeat' split) <;> simp
@[simp] theorem grant_tiles :
    (grant s).tiles = s.tiles := by unfold grant; (repeat' split) <;> simp
@[simp] theorem grant_render :
    (grant s).render = s.render := by unfold grant; (repeat' split) <;> simp
@[simp] theorem grant_page :
    (grant s).page = s.page := by unfold grant; (repeat' split) <;> simp
@[simp] theorem grant_reports :
    (grant s).reports = s.reports := by unfold grant; (repeat' split) <;> simp

@[simp] theorem finish_pending :
    (finish s).pending = s.pending := by simp [finish]
@[simp] theorem finish_resetLine :
    (finish s).resetLine = s.resetLine := by simp [finish]
@[simp] theorem finish_resetDue :
    (finish s).resetDue = s.resetDue := by simp [finish]
@[simp] theorem finish_urgent :
    (finish s).urgent = s.urgent := by simp [finish]
@[simp] theorem finish_path :
    (finish s).path = s.path := by simp [finish]
@[simp] theorem finish_share :
    (finish s).share = s.share := by simp [finish]
@[simp] theorem finish_engine :
    (finish s).engine = s.engine := by simp [finish]
@[simp] theorem finish_latch :
    (finish s).latch = s.latch := by simp [finish]
@[simp] theorem finish_frames :
    (finish s).frames = s.frames := by simp [finish]
@[simp] theorem finish_intake :
    (finish s).intake = s.intake := by simp [finish]
@[simp] theorem finish_objects :
    (finish s).objects = s.objects := by simp [finish]
@[simp] theorem finish_colours :
    (finish s).colours = s.colours := by simp [finish]
@[simp] theorem finish_list :
    (finish s).list = s.list := by simp [finish]
@[simp] theorem finish_buttons :
    (finish s).buttons = s.buttons := by simp [finish]
@[simp] theorem finish_page :
    (finish s).page = s.page := by simp [finish]
@[simp] theorem finish_reports :
    (finish s).reports = s.reports := by simp [finish]

@[simp] theorem enterService_pending :
    (enterService s).pending = s.pending := by unfold enterService; (repeat' split) <;> simp
@[simp] theorem enterService_resetLine :
    (enterService s).resetLine = s.resetLine := by unfold enterService; (repeat' split) <;> simp
@[simp] theorem enterService_resetDue :
    (enterService s).resetDue = s.resetDue := by unfold enterService; (repeat' split) <;> simp
@[simp] theorem enterService_urgent :
    (enterService s).urgent = s.urgent := by unfold enterService; (repeat' split) <;> simp
@[simp] theorem enterService_mside :
    (enterService s).mside = s.mside := by unfold enterService; (repeat' split) <;> simp
@[simp] theorem enterService_cside :
    (enterService s).cside = s.cside := by unfold enterService; (repeat' split) <;> simp
@[simp] theorem enterService_waiting :
    (enterService s).waiting = s.waiting := by unfold enterService; (repeat' split) <;> simp
@[simp] theorem enterService_frames :
    (enterService s).frames = s.frames := by unfold enterService; (repeat' split) <;> simp
@[simp] theorem enterService_intake :
    (enterService s).intake = s.intake := by unfold enterService; (repeat' split) <;> simp
@[simp] theorem enterService_objects :
    (enterService s).objects = s.objects := by unfold enterService; (repeat' split) <;> simp
@[simp] theorem enterService_colours :
    (enterService s).colours = s.colours := by unfold enterService; (repeat' split) <;> simp
@[simp] theorem enterService_list :
    (enterService s).list = s.list := by unfold enterService; (repeat' split) <;> simp
@[simp] theorem enterService_buttons :
    (enterService s).buttons = s.buttons := by unfold enterService; (repeat' split) <;> simp
@[simp] theorem enterService_tiles :
    (enterService s).tiles = s.tiles := by unfold enterService; (repeat' split) <;> simp
@[simp] theorem enterService_render :
    (enterService s).render = s.render := by unfold enterService; (repeat' split) <;> simp
@[simp] theorem enterService_page :
    (enterService s).page = s.page := by unfold enterService; (repeat' split) <;> simp
@[simp] theorem enterService_reports :
    (enterService s).reports = s.reports := by unfold enterService; (repeat' split) <;> simp

@[simp] theorem abandonAll_pending :
    (abandonAll s).pending = s.pending := by unfold abandonAll; (repeat' split) <;> simp
@[simp] theorem abandonAll_resetLine :
    (abandonAll s).resetLine = s.resetLine := by unfold abandonAll; (repeat' split) <;> simp
@[simp] theorem abandonAll_resetDue :
    (abandonAll s).resetDue = s.resetDue := by unfold abandonAll; (repeat' split) <;> simp
@[simp] theorem abandonAll_urgent :
    (abandonAll s).urgent = s.urgent := by unfold abandonAll; (repeat' split) <;> simp
@[simp] theorem abandonAll_share :
    (abandonAll s).share = s.share := by unfold abandonAll; (repeat' split) <;> simp
@[simp] theorem abandonAll_passover :
    (abandonAll s).passover = s.passover := by unfold abandonAll; (repeat' split) <;> simp
@[simp] theorem abandonAll_mside :
    (abandonAll s).mside = s.mside := by unfold abandonAll; (repeat' split) <;> simp
@[simp] theorem abandonAll_cside :
    (abandonAll s).cside = s.cside := by unfold abandonAll; (repeat' split) <;> simp
@[simp] theorem abandonAll_frames :
    (abandonAll s).frames = s.frames := by unfold abandonAll; (repeat' split) <;> simp
@[simp] theorem abandonAll_objects :
    (abandonAll s).objects = s.objects := by unfold abandonAll; (repeat' split) <;> simp
@[simp] theorem abandonAll_list :
    (abandonAll s).list = s.list := by unfold abandonAll; (repeat' split) <;> simp
@[simp] theorem abandonAll_buttons :
    (abandonAll s).buttons = s.buttons := by unfold abandonAll; (repeat' split) <;> simp

@[simp] theorem leaveBypass_pending :
    (leaveBypass s).pending = s.pending := by unfold leaveBypass; (repeat' split) <;> simp
@[simp] theorem leaveBypass_resetLine :
    (leaveBypass s).resetLine = s.resetLine := by unfold leaveBypass; (repeat' split) <;> simp
@[simp] theorem leaveBypass_resetDue :
    (leaveBypass s).resetDue = s.resetDue := by unfold leaveBypass; (repeat' split) <;> simp
@[simp] theorem leaveBypass_urgent :
    (leaveBypass s).urgent = s.urgent := by unfold leaveBypass; (repeat' split) <;> simp
@[simp] theorem leaveBypass_mside :
    (leaveBypass s).mside = s.mside := by unfold leaveBypass; (repeat' split) <;> simp
@[simp] theorem leaveBypass_cside :
    (leaveBypass s).cside = s.cside := by unfold leaveBypass; (repeat' split) <;> simp
@[simp] theorem leaveBypass_waiting :
    (leaveBypass s).waiting = s.waiting := by unfold leaveBypass; (repeat' split) <;> simp
@[simp] theorem leaveBypass_frames :
    (leaveBypass s).frames = s.frames := by unfold leaveBypass; (repeat' split) <;> simp
@[simp] theorem leaveBypass_intake :
    (leaveBypass s).intake = s.intake := by unfold leaveBypass; (repeat' split) <;> simp
@[simp] theorem leaveBypass_objects :
    (leaveBypass s).objects = s.objects := by unfold leaveBypass; (repeat' split) <;> simp
@[simp] theorem leaveBypass_colours :
    (leaveBypass s).colours = s.colours := by unfold leaveBypass; (repeat' split) <;> simp
@[simp] theorem leaveBypass_list :
    (leaveBypass s).list = s.list := by unfold leaveBypass; (repeat' split) <;> simp
@[simp] theorem leaveBypass_buttons :
    (leaveBypass s).buttons = s.buttons := by unfold leaveBypass; (repeat' split) <;> simp
@[simp] theorem leaveBypass_tiles :
    (leaveBypass s).tiles = s.tiles := by unfold leaveBypass; (repeat' split) <;> simp
@[simp] theorem leaveBypass_render :
    (leaveBypass s).render = s.render := by unfold leaveBypass; (repeat' split) <;> simp
@[simp] theorem leaveBypass_page :
    (leaveBypass s).page = s.page := by unfold leaveBypass; (repeat' split) <;> simp
@[simp] theorem leaveBypass_reports :
    (leaveBypass s).reports = s.reports := by unfold leaveBypass; (repeat' split) <;> simp

@[simp] theorem beginBypass_pending :
    (beginBypass s).pending = s.pending := by simp [beginBypass]
@[simp] theorem beginBypass_resetLine :
    (beginBypass s).resetLine = s.resetLine := by simp [beginBypass]
@[simp] theorem beginBypass_urgent :
    (beginBypass s).urgent = s.urgent := by simp [beginBypass]
@[simp] theorem beginBypass_frames :
    (beginBypass s).frames = s.frames := by simp [beginBypass]
@[simp] theorem beginBypass_objects :
    (beginBypass s).objects = s.objects := by simp [beginBypass]
@[simp] theorem beginBypass_list :
    (beginBypass s).list = s.list := by simp [beginBypass]
@[simp] theorem beginBypass_buttons :
    (beginBypass s).buttons = s.buttons := by simp [beginBypass]

end Sys2Proof.Machine
end

