-- ==== Sys2Proof/Laws/RecordFrames.lean ====
section
/-! SUPPORT. What the effect of each record leaves unchanged. -/
namespace Sys2Proof.Machine
set_option Elab.async false
open Sys2Proof
variable (s : State)

@[simp] theorem sceneReset_pending :
    (sceneReset s).pending = s.pending := by simp [sceneReset]
@[simp] theorem sceneReset_resetLine :
    (sceneReset s).resetLine = s.resetLine := by simp [sceneReset]
@[simp] theorem sceneReset_resetDue :
    (sceneReset s).resetDue = s.resetDue := by simp [sceneReset]
@[simp] theorem sceneReset_urgent :
    (sceneReset s).urgent = s.urgent := by simp [sceneReset]
@[simp] theorem sceneReset_path :
    (sceneReset s).path = s.path := by simp [sceneReset]
@[simp] theorem sceneReset_share :
    (sceneReset s).share = s.share := by simp [sceneReset]
@[simp] theorem sceneReset_passover :
    (sceneReset s).passover = s.passover := by simp [sceneReset]
@[simp] theorem sceneReset_mside :
    (sceneReset s).mside = s.mside := by simp [sceneReset]
@[simp] theorem sceneReset_cside :
    (sceneReset s).cside = s.cside := by simp [sceneReset]
@[simp] theorem sceneReset_waiting :
    (sceneReset s).waiting = s.waiting := by simp [sceneReset]
@[simp] theorem sceneReset_engine :
    (sceneReset s).engine = s.engine := by simp [sceneReset]
@[simp] theorem sceneReset_latch :
    (sceneReset s).latch = s.latch := by simp [sceneReset]
@[simp] theorem sceneReset_frames :
    (sceneReset s).frames = s.frames := by simp [sceneReset]
@[simp] theorem sceneReset_intake :
    (sceneReset s).intake = s.intake := by simp [sceneReset]
@[simp] theorem sceneReset_reports :
    (sceneReset s).reports = s.reports := by simp [sceneReset]

@[simp] theorem endTransition_pending :
    (endTransition s).pending = s.pending := by unfold endTransition; (repeat' split) <;> simp
@[simp] theorem endTransition_resetLine :
    (endTransition s).resetLine = s.resetLine := by unfold endTransition; (repeat' split) <;> simp
@[simp] theorem endTransition_resetDue :
    (endTransition s).resetDue = s.resetDue := by unfold endTransition; (repeat' split) <;> simp
@[simp] theorem endTransition_urgent :
    (endTransition s).urgent = s.urgent := by unfold endTransition; (repeat' split) <;> simp
@[simp] theorem endTransition_path :
    (endTransition s).path = s.path := by unfold endTransition; (repeat' split) <;> simp
@[simp] theorem endTransition_share :
    (endTransition s).share = s.share := by unfold endTransition; (repeat' split) <;> simp
@[simp] theorem endTransition_passover :
    (endTransition s).passover = s.passover := by unfold endTransition; (repeat' split) <;> simp
@[simp] theorem endTransition_mside :
    (endTransition s).mside = s.mside := by unfold endTransition; (repeat' split) <;> simp
@[simp] theorem endTransition_cside :
    (endTransition s).cside = s.cside := by unfold endTransition; (repeat' split) <;> simp
@[simp] theorem endTransition_engine :
    (endTransition s).engine = s.engine := by unfold endTransition; (repeat' split) <;> simp
@[simp] theorem endTransition_latch :
    (endTransition s).latch = s.latch := by unfold endTransition; (repeat' split) <;> simp
@[simp] theorem endTransition_frames :
    (endTransition s).frames = s.frames := by unfold endTransition; (repeat' split) <;> simp
@[simp] theorem endTransition_intake :
    (endTransition s).intake = s.intake := by unfold endTransition; (repeat' split) <;> simp
@[simp] theorem endTransition_objects :
    (endTransition s).objects = s.objects := by unfold endTransition; (repeat' split) <;> simp
@[simp] theorem endTransition_colours :
    (endTransition s).colours = s.colours := by unfold endTransition; (repeat' split) <;> simp
@[simp] theorem endTransition_list :
    (endTransition s).list = s.list := by unfold endTransition; (repeat' split) <;> simp
@[simp] theorem endTransition_buttons :
    (endTransition s).buttons = s.buttons := by unfold endTransition; (repeat' split) <;> simp
@[simp] theorem endTransition_tiles :
    (endTransition s).tiles = s.tiles := by unfold endTransition; (repeat' split) <;> simp
@[simp] theorem endTransition_render :
    (endTransition s).render = s.render := by unfold endTransition; (repeat' split) <;> simp

@[simp] theorem applyPlane_pending :
    (applyPlane s).pending = s.pending := by simp [applyPlane]
@[simp] theorem applyPlane_resetLine :
    (applyPlane s).resetLine = s.resetLine := by simp [applyPlane]
@[simp] theorem applyPlane_resetDue :
    (applyPlane s).resetDue = s.resetDue := by simp [applyPlane]
@[simp] theorem applyPlane_urgent :
    (applyPlane s).urgent = s.urgent := by simp [applyPlane]
@[simp] theorem applyPlane_path :
    (applyPlane s).path = s.path := by simp [applyPlane]
@[simp] theorem applyPlane_passover :
    (applyPlane s).passover = s.passover := by simp [applyPlane]
@[simp] theorem applyPlane_mside :
    (applyPlane s).mside = s.mside := by simp [applyPlane]
@[simp] theorem applyPlane_cside :
    (applyPlane s).cside = s.cside := by simp [applyPlane]
@[simp] theorem applyPlane_waiting :
    (applyPlane s).waiting = s.waiting := by simp [applyPlane]
@[simp] theorem applyPlane_engine :
    (applyPlane s).engine = s.engine := by simp [applyPlane]
@[simp] theorem applyPlane_latch :
    (applyPlane s).latch = s.latch := by simp [applyPlane]
@[simp] theorem applyPlane_frames :
    (applyPlane s).frames = s.frames := by simp [applyPlane]
@[simp] theorem applyPlane_intake :
    (applyPlane s).intake = s.intake := by simp [applyPlane]
@[simp] theorem applyPlane_objects :
    (applyPlane s).objects = s.objects := by simp [applyPlane]
@[simp] theorem applyPlane_colours :
    (applyPlane s).colours = s.colours := by simp [applyPlane]
@[simp] theorem applyPlane_list :
    (applyPlane s).list = s.list := by simp [applyPlane]
@[simp] theorem applyPlane_buttons :
    (applyPlane s).buttons = s.buttons := by simp [applyPlane]
@[simp] theorem applyPlane_reports :
    (applyPlane s).reports = s.reports := by simp [applyPlane]

@[simp] theorem markIndexed_pending (t : Fin Config.tableCount) :
    (markIndexed t s).pending = s.pending := by simp [markIndexed]
@[simp] theorem markIndexed_resetLine (t : Fin Config.tableCount) :
    (markIndexed t s).resetLine = s.resetLine := by simp [markIndexed]
@[simp] theorem markIndexed_resetDue (t : Fin Config.tableCount) :
    (markIndexed t s).resetDue = s.resetDue := by simp [markIndexed]
@[simp] theorem markIndexed_urgent (t : Fin Config.tableCount) :
    (markIndexed t s).urgent = s.urgent := by simp [markIndexed]
@[simp] theorem markIndexed_path (t : Fin Config.tableCount) :
    (markIndexed t s).path = s.path := by simp [markIndexed]
@[simp] theorem markIndexed_share (t : Fin Config.tableCount) :
    (markIndexed t s).share = s.share := by simp [markIndexed]
@[simp] theorem markIndexed_passover (t : Fin Config.tableCount) :
    (markIndexed t s).passover = s.passover := by simp [markIndexed]
@[simp] theorem markIndexed_mside (t : Fin Config.tableCount) :
    (markIndexed t s).mside = s.mside := by simp [markIndexed]
@[simp] theorem markIndexed_cside (t : Fin Config.tableCount) :
    (markIndexed t s).cside = s.cside := by simp [markIndexed]
@[simp] theorem markIndexed_waiting (t : Fin Config.tableCount) :
    (markIndexed t s).waiting = s.waiting := by simp [markIndexed]
@[simp] theorem markIndexed_engine (t : Fin Config.tableCount) :
    (markIndexed t s).engine = s.engine := by simp [markIndexed]
@[simp] theorem markIndexed_latch (t : Fin Config.tableCount) :
    (markIndexed t s).latch = s.latch := by simp [markIndexed]
@[simp] theorem markIndexed_frames (t : Fin Config.tableCount) :
    (markIndexed t s).frames = s.frames := by simp [markIndexed]
@[simp] theorem markIndexed_intake (t : Fin Config.tableCount) :
    (markIndexed t s).intake = s.intake := by simp [markIndexed]
@[simp] theorem markIndexed_objects (t : Fin Config.tableCount) :
    (markIndexed t s).objects = s.objects := by simp [markIndexed]
@[simp] theorem markIndexed_colours (t : Fin Config.tableCount) :
    (markIndexed t s).colours = s.colours := by simp [markIndexed]
@[simp] theorem markIndexed_list (t : Fin Config.tableCount) :
    (markIndexed t s).list = s.list := by simp [markIndexed]
@[simp] theorem markIndexed_buttons (t : Fin Config.tableCount) :
    (markIndexed t s).buttons = s.buttons := by simp [markIndexed]
@[simp] theorem markIndexed_render (t : Fin Config.tableCount) :
    (markIndexed t s).render = s.render := by simp [markIndexed]
@[simp] theorem markIndexed_page (t : Fin Config.tableCount) :
    (markIndexed t s).page = s.page := by simp [markIndexed]
@[simp] theorem markIndexed_reports (t : Fin Config.tableCount) :
    (markIndexed t s).reports = s.reports := by simp [markIndexed]

@[simp] theorem handLoad_pending (r : LineReq) :
    (handLoad r s).pending = s.pending := by simp [handLoad]
@[simp] theorem handLoad_resetLine (r : LineReq) :
    (handLoad r s).resetLine = s.resetLine := by simp [handLoad]
@[simp] theorem handLoad_resetDue (r : LineReq) :
    (handLoad r s).resetDue = s.resetDue := by simp [handLoad]
@[simp] theorem handLoad_urgent (r : LineReq) :
    (handLoad r s).urgent = s.urgent := by simp [handLoad]
@[simp] theorem handLoad_path (r : LineReq) :
    (handLoad r s).path = s.path := by simp [handLoad]
@[simp] theorem handLoad_share (r : LineReq) :
    (handLoad r s).share = s.share := by simp [handLoad]
@[simp] theorem handLoad_passover (r : LineReq) :
    (handLoad r s).passover = s.passover := by simp [handLoad]
@[simp] theorem handLoad_mside (r : LineReq) :
    (handLoad r s).mside = s.mside := by simp [handLoad]
@[simp] theorem handLoad_cside (r : LineReq) :
    (handLoad r s).cside = s.cside := by simp [handLoad]
@[simp] theorem handLoad_engine (r : LineReq) :
    (handLoad r s).engine = s.engine := by simp [handLoad]
@[simp] theorem handLoad_latch (r : LineReq) :
    (handLoad r s).latch = s.latch := by simp [handLoad]
@[simp] theorem handLoad_frames (r : LineReq) :
    (handLoad r s).frames = s.frames := by simp [handLoad]
@[simp] theorem handLoad_intake (r : LineReq) :
    (handLoad r s).intake = s.intake := by simp [handLoad]
@[simp] theorem handLoad_objects (r : LineReq) :
    (handLoad r s).objects = s.objects := by simp [handLoad]
@[simp] theorem handLoad_colours (r : LineReq) :
    (handLoad r s).colours = s.colours := by simp [handLoad]
@[simp] theorem handLoad_list (r : LineReq) :
    (handLoad r s).list = s.list := by simp [handLoad]
@[simp] theorem handLoad_buttons (r : LineReq) :
    (handLoad r s).buttons = s.buttons := by simp [handLoad]
@[simp] theorem handLoad_tiles (r : LineReq) :
    (handLoad r s).tiles = s.tiles := by simp [handLoad]
@[simp] theorem handLoad_render (r : LineReq) :
    (handLoad r s).render = s.render := by simp [handLoad]
@[simp] theorem handLoad_page (r : LineReq) :
    (handLoad r s).page = s.page := by simp [handLoad]
@[simp] theorem handLoad_reports (r : LineReq) :
    (handLoad r s).reports = s.reports := by simp [handLoad]

@[simp] theorem writeObject_pending (id : Fin Config.objectCount) (e : ObjEntry) :
    (writeObject id e s).pending = s.pending := by simp [writeObject]
@[simp] theorem writeObject_resetLine (id : Fin Config.objectCount) (e : ObjEntry) :
    (writeObject id e s).resetLine = s.resetLine := by simp [writeObject]
@[simp] theorem writeObject_resetDue (id : Fin Config.objectCount) (e : ObjEntry) :
    (writeObject id e s).resetDue = s.resetDue := by simp [writeObject]
@[simp] theorem writeObject_urgent (id : Fin Config.objectCount) (e : ObjEntry) :
    (writeObject id e s).urgent = s.urgent := by simp [writeObject]
@[simp] theorem writeObject_path (id : Fin Config.objectCount) (e : ObjEntry) :
    (writeObject id e s).path = s.path := by simp [writeObject]
@[simp] theorem writeObject_share (id : Fin Config.objectCount) (e : ObjEntry) :
    (writeObject id e s).share = s.share := by simp [writeObject]
@[simp] theorem writeObject_passover (id : Fin Config.objectCount) (e : ObjEntry) :
    (writeObject id e s).passover = s.passover := by simp [writeObject]
@[simp] theorem writeObject_mside (id : Fin Config.objectCount) (e : ObjEntry) :
    (writeObject id e s).mside = s.mside := by simp [writeObject]
@[simp] theorem writeObject_cside (id : Fin Config.objectCount) (e : ObjEntry) :
    (writeObject id e s).cside = s.cside := by simp [writeObject]
@[simp] theorem writeObject_waiting (id : Fin Config.objectCount) (e : ObjEntry) :
    (writeObject id e s).waiting = s.waiting := by simp [writeObject]
@[simp] theorem writeObject_engine (id : Fin Config.objectCount) (e : ObjEntry) :
    (writeObject id e s).engine = s.engine := by simp [writeObject]
@[simp] theorem writeObject_latch (id : Fin Config.objectCount) (e : ObjEntry) :
    (writeObject id e s).latch = s.latch := by simp [writeObject]
@[simp] theorem writeObject_frames (id : Fin Config.objectCount) (e : ObjEntry) :
    (writeObject id e s).frames = s.frames := by simp [writeObject]
@[simp] theorem writeObject_intake (id : Fin Config.objectCount) (e : ObjEntry) :
    (writeObject id e s).intake = s.intake := by simp [writeObject]
@[simp] theorem writeObject_colours (id : Fin Config.objectCount) (e : ObjEntry) :
    (writeObject id e s).colours = s.colours := by simp [writeObject]
@[simp] theorem writeObject_list (id : Fin Config.objectCount) (e : ObjEntry) :
    (writeObject id e s).list = s.list := by simp [writeObject]
@[simp] theorem writeObject_buttons (id : Fin Config.objectCount) (e : ObjEntry) :
    (writeObject id e s).buttons = s.buttons := by simp [writeObject]
@[simp] theorem writeObject_page (id : Fin Config.objectCount) (e : ObjEntry) :
    (writeObject id e s).page = s.page := by simp [writeObject]
@[simp] theorem writeObject_reports (id : Fin Config.objectCount) (e : ObjEntry) :
    (writeObject id e s).reports = s.reports := by simp [writeObject]

@[simp] theorem editList_pending (id : Fin Config.placementCount) (l : List Placement) :
    (editList id l s).pending = s.pending := by simp [editList]
@[simp] theorem editList_resetLine (id : Fin Config.placementCount) (l : List Placement) :
    (editList id l s).resetLine = s.resetLine := by simp [editList]
@[simp] theorem editList_resetDue (id : Fin Config.placementCount) (l : List Placement) :
    (editList id l s).resetDue = s.resetDue := by simp [editList]
@[simp] theorem editList_urgent (id : Fin Config.placementCount) (l : List Placement) :
    (editList id l s).urgent = s.urgent := by simp [editList]
@[simp] theorem editList_path (id : Fin Config.placementCount) (l : List Placement) :
    (editList id l s).path = s.path := by simp [editList]
@[simp] theorem editList_share (id : Fin Config.placementCount) (l : List Placement) :
    (editList id l s).share = s.share := by simp [editList]
@[simp] theorem editList_passover (id : Fin Config.placementCount) (l : List Placement) :
    (editList id l s).passover = s.passover := by simp [editList]
@[simp] theorem editList_mside (id : Fin Config.placementCount) (l : List Placement) :
    (editList id l s).mside = s.mside := by simp [editList]
@[simp] theorem editList_cside (id : Fin Config.placementCount) (l : List Placement) :
    (editList id l s).cside = s.cside := by simp [editList]
@[simp] theorem editList_waiting (id : Fin Config.placementCount) (l : List Placement) :
    (editList id l s).waiting = s.waiting := by simp [editList]
@[simp] theorem editList_engine (id : Fin Config.placementCount) (l : List Placement) :
    (editList id l s).engine = s.engine := by simp [editList]
@[simp] theorem editList_latch (id : Fin Config.placementCount) (l : List Placement) :
    (editList id l s).latch = s.latch := by simp [editList]
@[simp] theorem editList_frames (id : Fin Config.placementCount) (l : List Placement) :
    (editList id l s).frames = s.frames := by simp [editList]
@[simp] theorem editList_intake (id : Fin Config.placementCount) (l : List Placement) :
    (editList id l s).intake = s.intake := by simp [editList]
@[simp] theorem editList_objects (id : Fin Config.placementCount) (l : List Placement) :
    (editList id l s).objects = s.objects := by simp [editList]
@[simp] theorem editList_colours (id : Fin Config.placementCount) (l : List Placement) :
    (editList id l s).colours = s.colours := by simp [editList]
@[simp] theorem editList_buttons (id : Fin Config.placementCount) (l : List Placement) :
    (editList id l s).buttons = s.buttons := by simp [editList]
@[simp] theorem editList_render (id : Fin Config.placementCount) (l : List Placement) :
    (editList id l s).render = s.render := by simp [editList]
@[simp] theorem editList_page (id : Fin Config.placementCount) (l : List Placement) :
    (editList id l s).page = s.page := by simp [editList]
@[simp] theorem editList_reports (id : Fin Config.placementCount) (l : List Placement) :
    (editList id l s).reports = s.reports := by simp [editList]

@[simp] theorem editButtons_pending (b : Fin Config.buttonCount) (bt : ButtonTable) :
    (editButtons b bt s).pending = s.pending := by simp [editButtons]
@[simp] theorem editButtons_resetLine (b : Fin Config.buttonCount) (bt : ButtonTable) :
    (editButtons b bt s).resetLine = s.resetLine := by simp [editButtons]
@[simp] theorem editButtons_resetDue (b : Fin Config.buttonCount) (bt : ButtonTable) :
    (editButtons b bt s).resetDue = s.resetDue := by simp [editButtons]
@[simp] theorem editButtons_urgent (b : Fin Config.buttonCount) (bt : ButtonTable) :
    (editButtons b bt s).urgent = s.urgent := by simp [editButtons]
@[simp] theorem editButtons_path (b : Fin Config.buttonCount) (bt : ButtonTable) :
    (editButtons b bt s).path = s.path := by simp [editButtons]
@[simp] theorem editButtons_share (b : Fin Config.buttonCount) (bt : ButtonTable) :
    (editButtons b bt s).share = s.share := by simp [editButtons]
@[simp] theorem editButtons_passover (b : Fin Config.buttonCount) (bt : ButtonTable) :
    (editButtons b bt s).passover = s.passover := by simp [editButtons]
@[simp] theorem editButtons_mside (b : Fin Config.buttonCount) (bt : ButtonTable) :
    (editButtons b bt s).mside = s.mside := by simp [editButtons]
@[simp] theorem editButtons_cside (b : Fin Config.buttonCount) (bt : ButtonTable) :
    (editButtons b bt s).cside = s.cside := by simp [editButtons]
@[simp] theorem editButtons_waiting (b : Fin Config.buttonCount) (bt : ButtonTable) :
    (editButtons b bt s).waiting = s.waiting := by simp [editButtons]
@[simp] theorem editButtons_engine (b : Fin Config.buttonCount) (bt : ButtonTable) :
    (editButtons b bt s).engine = s.engine := by simp [editButtons]
@[simp] theorem editButtons_latch (b : Fin Config.buttonCount) (bt : ButtonTable) :
    (editButtons b bt s).latch = s.latch := by simp [editButtons]
@[simp] theorem editButtons_frames (b : Fin Config.buttonCount) (bt : ButtonTable) :
    (editButtons b bt s).frames = s.frames := by simp [editButtons]
@[simp] theorem editButtons_intake (b : Fin Config.buttonCount) (bt : ButtonTable) :
    (editButtons b bt s).intake = s.intake := by simp [editButtons]
@[simp] theorem editButtons_objects (b : Fin Config.buttonCount) (bt : ButtonTable) :
    (editButtons b bt s).objects = s.objects := by simp [editButtons]
@[simp] theorem editButtons_colours (b : Fin Config.buttonCount) (bt : ButtonTable) :
    (editButtons b bt s).colours = s.colours := by simp [editButtons]
@[simp] theorem editButtons_list (b : Fin Config.buttonCount) (bt : ButtonTable) :
    (editButtons b bt s).list = s.list := by simp [editButtons]
@[simp] theorem editButtons_render (b : Fin Config.buttonCount) (bt : ButtonTable) :
    (editButtons b bt s).render = s.render := by simp [editButtons]
@[simp] theorem editButtons_page (b : Fin Config.buttonCount) (bt : ButtonTable) :
    (editButtons b bt s).page = s.page := by simp [editButtons]
@[simp] theorem editButtons_reports (b : Fin Config.buttonCount) (bt : ButtonTable) :
    (editButtons b bt s).reports = s.reports := by simp [editButtons]

@[simp] theorem dropButton_pending (b : Fin Config.buttonCount) (e : Button) :
    (dropButton b e s).pending = s.pending := by unfold dropButton; (repeat' split) <;> simp
@[simp] theorem dropButton_resetLine (b : Fin Config.buttonCount) (e : Button) :
    (dropButton b e s).resetLine = s.resetLine := by unfold dropButton; (repeat' split) <;> simp
@[simp] theorem dropButton_resetDue (b : Fin Config.buttonCount) (e : Button) :
    (dropButton b e s).resetDue = s.resetDue := by unfold dropButton; (repeat' split) <;> simp
@[simp] theorem dropButton_urgent (b : Fin Config.buttonCount) (e : Button) :
    (dropButton b e s).urgent = s.urgent := by unfold dropButton; (repeat' split) <;> simp
@[simp] theorem dropButton_path (b : Fin Config.buttonCount) (e : Button) :
    (dropButton b e s).path = s.path := by unfold dropButton; (repeat' split) <;> simp
@[simp] theorem dropButton_share (b : Fin Config.buttonCount) (e : Button) :
    (dropButton b e s).share = s.share := by unfold dropButton; (repeat' split) <;> simp
@[simp] theorem dropButton_passover (b : Fin Config.buttonCount) (e : Button) :
    (dropButton b e s).passover = s.passover := by unfold dropButton; (repeat' split) <;> simp
@[simp] theorem dropButton_mside (b : Fin Config.buttonCount) (e : Button) :
    (dropButton b e s).mside = s.mside := by unfold dropButton; (repeat' split) <;> simp
@[simp] theorem dropButton_cside (b : Fin Config.buttonCount) (e : Button) :
    (dropButton b e s).cside = s.cside := by unfold dropButton; (repeat' split) <;> simp
@[simp] theorem dropButton_engine (b : Fin Config.buttonCount) (e : Button) :
    (dropButton b e s).engine = s.engine := by unfold dropButton; (repeat' split) <;> simp
@[simp] theorem dropButton_latch (b : Fin Config.buttonCount) (e : Button) :
    (dropButton b e s).latch = s.latch := by unfold dropButton; (repeat' split) <;> simp
@[simp] theorem dropButton_frames (b : Fin Config.buttonCount) (e : Button) :
    (dropButton b e s).frames = s.frames := by unfold dropButton; (repeat' split) <;> simp
@[simp] theorem dropButton_intake (b : Fin Config.buttonCount) (e : Button) :
    (dropButton b e s).intake = s.intake := by unfold dropButton; (repeat' split) <;> simp
@[simp] theorem dropButton_objects (b : Fin Config.buttonCount) (e : Button) :
    (dropButton b e s).objects = s.objects := by unfold dropButton; (repeat' split) <;> simp
@[simp] theorem dropButton_colours (b : Fin Config.buttonCount) (e : Button) :
    (dropButton b e s).colours = s.colours := by unfold dropButton; (repeat' split) <;> simp
@[simp] theorem dropButton_list (b : Fin Config.buttonCount) (e : Button) :
    (dropButton b e s).list = s.list := by unfold dropButton; (repeat' split) <;> simp
@[simp] theorem dropButton_render (b : Fin Config.buttonCount) (e : Button) :
    (dropButton b e s).render = s.render := by unfold dropButton; (repeat' split) <;> simp
@[simp] theorem dropButton_page (b : Fin Config.buttonCount) (e : Button) :
    (dropButton b e s).page = s.page := by unfold dropButton; (repeat' split) <;> simp

@[simp] theorem moveSelection_pending (n : Fin Config.buttonCount) :
    (moveSelection n s).pending = s.pending := by simp [moveSelection]
@[simp] theorem moveSelection_resetLine (n : Fin Config.buttonCount) :
    (moveSelection n s).resetLine = s.resetLine := by simp [moveSelection]
@[simp] theorem moveSelection_resetDue (n : Fin Config.buttonCount) :
    (moveSelection n s).resetDue = s.resetDue := by simp [moveSelection]
@[simp] theorem moveSelection_urgent (n : Fin Config.buttonCount) :
    (moveSelection n s).urgent = s.urgent := by simp [moveSelection]
@[simp] theorem moveSelection_path (n : Fin Config.buttonCount) :
    (moveSelection n s).path = s.path := by simp [moveSelection]
@[simp] theorem moveSelection_share (n : Fin Config.buttonCount) :
    (moveSelection n s).share = s.share := by simp [moveSelection]
@[simp] theorem moveSelection_passover (n : Fin Config.buttonCount) :
    (moveSelection n s).passover = s.passover := by simp [moveSelection]
@[simp] theorem moveSelection_mside (n : Fin Config.buttonCount) :
    (moveSelection n s).mside = s.mside := by simp [moveSelection]
@[simp] theorem moveSelection_cside (n : Fin Config.buttonCount) :
    (moveSelection n s).cside = s.cside := by simp [moveSelection]
@[simp] theorem moveSelection_engine (n : Fin Config.buttonCount) :
    (moveSelection n s).engine = s.engine := by simp [moveSelection]
@[simp] theorem moveSelection_latch (n : Fin Config.buttonCount) :
    (moveSelection n s).latch = s.latch := by simp [moveSelection]
@[simp] theorem moveSelection_frames (n : Fin Config.buttonCount) :
    (moveSelection n s).frames = s.frames := by simp [moveSelection]
@[simp] theorem moveSelection_intake (n : Fin Config.buttonCount) :
    (moveSelection n s).intake = s.intake := by simp [moveSelection]
@[simp] theorem moveSelection_objects (n : Fin Config.buttonCount) :
    (moveSelection n s).objects = s.objects := by simp [moveSelection]
@[simp] theorem moveSelection_colours (n : Fin Config.buttonCount) :
    (moveSelection n s).colours = s.colours := by simp [moveSelection]
@[simp] theorem moveSelection_list (n : Fin Config.buttonCount) :
    (moveSelection n s).list = s.list := by simp [moveSelection]
@[simp] theorem moveSelection_render (n : Fin Config.buttonCount) :
    (moveSelection n s).render = s.render := by simp [moveSelection]
@[simp] theorem moveSelection_page (n : Fin Config.buttonCount) :
    (moveSelection n s).page = s.page := by simp [moveSelection]

@[simp] theorem activate_pending (n : Fin Config.buttonCount) :
    (activate n s).pending = s.pending := by simp [activate]
@[simp] theorem activate_resetLine (n : Fin Config.buttonCount) :
    (activate n s).resetLine = s.resetLine := by simp [activate]
@[simp] theorem activate_resetDue (n : Fin Config.buttonCount) :
    (activate n s).resetDue = s.resetDue := by simp [activate]
@[simp] theorem activate_urgent (n : Fin Config.buttonCount) :
    (activate n s).urgent = s.urgent := by simp [activate]
@[simp] theorem activate_path (n : Fin Config.buttonCount) :
    (activate n s).path = s.path := by simp [activate]
@[simp] theorem activate_share (n : Fin Config.buttonCount) :
    (activate n s).share = s.share := by simp [activate]
@[simp] theorem activate_passover (n : Fin Config.buttonCount) :
    (activate n s).passover = s.passover := by simp [activate]
@[simp] theorem activate_mside (n : Fin Config.buttonCount) :
    (activate n s).mside = s.mside := by simp [activate]
@[simp] theorem activate_cside (n : Fin Config.buttonCount) :
    (activate n s).cside = s.cside := by simp [activate]
@[simp] theorem activate_engine (n : Fin Config.buttonCount) :
    (activate n s).engine = s.engine := by simp [activate]
@[simp] theorem activate_latch (n : Fin Config.buttonCount) :
    (activate n s).latch = s.latch := by simp [activate]
@[simp] theorem activate_frames (n : Fin Config.buttonCount) :
    (activate n s).frames = s.frames := by simp [activate]
@[simp] theorem activate_intake (n : Fin Config.buttonCount) :
    (activate n s).intake = s.intake := by simp [activate]
@[simp] theorem activate_objects (n : Fin Config.buttonCount) :
    (activate n s).objects = s.objects := by simp [activate]
@[simp] theorem activate_colours (n : Fin Config.buttonCount) :
    (activate n s).colours = s.colours := by simp [activate]
@[simp] theorem activate_list (n : Fin Config.buttonCount) :
    (activate n s).list = s.list := by simp [activate]
@[simp] theorem activate_render (n : Fin Config.buttonCount) :
    (activate n s).render = s.render := by simp [activate]
@[simp] theorem activate_page (n : Fin Config.buttonCount) :
    (activate n s).page = s.page := by simp [activate]

@[simp] theorem keyDirection_pending (k : Key) :
    (keyDirection k s).pending = s.pending := by unfold keyDirection; (repeat' split) <;> simp
@[simp] theorem keyDirection_resetLine (k : Key) :
    (keyDirection k s).resetLine = s.resetLine := by unfold keyDirection; (repeat' split) <;> simp
@[simp] theorem keyDirection_resetDue (k : Key) :
    (keyDirection k s).resetDue = s.resetDue := by unfold keyDirection; (repeat' split) <;> simp
@[simp] theorem keyDirection_urgent (k : Key) :
    (keyDirection k s).urgent = s.urgent := by unfold keyDirection; (repeat' split) <;> simp
@[simp] theorem keyDirection_path (k : Key) :
    (keyDirection k s).path = s.path := by unfold keyDirection; (repeat' split) <;> simp
@[simp] theorem keyDirection_share (k : Key) :
    (keyDirection k s).share = s.share := by unfold keyDirection; (repeat' split) <;> simp
@[simp] theorem keyDirection_passover (k : Key) :
    (keyDirection k s).passover = s.passover := by unfold keyDirection; (repeat' split) <;> simp
@[simp] theorem keyDirection_mside (k : Key) :
    (keyDirection k s).mside = s.mside := by unfold keyDirection; (repeat' split) <;> simp
@[simp] theorem keyDirection_cside (k : Key) :
    (keyDirection k s).cside = s.cside := by unfold keyDirection; (repeat' split) <;> simp
@[simp] theorem keyDirection_engine (k : Key) :
    (keyDirection k s).engine = s.engine := by unfold keyDirection; (repeat' split) <;> simp
@[simp] theorem keyDirection_latch (k : Key) :
    (keyDirection k s).latch = s.latch := by unfold keyDirection; (repeat' split) <;> simp
@[simp] theorem keyDirection_frames (k : Key) :
    (keyDirection k s).frames = s.frames := by unfold keyDirection; (repeat' split) <;> simp
@[simp] theorem keyDirection_intake (k : Key) :
    (keyDirection k s).intake = s.intake := by unfold keyDirection; (repeat' split) <;> simp
@[simp] theorem keyDirection_objects (k : Key) :
    (keyDirection k s).objects = s.objects := by unfold keyDirection; (repeat' split) <;> simp
@[simp] theorem keyDirection_colours (k : Key) :
    (keyDirection k s).colours = s.colours := by unfold keyDirection; (repeat' split) <;> simp
@[simp] theorem keyDirection_list (k : Key) :
    (keyDirection k s).list = s.list := by unfold keyDirection; (repeat' split) <;> simp
@[simp] theorem keyDirection_render (k : Key) :
    (keyDirection k s).render = s.render := by unfold keyDirection; (repeat' split) <;> simp
@[simp] theorem keyDirection_page (k : Key) :
    (keyDirection k s).page = s.page := by unfold keyDirection; (repeat' split) <;> simp

@[simp] theorem keyEnter_pending :
    (keyEnter s).pending = s.pending := by unfold keyEnter; (repeat' split) <;> simp
@[simp] theorem keyEnter_resetLine :
    (keyEnter s).resetLine = s.resetLine := by unfold keyEnter; (repeat' split) <;> simp
@[simp] theorem keyEnter_resetDue :
    (keyEnter s).resetDue = s.resetDue := by unfold keyEnter; (repeat' split) <;> simp
@[simp] theorem keyEnter_urgent :
    (keyEnter s).urgent = s.urgent := by unfold keyEnter; (repeat' split) <;> simp
@[simp] theorem keyEnter_path :
    (keyEnter s).path = s.path := by unfold keyEnter; (repeat' split) <;> simp
@[simp] theorem keyEnter_share :
    (keyEnter s).share = s.share := by unfold keyEnter; (repeat' split) <;> simp
@[simp] theorem keyEnter_passover :
    (keyEnter s).passover = s.passover := by unfold keyEnter; (repeat' split) <;> simp
@[simp] theorem keyEnter_mside :
    (keyEnter s).mside = s.mside := by unfold keyEnter; (repeat' split) <;> simp
@[simp] theorem keyEnter_cside :
    (keyEnter s).cside = s.cside := by unfold keyEnter; (repeat' split) <;> simp
@[simp] theorem keyEnter_engine :
    (keyEnter s).engine = s.engine := by unfold keyEnter; (repeat' split) <;> simp
@[simp] theorem keyEnter_latch :
    (keyEnter s).latch = s.latch := by unfold keyEnter; (repeat' split) <;> simp
@[simp] theorem keyEnter_frames :
    (keyEnter s).frames = s.frames := by unfold keyEnter; (repeat' split) <;> simp
@[simp] theorem keyEnter_intake :
    (keyEnter s).intake = s.intake := by unfold keyEnter; (repeat' split) <;> simp
@[simp] theorem keyEnter_objects :
    (keyEnter s).objects = s.objects := by unfold keyEnter; (repeat' split) <;> simp
@[simp] theorem keyEnter_colours :
    (keyEnter s).colours = s.colours := by unfold keyEnter; (repeat' split) <;> simp
@[simp] theorem keyEnter_list :
    (keyEnter s).list = s.list := by unfold keyEnter; (repeat' split) <;> simp
@[simp] theorem keyEnter_render :
    (keyEnter s).render = s.render := by unfold keyEnter; (repeat' split) <;> simp
@[simp] theorem keyEnter_page :
    (keyEnter s).page = s.page := by unfold keyEnter; (repeat' split) <;> simp

@[simp] theorem selectButton_pending (n : Fin Config.buttonCount) :
    (selectButton n s).pending = s.pending := by unfold selectButton; (repeat' split) <;> simp
@[simp] theorem selectButton_resetLine (n : Fin Config.buttonCount) :
    (selectButton n s).resetLine = s.resetLine := by unfold selectButton; (repeat' split) <;> simp
@[simp] theorem selectButton_resetDue (n : Fin Config.buttonCount) :
    (selectButton n s).resetDue = s.resetDue := by unfold selectButton; (repeat' split) <;> simp
@[simp] theorem selectButton_urgent (n : Fin Config.buttonCount) :
    (selectButton n s).urgent = s.urgent := by unfold selectButton; (repeat' split) <;> simp
@[simp] theorem selectButton_path (n : Fin Config.buttonCount) :
    (selectButton n s).path = s.path := by unfold selectButton; (repeat' split) <;> simp
@[simp] theorem selectButton_share (n : Fin Config.buttonCount) :
    (selectButton n s).share = s.share := by unfold selectButton; (repeat' split) <;> simp
@[simp] theorem selectButton_passover (n : Fin Config.buttonCount) :
    (selectButton n s).passover = s.passover := by unfold selectButton; (repeat' split) <;> simp
@[simp] theorem selectButton_mside (n : Fin Config.buttonCount) :
    (selectButton n s).mside = s.mside := by unfold selectButton; (repeat' split) <;> simp
@[simp] theorem selectButton_cside (n : Fin Config.buttonCount) :
    (selectButton n s).cside = s.cside := by unfold selectButton; (repeat' split) <;> simp
@[simp] theorem selectButton_engine (n : Fin Config.buttonCount) :
    (selectButton n s).engine = s.engine := by unfold selectButton; (repeat' split) <;> simp
@[simp] theorem selectButton_latch (n : Fin Config.buttonCount) :
    (selectButton n s).latch = s.latch := by unfold selectButton; (repeat' split) <;> simp
@[simp] theorem selectButton_frames (n : Fin Config.buttonCount) :
    (selectButton n s).frames = s.frames := by unfold selectButton; (repeat' split) <;> simp
@[simp] theorem selectButton_intake (n : Fin Config.buttonCount) :
    (selectButton n s).intake = s.intake := by unfold selectButton; (repeat' split) <;> simp
@[simp] theorem selectButton_objects (n : Fin Config.buttonCount) :
    (selectButton n s).objects = s.objects := by unfold selectButton; (repeat' split) <;> simp
@[simp] theorem selectButton_colours (n : Fin Config.buttonCount) :
    (selectButton n s).colours = s.colours := by unfold selectButton; (repeat' split) <;> simp
@[simp] theorem selectButton_list (n : Fin Config.buttonCount) :
    (selectButton n s).list = s.list := by unfold selectButton; (repeat' split) <;> simp
@[simp] theorem selectButton_render (n : Fin Config.buttonCount) :
    (selectButton n s).render = s.render := by unfold selectButton; (repeat' split) <;> simp
@[simp] theorem selectButton_page (n : Fin Config.buttonCount) :
    (selectButton n s).page = s.page := by unfold selectButton; (repeat' split) <;> simp

@[simp] theorem selectNone_pending :
    (selectNone s).pending = s.pending := by unfold selectNone; (repeat' split) <;> simp
@[simp] theorem selectNone_resetLine :
    (selectNone s).resetLine = s.resetLine := by unfold selectNone; (repeat' split) <;> simp
@[simp] theorem selectNone_resetDue :
    (selectNone s).resetDue = s.resetDue := by unfold selectNone; (repeat' split) <;> simp
@[simp] theorem selectNone_urgent :
    (selectNone s).urgent = s.urgent := by unfold selectNone; (repeat' split) <;> simp
@[simp] theorem selectNone_path :
    (selectNone s).path = s.path := by unfold selectNone; (repeat' split) <;> simp
@[simp] theorem selectNone_share :
    (selectNone s).share = s.share := by unfold selectNone; (repeat' split) <;> simp
@[simp] theorem selectNone_passover :
    (selectNone s).passover = s.passover := by unfold selectNone; (repeat' split) <;> simp
@[simp] theorem selectNone_mside :
    (selectNone s).mside = s.mside := by unfold selectNone; (repeat' split) <;> simp
@[simp] theorem selectNone_cside :
    (selectNone s).cside = s.cside := by unfold selectNone; (repeat' split) <;> simp
@[simp] theorem selectNone_engine :
    (selectNone s).engine = s.engine := by unfold selectNone; (repeat' split) <;> simp
@[simp] theorem selectNone_latch :
    (selectNone s).latch = s.latch := by unfold selectNone; (repeat' split) <;> simp
@[simp] theorem selectNone_frames :
    (selectNone s).frames = s.frames := by unfold selectNone; (repeat' split) <;> simp
@[simp] theorem selectNone_intake :
    (selectNone s).intake = s.intake := by unfold selectNone; (repeat' split) <;> simp
@[simp] theorem selectNone_objects :
    (selectNone s).objects = s.objects := by unfold selectNone; (repeat' split) <;> simp
@[simp] theorem selectNone_colours :
    (selectNone s).colours = s.colours := by unfold selectNone; (repeat' split) <;> simp
@[simp] theorem selectNone_list :
    (selectNone s).list = s.list := by unfold selectNone; (repeat' split) <;> simp
@[simp] theorem selectNone_render :
    (selectNone s).render = s.render := by unfold selectNone; (repeat' split) <;> simp
@[simp] theorem selectNone_page :
    (selectNone s).page = s.page := by unfold selectNone; (repeat' split) <;> simp

end Sys2Proof.Machine
end

