-- ==== Sys2Proof/Laws/FrameFrames.lean ====
section
/-! SUPPORT. What the parts of a frame start, the clearing sweep and the reset line leave unchanged. -/
namespace Sys2Proof.Machine
set_option Elab.async false
open Sys2Proof
variable (s : State)

@[simp] theorem stepTransition_pending :
    (stepTransition s).pending = s.pending := by unfold stepTransition; (repeat' split) <;> simp
@[simp] theorem stepTransition_resetLine :
    (stepTransition s).resetLine = s.resetLine := by unfold stepTransition; (repeat' split) <;> simp
@[simp] theorem stepTransition_resetDue :
    (stepTransition s).resetDue = s.resetDue := by unfold stepTransition; (repeat' split) <;> simp
@[simp] theorem stepTransition_urgent :
    (stepTransition s).urgent = s.urgent := by unfold stepTransition; (repeat' split) <;> simp
@[simp] theorem stepTransition_path :
    (stepTransition s).path = s.path := by unfold stepTransition; (repeat' split) <;> simp
@[simp] theorem stepTransition_share :
    (stepTransition s).share = s.share := by unfold stepTransition; (repeat' split) <;> simp
@[simp] theorem stepTransition_passover :
    (stepTransition s).passover = s.passover := by unfold stepTransition; (repeat' split) <;> simp
@[simp] theorem stepTransition_mside :
    (stepTransition s).mside = s.mside := by unfold stepTransition; (repeat' split) <;> simp
@[simp] theorem stepTransition_cside :
    (stepTransition s).cside = s.cside := by unfold stepTransition; (repeat' split) <;> simp
@[simp] theorem stepTransition_engine :
    (stepTransition s).engine = s.engine := by unfold stepTransition; (repeat' split) <;> simp
@[simp] theorem stepTransition_latch :
    (stepTransition s).latch = s.latch := by unfold stepTransition; (repeat' split) <;> simp
@[simp] theorem stepTransition_frames :
    (stepTransition s).frames = s.frames := by unfold stepTransition; (repeat' split) <;> simp
@[simp] theorem stepTransition_intake :
    (stepTransition s).intake = s.intake := by unfold stepTransition; (repeat' split) <;> simp
@[simp] theorem stepTransition_objects :
    (stepTransition s).objects = s.objects := by unfold stepTransition; (repeat' split) <;> simp
@[simp] theorem stepTransition_colours :
    (stepTransition s).colours = s.colours := by unfold stepTransition; (repeat' split) <;> simp
@[simp] theorem stepTransition_list :
    (stepTransition s).list = s.list := by unfold stepTransition; (repeat' split) <;> simp
@[simp] theorem stepTransition_buttons :
    (stepTransition s).buttons = s.buttons := by unfold stepTransition; (repeat' split) <;> simp
@[simp] theorem stepTransition_tiles :
    (stepTransition s).tiles = s.tiles := by unfold stepTransition; (repeat' split) <;> simp
@[simp] theorem stepTransition_render :
    (stepTransition s).render = s.render := by unfold stepTransition; (repeat' split) <;> simp

@[simp] theorem takeRects_pending :
    (takeRects s).pending = s.pending := by unfold takeRects; (repeat' split) <;> simp
@[simp] theorem takeRects_resetLine :
    (takeRects s).resetLine = s.resetLine := by unfold takeRects; (repeat' split) <;> simp
@[simp] theorem takeRects_resetDue :
    (takeRects s).resetDue = s.resetDue := by unfold takeRects; (repeat' split) <;> simp
@[simp] theorem takeRects_urgent :
    (takeRects s).urgent = s.urgent := by unfold takeRects; (repeat' split) <;> simp
@[simp] theorem takeRects_path :
    (takeRects s).path = s.path := by unfold takeRects; (repeat' split) <;> simp
@[simp] theorem takeRects_share :
    (takeRects s).share = s.share := by unfold takeRects; (repeat' split) <;> simp
@[simp] theorem takeRects_passover :
    (takeRects s).passover = s.passover := by unfold takeRects; (repeat' split) <;> simp
@[simp] theorem takeRects_mside :
    (takeRects s).mside = s.mside := by unfold takeRects; (repeat' split) <;> simp
@[simp] theorem takeRects_cside :
    (takeRects s).cside = s.cside := by unfold takeRects; (repeat' split) <;> simp
@[simp] theorem takeRects_waiting :
    (takeRects s).waiting = s.waiting := by unfold takeRects; (repeat' split) <;> simp
@[simp] theorem takeRects_engine :
    (takeRects s).engine = s.engine := by unfold takeRects; (repeat' split) <;> simp
@[simp] theorem takeRects_latch :
    (takeRects s).latch = s.latch := by unfold takeRects; (repeat' split) <;> simp
@[simp] theorem takeRects_frames :
    (takeRects s).frames = s.frames := by unfold takeRects; (repeat' split) <;> simp
@[simp] theorem takeRects_intake :
    (takeRects s).intake = s.intake := by unfold takeRects; (repeat' split) <;> simp
@[simp] theorem takeRects_objects :
    (takeRects s).objects = s.objects := by unfold takeRects; (repeat' split) <;> simp
@[simp] theorem takeRects_colours :
    (takeRects s).colours = s.colours := by unfold takeRects; (repeat' split) <;> simp
@[simp] theorem takeRects_list :
    (takeRects s).list = s.list := by unfold takeRects; (repeat' split) <;> simp
@[simp] theorem takeRects_tiles :
    (takeRects s).tiles = s.tiles := by unfold takeRects; (repeat' split) <;> simp
@[simp] theorem takeRects_render :
    (takeRects s).render = s.render := by unfold takeRects; (repeat' split) <;> simp
@[simp] theorem takeRects_page :
    (takeRects s).page = s.page := by unfold takeRects; (repeat' split) <;> simp
@[simp] theorem takeRects_reports :
    (takeRects s).reports = s.reports := by unfold takeRects; (repeat' split) <;> simp

@[simp] theorem flip_pending :
    (flip s).pending = s.pending := by simp [flip]
@[simp] theorem flip_resetLine :
    (flip s).resetLine = s.resetLine := by simp [flip]
@[simp] theorem flip_resetDue :
    (flip s).resetDue = s.resetDue := by simp [flip]
@[simp] theorem flip_urgent :
    (flip s).urgent = s.urgent := by simp [flip]
@[simp] theorem flip_path :
    (flip s).path = s.path := by simp [flip]
@[simp] theorem flip_share :
    (flip s).share = s.share := by simp [flip]
@[simp] theorem flip_passover :
    (flip s).passover = s.passover := by simp [flip]
@[simp] theorem flip_mside :
    (flip s).mside = s.mside := by simp [flip]
@[simp] theorem flip_cside :
    (flip s).cside = s.cside := by simp [flip]
@[simp] theorem flip_engine :
    (flip s).engine = s.engine := by simp [flip]
@[simp] theorem flip_latch :
    (flip s).latch = s.latch := by simp [flip]
@[simp] theorem flip_frames :
    (flip s).frames = s.frames := by simp [flip]
@[simp] theorem flip_intake :
    (flip s).intake = s.intake := by simp [flip]
@[simp] theorem flip_objects :
    (flip s).objects = s.objects := by simp [flip]
@[simp] theorem flip_colours :
    (flip s).colours = s.colours := by simp [flip]
@[simp] theorem flip_list :
    (flip s).list = s.list := by simp [flip]
@[simp] theorem flip_render :
    (flip s).render = s.render := by simp [flip]

@[simp] theorem holdAndPulse_pending :
    (holdAndPulse s).pending = s.pending := by unfold holdAndPulse; (repeat' split) <;> simp
@[simp] theorem holdAndPulse_resetLine :
    (holdAndPulse s).resetLine = s.resetLine := by unfold holdAndPulse; (repeat' split) <;> simp
@[simp] theorem holdAndPulse_resetDue :
    (holdAndPulse s).resetDue = s.resetDue := by unfold holdAndPulse; (repeat' split) <;> simp
@[simp] theorem holdAndPulse_urgent :
    (holdAndPulse s).urgent = s.urgent := by unfold holdAndPulse; (repeat' split) <;> simp
@[simp] theorem holdAndPulse_path :
    (holdAndPulse s).path = s.path := by unfold holdAndPulse; (repeat' split) <;> simp
@[simp] theorem holdAndPulse_share :
    (holdAndPulse s).share = s.share := by unfold holdAndPulse; (repeat' split) <;> simp
@[simp] theorem holdAndPulse_passover :
    (holdAndPulse s).passover = s.passover := by unfold holdAndPulse; (repeat' split) <;> simp
@[simp] theorem holdAndPulse_mside :
    (holdAndPulse s).mside = s.mside := by unfold holdAndPulse; (repeat' split) <;> simp
@[simp] theorem holdAndPulse_cside :
    (holdAndPulse s).cside = s.cside := by unfold holdAndPulse; (repeat' split) <;> simp
@[simp] theorem holdAndPulse_waiting :
    (holdAndPulse s).waiting = s.waiting := by unfold holdAndPulse; (repeat' split) <;> simp
@[simp] theorem holdAndPulse_engine :
    (holdAndPulse s).engine = s.engine := by unfold holdAndPulse; (repeat' split) <;> simp
@[simp] theorem holdAndPulse_latch :
    (holdAndPulse s).latch = s.latch := by unfold holdAndPulse; (repeat' split) <;> simp
@[simp] theorem holdAndPulse_frames :
    (holdAndPulse s).frames = s.frames := by unfold holdAndPulse; (repeat' split) <;> simp
@[simp] theorem holdAndPulse_intake :
    (holdAndPulse s).intake = s.intake := by unfold holdAndPulse; (repeat' split) <;> simp
@[simp] theorem holdAndPulse_objects :
    (holdAndPulse s).objects = s.objects := by unfold holdAndPulse; (repeat' split) <;> simp
@[simp] theorem holdAndPulse_colours :
    (holdAndPulse s).colours = s.colours := by unfold holdAndPulse; (repeat' split) <;> simp
@[simp] theorem holdAndPulse_list :
    (holdAndPulse s).list = s.list := by unfold holdAndPulse; (repeat' split) <;> simp
@[simp] theorem holdAndPulse_render :
    (holdAndPulse s).render = s.render := by unfold holdAndPulse; (repeat' split) <;> simp
@[simp] theorem holdAndPulse_page :
    (holdAndPulse s).page = s.page := by unfold holdAndPulse; (repeat' split) <;> simp
@[simp] theorem holdAndPulse_reports :
    (holdAndPulse s).reports = s.reports := by unfold holdAndPulse; (repeat' split) <;> simp

@[simp] theorem countFrame_pending :
    (countFrame s).pending = s.pending := by simp [countFrame]
@[simp] theorem countFrame_resetLine :
    (countFrame s).resetLine = s.resetLine := by simp [countFrame]
@[simp] theorem countFrame_resetDue :
    (countFrame s).resetDue = s.resetDue := by simp [countFrame]
@[simp] theorem countFrame_urgent :
    (countFrame s).urgent = s.urgent := by simp [countFrame]
@[simp] theorem countFrame_path :
    (countFrame s).path = s.path := by simp [countFrame]
@[simp] theorem countFrame_share :
    (countFrame s).share = s.share := by simp [countFrame]
@[simp] theorem countFrame_passover :
    (countFrame s).passover = s.passover := by simp [countFrame]
@[simp] theorem countFrame_mside :
    (countFrame s).mside = s.mside := by simp [countFrame]
@[simp] theorem countFrame_cside :
    (countFrame s).cside = s.cside := by simp [countFrame]
@[simp] theorem countFrame_waiting :
    (countFrame s).waiting = s.waiting := by simp [countFrame]
@[simp] theorem countFrame_engine :
    (countFrame s).engine = s.engine := by simp [countFrame]
@[simp] theorem countFrame_latch :
    (countFrame s).latch = s.latch := by simp [countFrame]
@[simp] theorem countFrame_intake :
    (countFrame s).intake = s.intake := by simp [countFrame]
@[simp] theorem countFrame_objects :
    (countFrame s).objects = s.objects := by simp [countFrame]
@[simp] theorem countFrame_colours :
    (countFrame s).colours = s.colours := by simp [countFrame]
@[simp] theorem countFrame_list :
    (countFrame s).list = s.list := by simp [countFrame]
@[simp] theorem countFrame_buttons :
    (countFrame s).buttons = s.buttons := by simp [countFrame]
@[simp] theorem countFrame_tiles :
    (countFrame s).tiles = s.tiles := by simp [countFrame]
@[simp] theorem countFrame_render :
    (countFrame s).render = s.render := by simp [countFrame]
@[simp] theorem countFrame_page :
    (countFrame s).page = s.page := by simp [countFrame]
@[simp] theorem countFrame_reports :
    (countFrame s).reports = s.reports := by simp [countFrame]

@[simp] theorem activeFrame_pending :
    (activeFrame s).pending = s.pending := by unfold activeFrame; dsimp only; split <;> simp
@[simp] theorem activeFrame_resetLine :
    (activeFrame s).resetLine = s.resetLine := by unfold activeFrame; dsimp only; split <;> simp
@[simp] theorem activeFrame_resetDue :
    (activeFrame s).resetDue = s.resetDue := by unfold activeFrame; dsimp only; split <;> simp
@[simp] theorem activeFrame_urgent :
    (activeFrame s).urgent = s.urgent := by unfold activeFrame; dsimp only; split <;> simp
@[simp] theorem activeFrame_path :
    (activeFrame s).path = s.path := by unfold activeFrame; dsimp only; split <;> simp
@[simp] theorem activeFrame_share :
    (activeFrame s).share = s.share := by unfold activeFrame; dsimp only; split <;> simp
@[simp] theorem activeFrame_passover :
    (activeFrame s).passover = s.passover := by unfold activeFrame; dsimp only; split <;> simp
@[simp] theorem activeFrame_mside :
    (activeFrame s).mside = s.mside := by unfold activeFrame; dsimp only; split <;> simp
@[simp] theorem activeFrame_cside :
    (activeFrame s).cside = s.cside := by unfold activeFrame; dsimp only; split <;> simp
@[simp] theorem activeFrame_engine :
    (activeFrame s).engine = s.engine := by unfold activeFrame; dsimp only; split <;> simp
@[simp] theorem activeFrame_latch :
    (activeFrame s).latch = s.latch := by unfold activeFrame; dsimp only; split <;> simp
@[simp] theorem activeFrame_intake :
    (activeFrame s).intake = s.intake := by unfold activeFrame; dsimp only; split <;> simp
@[simp] theorem activeFrame_objects :
    (activeFrame s).objects = s.objects := by unfold activeFrame; dsimp only; split <;> simp
@[simp] theorem activeFrame_colours :
    (activeFrame s).colours = s.colours := by unfold activeFrame; dsimp only; split <;> simp
@[simp] theorem activeFrame_list :
    (activeFrame s).list = s.list := by unfold activeFrame; dsimp only; split <;> simp
@[simp] theorem activeFrame_render :
    (activeFrame s).render = s.render := by unfold activeFrame; dsimp only; split <;> simp

@[simp] theorem frameStart_pending :
    (frameStart s).pending = s.pending := by unfold frameStart; (repeat' split) <;> simp
@[simp] theorem frameStart_resetLine :
    (frameStart s).resetLine = s.resetLine := by unfold frameStart; (repeat' split) <;> simp
@[simp] theorem frameStart_resetDue :
    (frameStart s).resetDue = s.resetDue := by unfold frameStart; (repeat' split) <;> simp
@[simp] theorem frameStart_urgent :
    (frameStart s).urgent = s.urgent := by unfold frameStart; (repeat' split) <;> simp
@[simp] theorem frameStart_path :
    (frameStart s).path = s.path := by unfold frameStart; (repeat' split) <;> simp
@[simp] theorem frameStart_share :
    (frameStart s).share = s.share := by unfold frameStart; (repeat' split) <;> simp
@[simp] theorem frameStart_passover :
    (frameStart s).passover = s.passover := by unfold frameStart; (repeat' split) <;> simp
@[simp] theorem frameStart_mside :
    (frameStart s).mside = s.mside := by unfold frameStart; (repeat' split) <;> simp
@[simp] theorem frameStart_cside :
    (frameStart s).cside = s.cside := by unfold frameStart; (repeat' split) <;> simp
@[simp] theorem frameStart_engine :
    (frameStart s).engine = s.engine := by unfold frameStart; (repeat' split) <;> simp
@[simp] theorem frameStart_latch :
    (frameStart s).latch = s.latch := by unfold frameStart; (repeat' split) <;> simp
@[simp] theorem frameStart_intake :
    (frameStart s).intake = s.intake := by unfold frameStart; (repeat' split) <;> simp
@[simp] theorem frameStart_objects :
    (frameStart s).objects = s.objects := by unfold frameStart; (repeat' split) <;> simp
@[simp] theorem frameStart_colours :
    (frameStart s).colours = s.colours := by unfold frameStart; (repeat' split) <;> simp
@[simp] theorem frameStart_list :
    (frameStart s).list = s.list := by unfold frameStart; (repeat' split) <;> simp
@[simp] theorem frameStart_render :
    (frameStart s).render = s.render := by unfold frameStart; (repeat' split) <;> simp

@[simp] theorem sweep_pending :
    (sweep s).pending = s.pending := by simp [sweep]
@[simp] theorem sweep_resetLine :
    (sweep s).resetLine = s.resetLine := by simp [sweep]
@[simp] theorem sweep_resetDue :
    (sweep s).resetDue = s.resetDue := by simp [sweep]
@[simp] theorem sweep_urgent :
    (sweep s).urgent = s.urgent := by simp [sweep]
@[simp] theorem sweep_path :
    (sweep s).path = s.path := by simp [sweep]
@[simp] theorem sweep_share :
    (sweep s).share = s.share := by simp [sweep]
@[simp] theorem sweep_passover :
    (sweep s).passover = s.passover := by simp [sweep]
@[simp] theorem sweep_mside :
    (sweep s).mside = s.mside := by simp [sweep]
@[simp] theorem sweep_cside :
    (sweep s).cside = s.cside := by simp [sweep]
@[simp] theorem sweep_waiting :
    (sweep s).waiting = s.waiting := by simp [sweep]
@[simp] theorem sweep_engine :
    (sweep s).engine = s.engine := by simp [sweep]

@[simp] theorem endSweep_pending :
    (endSweep s).pending = s.pending := by unfold endSweep; (repeat' split) <;> simp
@[simp] theorem endSweep_resetLine :
    (endSweep s).resetLine = s.resetLine := by unfold endSweep; (repeat' split) <;> simp
@[simp] theorem endSweep_resetDue :
    (endSweep s).resetDue = s.resetDue := by unfold endSweep; (repeat' split) <;> simp
@[simp] theorem endSweep_urgent :
    (endSweep s).urgent = s.urgent := by unfold endSweep; (repeat' split) <;> simp
@[simp] theorem endSweep_path :
    (endSweep s).path = s.path := by unfold endSweep; (repeat' split) <;> simp
@[simp] theorem endSweep_share :
    (endSweep s).share = s.share := by unfold endSweep; (repeat' split) <;> simp
@[simp] theorem endSweep_passover :
    (endSweep s).passover = s.passover := by unfold endSweep; (repeat' split) <;> simp
@[simp] theorem endSweep_mside :
    (endSweep s).mside = s.mside := by unfold endSweep; (repeat' split) <;> simp
@[simp] theorem endSweep_cside :
    (endSweep s).cside = s.cside := by unfold endSweep; (repeat' split) <;> simp

@[simp] theorem assertReset_pending :
    (assertReset s).pending = s.pending := by unfold assertReset; dsimp only; (repeat' split) <;> simp
@[simp] theorem assertReset_urgent :
    (assertReset s).urgent = s.urgent := by unfold assertReset; dsimp only; (repeat' split) <;> simp
@[simp] theorem assertReset_frames :
    (assertReset s).frames = s.frames := by unfold assertReset; dsimp only; (repeat' split) <;> simp
@[simp] theorem assertReset_objects :
    (assertReset s).objects = s.objects := by unfold assertReset; dsimp only; (repeat' split) <;> simp
@[simp] theorem assertReset_list :
    (assertReset s).list = s.list := by unfold assertReset; dsimp only; (repeat' split) <;> simp
@[simp] theorem assertReset_buttons :
    (assertReset s).buttons = s.buttons := by unfold assertReset; dsimp only; (repeat' split) <;> simp

@[simp] theorem releaseReset_pending :
    (releaseReset s).pending = s.pending := by unfold releaseReset; dsimp only; (repeat' split) <;> simp
@[simp] theorem releaseReset_resetDue :
    (releaseReset s).resetDue = s.resetDue := by unfold releaseReset; dsimp only; (repeat' split) <;> simp
@[simp] theorem releaseReset_urgent :
    (releaseReset s).urgent = s.urgent := by unfold releaseReset; dsimp only; (repeat' split) <;> simp
@[simp] theorem releaseReset_frames :
    (releaseReset s).frames = s.frames := by unfold releaseReset; dsimp only; (repeat' split) <;> simp
@[simp] theorem releaseReset_intake :
    (releaseReset s).intake = s.intake := by unfold releaseReset; dsimp only; (repeat' split) <;> simp
@[simp] theorem releaseReset_objects :
    (releaseReset s).objects = s.objects := by unfold releaseReset; dsimp only; (repeat' split) <;> simp
@[simp] theorem releaseReset_colours :
    (releaseReset s).colours = s.colours := by unfold releaseReset; dsimp only; (repeat' split) <;> simp
@[simp] theorem releaseReset_list :
    (releaseReset s).list = s.list := by unfold releaseReset; dsimp only; (repeat' split) <;> simp
@[simp] theorem releaseReset_buttons :
    (releaseReset s).buttons = s.buttons := by unfold releaseReset; dsimp only; (repeat' split) <;> simp
@[simp] theorem releaseReset_page :
    (releaseReset s).page = s.page := by unfold releaseReset; dsimp only; (repeat' split) <;> simp
@[simp] theorem releaseReset_reports :
    (releaseReset s).reports = s.reports := by unfold releaseReset; dsimp only; (repeat' split) <;> simp

end Sys2Proof.Machine
end

