-- ==== Sys2Proof/Laws/IntakeFrames.lean ====
section
/-! SUPPORT. What the events of the intake and of a controller store leave unchanged. -/
namespace Sys2Proof.Machine
set_option Elab.async false
open Sys2Proof
variable (s : State)

@[simp] theorem captureWord_pending (e : CapEntry) (j : Bool) :
    ((captureWord e (s, j)).1).pending = s.pending := by unfold captureWord; dsimp only; (repeat' split) <;> simp
@[simp] theorem captureWord_resetLine (e : CapEntry) (j : Bool) :
    ((captureWord e (s, j)).1).resetLine = s.resetLine := by unfold captureWord; dsimp only; (repeat' split) <;> simp
@[simp] theorem captureWord_resetDue (e : CapEntry) (j : Bool) :
    ((captureWord e (s, j)).1).resetDue = s.resetDue := by unfold captureWord; dsimp only; (repeat' split) <;> simp
@[simp] theorem captureWord_urgent (e : CapEntry) (j : Bool) :
    ((captureWord e (s, j)).1).urgent = s.urgent := by unfold captureWord; dsimp only; (repeat' split) <;> simp
@[simp] theorem captureWord_path (e : CapEntry) (j : Bool) :
    ((captureWord e (s, j)).1).path = s.path := by unfold captureWord; dsimp only; (repeat' split) <;> simp
@[simp] theorem captureWord_share (e : CapEntry) (j : Bool) :
    ((captureWord e (s, j)).1).share = s.share := by unfold captureWord; dsimp only; (repeat' split) <;> simp
@[simp] theorem captureWord_passover (e : CapEntry) (j : Bool) :
    ((captureWord e (s, j)).1).passover = s.passover := by unfold captureWord; dsimp only; (repeat' split) <;> simp
@[simp] theorem captureWord_mside (e : CapEntry) (j : Bool) :
    ((captureWord e (s, j)).1).mside = s.mside := by unfold captureWord; dsimp only; (repeat' split) <;> simp
@[simp] theorem captureWord_cside (e : CapEntry) (j : Bool) :
    ((captureWord e (s, j)).1).cside = s.cside := by unfold captureWord; dsimp only; (repeat' split) <;> simp
@[simp] theorem captureWord_engine (e : CapEntry) (j : Bool) :
    ((captureWord e (s, j)).1).engine = s.engine := by unfold captureWord; dsimp only; (repeat' split) <;> simp
@[simp] theorem captureWord_latch (e : CapEntry) (j : Bool) :
    ((captureWord e (s, j)).1).latch = s.latch := by unfold captureWord; dsimp only; (repeat' split) <;> simp
@[simp] theorem captureWord_frames (e : CapEntry) (j : Bool) :
    ((captureWord e (s, j)).1).frames = s.frames := by unfold captureWord; dsimp only; (repeat' split) <;> simp
@[simp] theorem captureWord_objects (e : CapEntry) (j : Bool) :
    ((captureWord e (s, j)).1).objects = s.objects := by unfold captureWord; dsimp only; (repeat' split) <;> simp
@[simp] theorem captureWord_colours (e : CapEntry) (j : Bool) :
    ((captureWord e (s, j)).1).colours = s.colours := by unfold captureWord; dsimp only; (repeat' split) <;> simp
@[simp] theorem captureWord_list (e : CapEntry) (j : Bool) :
    ((captureWord e (s, j)).1).list = s.list := by unfold captureWord; dsimp only; (repeat' split) <;> simp
@[simp] theorem captureWord_buttons (e : CapEntry) (j : Bool) :
    ((captureWord e (s, j)).1).buttons = s.buttons := by unfold captureWord; dsimp only; (repeat' split) <;> simp
@[simp] theorem captureWord_tiles (e : CapEntry) (j : Bool) :
    ((captureWord e (s, j)).1).tiles = s.tiles := by unfold captureWord; dsimp only; (repeat' split) <;> simp
@[simp] theorem captureWord_render (e : CapEntry) (j : Bool) :
    ((captureWord e (s, j)).1).render = s.render := by unfold captureWord; dsimp only; (repeat' split) <;> simp
@[simp] theorem captureWord_page (e : CapEntry) (j : Bool) :
    ((captureWord e (s, j)).1).page = s.page := by unfold captureWord; dsimp only; (repeat' split) <;> simp
@[simp] theorem captureWord_reports (e : CapEntry) (j : Bool) :
    ((captureWord e (s, j)).1).reports = s.reports := by unfold captureWord; dsimp only; (repeat' split) <;> simp

@[simp] theorem captureFold_pending (l : List CapEntry) (j : Bool) :
    ((l.foldl (fun acc e => captureWord e acc) (s, j)).1).pending = s.pending := by induction l generalizing s j with
  | nil => rfl
  | cons e l ih => exact (ih (captureWord e (s, j)).1 (captureWord e (s, j)).2).trans (by simp)
@[simp] theorem captureFold_resetLine (l : List CapEntry) (j : Bool) :
    ((l.foldl (fun acc e => captureWord e acc) (s, j)).1).resetLine = s.resetLine := by induction l generalizing s j with
  | nil => rfl
  | cons e l ih => exact (ih (captureWord e (s, j)).1 (captureWord e (s, j)).2).trans (by simp)
@[simp] theorem captureFold_resetDue (l : List CapEntry) (j : Bool) :
    ((l.foldl (fun acc e => captureWord e acc) (s, j)).1).resetDue = s.resetDue := by induction l generalizing s j with
  | nil => rfl
  | cons e l ih => exact (ih (captureWord e (s, j)).1 (captureWord e (s, j)).2).trans (by simp)
@[simp] theorem captureFold_urgent (l : List CapEntry) (j : Bool) :
    ((l.foldl (fun acc e => captureWord e acc) (s, j)).1).urgent = s.urgent := by induction l generalizing s j with
  | nil => rfl
  | cons e l ih => exact (ih (captureWord e (s, j)).1 (captureWord e (s, j)).2).trans (by simp)
@[simp] theorem captureFold_path (l : List CapEntry) (j : Bool) :
    ((l.foldl (fun acc e => captureWord e acc) (s, j)).1).path = s.path := by induction l generalizing s j with
  | nil => rfl
  | cons e l ih => exact (ih (captureWord e (s, j)).1 (captureWord e (s, j)).2).trans (by simp)
@[simp] theorem captureFold_share (l : List CapEntry) (j : Bool) :
    ((l.foldl (fun acc e => captureWord e acc) (s, j)).1).share = s.share := by induction l generalizing s j with
  | nil => rfl
  | cons e l ih => exact (ih (captureWord e (s, j)).1 (captureWord e (s, j)).2).trans (by simp)
@[simp] theorem captureFold_passover (l : List CapEntry) (j : Bool) :
    ((l.foldl (fun acc e => captureWord e acc) (s, j)).1).passover = s.passover := by induction l generalizing s j with
  | nil => rfl
  | cons e l ih => exact (ih (captureWord e (s, j)).1 (captureWord e (s, j)).2).trans (by simp)
@[simp] theorem captureFold_mside (l : List CapEntry) (j : Bool) :
    ((l.foldl (fun acc e => captureWord e acc) (s, j)).1).mside = s.mside := by induction l generalizing s j with
  | nil => rfl
  | cons e l ih => exact (ih (captureWord e (s, j)).1 (captureWord e (s, j)).2).trans (by simp)
@[simp] theorem captureFold_cside (l : List CapEntry) (j : Bool) :
    ((l.foldl (fun acc e => captureWord e acc) (s, j)).1).cside = s.cside := by induction l generalizing s j with
  | nil => rfl
  | cons e l ih => exact (ih (captureWord e (s, j)).1 (captureWord e (s, j)).2).trans (by simp)
@[simp] theorem captureFold_engine (l : List CapEntry) (j : Bool) :
    ((l.foldl (fun acc e => captureWord e acc) (s, j)).1).engine = s.engine := by induction l generalizing s j with
  | nil => rfl
  | cons e l ih => exact (ih (captureWord e (s, j)).1 (captureWord e (s, j)).2).trans (by simp)
@[simp] theorem captureFold_latch (l : List CapEntry) (j : Bool) :
    ((l.foldl (fun acc e => captureWord e acc) (s, j)).1).latch = s.latch := by induction l generalizing s j with
  | nil => rfl
  | cons e l ih => exact (ih (captureWord e (s, j)).1 (captureWord e (s, j)).2).trans (by simp)
@[simp] theorem captureFold_frames (l : List CapEntry) (j : Bool) :
    ((l.foldl (fun acc e => captureWord e acc) (s, j)).1).frames = s.frames := by induction l generalizing s j with
  | nil => rfl
  | cons e l ih => exact (ih (captureWord e (s, j)).1 (captureWord e (s, j)).2).trans (by simp)
@[simp] theorem captureFold_objects (l : List CapEntry) (j : Bool) :
    ((l.foldl (fun acc e => captureWord e acc) (s, j)).1).objects = s.objects := by induction l generalizing s j with
  | nil => rfl
  | cons e l ih => exact (ih (captureWord e (s, j)).1 (captureWord e (s, j)).2).trans (by simp)
@[simp] theorem captureFold_colours (l : List CapEntry) (j : Bool) :
    ((l.foldl (fun acc e => captureWord e acc) (s, j)).1).colours = s.colours := by induction l generalizing s j with
  | nil => rfl
  | cons e l ih => exact (ih (captureWord e (s, j)).1 (captureWord e (s, j)).2).trans (by simp)
@[simp] theorem captureFold_list (l : List CapEntry) (j : Bool) :
    ((l.foldl (fun acc e => captureWord e acc) (s, j)).1).list = s.list := by induction l generalizing s j with
  | nil => rfl
  | cons e l ih => exact (ih (captureWord e (s, j)).1 (captureWord e (s, j)).2).trans (by simp)
@[simp] theorem captureFold_buttons (l : List CapEntry) (j : Bool) :
    ((l.foldl (fun acc e => captureWord e acc) (s, j)).1).buttons = s.buttons := by induction l generalizing s j with
  | nil => rfl
  | cons e l ih => exact (ih (captureWord e (s, j)).1 (captureWord e (s, j)).2).trans (by simp)
@[simp] theorem captureFold_tiles (l : List CapEntry) (j : Bool) :
    ((l.foldl (fun acc e => captureWord e acc) (s, j)).1).tiles = s.tiles := by induction l generalizing s j with
  | nil => rfl
  | cons e l ih => exact (ih (captureWord e (s, j)).1 (captureWord e (s, j)).2).trans (by simp)
@[simp] theorem captureFold_render (l : List CapEntry) (j : Bool) :
    ((l.foldl (fun acc e => captureWord e acc) (s, j)).1).render = s.render := by induction l generalizing s j with
  | nil => rfl
  | cons e l ih => exact (ih (captureWord e (s, j)).1 (captureWord e (s, j)).2).trans (by simp)
@[simp] theorem captureFold_page (l : List CapEntry) (j : Bool) :
    ((l.foldl (fun acc e => captureWord e acc) (s, j)).1).page = s.page := by induction l generalizing s j with
  | nil => rfl
  | cons e l ih => exact (ih (captureWord e (s, j)).1 (captureWord e (s, j)).2).trans (by simp)
@[simp] theorem captureFold_reports (l : List CapEntry) (j : Bool) :
    ((l.foldl (fun acc e => captureWord e acc) (s, j)).1).reports = s.reports := by induction l generalizing s j with
  | nil => rfl
  | cons e l ih => exact (ih (captureWord e (s, j)).1 (captureWord e (s, j)).2).trans (by simp)

@[simp] theorem captureWords_pending (l : List CapEntry) :
    (captureWords l s).pending = s.pending := by unfold captureWords; dsimp only; split <;> simp
@[simp] theorem captureWords_resetLine (l : List CapEntry) :
    (captureWords l s).resetLine = s.resetLine := by unfold captureWords; dsimp only; split <;> simp
@[simp] theorem captureWords_resetDue (l : List CapEntry) :
    (captureWords l s).resetDue = s.resetDue := by unfold captureWords; dsimp only; split <;> simp
@[simp] theorem captureWords_urgent (l : List CapEntry) :
    (captureWords l s).urgent = s.urgent := by unfold captureWords; dsimp only; split <;> simp
@[simp] theorem captureWords_path (l : List CapEntry) :
    (captureWords l s).path = s.path := by unfold captureWords; dsimp only; split <;> simp
@[simp] theorem captureWords_share (l : List CapEntry) :
    (captureWords l s).share = s.share := by unfold captureWords; dsimp only; split <;> simp
@[simp] theorem captureWords_passover (l : List CapEntry) :
    (captureWords l s).passover = s.passover := by unfold captureWords; dsimp only; split <;> simp
@[simp] theorem captureWords_mside (l : List CapEntry) :
    (captureWords l s).mside = s.mside := by unfold captureWords; dsimp only; split <;> simp
@[simp] theorem captureWords_cside (l : List CapEntry) :
    (captureWords l s).cside = s.cside := by unfold captureWords; dsimp only; split <;> simp
@[simp] theorem captureWords_engine (l : List CapEntry) :
    (captureWords l s).engine = s.engine := by unfold captureWords; dsimp only; split <;> simp
@[simp] theorem captureWords_latch (l : List CapEntry) :
    (captureWords l s).latch = s.latch := by unfold captureWords; dsimp only; split <;> simp
@[simp] theorem captureWords_frames (l : List CapEntry) :
    (captureWords l s).frames = s.frames := by unfold captureWords; dsimp only; split <;> simp
@[simp] theorem captureWords_objects (l : List CapEntry) :
    (captureWords l s).objects = s.objects := by unfold captureWords; dsimp only; split <;> simp
@[simp] theorem captureWords_colours (l : List CapEntry) :
    (captureWords l s).colours = s.colours := by unfold captureWords; dsimp only; split <;> simp
@[simp] theorem captureWords_list (l : List CapEntry) :
    (captureWords l s).list = s.list := by unfold captureWords; dsimp only; split <;> simp
@[simp] theorem captureWords_buttons (l : List CapEntry) :
    (captureWords l s).buttons = s.buttons := by unfold captureWords; dsimp only; split <;> simp
@[simp] theorem captureWords_tiles (l : List CapEntry) :
    (captureWords l s).tiles = s.tiles := by unfold captureWords; dsimp only; split <;> simp
@[simp] theorem captureWords_render (l : List CapEntry) :
    (captureWords l s).render = s.render := by unfold captureWords; dsimp only; split <;> simp
@[simp] theorem captureWords_page (l : List CapEntry) :
    (captureWords l s).page = s.page := by unfold captureWords; dsimp only; split <;> simp
@[simp] theorem captureWords_reports (l : List CapEntry) :
    (captureWords l s).reports = s.reports := by unfold captureWords; dsimp only; split <;> simp

@[simp] theorem wake_pending :
    (wake s).pending = s.pending := by unfold wake; (repeat' split) <;> simp
@[simp] theorem wake_resetLine :
    (wake s).resetLine = s.resetLine := by unfold wake; (repeat' split) <;> simp
@[simp] theorem wake_resetDue :
    (wake s).resetDue = s.resetDue := by unfold wake; (repeat' split) <;> simp
@[simp] theorem wake_urgent :
    (wake s).urgent = s.urgent := by unfold wake; (repeat' split) <;> simp
@[simp] theorem wake_path :
    (wake s).path = s.path := by unfold wake; (repeat' split) <;> simp
@[simp] theorem wake_share :
    (wake s).share = s.share := by unfold wake; (repeat' split) <;> simp
@[simp] theorem wake_passover :
    (wake s).passover = s.passover := by unfold wake; (repeat' split) <;> simp
@[simp] theorem wake_mside :
    (wake s).mside = s.mside := by unfold wake; (repeat' split) <;> simp
@[simp] theorem wake_cside :
    (wake s).cside = s.cside := by unfold wake; (repeat' split) <;> simp
@[simp] theorem wake_latch :
    (wake s).latch = s.latch := by unfold wake; (repeat' split) <;> simp
@[simp] theorem wake_frames :
    (wake s).frames = s.frames := by unfold wake; (repeat' split) <;> simp
@[simp] theorem wake_intake :
    (wake s).intake = s.intake := by unfold wake; (repeat' split) <;> simp
@[simp] theorem wake_objects :
    (wake s).objects = s.objects := by unfold wake; (repeat' split) <;> simp
@[simp] theorem wake_colours :
    (wake s).colours = s.colours := by unfold wake; (repeat' split) <;> simp
@[simp] theorem wake_list :
    (wake s).list = s.list := by unfold wake; (repeat' split) <;> simp
@[simp] theorem wake_buttons :
    (wake s).buttons = s.buttons := by unfold wake; (repeat' split) <;> simp
@[simp] theorem wake_tiles :
    (wake s).tiles = s.tiles := by unfold wake; (repeat' split) <;> simp
@[simp] theorem wake_render :
    (wake s).render = s.render := by unfold wake; (repeat' split) <;> simp
@[simp] theorem wake_page :
    (wake s).page = s.page := by unfold wake; (repeat' split) <;> simp
@[simp] theorem wake_reports :
    (wake s).reports = s.reports := by unfold wake; (repeat' split) <;> simp

@[simp] theorem enterExecuting_pending :
    (enterExecuting s).pending = s.pending := by unfold enterExecuting; (repeat' split) <;> simp
@[simp] theorem enterExecuting_resetLine :
    (enterExecuting s).resetLine = s.resetLine := by unfold enterExecuting; (repeat' split) <;> simp
@[simp] theorem enterExecuting_resetDue :
    (enterExecuting s).resetDue = s.resetDue := by unfold enterExecuting; (repeat' split) <;> simp
@[simp] theorem enterExecuting_urgent :
    (enterExecuting s).urgent = s.urgent := by unfold enterExecuting; (repeat' split) <;> simp
@[simp] theorem enterExecuting_path :
    (enterExecuting s).path = s.path := by unfold enterExecuting; (repeat' split) <;> simp
@[simp] theorem enterExecuting_share :
    (enterExecuting s).share = s.share := by unfold enterExecuting; (repeat' split) <;> simp
@[simp] theorem enterExecuting_passover :
    (enterExecuting s).passover = s.passover := by unfold enterExecuting; (repeat' split) <;> simp
@[simp] theorem enterExecuting_mside :
    (enterExecuting s).mside = s.mside := by unfold enterExecuting; (repeat' split) <;> simp
@[simp] theorem enterExecuting_cside :
    (enterExecuting s).cside = s.cside := by unfold enterExecuting; (repeat' split) <;> simp
@[simp] theorem enterExecuting_engine :
    (enterExecuting s).engine = s.engine := by unfold enterExecuting; (repeat' split) <;> simp
@[simp] theorem enterExecuting_latch :
    (enterExecuting s).latch = s.latch := by unfold enterExecuting; (repeat' split) <;> simp
@[simp] theorem enterExecuting_frames :
    (enterExecuting s).frames = s.frames := by unfold enterExecuting; (repeat' split) <;> simp
@[simp] theorem enterExecuting_objects :
    (enterExecuting s).objects = s.objects := by unfold enterExecuting; (repeat' split) <;> simp
@[simp] theorem enterExecuting_colours :
    (enterExecuting s).colours = s.colours := by unfold enterExecuting; (repeat' split) <;> simp
@[simp] theorem enterExecuting_list :
    (enterExecuting s).list = s.list := by unfold enterExecuting; (repeat' split) <;> simp
@[simp] theorem enterExecuting_buttons :
    (enterExecuting s).buttons = s.buttons := by unfold enterExecuting; (repeat' split) <;> simp
@[simp] theorem enterExecuting_tiles :
    (enterExecuting s).tiles = s.tiles := by unfold enterExecuting; (repeat' split) <;> simp
@[simp] theorem enterExecuting_render :
    (enterExecuting s).render = s.render := by unfold enterExecuting; (repeat' split) <;> simp
@[simp] theorem enterExecuting_page :
    (enterExecuting s).page = s.page := by unfold enterExecuting; (repeat' split) <;> simp

@[simp] theorem beginRefetch_pending :
    (beginRefetch s).pending = s.pending := by unfold beginRefetch; (repeat' split) <;> simp
@[simp] theorem beginRefetch_resetLine :
    (beginRefetch s).resetLine = s.resetLine := by unfold beginRefetch; (repeat' split) <;> simp
@[simp] theorem beginRefetch_resetDue :
    (beginRefetch s).resetDue = s.resetDue := by unfold beginRefetch; (repeat' split) <;> simp
@[simp] theorem beginRefetch_urgent :
    (beginRefetch s).urgent = s.urgent := by unfold beginRefetch; (repeat' split) <;> simp
@[simp] theorem beginRefetch_path :
    (beginRefetch s).path = s.path := by unfold beginRefetch; (repeat' split) <;> simp
@[simp] theorem beginRefetch_share :
    (beginRefetch s).share = s.share := by unfold beginRefetch; (repeat' split) <;> simp
@[simp] theorem beginRefetch_passover :
    (beginRefetch s).passover = s.passover := by unfold beginRefetch; (repeat' split) <;> simp
@[simp] theorem beginRefetch_mside :
    (beginRefetch s).mside = s.mside := by unfold beginRefetch; (repeat' split) <;> simp
@[simp] theorem beginRefetch_cside :
    (beginRefetch s).cside = s.cside := by unfold beginRefetch; (repeat' split) <;> simp
@[simp] theorem beginRefetch_engine :
    (beginRefetch s).engine = s.engine := by unfold beginRefetch; (repeat' split) <;> simp
@[simp] theorem beginRefetch_latch :
    (beginRefetch s).latch = s.latch := by unfold beginRefetch; (repeat' split) <;> simp
@[simp] theorem beginRefetch_frames :
    (beginRefetch s).frames = s.frames := by unfold beginRefetch; (repeat' split) <;> simp
@[simp] theorem beginRefetch_objects :
    (beginRefetch s).objects = s.objects := by unfold beginRefetch; (repeat' split) <;> simp
@[simp] theorem beginRefetch_colours :
    (beginRefetch s).colours = s.colours := by unfold beginRefetch; (repeat' split) <;> simp
@[simp] theorem beginRefetch_list :
    (beginRefetch s).list = s.list := by unfold beginRefetch; (repeat' split) <;> simp
@[simp] theorem beginRefetch_buttons :
    (beginRefetch s).buttons = s.buttons := by unfold beginRefetch; (repeat' split) <;> simp
@[simp] theorem beginRefetch_tiles :
    (beginRefetch s).tiles = s.tiles := by unfold beginRefetch; (repeat' split) <;> simp
@[simp] theorem beginRefetch_render :
    (beginRefetch s).render = s.render := by unfold beginRefetch; (repeat' split) <;> simp
@[simp] theorem beginRefetch_page :
    (beginRefetch s).page = s.page := by unfold beginRefetch; (repeat' split) <;> simp
@[simp] theorem beginRefetch_reports :
    (beginRefetch s).reports = s.reports := by unfold beginRefetch; (repeat' split) <;> simp

@[simp] theorem commit_pending (h : Word) :
    (commit h s).pending = s.pending := by unfold commit; dsimp only; (repeat' split) <;> simp
@[simp] theorem commit_resetLine (h : Word) :
    (commit h s).resetLine = s.resetLine := by unfold commit; dsimp only; (repeat' split) <;> simp
@[simp] theorem commit_resetDue (h : Word) :
    (commit h s).resetDue = s.resetDue := by unfold commit; dsimp only; (repeat' split) <;> simp
@[simp] theorem commit_urgent (h : Word) :
    (commit h s).urgent = s.urgent := by unfold commit; dsimp only; (repeat' split) <;> simp
@[simp] theorem commit_path (h : Word) :
    (commit h s).path = s.path := by unfold commit; dsimp only; (repeat' split) <;> simp
@[simp] theorem commit_share (h : Word) :
    (commit h s).share = s.share := by unfold commit; dsimp only; (repeat' split) <;> simp
@[simp] theorem commit_passover (h : Word) :
    (commit h s).passover = s.passover := by unfold commit; dsimp only; (repeat' split) <;> simp
@[simp] theorem commit_mside (h : Word) :
    (commit h s).mside = s.mside := by unfold commit; dsimp only; (repeat' split) <;> simp
@[simp] theorem commit_cside (h : Word) :
    (commit h s).cside = s.cside := by unfold commit; dsimp only; (repeat' split) <;> simp
@[simp] theorem commit_latch (h : Word) :
    (commit h s).latch = s.latch := by unfold commit; dsimp only; (repeat' split) <;> simp
@[simp] theorem commit_frames (h : Word) :
    (commit h s).frames = s.frames := by unfold commit; dsimp only; (repeat' split) <;> simp
@[simp] theorem commit_objects (h : Word) :
    (commit h s).objects = s.objects := by unfold commit; dsimp only; (repeat' split) <;> simp
@[simp] theorem commit_colours (h : Word) :
    (commit h s).colours = s.colours := by unfold commit; dsimp only; (repeat' split) <;> simp
@[simp] theorem commit_list (h : Word) :
    (commit h s).list = s.list := by unfold commit; dsimp only; (repeat' split) <;> simp
@[simp] theorem commit_buttons (h : Word) :
    (commit h s).buttons = s.buttons := by unfold commit; dsimp only; (repeat' split) <;> simp
@[simp] theorem commit_tiles (h : Word) :
    (commit h s).tiles = s.tiles := by unfold commit; dsimp only; (repeat' split) <;> simp
@[simp] theorem commit_render (h : Word) :
    (commit h s).render = s.render := by unfold commit; dsimp only; (repeat' split) <;> simp
@[simp] theorem commit_page (h : Word) :
    (commit h s).page = s.page := by unfold commit; dsimp only; (repeat' split) <;> simp

@[simp] theorem commitCheck_pending :
    (commitCheck s).pending = s.pending := by unfold commitCheck; (repeat' split) <;> simp
@[simp] theorem commitCheck_resetLine :
    (commitCheck s).resetLine = s.resetLine := by unfold commitCheck; (repeat' split) <;> simp
@[simp] theorem commitCheck_resetDue :
    (commitCheck s).resetDue = s.resetDue := by unfold commitCheck; (repeat' split) <;> simp
@[simp] theorem commitCheck_urgent :
    (commitCheck s).urgent = s.urgent := by unfold commitCheck; (repeat' split) <;> simp
@[simp] theorem commitCheck_path :
    (commitCheck s).path = s.path := by unfold commitCheck; (repeat' split) <;> simp
@[simp] theorem commitCheck_share :
    (commitCheck s).share = s.share := by unfold commitCheck; (repeat' split) <;> simp
@[simp] theorem commitCheck_passover :
    (commitCheck s).passover = s.passover := by unfold commitCheck; (repeat' split) <;> simp
@[simp] theorem commitCheck_mside :
    (commitCheck s).mside = s.mside := by unfold commitCheck; (repeat' split) <;> simp
@[simp] theorem commitCheck_cside :
    (commitCheck s).cside = s.cside := by unfold commitCheck; (repeat' split) <;> simp
@[simp] theorem commitCheck_latch :
    (commitCheck s).latch = s.latch := by unfold commitCheck; (repeat' split) <;> simp
@[simp] theorem commitCheck_frames :
    (commitCheck s).frames = s.frames := by unfold commitCheck; (repeat' split) <;> simp
@[simp] theorem commitCheck_objects :
    (commitCheck s).objects = s.objects := by unfold commitCheck; (repeat' split) <;> simp
@[simp] theorem commitCheck_colours :
    (commitCheck s).colours = s.colours := by unfold commitCheck; (repeat' split) <;> simp
@[simp] theorem commitCheck_list :
    (commitCheck s).list = s.list := by unfold commitCheck; (repeat' split) <;> simp
@[simp] theorem commitCheck_buttons :
    (commitCheck s).buttons = s.buttons := by unfold commitCheck; (repeat' split) <;> simp
@[simp] theorem commitCheck_tiles :
    (commitCheck s).tiles = s.tiles := by unfold commitCheck; (repeat' split) <;> simp
@[simp] theorem commitCheck_render :
    (commitCheck s).render = s.render := by unfold commitCheck; (repeat' split) <;> simp
@[simp] theorem commitCheck_page :
    (commitCheck s).page = s.page := by unfold commitCheck; (repeat' split) <;> simp

@[simp] theorem drainInto_pending (e : CapEntry) (rest : List CapEntry) :
    (drainInto e rest s).pending = s.pending := by unfold drainInto; dsimp only; (repeat' split) <;> simp
@[simp] theorem drainInto_resetLine (e : CapEntry) (rest : List CapEntry) :
    (drainInto e rest s).resetLine = s.resetLine := by unfold drainInto; dsimp only; (repeat' split) <;> simp
@[simp] theorem drainInto_resetDue (e : CapEntry) (rest : List CapEntry) :
    (drainInto e rest s).resetDue = s.resetDue := by unfold drainInto; dsimp only; (repeat' split) <;> simp
@[simp] theorem drainInto_urgent (e : CapEntry) (rest : List CapEntry) :
    (drainInto e rest s).urgent = s.urgent := by unfold drainInto; dsimp only; (repeat' split) <;> simp
@[simp] theorem drainInto_path (e : CapEntry) (rest : List CapEntry) :
    (drainInto e rest s).path = s.path := by unfold drainInto; dsimp only; (repeat' split) <;> simp
@[simp] theorem drainInto_share (e : CapEntry) (rest : List CapEntry) :
    (drainInto e rest s).share = s.share := by unfold drainInto; dsimp only; (repeat' split) <;> simp
@[simp] theorem drainInto_passover (e : CapEntry) (rest : List CapEntry) :
    (drainInto e rest s).passover = s.passover := by unfold drainInto; dsimp only; (repeat' split) <;> simp
@[simp] theorem drainInto_mside (e : CapEntry) (rest : List CapEntry) :
    (drainInto e rest s).mside = s.mside := by unfold drainInto; dsimp only; (repeat' split) <;> simp
@[simp] theorem drainInto_cside (e : CapEntry) (rest : List CapEntry) :
    (drainInto e rest s).cside = s.cside := by unfold drainInto; dsimp only; (repeat' split) <;> simp
@[simp] theorem drainInto_latch (e : CapEntry) (rest : List CapEntry) :
    (drainInto e rest s).latch = s.latch := by unfold drainInto; dsimp only; (repeat' split) <;> simp
@[simp] theorem drainInto_frames (e : CapEntry) (rest : List CapEntry) :
    (drainInto e rest s).frames = s.frames := by unfold drainInto; dsimp only; (repeat' split) <;> simp
@[simp] theorem drainInto_objects (e : CapEntry) (rest : List CapEntry) :
    (drainInto e rest s).objects = s.objects := by unfold drainInto; dsimp only; (repeat' split) <;> simp
@[simp] theorem drainInto_colours (e : CapEntry) (rest : List CapEntry) :
    (drainInto e rest s).colours = s.colours := by unfold drainInto; dsimp only; (repeat' split) <;> simp
@[simp] theorem drainInto_list (e : CapEntry) (rest : List CapEntry) :
    (drainInto e rest s).list = s.list := by unfold drainInto; dsimp only; (repeat' split) <;> simp
@[simp] theorem drainInto_buttons (e : CapEntry) (rest : List CapEntry) :
    (drainInto e rest s).buttons = s.buttons := by unfold drainInto; dsimp only; (repeat' split) <;> simp
@[simp] theorem drainInto_tiles (e : CapEntry) (rest : List CapEntry) :
    (drainInto e rest s).tiles = s.tiles := by unfold drainInto; dsimp only; (repeat' split) <;> simp
@[simp] theorem drainInto_render (e : CapEntry) (rest : List CapEntry) :
    (drainInto e rest s).render = s.render := by unfold drainInto; dsimp only; (repeat' split) <;> simp
@[simp] theorem drainInto_page (e : CapEntry) (rest : List CapEntry) :
    (drainInto e rest s).page = s.page := by unfold drainInto; dsimp only; (repeat' split) <;> simp

@[simp] theorem halt_pending (k : Nat) :
    (halt k s).pending = s.pending := by simp [halt]
@[simp] theorem halt_resetLine (k : Nat) :
    (halt k s).resetLine = s.resetLine := by simp [halt]
@[simp] theorem halt_resetDue (k : Nat) :
    (halt k s).resetDue = s.resetDue := by simp [halt]
@[simp] theorem halt_urgent (k : Nat) :
    (halt k s).urgent = s.urgent := by simp [halt]
@[simp] theorem halt_path (k : Nat) :
    (halt k s).path = s.path := by simp [halt]
@[simp] theorem halt_share (k : Nat) :
    (halt k s).share = s.share := by simp [halt]
@[simp] theorem halt_passover (k : Nat) :
    (halt k s).passover = s.passover := by simp [halt]
@[simp] theorem halt_mside (k : Nat) :
    (halt k s).mside = s.mside := by simp [halt]
@[simp] theorem halt_cside (k : Nat) :
    (halt k s).cside = s.cside := by simp [halt]
@[simp] theorem halt_engine (k : Nat) :
    (halt k s).engine = s.engine := by simp [halt]
@[simp] theorem halt_latch (k : Nat) :
    (halt k s).latch = s.latch := by simp [halt]
@[simp] theorem halt_frames (k : Nat) :
    (halt k s).frames = s.frames := by simp [halt]
@[simp] theorem halt_objects (k : Nat) :
    (halt k s).objects = s.objects := by simp [halt]
@[simp] theorem halt_colours (k : Nat) :
    (halt k s).colours = s.colours := by simp [halt]
@[simp] theorem halt_list (k : Nat) :
    (halt k s).list = s.list := by simp [halt]
@[simp] theorem halt_buttons (k : Nat) :
    (halt k s).buttons = s.buttons := by simp [halt]
@[simp] theorem halt_tiles (k : Nat) :
    (halt k s).tiles = s.tiles := by simp [halt]
@[simp] theorem halt_render (k : Nat) :
    (halt k s).render = s.render := by simp [halt]
@[simp] theorem halt_page (k : Nat) :
    (halt k s).page = s.page := by simp [halt]

@[simp] theorem handDeferred_pending :
    (handDeferred s).pending = s.pending := by unfold handDeferred; (repeat' split) <;> simp
@[simp] theorem handDeferred_resetLine :
    (handDeferred s).resetLine = s.resetLine := by unfold handDeferred; (repeat' split) <;> simp
@[simp] theorem handDeferred_resetDue :
    (handDeferred s).resetDue = s.resetDue := by unfold handDeferred; (repeat' split) <;> simp
@[simp] theorem handDeferred_urgent :
    (handDeferred s).urgent = s.urgent := by unfold handDeferred; (repeat' split) <;> simp
@[simp] theorem handDeferred_path :
    (handDeferred s).path = s.path := by unfold handDeferred; (repeat' split) <;> simp
@[simp] theorem handDeferred_share :
    (handDeferred s).share = s.share := by unfold handDeferred; (repeat' split) <;> simp
@[simp] theorem handDeferred_passover :
    (handDeferred s).passover = s.passover := by unfold handDeferred; (repeat' split) <;> simp
@[simp] theorem handDeferred_mside :
    (handDeferred s).mside = s.mside := by unfold handDeferred; (repeat' split) <;> simp
@[simp] theorem handDeferred_cside :
    (handDeferred s).cside = s.cside := by unfold handDeferred; (repeat' split) <;> simp
@[simp] theorem handDeferred_engine :
    (handDeferred s).engine = s.engine := by unfold handDeferred; (repeat' split) <;> simp
@[simp] theorem handDeferred_latch :
    (handDeferred s).latch = s.latch := by unfold handDeferred; (repeat' split) <;> simp
@[simp] theorem handDeferred_frames :
    (handDeferred s).frames = s.frames := by unfold handDeferred; (repeat' split) <;> simp
@[simp] theorem handDeferred_objects :
    (handDeferred s).objects = s.objects := by unfold handDeferred; (repeat' split) <;> simp
@[simp] theorem handDeferred_colours :
    (handDeferred s).colours = s.colours := by unfold handDeferred; (repeat' split) <;> simp
@[simp] theorem handDeferred_list :
    (handDeferred s).list = s.list := by unfold handDeferred; (repeat' split) <;> simp
@[simp] theorem handDeferred_buttons :
    (handDeferred s).buttons = s.buttons := by unfold handDeferred; (repeat' split) <;> simp
@[simp] theorem handDeferred_tiles :
    (handDeferred s).tiles = s.tiles := by unfold handDeferred; (repeat' split) <;> simp
@[simp] theorem handDeferred_render :
    (handDeferred s).render = s.render := by unfold handDeferred; (repeat' split) <;> simp
@[simp] theorem handDeferred_page :
    (handDeferred s).page = s.page := by unfold handDeferred; (repeat' split) <;> simp
@[simp] theorem handDeferred_reports :
    (handDeferred s).reports = s.reports := by unfold handDeferred; (repeat' split) <;> simp

@[simp] theorem treatProbe_pending (st : Fin 4) (w0 : BusWord) (ws : List BusWord) :
    (treatProbe st w0 ws s).pending = s.pending := by unfold treatProbe; (repeat' split) <;> simp
@[simp] theorem treatProbe_resetLine (st : Fin 4) (w0 : BusWord) (ws : List BusWord) :
    (treatProbe st w0 ws s).resetLine = s.resetLine := by unfold treatProbe; (repeat' split) <;> simp
@[simp] theorem treatProbe_resetDue (st : Fin 4) (w0 : BusWord) (ws : List BusWord) :
    (treatProbe st w0 ws s).resetDue = s.resetDue := by unfold treatProbe; (repeat' split) <;> simp
@[simp] theorem treatProbe_urgent (st : Fin 4) (w0 : BusWord) (ws : List BusWord) :
    (treatProbe st w0 ws s).urgent = s.urgent := by unfold treatProbe; (repeat' split) <;> simp
@[simp] theorem treatProbe_path (st : Fin 4) (w0 : BusWord) (ws : List BusWord) :
    (treatProbe st w0 ws s).path = s.path := by unfold treatProbe; (repeat' split) <;> simp
@[simp] theorem treatProbe_share (st : Fin 4) (w0 : BusWord) (ws : List BusWord) :
    (treatProbe st w0 ws s).share = s.share := by unfold treatProbe; (repeat' split) <;> simp
@[simp] theorem treatProbe_passover (st : Fin 4) (w0 : BusWord) (ws : List BusWord) :
    (treatProbe st w0 ws s).passover = s.passover := by unfold treatProbe; (repeat' split) <;> simp
@[simp] theorem treatProbe_mside (st : Fin 4) (w0 : BusWord) (ws : List BusWord) :
    (treatProbe st w0 ws s).mside = s.mside := by unfold treatProbe; (repeat' split) <;> simp
@[simp] theorem treatProbe_cside (st : Fin 4) (w0 : BusWord) (ws : List BusWord) :
    (treatProbe st w0 ws s).cside = s.cside := by unfold treatProbe; (repeat' split) <;> simp
@[simp] theorem treatProbe_latch (st : Fin 4) (w0 : BusWord) (ws : List BusWord) :
    (treatProbe st w0 ws s).latch = s.latch := by unfold treatProbe; (repeat' split) <;> simp
@[simp] theorem treatProbe_frames (st : Fin 4) (w0 : BusWord) (ws : List BusWord) :
    (treatProbe st w0 ws s).frames = s.frames := by unfold treatProbe; (repeat' split) <;> simp
@[simp] theorem treatProbe_objects (st : Fin 4) (w0 : BusWord) (ws : List BusWord) :
    (treatProbe st w0 ws s).objects = s.objects := by unfold treatProbe; (repeat' split) <;> simp
@[simp] theorem treatProbe_colours (st : Fin 4) (w0 : BusWord) (ws : List BusWord) :
    (treatProbe st w0 ws s).colours = s.colours := by unfold treatProbe; (repeat' split) <;> simp
@[simp] theorem treatProbe_list (st : Fin 4) (w0 : BusWord) (ws : List BusWord) :
    (treatProbe st w0 ws s).list = s.list := by unfold treatProbe; (repeat' split) <;> simp
@[simp] theorem treatProbe_buttons (st : Fin 4) (w0 : BusWord) (ws : List BusWord) :
    (treatProbe st w0 ws s).buttons = s.buttons := by unfold treatProbe; (repeat' split) <;> simp
@[simp] theorem treatProbe_tiles (st : Fin 4) (w0 : BusWord) (ws : List BusWord) :
    (treatProbe st w0 ws s).tiles = s.tiles := by unfold treatProbe; (repeat' split) <;> simp
@[simp] theorem treatProbe_render (st : Fin 4) (w0 : BusWord) (ws : List BusWord) :
    (treatProbe st w0 ws s).render = s.render := by unfold treatProbe; (repeat' split) <;> simp
@[simp] theorem treatProbe_page (st : Fin 4) (w0 : BusWord) (ws : List BusWord) :
    (treatProbe st w0 ws s).page = s.page := by unfold treatProbe; (repeat' split) <;> simp

@[simp] theorem probeEffect_pending (st : Fin 4) (w0 : BusWord) (ws : List BusWord) :
    (probeEffect st w0 ws s).pending = s.pending := by unfold probeEffect; (repeat' split) <;> simp
@[simp] theorem probeEffect_resetLine (st : Fin 4) (w0 : BusWord) (ws : List BusWord) :
    (probeEffect st w0 ws s).resetLine = s.resetLine := by unfold probeEffect; (repeat' split) <;> simp
@[simp] theorem probeEffect_resetDue (st : Fin 4) (w0 : BusWord) (ws : List BusWord) :
    (probeEffect st w0 ws s).resetDue = s.resetDue := by unfold probeEffect; (repeat' split) <;> simp
@[simp] theorem probeEffect_urgent (st : Fin 4) (w0 : BusWord) (ws : List BusWord) :
    (probeEffect st w0 ws s).urgent = s.urgent := by unfold probeEffect; (repeat' split) <;> simp
@[simp] theorem probeEffect_path (st : Fin 4) (w0 : BusWord) (ws : List BusWord) :
    (probeEffect st w0 ws s).path = s.path := by unfold probeEffect; (repeat' split) <;> simp
@[simp] theorem probeEffect_share (st : Fin 4) (w0 : BusWord) (ws : List BusWord) :
    (probeEffect st w0 ws s).share = s.share := by unfold probeEffect; (repeat' split) <;> simp
@[simp] theorem probeEffect_passover (st : Fin 4) (w0 : BusWord) (ws : List BusWord) :
    (probeEffect st w0 ws s).passover = s.passover := by unfold probeEffect; (repeat' split) <;> simp
@[simp] theorem probeEffect_mside (st : Fin 4) (w0 : BusWord) (ws : List BusWord) :
    (probeEffect st w0 ws s).mside = s.mside := by unfold probeEffect; (repeat' split) <;> simp
@[simp] theorem probeEffect_cside (st : Fin 4) (w0 : BusWord) (ws : List BusWord) :
    (probeEffect st w0 ws s).cside = s.cside := by unfold probeEffect; (repeat' split) <;> simp
@[simp] theorem probeEffect_latch (st : Fin 4) (w0 : BusWord) (ws : List BusWord) :
    (probeEffect st w0 ws s).latch = s.latch := by unfold probeEffect; (repeat' split) <;> simp
@[simp] theorem probeEffect_frames (st : Fin 4) (w0 : BusWord) (ws : List BusWord) :
    (probeEffect st w0 ws s).frames = s.frames := by unfold probeEffect; (repeat' split) <;> simp
@[simp] theorem probeEffect_objects (st : Fin 4) (w0 : BusWord) (ws : List BusWord) :
    (probeEffect st w0 ws s).objects = s.objects := by unfold probeEffect; (repeat' split) <;> simp
@[simp] theorem probeEffect_colours (st : Fin 4) (w0 : BusWord) (ws : List BusWord) :
    (probeEffect st w0 ws s).colours = s.colours := by unfold probeEffect; (repeat' split) <;> simp
@[simp] theorem probeEffect_list (st : Fin 4) (w0 : BusWord) (ws : List BusWord) :
    (probeEffect st w0 ws s).list = s.list := by unfold probeEffect; (repeat' split) <;> simp
@[simp] theorem probeEffect_buttons (st : Fin 4) (w0 : BusWord) (ws : List BusWord) :
    (probeEffect st w0 ws s).buttons = s.buttons := by unfold probeEffect; (repeat' split) <;> simp
@[simp] theorem probeEffect_tiles (st : Fin 4) (w0 : BusWord) (ws : List BusWord) :
    (probeEffect st w0 ws s).tiles = s.tiles := by unfold probeEffect; (repeat' split) <;> simp
@[simp] theorem probeEffect_render (st : Fin 4) (w0 : BusWord) (ws : List BusWord) :
    (probeEffect st w0 ws s).render = s.render := by unfold probeEffect; (repeat' split) <;> simp
@[simp] theorem probeEffect_page (st : Fin 4) (w0 : BusWord) (ws : List BusWord) :
    (probeEffect st w0 ws s).page = s.page := by unfold probeEffect; (repeat' split) <;> simp

@[simp] theorem refetchWord_pending (r : Refetch) (x : Anchor) (i : Nat) (w : BusWord) :
    (refetchWord r x i w s).pending = s.pending := by unfold refetchWord; (repeat' split) <;> simp
@[simp] theorem refetchWord_resetLine (r : Refetch) (x : Anchor) (i : Nat) (w : BusWord) :
    (refetchWord r x i w s).resetLine = s.resetLine := by unfold refetchWord; (repeat' split) <;> simp
@[simp] theorem refetchWord_resetDue (r : Refetch) (x : Anchor) (i : Nat) (w : BusWord) :
    (refetchWord r x i w s).resetDue = s.resetDue := by unfold refetchWord; (repeat' split) <;> simp
@[simp] theorem refetchWord_urgent (r : Refetch) (x : Anchor) (i : Nat) (w : BusWord) :
    (refetchWord r x i w s).urgent = s.urgent := by unfold refetchWord; (repeat' split) <;> simp
@[simp] theorem refetchWord_path (r : Refetch) (x : Anchor) (i : Nat) (w : BusWord) :
    (refetchWord r x i w s).path = s.path := by unfold refetchWord; (repeat' split) <;> simp
@[simp] theorem refetchWord_share (r : Refetch) (x : Anchor) (i : Nat) (w : BusWord) :
    (refetchWord r x i w s).share = s.share := by unfold refetchWord; (repeat' split) <;> simp
@[simp] theorem refetchWord_passover (r : Refetch) (x : Anchor) (i : Nat) (w : BusWord) :
    (refetchWord r x i w s).passover = s.passover := by unfold refetchWord; (repeat' split) <;> simp
@[simp] theorem refetchWord_mside (r : Refetch) (x : Anchor) (i : Nat) (w : BusWord) :
    (refetchWord r x i w s).mside = s.mside := by unfold refetchWord; (repeat' split) <;> simp
@[simp] theorem refetchWord_cside (r : Refetch) (x : Anchor) (i : Nat) (w : BusWord) :
    (refetchWord r x i w s).cside = s.cside := by unfold refetchWord; (repeat' split) <;> simp
@[simp] theorem refetchWord_waiting (r : Refetch) (x : Anchor) (i : Nat) (w : BusWord) :
    (refetchWord r x i w s).waiting = s.waiting := by unfold refetchWord; (repeat' split) <;> simp
@[simp] theorem refetchWord_engine (r : Refetch) (x : Anchor) (i : Nat) (w : BusWord) :
    (refetchWord r x i w s).engine = s.engine := by unfold refetchWord; (repeat' split) <;> simp
@[simp] theorem refetchWord_latch (r : Refetch) (x : Anchor) (i : Nat) (w : BusWord) :
    (refetchWord r x i w s).latch = s.latch := by unfold refetchWord; (repeat' split) <;> simp
@[simp] theorem refetchWord_frames (r : Refetch) (x : Anchor) (i : Nat) (w : BusWord) :
    (refetchWord r x i w s).frames = s.frames := by unfold refetchWord; (repeat' split) <;> simp
@[simp] theorem refetchWord_objects (r : Refetch) (x : Anchor) (i : Nat) (w : BusWord) :
    (refetchWord r x i w s).objects = s.objects := by unfold refetchWord; (repeat' split) <;> simp
@[simp] theorem refetchWord_colours (r : Refetch) (x : Anchor) (i : Nat) (w : BusWord) :
    (refetchWord r x i w s).colours = s.colours := by unfold refetchWord; (repeat' split) <;> simp
@[simp] theorem refetchWord_list (r : Refetch) (x : Anchor) (i : Nat) (w : BusWord) :
    (refetchWord r x i w s).list = s.list := by unfold refetchWord; (repeat' split) <;> simp
@[simp] theorem refetchWord_buttons (r : Refetch) (x : Anchor) (i : Nat) (w : BusWord) :
    (refetchWord r x i w s).buttons = s.buttons := by unfold refetchWord; (repeat' split) <;> simp
@[simp] theorem refetchWord_tiles (r : Refetch) (x : Anchor) (i : Nat) (w : BusWord) :
    (refetchWord r x i w s).tiles = s.tiles := by unfold refetchWord; (repeat' split) <;> simp
@[simp] theorem refetchWord_render (r : Refetch) (x : Anchor) (i : Nat) (w : BusWord) :
    (refetchWord r x i w s).render = s.render := by unfold refetchWord; (repeat' split) <;> simp
@[simp] theorem refetchWord_page (r : Refetch) (x : Anchor) (i : Nat) (w : BusWord) :
    (refetchWord r x i w s).page = s.page := by unfold refetchWord; (repeat' split) <;> simp
@[simp] theorem refetchWord_reports (r : Refetch) (x : Anchor) (i : Nat) (w : BusWord) :
    (refetchWord r x i w s).reports = s.reports := by unfold refetchWord; (repeat' split) <;> simp

@[simp] theorem refetchArrival_pending (req : LineReq) (g : Nat) (w : BusWord) :
    (refetchArrival req g w s).pending = s.pending := by unfold refetchArrival; (repeat' split) <;> simp
@[simp] theorem refetchArrival_resetLine (req : LineReq) (g : Nat) (w : BusWord) :
    (refetchArrival req g w s).resetLine = s.resetLine := by unfold refetchArrival; (repeat' split) <;> simp
@[simp] theorem refetchArrival_resetDue (req : LineReq) (g : Nat) (w : BusWord) :
    (refetchArrival req g w s).resetDue = s.resetDue := by unfold refetchArrival; (repeat' split) <;> simp
@[simp] theorem refetchArrival_urgent (req : LineReq) (g : Nat) (w : BusWord) :
    (refetchArrival req g w s).urgent = s.urgent := by unfold refetchArrival; (repeat' split) <;> simp
@[simp] theorem refetchArrival_path (req : LineReq) (g : Nat) (w : BusWord) :
    (refetchArrival req g w s).path = s.path := by unfold refetchArrival; (repeat' split) <;> simp
@[simp] theorem refetchArrival_share (req : LineReq) (g : Nat) (w : BusWord) :
    (refetchArrival req g w s).share = s.share := by unfold refetchArrival; (repeat' split) <;> simp
@[simp] theorem refetchArrival_passover (req : LineReq) (g : Nat) (w : BusWord) :
    (refetchArrival req g w s).passover = s.passover := by unfold refetchArrival; (repeat' split) <;> simp
@[simp] theorem refetchArrival_mside (req : LineReq) (g : Nat) (w : BusWord) :
    (refetchArrival req g w s).mside = s.mside := by unfold refetchArrival; (repeat' split) <;> simp
@[simp] theorem refetchArrival_cside (req : LineReq) (g : Nat) (w : BusWord) :
    (refetchArrival req g w s).cside = s.cside := by unfold refetchArrival; (repeat' split) <;> simp
@[simp] theorem refetchArrival_waiting (req : LineReq) (g : Nat) (w : BusWord) :
    (refetchArrival req g w s).waiting = s.waiting := by unfold refetchArrival; (repeat' split) <;> simp
@[simp] theorem refetchArrival_engine (req : LineReq) (g : Nat) (w : BusWord) :
    (refetchArrival req g w s).engine = s.engine := by unfold refetchArrival; (repeat' split) <;> simp
@[simp] theorem refetchArrival_latch (req : LineReq) (g : Nat) (w : BusWord) :
    (refetchArrival req g w s).latch = s.latch := by unfold refetchArrival; (repeat' split) <;> simp
@[simp] theorem refetchArrival_frames (req : LineReq) (g : Nat) (w : BusWord) :
    (refetchArrival req g w s).frames = s.frames := by unfold refetchArrival; (repeat' split) <;> simp
@[simp] theorem refetchArrival_objects (req : LineReq) (g : Nat) (w : BusWord) :
    (refetchArrival req g w s).objects = s.objects := by unfold refetchArrival; (repeat' split) <;> simp
@[simp] theorem refetchArrival_colours (req : LineReq) (g : Nat) (w : BusWord) :
    (refetchArrival req g w s).colours = s.colours := by unfold refetchArrival; (repeat' split) <;> simp
@[simp] theorem refetchArrival_list (req : LineReq) (g : Nat) (w : BusWord) :
    (refetchArrival req g w s).list = s.list := by unfold refetchArrival; (repeat' split) <;> simp
@[simp] theorem refetchArrival_buttons (req : LineReq) (g : Nat) (w : BusWord) :
    (refetchArrival req g w s).buttons = s.buttons := by unfold refetchArrival; (repeat' split) <;> simp
@[simp] theorem refetchArrival_tiles (req : LineReq) (g : Nat) (w : BusWord) :
    (refetchArrival req g w s).tiles = s.tiles := by unfold refetchArrival; (repeat' split) <;> simp
@[simp] theorem refetchArrival_render (req : LineReq) (g : Nat) (w : BusWord) :
    (refetchArrival req g w s).render = s.render := by unfold refetchArrival; (repeat' split) <;> simp
@[simp] theorem refetchArrival_page (req : LineReq) (g : Nat) (w : BusWord) :
    (refetchArrival req g w s).page = s.page := by unfold refetchArrival; (repeat' split) <;> simp
@[simp] theorem refetchArrival_reports (req : LineReq) (g : Nat) (w : BusWord) :
    (refetchArrival req g w s).reports = s.reports := by unfold refetchArrival; (repeat' split) <;> simp

@[simp] theorem refetchEffect_pending :
    (refetchEffect s).pending = s.pending := by unfold refetchEffect; (repeat' split) <;> simp
@[simp] theorem refetchEffect_resetLine :
    (refetchEffect s).resetLine = s.resetLine := by unfold refetchEffect; (repeat' split) <;> simp
@[simp] theorem refetchEffect_resetDue :
    (refetchEffect s).resetDue = s.resetDue := by unfold refetchEffect; (repeat' split) <;> simp
@[simp] theorem refetchEffect_urgent :
    (refetchEffect s).urgent = s.urgent := by unfold refetchEffect; (repeat' split) <;> simp
@[simp] theorem refetchEffect_path :
    (refetchEffect s).path = s.path := by unfold refetchEffect; (repeat' split) <;> simp
@[simp] theorem refetchEffect_share :
    (refetchEffect s).share = s.share := by unfold refetchEffect; (repeat' split) <;> simp
@[simp] theorem refetchEffect_passover :
    (refetchEffect s).passover = s.passover := by unfold refetchEffect; (repeat' split) <;> simp
@[simp] theorem refetchEffect_mside :
    (refetchEffect s).mside = s.mside := by unfold refetchEffect; (repeat' split) <;> simp
@[simp] theorem refetchEffect_cside :
    (refetchEffect s).cside = s.cside := by unfold refetchEffect; (repeat' split) <;> simp
@[simp] theorem refetchEffect_engine :
    (refetchEffect s).engine = s.engine := by unfold refetchEffect; (repeat' split) <;> simp
@[simp] theorem refetchEffect_latch :
    (refetchEffect s).latch = s.latch := by unfold refetchEffect; (repeat' split) <;> simp
@[simp] theorem refetchEffect_frames :
    (refetchEffect s).frames = s.frames := by unfold refetchEffect; (repeat' split) <;> simp
@[simp] theorem refetchEffect_objects :
    (refetchEffect s).objects = s.objects := by unfold refetchEffect; (repeat' split) <;> simp
@[simp] theorem refetchEffect_colours :
    (refetchEffect s).colours = s.colours := by unfold refetchEffect; (repeat' split) <;> simp
@[simp] theorem refetchEffect_list :
    (refetchEffect s).list = s.list := by unfold refetchEffect; (repeat' split) <;> simp
@[simp] theorem refetchEffect_buttons :
    (refetchEffect s).buttons = s.buttons := by unfold refetchEffect; (repeat' split) <;> simp
@[simp] theorem refetchEffect_tiles :
    (refetchEffect s).tiles = s.tiles := by unfold refetchEffect; (repeat' split) <;> simp
@[simp] theorem refetchEffect_render :
    (refetchEffect s).render = s.render := by unfold refetchEffect; (repeat' split) <;> simp
@[simp] theorem refetchEffect_page :
    (refetchEffect s).page = s.page := by unfold refetchEffect; (repeat' split) <;> simp

@[simp] theorem offerCapture_pending (t : CTxn) :
    (offerCapture t s).pending = s.pending := by simp [offerCapture]
@[simp] theorem offerCapture_resetLine (t : CTxn) :
    (offerCapture t s).resetLine = s.resetLine := by simp [offerCapture]
@[simp] theorem offerCapture_resetDue (t : CTxn) :
    (offerCapture t s).resetDue = s.resetDue := by simp [offerCapture]
@[simp] theorem offerCapture_urgent (t : CTxn) :
    (offerCapture t s).urgent = s.urgent := by simp [offerCapture]
@[simp] theorem offerCapture_path (t : CTxn) :
    (offerCapture t s).path = s.path := by simp [offerCapture]
@[simp] theorem offerCapture_share (t : CTxn) :
    (offerCapture t s).share = s.share := by simp [offerCapture]
@[simp] theorem offerCapture_passover (t : CTxn) :
    (offerCapture t s).passover = s.passover := by simp [offerCapture]
@[simp] theorem offerCapture_mside (t : CTxn) :
    (offerCapture t s).mside = s.mside := by simp [offerCapture]
@[simp] theorem offerCapture_cside (t : CTxn) :
    (offerCapture t s).cside = s.cside := by simp [offerCapture]
@[simp] theorem offerCapture_engine (t : CTxn) :
    (offerCapture t s).engine = s.engine := by simp [offerCapture]
@[simp] theorem offerCapture_latch (t : CTxn) :
    (offerCapture t s).latch = s.latch := by simp [offerCapture]
@[simp] theorem offerCapture_frames (t : CTxn) :
    (offerCapture t s).frames = s.frames := by simp [offerCapture]
@[simp] theorem offerCapture_objects (t : CTxn) :
    (offerCapture t s).objects = s.objects := by simp [offerCapture]
@[simp] theorem offerCapture_colours (t : CTxn) :
    (offerCapture t s).colours = s.colours := by simp [offerCapture]
@[simp] theorem offerCapture_list (t : CTxn) :
    (offerCapture t s).list = s.list := by simp [offerCapture]
@[simp] theorem offerCapture_buttons (t : CTxn) :
    (offerCapture t s).buttons = s.buttons := by simp [offerCapture]
@[simp] theorem offerCapture_tiles (t : CTxn) :
    (offerCapture t s).tiles = s.tiles := by simp [offerCapture]
@[simp] theorem offerCapture_render (t : CTxn) :
    (offerCapture t s).render = s.render := by simp [offerCapture]
@[simp] theorem offerCapture_page (t : CTxn) :
    (offerCapture t s).page = s.page := by simp [offerCapture]

@[simp] theorem latchIndex_pending (v : Nat) :
    (latchIndex v s).pending = s.pending := by unfold latchIndex; (repeat' split) <;> simp
@[simp] theorem latchIndex_resetLine (v : Nat) :
    (latchIndex v s).resetLine = s.resetLine := by unfold latchIndex; (repeat' split) <;> simp
@[simp] theorem latchIndex_resetDue (v : Nat) :
    (latchIndex v s).resetDue = s.resetDue := by unfold latchIndex; (repeat' split) <;> simp
@[simp] theorem latchIndex_urgent (v : Nat) :
    (latchIndex v s).urgent = s.urgent := by unfold latchIndex; (repeat' split) <;> simp
@[simp] theorem latchIndex_path (v : Nat) :
    (latchIndex v s).path = s.path := by unfold latchIndex; (repeat' split) <;> simp
@[simp] theorem latchIndex_share (v : Nat) :
    (latchIndex v s).share = s.share := by unfold latchIndex; (repeat' split) <;> simp
@[simp] theorem latchIndex_passover (v : Nat) :
    (latchIndex v s).passover = s.passover := by unfold latchIndex; (repeat' split) <;> simp
@[simp] theorem latchIndex_mside (v : Nat) :
    (latchIndex v s).mside = s.mside := by unfold latchIndex; (repeat' split) <;> simp
@[simp] theorem latchIndex_cside (v : Nat) :
    (latchIndex v s).cside = s.cside := by unfold latchIndex; (repeat' split) <;> simp
@[simp] theorem latchIndex_engine (v : Nat) :
    (latchIndex v s).engine = s.engine := by unfold latchIndex; (repeat' split) <;> simp
@[simp] theorem latchIndex_latch (v : Nat) :
    (latchIndex v s).latch = s.latch := by unfold latchIndex; (repeat' split) <;> simp
@[simp] theorem latchIndex_frames (v : Nat) :
    (latchIndex v s).frames = s.frames := by unfold latchIndex; (repeat' split) <;> simp
@[simp] theorem latchIndex_intake (v : Nat) :
    (latchIndex v s).intake = s.intake := by unfold latchIndex; (repeat' split) <;> simp
@[simp] theorem latchIndex_objects (v : Nat) :
    (latchIndex v s).objects = s.objects := by unfold latchIndex; (repeat' split) <;> simp
@[simp] theorem latchIndex_colours (v : Nat) :
    (latchIndex v s).colours = s.colours := by unfold latchIndex; (repeat' split) <;> simp
@[simp] theorem latchIndex_list (v : Nat) :
    (latchIndex v s).list = s.list := by unfold latchIndex; (repeat' split) <;> simp
@[simp] theorem latchIndex_buttons (v : Nat) :
    (latchIndex v s).buttons = s.buttons := by unfold latchIndex; (repeat' split) <;> simp
@[simp] theorem latchIndex_tiles (v : Nat) :
    (latchIndex v s).tiles = s.tiles := by unfold latchIndex; (repeat' split) <;> simp
@[simp] theorem latchIndex_render (v : Nat) :
    (latchIndex v s).render = s.render := by unfold latchIndex; (repeat' split) <;> simp
@[simp] theorem latchIndex_page (v : Nat) :
    (latchIndex v s).page = s.page := by unfold latchIndex; (repeat' split) <;> simp

@[simp] theorem offerLatch_pending (t : CTxn) :
    (offerLatch t s).pending = s.pending := by unfold offerLatch; (repeat' split) <;> simp
@[simp] theorem offerLatch_resetLine (t : CTxn) :
    (offerLatch t s).resetLine = s.resetLine := by unfold offerLatch; (repeat' split) <;> simp
@[simp] theorem offerLatch_resetDue (t : CTxn) :
    (offerLatch t s).resetDue = s.resetDue := by unfold offerLatch; (repeat' split) <;> simp
@[simp] theorem offerLatch_urgent (t : CTxn) :
    (offerLatch t s).urgent = s.urgent := by unfold offerLatch; (repeat' split) <;> simp
@[simp] theorem offerLatch_path (t : CTxn) :
    (offerLatch t s).path = s.path := by unfold offerLatch; (repeat' split) <;> simp
@[simp] theorem offerLatch_share (t : CTxn) :
    (offerLatch t s).share = s.share := by unfold offerLatch; (repeat' split) <;> simp
@[simp] theorem offerLatch_passover (t : CTxn) :
    (offerLatch t s).passover = s.passover := by unfold offerLatch; (repeat' split) <;> simp
@[simp] theorem offerLatch_mside (t : CTxn) :
    (offerLatch t s).mside = s.mside := by unfold offerLatch; (repeat' split) <;> simp
@[simp] theorem offerLatch_cside (t : CTxn) :
    (offerLatch t s).cside = s.cside := by unfold offerLatch; (repeat' split) <;> simp
@[simp] theorem offerLatch_engine (t : CTxn) :
    (offerLatch t s).engine = s.engine := by unfold offerLatch; (repeat' split) <;> simp
@[simp] theorem offerLatch_latch (t : CTxn) :
    (offerLatch t s).latch = s.latch := by unfold offerLatch; (repeat' split) <;> simp
@[simp] theorem offerLatch_frames (t : CTxn) :
    (offerLatch t s).frames = s.frames := by unfold offerLatch; (repeat' split) <;> simp
@[simp] theorem offerLatch_intake (t : CTxn) :
    (offerLatch t s).intake = s.intake := by unfold offerLatch; (repeat' split) <;> simp
@[simp] theorem offerLatch_objects (t : CTxn) :
    (offerLatch t s).objects = s.objects := by unfold offerLatch; (repeat' split) <;> simp
@[simp] theorem offerLatch_colours (t : CTxn) :
    (offerLatch t s).colours = s.colours := by unfold offerLatch; (repeat' split) <;> simp
@[simp] theorem offerLatch_list (t : CTxn) :
    (offerLatch t s).list = s.list := by unfold offerLatch; (repeat' split) <;> simp
@[simp] theorem offerLatch_buttons (t : CTxn) :
    (offerLatch t s).buttons = s.buttons := by unfold offerLatch; (repeat' split) <;> simp
@[simp] theorem offerLatch_tiles (t : CTxn) :
    (offerLatch t s).tiles = s.tiles := by unfold offerLatch; (repeat' split) <;> simp
@[simp] theorem offerLatch_render (t : CTxn) :
    (offerLatch t s).render = s.render := by unfold offerLatch; (repeat' split) <;> simp
@[simp] theorem offerLatch_page (t : CTxn) :
    (offerLatch t s).page = s.page := by unfold offerLatch; (repeat' split) <;> simp

@[simp] theorem holdDisplayWord_pending (p : DisplayPlan) (t : CTxn) :
    (holdDisplayWord p t s).pending = s.pending := by unfold holdDisplayWord; (repeat' split) <;> simp
@[simp] theorem holdDisplayWord_resetLine (p : DisplayPlan) (t : CTxn) :
    (holdDisplayWord p t s).resetLine = s.resetLine := by unfold holdDisplayWord; (repeat' split) <;> simp
@[simp] theorem holdDisplayWord_resetDue (p : DisplayPlan) (t : CTxn) :
    (holdDisplayWord p t s).resetDue = s.resetDue := by unfold holdDisplayWord; (repeat' split) <;> simp
@[simp] theorem holdDisplayWord_urgent (p : DisplayPlan) (t : CTxn) :
    (holdDisplayWord p t s).urgent = s.urgent := by unfold holdDisplayWord; (repeat' split) <;> simp
@[simp] theorem holdDisplayWord_path (p : DisplayPlan) (t : CTxn) :
    (holdDisplayWord p t s).path = s.path := by unfold holdDisplayWord; (repeat' split) <;> simp
@[simp] theorem holdDisplayWord_share (p : DisplayPlan) (t : CTxn) :
    (holdDisplayWord p t s).share = s.share := by unfold holdDisplayWord; (repeat' split) <;> simp
@[simp] theorem holdDisplayWord_passover (p : DisplayPlan) (t : CTxn) :
    (holdDisplayWord p t s).passover = s.passover := by unfold holdDisplayWord; (repeat' split) <;> simp
@[simp] theorem holdDisplayWord_mside (p : DisplayPlan) (t : CTxn) :
    (holdDisplayWord p t s).mside = s.mside := by unfold holdDisplayWord; (repeat' split) <;> simp
@[simp] theorem holdDisplayWord_engine (p : DisplayPlan) (t : CTxn) :
    (holdDisplayWord p t s).engine = s.engine := by unfold holdDisplayWord; (repeat' split) <;> simp
@[simp] theorem holdDisplayWord_latch (p : DisplayPlan) (t : CTxn) :
    (holdDisplayWord p t s).latch = s.latch := by unfold holdDisplayWord; (repeat' split) <;> simp
@[simp] theorem holdDisplayWord_frames (p : DisplayPlan) (t : CTxn) :
    (holdDisplayWord p t s).frames = s.frames := by unfold holdDisplayWord; (repeat' split) <;> simp
@[simp] theorem holdDisplayWord_intake (p : DisplayPlan) (t : CTxn) :
    (holdDisplayWord p t s).intake = s.intake := by unfold holdDisplayWord; (repeat' split) <;> simp
@[simp] theorem holdDisplayWord_objects (p : DisplayPlan) (t : CTxn) :
    (holdDisplayWord p t s).objects = s.objects := by unfold holdDisplayWord; (repeat' split) <;> simp
@[simp] theorem holdDisplayWord_colours (p : DisplayPlan) (t : CTxn) :
    (holdDisplayWord p t s).colours = s.colours := by unfold holdDisplayWord; (repeat' split) <;> simp
@[simp] theorem holdDisplayWord_list (p : DisplayPlan) (t : CTxn) :
    (holdDisplayWord p t s).list = s.list := by unfold holdDisplayWord; (repeat' split) <;> simp
@[simp] theorem holdDisplayWord_buttons (p : DisplayPlan) (t : CTxn) :
    (holdDisplayWord p t s).buttons = s.buttons := by unfold holdDisplayWord; (repeat' split) <;> simp
@[simp] theorem holdDisplayWord_tiles (p : DisplayPlan) (t : CTxn) :
    (holdDisplayWord p t s).tiles = s.tiles := by unfold holdDisplayWord; (repeat' split) <;> simp
@[simp] theorem holdDisplayWord_render (p : DisplayPlan) (t : CTxn) :
    (holdDisplayWord p t s).render = s.render := by unfold holdDisplayWord; (repeat' split) <;> simp
@[simp] theorem holdDisplayWord_page (p : DisplayPlan) (t : CTxn) :
    (holdDisplayWord p t s).page = s.page := by unfold holdDisplayWord; (repeat' split) <;> simp

end Sys2Proof.Machine
end

