-- ==== Sys2Proof/Laws/OwnFrames.lean ====
section
/-! SUPPORT. What the events of the colour load, the render engine and the report unit leave unchanged. -/
namespace Sys2Proof.Machine
set_option Elab.async false
open Sys2Proof
variable (s : State)

@[simp] theorem badLoadWord_pending (l : Load) (a : Nat) :
    (badLoadWord l a s).pending = s.pending := by unfold badLoadWord; dsimp only; split <;> simp
@[simp] theorem badLoadWord_resetLine (l : Load) (a : Nat) :
    (badLoadWord l a s).resetLine = s.resetLine := by unfold badLoadWord; dsimp only; split <;> simp
@[simp] theorem badLoadWord_resetDue (l : Load) (a : Nat) :
    (badLoadWord l a s).resetDue = s.resetDue := by unfold badLoadWord; dsimp only; split <;> simp
@[simp] theorem badLoadWord_urgent (l : Load) (a : Nat) :
    (badLoadWord l a s).urgent = s.urgent := by unfold badLoadWord; dsimp only; split <;> simp
@[simp] theorem badLoadWord_path (l : Load) (a : Nat) :
    (badLoadWord l a s).path = s.path := by unfold badLoadWord; dsimp only; split <;> simp
@[simp] theorem badLoadWord_share (l : Load) (a : Nat) :
    (badLoadWord l a s).share = s.share := by unfold badLoadWord; dsimp only; split <;> simp
@[simp] theorem badLoadWord_passover (l : Load) (a : Nat) :
    (badLoadWord l a s).passover = s.passover := by unfold badLoadWord; dsimp only; split <;> simp
@[simp] theorem badLoadWord_mside (l : Load) (a : Nat) :
    (badLoadWord l a s).mside = s.mside := by unfold badLoadWord; dsimp only; split <;> simp
@[simp] theorem badLoadWord_cside (l : Load) (a : Nat) :
    (badLoadWord l a s).cside = s.cside := by unfold badLoadWord; dsimp only; split <;> simp
@[simp] theorem badLoadWord_engine (l : Load) (a : Nat) :
    (badLoadWord l a s).engine = s.engine := by unfold badLoadWord; dsimp only; split <;> simp
@[simp] theorem badLoadWord_latch (l : Load) (a : Nat) :
    (badLoadWord l a s).latch = s.latch := by unfold badLoadWord; dsimp only; split <;> simp
@[simp] theorem badLoadWord_frames (l : Load) (a : Nat) :
    (badLoadWord l a s).frames = s.frames := by unfold badLoadWord; dsimp only; split <;> simp
@[simp] theorem badLoadWord_intake (l : Load) (a : Nat) :
    (badLoadWord l a s).intake = s.intake := by unfold badLoadWord; dsimp only; split <;> simp
@[simp] theorem badLoadWord_objects (l : Load) (a : Nat) :
    (badLoadWord l a s).objects = s.objects := by unfold badLoadWord; dsimp only; split <;> simp
@[simp] theorem badLoadWord_list (l : Load) (a : Nat) :
    (badLoadWord l a s).list = s.list := by unfold badLoadWord; dsimp only; split <;> simp
@[simp] theorem badLoadWord_buttons (l : Load) (a : Nat) :
    (badLoadWord l a s).buttons = s.buttons := by unfold badLoadWord; dsimp only; split <;> simp
@[simp] theorem badLoadWord_tiles (l : Load) (a : Nat) :
    (badLoadWord l a s).tiles = s.tiles := by unfold badLoadWord; dsimp only; split <;> simp
@[simp] theorem badLoadWord_render (l : Load) (a : Nat) :
    (badLoadWord l a s).render = s.render := by unfold badLoadWord; dsimp only; split <;> simp
@[simp] theorem badLoadWord_page (l : Load) (a : Nat) :
    (badLoadWord l a s).page = s.page := by unfold badLoadWord; dsimp only; split <;> simp

@[simp] theorem loadWord_pending (a : Nat) (w : BusWord) :
    (loadWord a w s).pending = s.pending := by unfold loadWord; (repeat' split) <;> simp
@[simp] theorem loadWord_resetLine (a : Nat) (w : BusWord) :
    (loadWord a w s).resetLine = s.resetLine := by unfold loadWord; (repeat' split) <;> simp
@[simp] theorem loadWord_resetDue (a : Nat) (w : BusWord) :
    (loadWord a w s).resetDue = s.resetDue := by unfold loadWord; (repeat' split) <;> simp
@[simp] theorem loadWord_urgent (a : Nat) (w : BusWord) :
    (loadWord a w s).urgent = s.urgent := by unfold loadWord; (repeat' split) <;> simp
@[simp] theorem loadWord_path (a : Nat) (w : BusWord) :
    (loadWord a w s).path = s.path := by unfold loadWord; (repeat' split) <;> simp
@[simp] theorem loadWord_share (a : Nat) (w : BusWord) :
    (loadWord a w s).share = s.share := by unfold loadWord; (repeat' split) <;> simp
@[simp] theorem loadWord_passover (a : Nat) (w : BusWord) :
    (loadWord a w s).passover = s.passover := by unfold loadWord; (repeat' split) <;> simp
@[simp] theorem loadWord_mside (a : Nat) (w : BusWord) :
    (loadWord a w s).mside = s.mside := by unfold loadWord; (repeat' split) <;> simp
@[simp] theorem loadWord_cside (a : Nat) (w : BusWord) :
    (loadWord a w s).cside = s.cside := by unfold loadWord; (repeat' split) <;> simp
@[simp] theorem loadWord_engine (a : Nat) (w : BusWord) :
    (loadWord a w s).engine = s.engine := by unfold loadWord; (repeat' split) <;> simp
@[simp] theorem loadWord_latch (a : Nat) (w : BusWord) :
    (loadWord a w s).latch = s.latch := by unfold loadWord; (repeat' split) <;> simp
@[simp] theorem loadWord_frames (a : Nat) (w : BusWord) :
    (loadWord a w s).frames = s.frames := by unfold loadWord; (repeat' split) <;> simp
@[simp] theorem loadWord_intake (a : Nat) (w : BusWord) :
    (loadWord a w s).intake = s.intake := by unfold loadWord; (repeat' split) <;> simp
@[simp] theorem loadWord_objects (a : Nat) (w : BusWord) :
    (loadWord a w s).objects = s.objects := by unfold loadWord; (repeat' split) <;> simp
@[simp] theorem loadWord_list (a : Nat) (w : BusWord) :
    (loadWord a w s).list = s.list := by unfold loadWord; (repeat' split) <;> simp
@[simp] theorem loadWord_buttons (a : Nat) (w : BusWord) :
    (loadWord a w s).buttons = s.buttons := by unfold loadWord; (repeat' split) <;> simp
@[simp] theorem loadWord_tiles (a : Nat) (w : BusWord) :
    (loadWord a w s).tiles = s.tiles := by unfold loadWord; (repeat' split) <;> simp
@[simp] theorem loadWord_render (a : Nat) (w : BusWord) :
    (loadWord a w s).render = s.render := by unfold loadWord; (repeat' split) <;> simp
@[simp] theorem loadWord_page (a : Nat) (w : BusWord) :
    (loadWord a w s).page = s.page := by unfold loadWord; (repeat' split) <;> simp

@[simp] theorem nextLoadLine_pending (r : LineReq) :
    (nextLoadLine r s).pending = s.pending := by unfold nextLoadLine; (repeat' split) <;> simp
@[simp] theorem nextLoadLine_resetLine (r : LineReq) :
    (nextLoadLine r s).resetLine = s.resetLine := by unfold nextLoadLine; (repeat' split) <;> simp
@[simp] theorem nextLoadLine_resetDue (r : LineReq) :
    (nextLoadLine r s).resetDue = s.resetDue := by unfold nextLoadLine; (repeat' split) <;> simp
@[simp] theorem nextLoadLine_urgent (r : LineReq) :
    (nextLoadLine r s).urgent = s.urgent := by unfold nextLoadLine; (repeat' split) <;> simp
@[simp] theorem nextLoadLine_path (r : LineReq) :
    (nextLoadLine r s).path = s.path := by unfold nextLoadLine; (repeat' split) <;> simp
@[simp] theorem nextLoadLine_share (r : LineReq) :
    (nextLoadLine r s).share = s.share := by unfold nextLoadLine; (repeat' split) <;> simp
@[simp] theorem nextLoadLine_passover (r : LineReq) :
    (nextLoadLine r s).passover = s.passover := by unfold nextLoadLine; (repeat' split) <;> simp
@[simp] theorem nextLoadLine_mside (r : LineReq) :
    (nextLoadLine r s).mside = s.mside := by unfold nextLoadLine; (repeat' split) <;> simp
@[simp] theorem nextLoadLine_cside (r : LineReq) :
    (nextLoadLine r s).cside = s.cside := by unfold nextLoadLine; (repeat' split) <;> simp
@[simp] theorem nextLoadLine_engine (r : LineReq) :
    (nextLoadLine r s).engine = s.engine := by unfold nextLoadLine; (repeat' split) <;> simp
@[simp] theorem nextLoadLine_latch (r : LineReq) :
    (nextLoadLine r s).latch = s.latch := by unfold nextLoadLine; (repeat' split) <;> simp
@[simp] theorem nextLoadLine_frames (r : LineReq) :
    (nextLoadLine r s).frames = s.frames := by unfold nextLoadLine; (repeat' split) <;> simp
@[simp] theorem nextLoadLine_intake (r : LineReq) :
    (nextLoadLine r s).intake = s.intake := by unfold nextLoadLine; (repeat' split) <;> simp
@[simp] theorem nextLoadLine_objects (r : LineReq) :
    (nextLoadLine r s).objects = s.objects := by unfold nextLoadLine; (repeat' split) <;> simp
@[simp] theorem nextLoadLine_list (r : LineReq) :
    (nextLoadLine r s).list = s.list := by unfold nextLoadLine; (repeat' split) <;> simp
@[simp] theorem nextLoadLine_buttons (r : LineReq) :
    (nextLoadLine r s).buttons = s.buttons := by unfold nextLoadLine; (repeat' split) <;> simp
@[simp] theorem nextLoadLine_tiles (r : LineReq) :
    (nextLoadLine r s).tiles = s.tiles := by unfold nextLoadLine; (repeat' split) <;> simp
@[simp] theorem nextLoadLine_render (r : LineReq) :
    (nextLoadLine r s).render = s.render := by unfold nextLoadLine; (repeat' split) <;> simp
@[simp] theorem nextLoadLine_page (r : LineReq) :
    (nextLoadLine r s).page = s.page := by unfold nextLoadLine; (repeat' split) <;> simp
@[simp] theorem nextLoadLine_reports (r : LineReq) :
    (nextLoadLine r s).reports = s.reports := by unfold nextLoadLine; (repeat' split) <;> simp

@[simp] theorem endLoad_pending :
    (endLoad s).pending = s.pending := by unfold endLoad; (repeat' split) <;> simp
@[simp] theorem endLoad_resetLine :
    (endLoad s).resetLine = s.resetLine := by unfold endLoad; (repeat' split) <;> simp
@[simp] theorem endLoad_resetDue :
    (endLoad s).resetDue = s.resetDue := by unfold endLoad; (repeat' split) <;> simp
@[simp] theorem endLoad_urgent :
    (endLoad s).urgent = s.urgent := by unfold endLoad; (repeat' split) <;> simp
@[simp] theorem endLoad_path :
    (endLoad s).path = s.path := by unfold endLoad; (repeat' split) <;> simp
@[simp] theorem endLoad_share :
    (endLoad s).share = s.share := by unfold endLoad; (repeat' split) <;> simp
@[simp] theorem endLoad_passover :
    (endLoad s).passover = s.passover := by unfold endLoad; (repeat' split) <;> simp
@[simp] theorem endLoad_mside :
    (endLoad s).mside = s.mside := by unfold endLoad; (repeat' split) <;> simp
@[simp] theorem endLoad_cside :
    (endLoad s).cside = s.cside := by unfold endLoad; (repeat' split) <;> simp
@[simp] theorem endLoad_engine :
    (endLoad s).engine = s.engine := by unfold endLoad; (repeat' split) <;> simp
@[simp] theorem endLoad_latch :
    (endLoad s).latch = s.latch := by unfold endLoad; (repeat' split) <;> simp
@[simp] theorem endLoad_frames :
    (endLoad s).frames = s.frames := by unfold endLoad; (repeat' split) <;> simp
@[simp] theorem endLoad_objects :
    (endLoad s).objects = s.objects := by unfold endLoad; (repeat' split) <;> simp
@[simp] theorem endLoad_list :
    (endLoad s).list = s.list := by unfold endLoad; (repeat' split) <;> simp
@[simp] theorem endLoad_buttons :
    (endLoad s).buttons = s.buttons := by unfold endLoad; (repeat' split) <;> simp
@[simp] theorem endLoad_render :
    (endLoad s).render = s.render := by unfold endLoad; (repeat' split) <;> simp
@[simp] theorem endLoad_page :
    (endLoad s).page = s.page := by unfold endLoad; (repeat' split) <;> simp

@[simp] theorem setApp_pending (f : Flight) (a : App) (rest : List Placement) :
    (setApp f a rest s).pending = s.pending := by simp [setApp]
@[simp] theorem setApp_resetLine (f : Flight) (a : App) (rest : List Placement) :
    (setApp f a rest s).resetLine = s.resetLine := by simp [setApp]
@[simp] theorem setApp_resetDue (f : Flight) (a : App) (rest : List Placement) :
    (setApp f a rest s).resetDue = s.resetDue := by simp [setApp]
@[simp] theorem setApp_urgent (f : Flight) (a : App) (rest : List Placement) :
    (setApp f a rest s).urgent = s.urgent := by simp [setApp]
@[simp] theorem setApp_path (f : Flight) (a : App) (rest : List Placement) :
    (setApp f a rest s).path = s.path := by simp [setApp]
@[simp] theorem setApp_share (f : Flight) (a : App) (rest : List Placement) :
    (setApp f a rest s).share = s.share := by simp [setApp]
@[simp] theorem setApp_passover (f : Flight) (a : App) (rest : List Placement) :
    (setApp f a rest s).passover = s.passover := by simp [setApp]
@[simp] theorem setApp_mside (f : Flight) (a : App) (rest : List Placement) :
    (setApp f a rest s).mside = s.mside := by simp [setApp]
@[simp] theorem setApp_cside (f : Flight) (a : App) (rest : List Placement) :
    (setApp f a rest s).cside = s.cside := by simp [setApp]
@[simp] theorem setApp_waiting (f : Flight) (a : App) (rest : List Placement) :
    (setApp f a rest s).waiting = s.waiting := by simp [setApp]
@[simp] theorem setApp_engine (f : Flight) (a : App) (rest : List Placement) :
    (setApp f a rest s).engine = s.engine := by simp [setApp]
@[simp] theorem setApp_latch (f : Flight) (a : App) (rest : List Placement) :
    (setApp f a rest s).latch = s.latch := by simp [setApp]
@[simp] theorem setApp_frames (f : Flight) (a : App) (rest : List Placement) :
    (setApp f a rest s).frames = s.frames := by simp [setApp]
@[simp] theorem setApp_intake (f : Flight) (a : App) (rest : List Placement) :
    (setApp f a rest s).intake = s.intake := by simp [setApp]
@[simp] theorem setApp_objects (f : Flight) (a : App) (rest : List Placement) :
    (setApp f a rest s).objects = s.objects := by simp [setApp]
@[simp] theorem setApp_colours (f : Flight) (a : App) (rest : List Placement) :
    (setApp f a rest s).colours = s.colours := by simp [setApp]
@[simp] theorem setApp_list (f : Flight) (a : App) (rest : List Placement) :
    (setApp f a rest s).list = s.list := by simp [setApp]
@[simp] theorem setApp_buttons (f : Flight) (a : App) (rest : List Placement) :
    (setApp f a rest s).buttons = s.buttons := by simp [setApp]
@[simp] theorem setApp_tiles (f : Flight) (a : App) (rest : List Placement) :
    (setApp f a rest s).tiles = s.tiles := by simp [setApp]
@[simp] theorem setApp_page (f : Flight) (a : App) (rest : List Placement) :
    (setApp f a rest s).page = s.page := by simp [setApp]
@[simp] theorem setApp_reports (f : Flight) (a : App) (rest : List Placement) :
    (setApp f a rest s).reports = s.reports := by simp [setApp]

@[simp] theorem faultIfShort_pending (a : App) :
    (faultIfShort a s).pending = s.pending := by unfold faultIfShort; (repeat' split) <;> simp
@[simp] theorem faultIfShort_resetLine (a : App) :
    (faultIfShort a s).resetLine = s.resetLine := by unfold faultIfShort; (repeat' split) <;> simp
@[simp] theorem faultIfShort_resetDue (a : App) :
    (faultIfShort a s).resetDue = s.resetDue := by unfold faultIfShort; (repeat' split) <;> simp
@[simp] theorem faultIfShort_urgent (a : App) :
    (faultIfShort a s).urgent = s.urgent := by unfold faultIfShort; (repeat' split) <;> simp
@[simp] theorem faultIfShort_path (a : App) :
    (faultIfShort a s).path = s.path := by unfold faultIfShort; (repeat' split) <;> simp
@[simp] theorem faultIfShort_share (a : App) :
    (faultIfShort a s).share = s.share := by unfold faultIfShort; (repeat' split) <;> simp
@[simp] theorem faultIfShort_passover (a : App) :
    (faultIfShort a s).passover = s.passover := by unfold faultIfShort; (repeat' split) <;> simp
@[simp] theorem faultIfShort_mside (a : App) :
    (faultIfShort a s).mside = s.mside := by unfold faultIfShort; (repeat' split) <;> simp
@[simp] theorem faultIfShort_cside (a : App) :
    (faultIfShort a s).cside = s.cside := by unfold faultIfShort; (repeat' split) <;> simp
@[simp] theorem faultIfShort_engine (a : App) :
    (faultIfShort a s).engine = s.engine := by unfold faultIfShort; (repeat' split) <;> simp
@[simp] theorem faultIfShort_latch (a : App) :
    (faultIfShort a s).latch = s.latch := by unfold faultIfShort; (repeat' split) <;> simp
@[simp] theorem faultIfShort_frames (a : App) :
    (faultIfShort a s).frames = s.frames := by unfold faultIfShort; (repeat' split) <;> simp
@[simp] theorem faultIfShort_intake (a : App) :
    (faultIfShort a s).intake = s.intake := by unfold faultIfShort; (repeat' split) <;> simp
@[simp] theorem faultIfShort_colours (a : App) :
    (faultIfShort a s).colours = s.colours := by unfold faultIfShort; (repeat' split) <;> simp
@[simp] theorem faultIfShort_list (a : App) :
    (faultIfShort a s).list = s.list := by unfold faultIfShort; (repeat' split) <;> simp
@[simp] theorem faultIfShort_buttons (a : App) :
    (faultIfShort a s).buttons = s.buttons := by unfold faultIfShort; (repeat' split) <;> simp
@[simp] theorem faultIfShort_render (a : App) :
    (faultIfShort a s).render = s.render := by unfold faultIfShort; (repeat' split) <;> simp
@[simp] theorem faultIfShort_page (a : App) :
    (faultIfShort a s).page = s.page := by unfold faultIfShort; (repeat' split) <;> simp
@[simp] theorem objectWord_pending (a : Nat) (w : BusWord) :
    (objectWord a w s).pending = s.pending := by unfold objectWord; (repeat' split) <;> simp
@[simp] theorem objectWord_resetLine (a : Nat) (w : BusWord) :
    (objectWord a w s).resetLine = s.resetLine := by unfold objectWord; (repeat' split) <;> simp
@[simp] theorem objectWord_resetDue (a : Nat) (w : BusWord) :
    (objectWord a w s).resetDue = s.resetDue := by unfold objectWord; (repeat' split) <;> simp
@[simp] theorem objectWord_urgent (a : Nat) (w : BusWord) :
    (objectWord a w s).urgent = s.urgent := by unfold objectWord; (repeat' split) <;> simp
@[simp] theorem objectWord_path (a : Nat) (w : BusWord) :
    (objectWord a w s).path = s.path := by unfold objectWord; (repeat' split) <;> simp
@[simp] theorem objectWord_share (a : Nat) (w : BusWord) :
    (objectWord a w s).share = s.share := by unfold objectWord; (repeat' split) <;> simp
@[simp] theorem objectWord_passover (a : Nat) (w : BusWord) :
    (objectWord a w s).passover = s.passover := by unfold objectWord; (repeat' split) <;> simp
@[simp] theorem objectWord_mside (a : Nat) (w : BusWord) :
    (objectWord a w s).mside = s.mside := by unfold objectWord; (repeat' split) <;> simp
@[simp] theorem objectWord_cside (a : Nat) (w : BusWord) :
    (objectWord a w s).cside = s.cside := by unfold objectWord; (repeat' split) <;> simp
@[simp] theorem objectWord_engine (a : Nat) (w : BusWord) :
    (objectWord a w s).engine = s.engine := by unfold objectWord; (repeat' split) <;> simp
@[simp] theorem objectWord_latch (a : Nat) (w : BusWord) :
    (objectWord a w s).latch = s.latch := by unfold objectWord; (repeat' split) <;> simp
@[simp] theorem objectWord_frames (a : Nat) (w : BusWord) :
    (objectWord a w s).frames = s.frames := by unfold objectWord; (repeat' split) <;> simp
@[simp] theorem objectWord_intake (a : Nat) (w : BusWord) :
    (objectWord a w s).intake = s.intake := by unfold objectWord; (repeat' split) <;> simp
@[simp] theorem objectWord_colours (a : Nat) (w : BusWord) :
    (objectWord a w s).colours = s.colours := by unfold objectWord; (repeat' split) <;> simp
@[simp] theorem objectWord_list (a : Nat) (w : BusWord) :
    (objectWord a w s).list = s.list := by unfold objectWord; (repeat' split) <;> simp
@[simp] theorem objectWord_buttons (a : Nat) (w : BusWord) :
    (objectWord a w s).buttons = s.buttons := by unfold objectWord; (repeat' split) <;> simp
@[simp] theorem objectWord_page (a : Nat) (w : BusWord) :
    (objectWord a w s).page = s.page := by unfold objectWord; (repeat' split) <;> simp


@[simp] theorem applyApp_pending (pl : Plane) (f : Flight) (a : App) (rest : List Placement) :
    (applyApp pl f a rest s).pending = s.pending := by simp [applyApp]
@[simp] theorem applyApp_resetLine (pl : Plane) (f : Flight) (a : App) (rest : List Placement) :
    (applyApp pl f a rest s).resetLine = s.resetLine := by simp [applyApp]
@[simp] theorem applyApp_resetDue (pl : Plane) (f : Flight) (a : App) (rest : List Placement) :
    (applyApp pl f a rest s).resetDue = s.resetDue := by simp [applyApp]
@[simp] theorem applyApp_urgent (pl : Plane) (f : Flight) (a : App) (rest : List Placement) :
    (applyApp pl f a rest s).urgent = s.urgent := by simp [applyApp]
@[simp] theorem applyApp_path (pl : Plane) (f : Flight) (a : App) (rest : List Placement) :
    (applyApp pl f a rest s).path = s.path := by simp [applyApp]
@[simp] theorem applyApp_share (pl : Plane) (f : Flight) (a : App) (rest : List Placement) :
    (applyApp pl f a rest s).share = s.share := by simp [applyApp]
@[simp] theorem applyApp_passover (pl : Plane) (f : Flight) (a : App) (rest : List Placement) :
    (applyApp pl f a rest s).passover = s.passover := by simp [applyApp]
@[simp] theorem applyApp_mside (pl : Plane) (f : Flight) (a : App) (rest : List Placement) :
    (applyApp pl f a rest s).mside = s.mside := by simp [applyApp]
@[simp] theorem applyApp_cside (pl : Plane) (f : Flight) (a : App) (rest : List Placement) :
    (applyApp pl f a rest s).cside = s.cside := by simp [applyApp]
@[simp] theorem applyApp_engine (pl : Plane) (f : Flight) (a : App) (rest : List Placement) :
    (applyApp pl f a rest s).engine = s.engine := by simp [applyApp]
@[simp] theorem applyApp_latch (pl : Plane) (f : Flight) (a : App) (rest : List Placement) :
    (applyApp pl f a rest s).latch = s.latch := by simp [applyApp]
@[simp] theorem applyApp_frames (pl : Plane) (f : Flight) (a : App) (rest : List Placement) :
    (applyApp pl f a rest s).frames = s.frames := by simp [applyApp]
@[simp] theorem applyApp_intake (pl : Plane) (f : Flight) (a : App) (rest : List Placement) :
    (applyApp pl f a rest s).intake = s.intake := by simp [applyApp]
@[simp] theorem applyApp_colours (pl : Plane) (f : Flight) (a : App) (rest : List Placement) :
    (applyApp pl f a rest s).colours = s.colours := by simp [applyApp]
@[simp] theorem applyApp_list (pl : Plane) (f : Flight) (a : App) (rest : List Placement) :
    (applyApp pl f a rest s).list = s.list := by simp [applyApp]
@[simp] theorem applyApp_buttons (pl : Plane) (f : Flight) (a : App) (rest : List Placement) :
    (applyApp pl f a rest s).buttons = s.buttons := by simp [applyApp]
@[simp] theorem applyApp_page (pl : Plane) (f : Flight) (a : App) (rest : List Placement) :
    (applyApp pl f a rest s).page = s.page := by simp [applyApp]

@[simp] theorem objectFetchEffect_pending (r : LineReq) :
    (objectFetchEffect r s).pending = s.pending := by unfold objectFetchEffect; (repeat' split) <;> simp
@[simp] theorem objectFetchEffect_resetLine (r : LineReq) :
    (objectFetchEffect r s).resetLine = s.resetLine := by unfold objectFetchEffect; (repeat' split) <;> simp
@[simp] theorem objectFetchEffect_resetDue (r : LineReq) :
    (objectFetchEffect r s).resetDue = s.resetDue := by unfold objectFetchEffect; (repeat' split) <;> simp
@[simp] theorem objectFetchEffect_urgent (r : LineReq) :
    (objectFetchEffect r s).urgent = s.urgent := by unfold objectFetchEffect; (repeat' split) <;> simp
@[simp] theorem objectFetchEffect_path (r : LineReq) :
    (objectFetchEffect r s).path = s.path := by unfold objectFetchEffect; (repeat' split) <;> simp
@[simp] theorem objectFetchEffect_share (r : LineReq) :
    (objectFetchEffect r s).share = s.share := by unfold objectFetchEffect; (repeat' split) <;> simp
@[simp] theorem objectFetchEffect_passover (r : LineReq) :
    (objectFetchEffect r s).passover = s.passover := by unfold objectFetchEffect; (repeat' split) <;> simp
@[simp] theorem objectFetchEffect_mside (r : LineReq) :
    (objectFetchEffect r s).mside = s.mside := by unfold objectFetchEffect; (repeat' split) <;> simp
@[simp] theorem objectFetchEffect_cside (r : LineReq) :
    (objectFetchEffect r s).cside = s.cside := by unfold objectFetchEffect; (repeat' split) <;> simp
@[simp] theorem objectFetchEffect_engine (r : LineReq) :
    (objectFetchEffect r s).engine = s.engine := by unfold objectFetchEffect; (repeat' split) <;> simp
@[simp] theorem objectFetchEffect_latch (r : LineReq) :
    (objectFetchEffect r s).latch = s.latch := by unfold objectFetchEffect; (repeat' split) <;> simp
@[simp] theorem objectFetchEffect_frames (r : LineReq) :
    (objectFetchEffect r s).frames = s.frames := by unfold objectFetchEffect; (repeat' split) <;> simp
@[simp] theorem objectFetchEffect_intake (r : LineReq) :
    (objectFetchEffect r s).intake = s.intake := by unfold objectFetchEffect; (repeat' split) <;> simp
@[simp] theorem objectFetchEffect_colours (r : LineReq) :
    (objectFetchEffect r s).colours = s.colours := by unfold objectFetchEffect; (repeat' split) <;> simp
@[simp] theorem objectFetchEffect_list (r : LineReq) :
    (objectFetchEffect r s).list = s.list := by unfold objectFetchEffect; (repeat' split) <;> simp
@[simp] theorem objectFetchEffect_buttons (r : LineReq) :
    (objectFetchEffect r s).buttons = s.buttons := by unfold objectFetchEffect; (repeat' split) <;> simp
@[simp] theorem objectFetchEffect_page (r : LineReq) :
    (objectFetchEffect r s).page = s.page := by unfold objectFetchEffect; (repeat' split) <;> simp

@[simp] theorem renderStoreEffect_pending :
    (renderStoreEffect s).pending = s.pending := by unfold renderStoreEffect; (repeat' split) <;> simp
@[simp] theorem renderStoreEffect_resetLine :
    (renderStoreEffect s).resetLine = s.resetLine := by unfold renderStoreEffect; (repeat' split) <;> simp
@[simp] theorem renderStoreEffect_resetDue :
    (renderStoreEffect s).resetDue = s.resetDue := by unfold renderStoreEffect; (repeat' split) <;> simp
@[simp] theorem renderStoreEffect_urgent :
    (renderStoreEffect s).urgent = s.urgent := by unfold renderStoreEffect; (repeat' split) <;> simp
@[simp] theorem renderStoreEffect_path :
    (renderStoreEffect s).path = s.path := by unfold renderStoreEffect; (repeat' split) <;> simp
@[simp] theorem renderStoreEffect_share :
    (renderStoreEffect s).share = s.share := by unfold renderStoreEffect; (repeat' split) <;> simp
@[simp] theorem renderStoreEffect_passover :
    (renderStoreEffect s).passover = s.passover := by unfold renderStoreEffect; (repeat' split) <;> simp
@[simp] theorem renderStoreEffect_mside :
    (renderStoreEffect s).mside = s.mside := by unfold renderStoreEffect; (repeat' split) <;> simp
@[simp] theorem renderStoreEffect_cside :
    (renderStoreEffect s).cside = s.cside := by unfold renderStoreEffect; (repeat' split) <;> simp
@[simp] theorem renderStoreEffect_engine :
    (renderStoreEffect s).engine = s.engine := by unfold renderStoreEffect; (repeat' split) <;> simp
@[simp] theorem renderStoreEffect_latch :
    (renderStoreEffect s).latch = s.latch := by unfold renderStoreEffect; (repeat' split) <;> simp
@[simp] theorem renderStoreEffect_frames :
    (renderStoreEffect s).frames = s.frames := by unfold renderStoreEffect; (repeat' split) <;> simp
@[simp] theorem renderStoreEffect_intake :
    (renderStoreEffect s).intake = s.intake := by unfold renderStoreEffect; (repeat' split) <;> simp
@[simp] theorem renderStoreEffect_objects :
    (renderStoreEffect s).objects = s.objects := by unfold renderStoreEffect; (repeat' split) <;> simp
@[simp] theorem renderStoreEffect_colours :
    (renderStoreEffect s).colours = s.colours := by unfold renderStoreEffect; (repeat' split) <;> simp
@[simp] theorem renderStoreEffect_list :
    (renderStoreEffect s).list = s.list := by unfold renderStoreEffect; (repeat' split) <;> simp
@[simp] theorem renderStoreEffect_buttons :
    (renderStoreEffect s).buttons = s.buttons := by unfold renderStoreEffect; (repeat' split) <;> simp
@[simp] theorem renderStoreEffect_tiles :
    (renderStoreEffect s).tiles = s.tiles := by unfold renderStoreEffect; (repeat' split) <;> simp
@[simp] theorem renderStoreEffect_page :
    (renderStoreEffect s).page = s.page := by unfold renderStoreEffect; (repeat' split) <;> simp
@[simp] theorem renderStoreEffect_reports :
    (renderStoreEffect s).reports = s.reports := by unfold renderStoreEffect; (repeat' split) <;> simp

@[simp] theorem completeTile_pending (pl : Plane) (f : Flight) :
    (completeTile pl f s).pending = s.pending := by simp [completeTile]
@[simp] theorem completeTile_resetLine (pl : Plane) (f : Flight) :
    (completeTile pl f s).resetLine = s.resetLine := by simp [completeTile]
@[simp] theorem completeTile_resetDue (pl : Plane) (f : Flight) :
    (completeTile pl f s).resetDue = s.resetDue := by simp [completeTile]
@[simp] theorem completeTile_urgent (pl : Plane) (f : Flight) :
    (completeTile pl f s).urgent = s.urgent := by simp [completeTile]
@[simp] theorem completeTile_path (pl : Plane) (f : Flight) :
    (completeTile pl f s).path = s.path := by simp [completeTile]
@[simp] theorem completeTile_share (pl : Plane) (f : Flight) :
    (completeTile pl f s).share = s.share := by simp [completeTile]
@[simp] theorem completeTile_passover (pl : Plane) (f : Flight) :
    (completeTile pl f s).passover = s.passover := by simp [completeTile]
@[simp] theorem completeTile_mside (pl : Plane) (f : Flight) :
    (completeTile pl f s).mside = s.mside := by simp [completeTile]
@[simp] theorem completeTile_cside (pl : Plane) (f : Flight) :
    (completeTile pl f s).cside = s.cside := by simp [completeTile]
@[simp] theorem completeTile_waiting (pl : Plane) (f : Flight) :
    (completeTile pl f s).waiting = s.waiting := by simp [completeTile]
@[simp] theorem completeTile_engine (pl : Plane) (f : Flight) :
    (completeTile pl f s).engine = s.engine := by simp [completeTile]
@[simp] theorem completeTile_latch (pl : Plane) (f : Flight) :
    (completeTile pl f s).latch = s.latch := by simp [completeTile]
@[simp] theorem completeTile_frames (pl : Plane) (f : Flight) :
    (completeTile pl f s).frames = s.frames := by simp [completeTile]
@[simp] theorem completeTile_intake (pl : Plane) (f : Flight) :
    (completeTile pl f s).intake = s.intake := by simp [completeTile]
@[simp] theorem completeTile_objects (pl : Plane) (f : Flight) :
    (completeTile pl f s).objects = s.objects := by simp [completeTile]
@[simp] theorem completeTile_colours (pl : Plane) (f : Flight) :
    (completeTile pl f s).colours = s.colours := by simp [completeTile]
@[simp] theorem completeTile_list (pl : Plane) (f : Flight) :
    (completeTile pl f s).list = s.list := by simp [completeTile]
@[simp] theorem completeTile_buttons (pl : Plane) (f : Flight) :
    (completeTile pl f s).buttons = s.buttons := by simp [completeTile]
@[simp] theorem completeTile_page (pl : Plane) (f : Flight) :
    (completeTile pl f s).page = s.page := by simp [completeTile]
@[simp] theorem completeTile_reports (pl : Plane) (f : Flight) :
    (completeTile pl f s).reports = s.reports := by simp [completeTile]

@[simp] theorem reportStoreEffect_pending :
    (reportStoreEffect s).pending = s.pending := by unfold reportStoreEffect; (repeat' split) <;> simp
@[simp] theorem reportStoreEffect_resetLine :
    (reportStoreEffect s).resetLine = s.resetLine := by unfold reportStoreEffect; (repeat' split) <;> simp
@[simp] theorem reportStoreEffect_resetDue :
    (reportStoreEffect s).resetDue = s.resetDue := by unfold reportStoreEffect; (repeat' split) <;> simp
@[simp] theorem reportStoreEffect_urgent :
    (reportStoreEffect s).urgent = s.urgent := by unfold reportStoreEffect; (repeat' split) <;> simp
@[simp] theorem reportStoreEffect_path :
    (reportStoreEffect s).path = s.path := by unfold reportStoreEffect; (repeat' split) <;> simp
@[simp] theorem reportStoreEffect_share :
    (reportStoreEffect s).share = s.share := by unfold reportStoreEffect; (repeat' split) <;> simp
@[simp] theorem reportStoreEffect_passover :
    (reportStoreEffect s).passover = s.passover := by unfold reportStoreEffect; (repeat' split) <;> simp
@[simp] theorem reportStoreEffect_mside :
    (reportStoreEffect s).mside = s.mside := by unfold reportStoreEffect; (repeat' split) <;> simp
@[simp] theorem reportStoreEffect_cside :
    (reportStoreEffect s).cside = s.cside := by unfold reportStoreEffect; (repeat' split) <;> simp
@[simp] theorem reportStoreEffect_engine :
    (reportStoreEffect s).engine = s.engine := by unfold reportStoreEffect; (repeat' split) <;> simp
@[simp] theorem reportStoreEffect_latch :
    (reportStoreEffect s).latch = s.latch := by unfold reportStoreEffect; (repeat' split) <;> simp
@[simp] theorem reportStoreEffect_frames :
    (reportStoreEffect s).frames = s.frames := by unfold reportStoreEffect; (repeat' split) <;> simp
@[simp] theorem reportStoreEffect_intake :
    (reportStoreEffect s).intake = s.intake := by unfold reportStoreEffect; (repeat' split) <;> simp
@[simp] theorem reportStoreEffect_objects :
    (reportStoreEffect s).objects = s.objects := by unfold reportStoreEffect; (repeat' split) <;> simp
@[simp] theorem reportStoreEffect_colours :
    (reportStoreEffect s).colours = s.colours := by unfold reportStoreEffect; (repeat' split) <;> simp
@[simp] theorem reportStoreEffect_list :
    (reportStoreEffect s).list = s.list := by unfold reportStoreEffect; (repeat' split) <;> simp
@[simp] theorem reportStoreEffect_buttons :
    (reportStoreEffect s).buttons = s.buttons := by unfold reportStoreEffect; (repeat' split) <;> simp
@[simp] theorem reportStoreEffect_tiles :
    (reportStoreEffect s).tiles = s.tiles := by unfold reportStoreEffect; (repeat' split) <;> simp
@[simp] theorem reportStoreEffect_render :
    (reportStoreEffect s).render = s.render := by unfold reportStoreEffect; (repeat' split) <;> simp
@[simp] theorem reportStoreEffect_page :
    (reportStoreEffect s).page = s.page := by unfold reportStoreEffect; (repeat' split) <;> simp

end Sys2Proof.Machine
end

