-- ==== Sys2Proof/Laws/PerInstr.lean ====
section
/-! SUPPORT. For each command: only a C-side request can be ill formed, and just when it is misaligned. -/
namespace Sys2Proof.Laws.Shape
set_option Elab.async false
open Sys2Proof

/-- An ill-formed command is a misaligned C-side request (R113). -/
def Statement (i : Instr) : Prop :=
  i.wf = true ∨ ∃ r : BusReq, i = .cSideRequest r ∧ r.aligned = false

theorem pad : Statement .pad := Or.inl rfl

theorem wrap : Statement .wrap := Or.inl rfl

theorem sceneReset : Statement .sceneReset := Or.inl rfl

theorem park : Statement .park := Or.inl rfl

theorem setupPlane : Statement .setupPlane := Or.inl rfl

theorem setupReports : Statement .setupReports := Or.inl rfl

theorem setColour : Statement .setColour := Or.inl rfl

theorem loadColours : Statement .loadColours := Or.inl rfl

theorem defineObject : Statement .defineObject := Or.inl rfl

theorem dropObject : Statement .dropObject := Or.inl rfl

theorem place : Statement .place := Or.inl rfl

theorem move : Statement .move := Or.inl rfl

theorem setOpacity : Statement .setOpacity := Or.inl rfl

theorem remove : Statement .remove := Or.inl rfl

theorem defineButton : Statement .defineButton := Or.inl rfl

theorem buttonLook : Statement .buttonLook := Or.inl rfl

theorem enableButton : Statement .enableButton := Or.inl rfl

theorem disableButton : Statement .disableButton := Or.inl rfl

theorem deleteButton : Statement .deleteButton := Or.inl rfl

theorem keyDirection : Statement .keyDirection := Or.inl rfl

theorem keyEnter : Statement .keyEnter := Or.inl rfl

theorem select : Statement .select := Or.inl rfl

theorem showRecord : Statement .showRecord := Or.inl rfl

theorem batchOpen : Statement .batchOpen := Or.inl rfl

theorem batchClose : Statement .batchClose := Or.inl rfl

theorem frameStart : Statement .frameStart := Or.inl rfl

theorem settleEnd : Statement .settleEnd := Or.inl rfl

theorem transitionDone : Statement .transitionDone := Or.inl rfl

theorem holdEnd : Statement .holdEnd := Or.inl rfl

theorem resetAssert : Statement .resetAssert := Or.inl rfl

theorem resetRelease : Statement .resetRelease := Or.inl rfl

theorem clearingSweepEnd : Statement .clearingSweepEnd := Or.inl rfl

theorem urgentLine (asserted : Bool) : Statement (.urgentLine asserted) := Or.inl rfl

theorem cSideRequest (req : BusReq) : Statement (.cSideRequest req) := by
  cases h : req.aligned with
  | true => exact Or.inl h
  | false => exact Or.inr ⟨req, rfl, h⟩

theorem cStoreWord (w : BusWord) : Statement (.cStoreWord w) := Or.inl rfl

theorem cStoreComplete : Statement .cStoreComplete := Or.inl rfl

theorem passedFetchWord (w : BusWord) : Statement (.passedFetchWord w) := Or.inl rfl

theorem passedTransactionComplete : Statement .passedTransactionComplete := Or.inl rfl

theorem displayWordArrival (w : BusWord) : Statement (.displayWordArrival w) := Or.inl rfl

theorem displayFirstFetchComplete : Statement .displayFirstFetchComplete := Or.inl rfl

theorem captureDrain : Statement .captureDrain := Or.inl rfl

theorem probeComplete (w0 w1 w2 w3 : BusWord) : Statement (.probeComplete w0 w1 w2 w3) := Or.inl rfl

theorem refetchWordArrival (w : BusWord) : Statement (.refetchWordArrival w) := Or.inl rfl

theorem refetchLineComplete : Statement .refetchLineComplete := Or.inl rfl

theorem loadWordArrival (w : BusWord) : Statement (.loadWordArrival w) := Or.inl rfl

theorem loadLineComplete : Statement .loadLineComplete := Or.inl rfl

theorem loadComplete : Statement .loadComplete := Or.inl rfl

theorem objectWordArrival (w : BusWord) : Statement (.objectWordArrival w) := Or.inl rfl

theorem objectFetchComplete : Statement .objectFetchComplete := Or.inl rfl

theorem renderStoreComplete : Statement .renderStoreComplete := Or.inl rfl

theorem tileComplete : Statement .tileComplete := Or.inl rfl

theorem reportStoreComplete : Statement .reportStoreComplete := Or.inl rfl

theorem controlWordStoreComplete : Statement .controlWordStoreComplete := Or.inl rfl

theorem displayFetchComplete : Statement .displayFetchComplete := Or.inl rfl

end Sys2Proof.Laws.Shape
end

