-- ==== Sys2Proof/Laws/Run8.lean ====
section
/-! SUPPORT. The RUN8 decode on the words at hand comes to its stop: the fuel of Run8.arrive is enough. -/
namespace Sys2Proof.Machine
set_option Elab.async false
open Sys2Proof

/-- The bytes of the words at hand, from a position on. -/
def bytesFrom (pos : Nat) : List (Nat × BusWord) → Nat
  | [] => 0
  | (a, _) :: rest => (a + 4 - max pos a) + bytesFrom pos rest

theorem bytesFrom_le (pos : Nat) (l : List (Nat × BusWord)) : bytesFrom pos l ≤ 4 * l.length := by
  induction l with
  | nil => simp [bytesFrom]
  | cons x rest ih => simp only [bytesFrom, List.length_cons]; omega

theorem bytesFrom_succ_le (pos : Nat) (l : List (Nat × BusWord)) :
    bytesFrom (pos + 1) l ≤ bytesFrom pos l := by
  induction l with
  | nil => simp [bytesFrom]
  | cons x rest ih => simp only [bytesFrom]; omega

/-- Reading a byte of a word at hand leaves fewer of them. -/
theorem bytesFrom_succ_lt (pos : Nat) (l : List (Nat × BusWord)) (w : BusWord)
    (h : l.lookup (pos - pos % 4) = some w) : bytesFrom (pos + 1) l < bytesFrom pos l := by
  induction l with
  | nil => simp at h
  | cons x rest ih =>
    obtain ⟨a, v⟩ := x
    have le := bytesFrom_succ_le pos rest
    simp only [List.lookup_cons] at h
    simp only [bytesFrom]
    split at h
    · have := beq_iff_eq.mp ‹_›; omega
    · have := ih h; omega

/-- More steps than a decode can still take on the words at hand before it stops. -/
def Run8.stepsLeft (d : Run8) : Nat :=
  if d.mode = .entry then 4 * d.line.length + 1 else bytesFrom d.pos d.line

theorem Run8.stepsLeft_le (d : Run8) : d.stepsLeft ≤ 4 * d.line.length + 1 := by
  unfold stepsLeft; have := bytesFrom_le d.pos d.line; split <;> omega

theorem Run8.takeByte_reads (d : Run8) (c1 b : Nat) (h : d.mode ≠ .entry) :
    (d.takeByte c1 b).pos = d.pos + 1 ∧ (d.takeByte c1 b).line = d.line
      ∧ (d.takeByte c1 b).mode ≠ .entry := by
  unfold takeByte
  repeat' split
  all_goals simp_all

/-- A step that goes on leaves fewer steps. -/
theorem Run8.step_lowers (d t : Run8) (be : Bool) (e : ObjEntry) (c1 : Nat)
    (h : d.step be e c1 = (t, true)) : t.stepsLeft < d.stepsLeft := by
  unfold step at h
  split at h
  · simp at h
  split at h
  · simp at h
  split at h
  · simp at h
  rename_i w hw
  split at h
  · simp at h
  split at h
  · rename_i hm
    simp only [Prod.mk.injEq, bne_iff_ne] at h
    obtain ⟨rfl, hs⟩ := h
    unfold takeEntry at hs ⊢
    split
    · rename_i hl; simp [hl] at hs
    · have := bytesFrom_le (e.addr.toNat + w.data.toNat) d.line
      simp only [stepsLeft, hm, if_true, reduceCtorEq, if_false]; omega
  · rename_i hm
    simp only [Prod.mk.injEq, and_true] at h
    obtain ⟨hp, hl, hn⟩ := takeByte_reads d c1 (byteAt be w.data (d.pos % 4)) hm
    rw [← h]
    simp only [stepsLeft, hn, hm, if_false, hp, hl]
    exact bytesFrom_succ_lt d.pos d.line w hw

/-- With more fuel than steps left, the decode is its step repeated until it stops. -/
theorem Run8.go_repeats_step (be : Bool) (e : ObjEntry) (c1 : Nat) (n : Nat) (d : Run8)
    (h : d.stepsLeft < n) :
    ∃ (k : Nat) (seq : Nat → Run8), seq 0 = d
      ∧ (∀ j, j < k → (seq j).step be e c1 = (seq (j + 1), true))
      ∧ (seq k).step be e c1 = (Run8.go be e c1 n d, false) := by
  induction n generalizing d with
  | zero => omega
  | succ n ih =>
    rcases hs : d.step be e c1 with ⟨t, b⟩
    cases b with
    | false => exact ⟨0, fun _ => d, rfl, by simp, by simp [Run8.go, hs]⟩
    | true =>
      have low := step_lowers d t be e c1 hs
      obtain ⟨k, seq, h0, hj, hk⟩ := ih t (by omega)
      refine ⟨k + 1, fun | 0 => d | j + 1 => seq j, rfl, ?_, ?_⟩
      · intro j hjk
        cases j with
        | zero => simpa [h0] using hs
        | succ j => exact hj j (by omega)
      · simpa [Run8.go, hs] using hk

/-- The fuel of the decode at an arrival exceeds the steps left. -/
theorem Run8.arrive_fuel (d : Run8) (addr : Nat) (w : BusWord) :
    Run8.stepsLeft { d with line := d.line ++ [(addr, w)] } < 4 * (d.line.length + 1) + 2 := by
  have := stepsLeft_le { d with line := d.line ++ [(addr, w)] }
  simp only [List.length_append, List.length_cons, List.length_nil] at this
  omega

end Sys2Proof.Machine
end

