-- ==== Sys2Proof/Laws/Waiting.lean ====
section
/-! SUPPORT. What each operation does to the requests that wait at the arbiter. -/
namespace Sys2Proof.Machine
set_option Elab.async false
open Sys2Proof
variable (s : State)
@[simp] theorem handControl_waiting_intake (n : ControlWord) (v : Word) : (handControl n v s).waiting.intake = s.waiting.intake := by
  unfold handControl; (try dsimp only); (repeat' split) <;> simp
@[simp] theorem handControl_waiting_load (n : ControlWord) (v : Word) : (handControl n v s).waiting.load = s.waiting.load := by
  unfold handControl; (try dsimp only); (repeat' split) <;> simp
@[simp] theorem handControl_waiting_render (n : ControlWord) (v : Word) : (handControl n v s).waiting.render = s.waiting.render := by
  unfold handControl; (try dsimp only); (repeat' split) <;> simp
@[simp] theorem handStateWord_waiting_intake (b : State) : (handStateWord b s).waiting.intake = s.waiting.intake := by
  unfold handStateWord; (try dsimp only); (repeat' split) <;> simp
@[simp] theorem handStateWord_waiting_load (b : State) : (handStateWord b s).waiting.load = s.waiting.load := by
  unfold handStateWord; (try dsimp only); (repeat' split) <;> simp
@[simp] theorem handStateWord_waiting_render (b : State) : (handStateWord b s).waiting.render = s.waiting.render := by
  unfold handStateWord; (try dsimp only); (repeat' split) <;> simp
@[simp] theorem handLine_waiting_intake (r : ReportRing) (q : Queued) : (handLine r q s).waiting.intake = s.waiting.intake := by
  unfold handLine; (try dsimp only); (repeat' split) <;> simp
@[simp] theorem handLine_waiting_load (r : ReportRing) (q : Queued) : (handLine r q s).waiting.load = s.waiting.load := by
  unfold handLine; (try dsimp only); (repeat' split) <;> simp
@[simp] theorem handLine_waiting_render (r : ReportRing) (q : Queued) : (handLine r q s).waiting.render = s.waiting.render := by
  unfold handLine; (try dsimp only); (repeat' split) <;> simp
@[simp] theorem handReport_waiting_intake  : (handReport  s).waiting.intake = s.waiting.intake := by
  unfold handReport; (try dsimp only); (repeat' split) <;> simp
@[simp] theorem handReport_waiting_load  : (handReport  s).waiting.load = s.waiting.load := by
  unfold handReport; (try dsimp only); (repeat' split) <;> simp
@[simp] theorem handReport_waiting_render  : (handReport  s).waiting.render = s.waiting.render := by
  unfold handReport; (try dsimp only); (repeat' split) <;> simp
@[simp] theorem giveReport_waiting_intake (r : Report) : (giveReport r s).waiting.intake = s.waiting.intake := by
  unfold giveReport; (try dsimp only); (repeat' split) <;> simp
@[simp] theorem giveReport_waiting_load (r : Report) : (giveReport r s).waiting.load = s.waiting.load := by
  unfold giveReport; (try dsimp only); (repeat' split) <;> simp
@[simp] theorem giveReport_waiting_render (r : Report) : (giveReport r s).waiting.render = s.waiting.render := by
  unfold giveReport; (try dsimp only); (repeat' split) <;> simp
@[simp] theorem giveReportOpt_waiting_intake (r : Option Report) : (giveReport? r s).waiting.intake = s.waiting.intake := by
  unfold giveReport?; (try dsimp only); (repeat' split) <;> simp
@[simp] theorem giveReportOpt_waiting_load (r : Option Report) : (giveReport? r s).waiting.load = s.waiting.load := by
  unfold giveReport?; (try dsimp only); (repeat' split) <;> simp
@[simp] theorem giveReportOpt_waiting_render (r : Option Report) : (giveReport? r s).waiting.render = s.waiting.render := by
  unfold giveReport?; (try dsimp only); (repeat' split) <;> simp
@[simp] theorem handIntake_waiting_class1 (f : IntakeFetch) : (handIntake f s).waiting.class1 = s.waiting.class1 := by
  unfold handIntake; (try dsimp only); (repeat' split) <;> simp
@[simp] theorem handIntake_waiting_load (f : IntakeFetch) : (handIntake f s).waiting.load = s.waiting.load := by
  unfold handIntake; (try dsimp only); (repeat' split) <;> simp
@[simp] theorem handIntake_waiting_render (f : IntakeFetch) : (handIntake f s).waiting.render = s.waiting.render := by
  unfold handIntake; (try dsimp only); (repeat' split) <;> simp
@[simp] theorem wantIntake_waiting_class1 (f : IntakeFetch) : (wantIntake f s).waiting.class1 = s.waiting.class1 := by
  unfold wantIntake; (try dsimp only); (repeat' split) <;> simp
@[simp] theorem wantIntake_waiting_load (f : IntakeFetch) : (wantIntake f s).waiting.load = s.waiting.load := by
  unfold wantIntake; (try dsimp only); (repeat' split) <;> simp
@[simp] theorem wantIntake_waiting_render (f : IntakeFetch) : (wantIntake f s).waiting.render = s.waiting.render := by
  unfold wantIntake; (try dsimp only); (repeat' split) <;> simp
@[simp] theorem beginProbe_waiting_class1  : (beginProbe  s).waiting.class1 = s.waiting.class1 := by
  unfold beginProbe; (try dsimp only); (repeat' split) <;> simp
@[simp] theorem beginProbe_waiting_load  : (beginProbe  s).waiting.load = s.waiting.load := by
  unfold beginProbe; (try dsimp only); (repeat' split) <;> simp
@[simp] theorem beginProbe_waiting_render  : (beginProbe  s).waiting.render = s.waiting.render := by
  unfold beginProbe; (try dsimp only); (repeat' split) <;> simp
@[simp] theorem endRecord_waiting_load (fault : Option RecCause) (p : Nat) : (endRecord fault p s).waiting.load = s.waiting.load := by
  unfold endRecord; (try dsimp only); (repeat' split) <;> simp
@[simp] theorem endRecord_waiting_render (fault : Option RecCause) (p : Nat) : (endRecord fault p s).waiting.render = s.waiting.render := by
  unfold endRecord; (try dsimp only); (repeat' split) <;> simp
@[simp] theorem attach_waiting_load (x : Anchor) : (attach x s).waiting.load = s.waiting.load := by
  unfold attach; (try dsimp only); (repeat' split) <;> simp
@[simp] theorem attach_waiting_render (x : Anchor) : (attach x s).waiting.render = s.waiting.render := by
  unfold attach; (try dsimp only); (repeat' split) <;> simp
@[simp] theorem setFlight_waiting_class1 (f : Flight) (q : RenderReq) : (setFlight f q s).waiting.class1 = s.waiting.class1 := by
  unfold setFlight; (try dsimp only); (repeat' split) <;> simp
@[simp] theorem setFlight_waiting_intake (f : Flight) (q : RenderReq) : (setFlight f q s).waiting.intake = s.waiting.intake := by
  unfold setFlight; (try dsimp only); (repeat' split) <;> simp
@[simp] theorem setFlight_waiting_load (f : Flight) (q : RenderReq) : (setFlight f q s).waiting.load = s.waiting.load := by
  unfold setFlight; (try dsimp only); (repeat' split) <;> simp
@[simp] theorem handRowStore_waiting_class1 (pl : Plane) (f : Flight) (n : Nat) : (handRowStore pl f n s).waiting.class1 = s.waiting.class1 := by
  unfold handRowStore; (try dsimp only); (repeat' split) <;> simp
@[simp] theorem handRowStore_waiting_intake (pl : Plane) (f : Flight) (n : Nat) : (handRowStore pl f n s).waiting.intake = s.waiting.intake := by
  unfold handRowStore; (try dsimp only); (repeat' split) <;> simp
@[simp] theorem handRowStore_waiting_load (pl : Plane) (f : Flight) (n : Nat) : (handRowStore pl f n s).waiting.load = s.waiting.load := by
  unfold handRowStore; (try dsimp only); (repeat' split) <;> simp
@[simp] theorem advanceRow_waiting_class1 (pl : Plane) (f : Flight) (l : List Placement) : (advanceRow pl f l s).waiting.class1 = s.waiting.class1 := by
  induction l <;> simp only [advanceRow] <;> (try split) <;> simp [*, handRowStore, setFlight]
@[simp] theorem advanceRow_waiting_intake (pl : Plane) (f : Flight) (l : List Placement) : (advanceRow pl f l s).waiting.intake = s.waiting.intake := by
  induction l <;> simp only [advanceRow] <;> (try split) <;> simp [*, handRowStore, setFlight]
@[simp] theorem advanceRow_waiting_load (pl : Plane) (f : Flight) (l : List Placement) : (advanceRow pl f l s).waiting.load = s.waiting.load := by
  induction l <;> simp only [advanceRow] <;> (try split) <;> simp [*, handRowStore, setFlight]
@[simp] theorem beginRow_waiting_class1 (pl : Plane) (g : Page) (k r : Nat) : (beginRow pl g k r s).waiting.class1 = s.waiting.class1 := by
  unfold beginRow; (try dsimp only); (repeat' split) <;> simp
@[simp] theorem beginRow_waiting_intake (pl : Plane) (g : Page) (k r : Nat) : (beginRow pl g k r s).waiting.intake = s.waiting.intake := by
  unfold beginRow; (try dsimp only); (repeat' split) <;> simp
@[simp] theorem beginRow_waiting_load (pl : Plane) (g : Page) (k r : Nat) : (beginRow pl g k r s).waiting.load = s.waiting.load := by
  unfold beginRow; (try dsimp only); (repeat' split) <;> simp
@[simp] theorem takeTile_waiting_class1  : (takeTile  s).waiting.class1 = s.waiting.class1 := by
  unfold takeTile; (try dsimp only); (repeat' split) <;> simp
@[simp] theorem takeTile_waiting_intake  : (takeTile  s).waiting.intake = s.waiting.intake := by
  unfold takeTile; (try dsimp only); (repeat' split) <;> simp
@[simp] theorem takeTile_waiting_load  : (takeTile  s).waiting.load = s.waiting.load := by
  unfold takeTile; (try dsimp only); (repeat' split) <;> simp
@[simp] theorem objectFault_waiting_intake (id : Fin Config.objectCount) (c : ObjCause) : (objectFault id c s).waiting.intake = s.waiting.intake := by
  unfold objectFault; (try dsimp only); (repeat' split) <;> simp
@[simp] theorem objectFault_waiting_load (id : Fin Config.objectCount) (c : ObjCause) : (objectFault id c s).waiting.load = s.waiting.load := by
  unfold objectFault; (try dsimp only); (repeat' split) <;> simp
@[simp] theorem objectFault_waiting_render (id : Fin Config.objectCount) (c : ObjCause) : (objectFault id c s).waiting.render = s.waiting.render := by
  unfold objectFault; (try dsimp only); (repeat' split) <;> simp
@[simp] theorem endTransition_waiting_intake  : (endTransition  s).waiting.intake = s.waiting.intake := by
  unfold endTransition; (try dsimp only); (repeat' split) <;> simp
@[simp] theorem endTransition_waiting_load  : (endTransition  s).waiting.load = s.waiting.load := by
  unfold endTransition; (try dsimp only); (repeat' split) <;> simp
@[simp] theorem endTransition_waiting_render  : (endTransition  s).waiting.render = s.waiting.render := by
  unfold endTransition; (try dsimp only); (repeat' split) <;> simp
@[simp] theorem dropButton_waiting_intake (b : Fin Config.buttonCount) (e : Button) : (dropButton b e s).waiting.intake = s.waiting.intake := by
  unfold dropButton; (try dsimp only); (repeat' split) <;> simp
@[simp] theorem dropButton_waiting_load (b : Fin Config.buttonCount) (e : Button) : (dropButton b e s).waiting.load = s.waiting.load := by
  unfold dropButton; (try dsimp only); (repeat' split) <;> simp
@[simp] theorem dropButton_waiting_render (b : Fin Config.buttonCount) (e : Button) : (dropButton b e s).waiting.render = s.waiting.render := by
  unfold dropButton; (try dsimp only); (repeat' split) <;> simp
@[simp] theorem moveSelection_waiting_intake (n : Fin Config.buttonCount) : (moveSelection n s).waiting.intake = s.waiting.intake := by
  unfold moveSelection; (try dsimp only); (repeat' split) <;> simp
@[simp] theorem moveSelection_waiting_load (n : Fin Config.buttonCount) : (moveSelection n s).waiting.load = s.waiting.load := by
  unfold moveSelection; (try dsimp only); (repeat' split) <;> simp
@[simp] theorem moveSelection_waiting_render (n : Fin Config.buttonCount) : (moveSelection n s).waiting.render = s.waiting.render := by
  unfold moveSelection; (try dsimp only); (repeat' split) <;> simp
@[simp] theorem activate_waiting_intake (n : Fin Config.buttonCount) : (activate n s).waiting.intake = s.waiting.intake := by
  unfold activate; (try dsimp only); (repeat' split) <;> simp
@[simp] theorem activate_waiting_load (n : Fin Config.buttonCount) : (activate n s).waiting.load = s.waiting.load := by
  unfold activate; (try dsimp only); (repeat' split) <;> simp
@[simp] theorem activate_waiting_render (n : Fin Config.buttonCount) : (activate n s).waiting.render = s.waiting.render := by
  unfold activate; (try dsimp only); (repeat' split) <;> simp
@[simp] theorem keyDirection_waiting_intake (k : Key) : (keyDirection k s).waiting.intake = s.waiting.intake := by
  unfold keyDirection; (try dsimp only); (repeat' split) <;> simp
@[simp] theorem keyDirection_waiting_load (k : Key) : (keyDirection k s).waiting.load = s.waiting.load := by
  unfold keyDirection; (try dsimp only); (repeat' split) <;> simp
@[simp] theorem keyDirection_waiting_render (k : Key) : (keyDirection k s).waiting.render = s.waiting.render := by
  unfold keyDirection; (try dsimp only); (repeat' split) <;> simp
@[simp] theorem keyEnter_waiting_intake  : (keyEnter  s).waiting.intake = s.waiting.intake := by
  unfold keyEnter; (try dsimp only); (repeat' split) <;> simp
@[simp] theorem keyEnter_waiting_load  : (keyEnter  s).waiting.load = s.waiting.load := by
  unfold keyEnter; (try dsimp only); (repeat' split) <;> simp
@[simp] theorem keyEnter_waiting_render  : (keyEnter  s).waiting.render = s.waiting.render := by
  unfold keyEnter; (try dsimp only); (repeat' split) <;> simp
@[simp] theorem selectButton_waiting_intake (n : Fin Config.buttonCount) : (selectButton n s).waiting.intake = s.waiting.intake := by
  unfold selectButton; (try dsimp only); (repeat' split) <;> simp
@[simp] theorem selectButton_waiting_load (n : Fin Config.buttonCount) : (selectButton n s).waiting.load = s.waiting.load := by
  unfold selectButton; (try dsimp only); (repeat' split) <;> simp
@[simp] theorem selectButton_waiting_render (n : Fin Config.buttonCount) : (selectButton n s).waiting.render = s.waiting.render := by
  unfold selectButton; (try dsimp only); (repeat' split) <;> simp
@[simp] theorem selectNone_waiting_intake  : (selectNone  s).waiting.intake = s.waiting.intake := by
  unfold selectNone; (try dsimp only); (repeat' split) <;> simp
@[simp] theorem selectNone_waiting_load  : (selectNone  s).waiting.load = s.waiting.load := by
  unfold selectNone; (try dsimp only); (repeat' split) <;> simp
@[simp] theorem selectNone_waiting_render  : (selectNone  s).waiting.render = s.waiting.render := by
  unfold selectNone; (try dsimp only); (repeat' split) <;> simp
@[simp] theorem stepTransition_waiting_intake  : (stepTransition  s).waiting.intake = s.waiting.intake := by
  unfold stepTransition; (try dsimp only); (repeat' split) <;> simp
@[simp] theorem stepTransition_waiting_load  : (stepTransition  s).waiting.load = s.waiting.load := by
  unfold stepTransition; (try dsimp only); (repeat' split) <;> simp
@[simp] theorem stepTransition_waiting_render  : (stepTransition  s).waiting.render = s.waiting.render := by
  unfold stepTransition; (try dsimp only); (repeat' split) <;> simp
@[simp] theorem flip_waiting_intake  : (flip  s).waiting.intake = s.waiting.intake := by
  unfold flip; (try dsimp only); (repeat' split) <;> simp
@[simp] theorem flip_waiting_load  : (flip  s).waiting.load = s.waiting.load := by
  unfold flip; (try dsimp only); (repeat' split) <;> simp
@[simp] theorem flip_waiting_render  : (flip  s).waiting.render = s.waiting.render := by
  unfold flip; (try dsimp only); (repeat' split) <;> simp
@[simp] theorem activeFrame_waiting_intake  : (activeFrame  s).waiting.intake = s.waiting.intake := by
  unfold activeFrame; (try dsimp only); (repeat' split) <;> simp
@[simp] theorem activeFrame_waiting_load  : (activeFrame  s).waiting.load = s.waiting.load := by
  unfold activeFrame; (try dsimp only); (repeat' split) <;> simp
@[simp] theorem activeFrame_waiting_render  : (activeFrame  s).waiting.render = s.waiting.render := by
  unfold activeFrame; (try dsimp only); (repeat' split) <;> simp
@[simp] theorem frameStart_waiting_intake  : (frameStart  s).waiting.intake = s.waiting.intake := by
  unfold frameStart; (try dsimp only); (repeat' split) <;> simp
@[simp] theorem frameStart_waiting_load  : (frameStart  s).waiting.load = s.waiting.load := by
  unfold frameStart; (try dsimp only); (repeat' split) <;> simp
@[simp] theorem frameStart_waiting_render  : (frameStart  s).waiting.render = s.waiting.render := by
  unfold frameStart; (try dsimp only); (repeat' split) <;> simp

end Sys2Proof.Machine
end

