-- ==== Sys2Proof/Laws/Shared.lean ====
section
/-! SUPPORT. What each shared operation can do, said once: the lemmas that proofs about commands cite. -/
namespace Sys2Proof.Machine
set_option Elab.async false
open Sys2Proof
variable (s t : State)

/-! ## Control-line stores -/

theorem handClass1_holds (x : Addr) (n : ControlWord) (v : BusWord) (l : List Class1) :
    controlStore x n v ∈ handClass1 x n v l := by
  unfold handClass1
  split
  next h =>
    obtain ⟨c, hc, hn⟩ := List.any_eq_true.1 h
    exact List.mem_map.2 ⟨c, hc, if_pos hn⟩
  next => exact List.mem_append_right _ (List.mem_singleton.2 rfl)

/-- A store of another word stays as it is. -/
theorem handClass1_keeps {x : Addr} {n m : ControlWord} {v : BusWord} {l : List Class1} {a : Addr}
    {e : BitVec 4} {w : BusWord} (hm : m ≠ n) (h : Class1.control m a e w ∈ l) :
    Class1.control m a e w ∈ handClass1 x n v l := by
  unfold handClass1
  split
  next => exact List.mem_map.2 ⟨_, h, by simp [Class1.isControl, hm]⟩
  next => exact List.mem_append_left _ h

theorem handControl_class1 {x : Anchor} (h : s.intake.anchor = some x) (n : ControlWord)
    (v : Word) :
    (handControl n v s).waiting.class1
      = handClass1 x.addr n (fresh x.bigEndian v) s.waiting.class1 := by
  simp [handControl, h]

theorem byteOrder_congr (h : s.intake.anchor = t.intake.anchor) : byteOrder s = byteOrder t := by
  simp [byteOrder, h]

theorem handControl_handed {x : Anchor} (h : s.intake.anchor = some x) (n : ControlWord)
    (v : Word) : ControlHanded n v (handControl n v s) :=
  ⟨x, _, by simp [h], rfl, .inl (by rw [handControl_class1 s h]; exact handClass1_holds ..)⟩

/-! ## Reports -/

/-- Class 1 after a report is handed: as it was, or with a report line at its back. -/
theorem handReport_class1 :
    (handReport s).waiting.class1 = s.waiting.class1 ∨
      ∃ a ws, (handReport s).waiting.class1 = s.waiting.class1 ++ [.reportLine a 0 ws] := by
  unfold handReport
  (repeat' split) <;> simp [handLine]

theorem giveReport_class1 (r : Report) :
    (giveReport r s).waiting.class1 = s.waiting.class1 ∨
      ∃ a ws, (giveReport r s).waiting.class1 = s.waiting.class1 ++ [.reportLine a 0 ws] := by
  have h := handReport_class1 (s.setReports (s.reports.arrive r))
  simpa [giveReport] using h

theorem giveReport_keeps {c : Class1} (r : Report) (h : c ∈ s.waiting.class1) :
    c ∈ (giveReport r s).waiting.class1 := by
  rcases giveReport_class1 s r with e | ⟨a, ws, e⟩ <;> rw [e]
  · exact h
  · exact List.mem_append_left _ h

/-- What a report does to the report unit rests on the report unit alone. -/
theorem handReport_reports_congr (h : s.reports = t.reports) :
    (handReport s).reports = (handReport t).reports := by
  unfold handReport
  rw [h]
  (repeat' split) <;> simp_all [overflowReport]

/-- The lines a hand-over adds to class 1 rest on the report unit and the byte order alone. -/
theorem handReport_adds_congr (h : s.reports = t.reports) (hb : byteOrder s = byteOrder t) :
    ∃ added, (handReport s).waiting.class1 = s.waiting.class1 ++ added
      ∧ (handReport t).waiting.class1 = t.waiting.class1 ++ added := by
  unfold handReport
  rw [h]
  (repeat' split) <;> simp_all [handLine, overflowReport]

theorem giveReport_reports_congr (r : Report) (h : s.reports = t.reports) :
    (giveReport r s).reports = (giveReport r t).reports := by
  unfold giveReport
  apply handReport_reports_congr
  simp [h]

/-! ## The intake's fetches and a record's end -/

theorem wantIntake_intake (f : IntakeFetch) :
    (wantIntake f s).intake
      = if intakeOutstanding s then { s.intake with deferred := some f }
        else { s.intake with deferred := none, probeLive := f.isProbe } := by
  unfold wantIntake
  split <;> simp [handIntake]

theorem wantIntake_waiting (f : IntakeFetch) :
    (wantIntake f s).waiting.intake
      = if intakeOutstanding s then s.waiting.intake else some f := by
  unfold wantIntake
  split <;> simp [handIntake]

theorem intakeOutstanding_congr (hw : s.waiting.intake = t.waiting.intake)
    (hm : s.mside = t.mside) : intakeOutstanding s = intakeOutstanding t := by
  simp [intakeOutstanding, hw, hm]

/-- The intake after a record's end, field by field. -/
theorem endRecord_intake {x : Anchor} (h : s.intake.anchor = some x) (c : Option RecCause)
    (p : Nat) :
    (endRecord c p s).intake
      = { s.intake with
          p := p, expected := s.intake.expected + 1, queue := [], slots := emptySlots,
          suspect := false, state := .probing,
          deferred := if intakeOutstanding s then some (.probe (lineReqAt (ringAddr x p))) else none,
          probeLive := if intakeOutstanding s then s.intake.probeLive else true } := by
  simp only [endRecord, beginProbe, handControl_intake, State.setIntake_intake]
  cases c <;>
  · simp only [giveReport?, Option.map, giveReport_intake, h]
    rw [wantIntake_intake]
    rw [intakeOutstanding_congr _ s (by simp) (by simp)]
    split <;> simp [IntakeFetch.isProbe]

theorem endRecord_waiting_intake {x : Anchor} (h : s.intake.anchor = some x)
    (c : Option RecCause) (p : Nat) :
    (endRecord c p s).waiting.intake
      = if intakeOutstanding s then s.waiting.intake
        else some (.probe (lineReqAt (ringAddr x p))) := by
  simp only [endRecord, beginProbe, handControl_intake, State.setIntake_intake]
  cases c <;>
  · simp only [giveReport?, Option.map, giveReport_intake, h]
    rw [wantIntake_waiting]
    rw [intakeOutstanding_congr _ s (by simp) (by simp)]
    split <;> simp

theorem endRecord_class1 {x : Anchor} (h : s.intake.anchor = some x) (c : Option RecCause)
    (p : Nat) :
    (endRecord c p s).waiting.class1
      = handClass1 x.addr .scriptIndex (fresh x.bigEndian (BitVec.ofNat 32 p))
          (giveReport? (c.map (recordFault s)) s).waiting.class1 := by
  simp only [endRecord, beginProbe, handControl_intake, State.setIntake_intake]
  cases c <;>
  · simp only [giveReport?, Option.map, giveReport_intake, h]
    rw [wantIntake_waiting_class1, State.setIntake_waiting, handControl_class1 (x := x)]
    · simp
    · simp

theorem endRecord_reports (c : Option RecCause) (p : Nat) :
    (endRecord c p s).reports
      = match c with
        | some c => (giveReport (recordFault s c) s).reports
        | none => s.reports := by
  cases c <;> simp [endRecord, giveReport?]

/-! ## The tile taken and the grant -/

/-- What a row comes to as it goes on. -/
theorem advanceRow_goesOn (pl : Plane) (f : Flight) (l : List Placement) :
    RowGoesOn pl f l s (advanceRow pl f l s) := by
  induction l with
  | nil =>
    exact .inl ⟨by simp, by simp [advanceRow, handRowStore, setFlight],
      .inl (by simp [advanceRow, handRowStore, setFlight])⟩
  | cons p rest ih =>
    simp only [advanceRow]
    split
    next a ha =>
      exact .inr ⟨[], p, rest, a, rfl, by simp, ha, by simp [setFlight],
        .inl (by simp [setFlight])⟩
    next hn =>
      rcases ih with ⟨h1, h2⟩ | ⟨pre, q, rest', a, h1, h2, h3⟩
      · exact .inl ⟨by simpa [hn] using h1, h2⟩
      · exact .inr ⟨p :: pre, q, rest', a, by simp [h1], by simpa [hn] using h2, h3⟩

theorem advanceRow_scan (pl : Plane) (f : Flight) (l : List Placement) :
    (advanceRow pl f l s).render.scan = s.render.scan := by
  induction l with
  | nil => simp [advanceRow, handRowStore, setFlight]
  | cons p rest ih =>
    simp only [advanceRow]
    split
    next => simp [setFlight]
    next => exact ih

/-- What an application of a placement rests on: the object directory and the button table. -/
theorem startApp_congr (ho : s.objects = t.objects) (hb : s.buttons = t.buttons) :
    startApp s = startApp t := by
  funext pl tile r p
  simp only [startApp, currentObject, ho, hb]

theorem rowGoesOn_congr {pl : Plane} {f : Flight} {l : List Placement} {s s' t t' : State}
    (h : RowGoesOn pl f l s t) (ho : s.objects = s'.objects) (hb : s.buttons = s'.buttons)
    (ha : s.intake.anchor = s'.intake.anchor) (hr : t'.render = t.render)
    (hh : ∀ r, RenderHanded r t → RenderHanded r t') : RowGoesOn pl f l s' t' := by
  unfold RowGoesOn at *
  rw [hr, ← startApp_congr s s' ho hb, ← byteOrder_congr s s' ha]
  rcases h with ⟨h1, h2, h3⟩ | ⟨pre, q, rest', a, h1, h2, h3, h4, h5⟩
  · exact .inl ⟨h1, h2, hh _ h3⟩
  · exact .inr ⟨pre, q, rest', a, h1, h2, h3, h4, hh _ h5⟩

/-- The tile the search finds: DIRTY, and the first such from the scan pointer on. -/
theorem nextDirty_spec {scan : Nat} {l : List TileState} {k : Nat} (h : nextDirty scan l = some k) :
    l[k]? = some .dirty ∧ ∀ j : Nat, l[j]? = some .dirty →
      if scan ≤ k then j < scan ∨ k ≤ j else j < scan ∧ k ≤ j := by
  have hk : l[k]? = some .dirty := by simpa using List.find?_some h
  refine ⟨hk, fun j hj => ?_⟩
  have hkl : k < l.length := (List.getElem?_eq_some_iff.1 hk).1
  have hjl : j < l.length := (List.getElem?_eq_some_iff.1 hj).1
  unfold nextDirty at h
  rw [List.find?_append] at h
  have hdrop : (List.range l.length).drop scan = List.range' scan (l.length - scan) := by
    rw [List.range_eq_range', List.drop_range']; simp
  rw [hdrop] at h
  cases h1 : (List.range' scan (l.length - scan)).find? (fun t => l[t]? == some .dirty) with
  | some m =>
    rw [h1] at h
    simp only [Option.some_or, Option.some.injEq] at h
    subst h
    have hm := List.mem_of_find?_eq_some h1
    simp only [List.mem_range'_1] at hm
    rw [if_pos hm.1]
    rw [List.find?_range'_eq_some] at h1
    rcases Nat.lt_or_ge j scan with h | h
    · exact .inl h
    rcases Nat.lt_or_ge j m with h' | h'
    · exact absurd (h1.2.2 j h h') (by simp [hj])
    · exact .inr h'
  | none =>
    rw [h1] at h
    simp only [Option.none_or] at h
    have hlt : k < scan := by simpa using List.mem_of_find?_eq_some h
    rw [if_neg (by omega)]
    have hn := List.find?_eq_none.1 h1
    have hjs : j < scan := by
      rcases Nat.lt_or_ge j scan with h | h
      · exact h
      · exact absurd (by simp [hj]) (hn j (by simp only [List.mem_range'_1]; omega))
    refine ⟨hjs, ?_⟩
    rw [List.find?_range_eq_some] at h
    rcases Nat.lt_or_ge j k with h' | h'
    · exact absurd (h.2.2 j h') (by simp [hj])
    · exact h'

theorem selectOwn_class1 {w left : OwnWaiting} {o : OwnReq} (h : selectOwn w = some (o, left))
    {c : Class1} (hc : c ∈ w.class1) : o = .class1 c ∨ c ∈ left.class1 := by
  unfold selectOwn at h
  cases hw : w.class1 with
  | nil => rw [hw] at hc; cases hc
  | cons d rest =>
    rw [hw] at h hc
    simp only [Option.some.injEq, Prod.mk.injEq] at h
    rcases List.mem_cons.1 hc with rfl | hr
    · exact .inl h.1.symm
    · right; rw [← h.2]; exact hr

theorem selectOwn_intake {w left : OwnWaiting} {o : OwnReq} (h : selectOwn w = some (o, left))
    {f : IntakeFetch} (hf : w.intake = some f) : o = .intake f ∨ left.intake = some f := by
  unfold selectOwn at h
  split at h
  next => simp only [Option.some.injEq, Prod.mk.injEq] at h; right; rw [← h.2]; exact hf
  next =>
    rw [hf] at h
    simp only [Option.some.injEq, Prod.mk.injEq] at h
    exact .inl h.1.symm

/-- What a grant can do: nothing, a C-side acceptance, or an own request issued. -/
theorem grant_cases :
    grant s = s
    ∨ (∃ r p, s.mside = .free ∧ s.cside.state = .waiting r ∧ grant s = accept r (s.setPassover p))
    ∨ ∃ o left, s.mside = .free ∧ selectOwn s.waiting = some (o, left)
        ∧ grant s = grantOwn o left s := by
  unfold grant
  split
  next r hm hc =>
    split
    next o left hp ho =>
      split
      · exact .inr (.inr ⟨o, left, hm, ho, rfl⟩)
      · exact .inr (.inl ⟨r, _, hm, hc, rfl⟩)
    all_goals exact .inr (.inl ⟨r, s.passover, hm, hc, rfl⟩)
  all_goals first
    | exact .inl rfl
    | split
      · exact .inr (.inr ⟨_, _, by assumption, by assumption, rfl⟩)
      all_goals exact .inl rfl

/-- A free M-side in SERVICE with no C-side request waiting takes the request the selector picks. -/
theorem grant_front {o : OwnReq} {left : OwnWaiting} (hm : s.mside = .free)
    (hc : s.cside.state.isWaiting = false) (hp : s.path = .service)
    (ho : selectOwn s.waiting = some (o, left)) : grant s = grantOwn o left s := by
  unfold grant
  rw [hm]
  rcases hq : s.cside.state with _ | _ | _ <;> simp_all [CState.isWaiting]

/-- A waiting class-1 store still waits after a grant, or is the one issued. -/
theorem grant_class1 {c : Class1} (h : c ∈ s.waiting.class1) :
    c ∈ (grant s).waiting.class1 ∨ (grant s).mside = .own (.class1 c) 0 := by
  rcases grant_cases s with e | ⟨r, p, _, _, e⟩ | ⟨o, left, _, ho, e⟩ <;> rw [e]
  · exact .inl h
  · left; simpa using h
  · rcases selectOwn_class1 ho h with rfl | hl
    · right; simp [grantOwn]
    · left; simpa [grantOwn] using hl

/-- A waiting intake fetch still waits after a grant, or is the one issued. -/
theorem grant_fetch {f : IntakeFetch} (h : s.waiting.intake = some f) : FetchHanded f (grant s) := by
  rcases grant_cases s with e | ⟨r, p, _, _, e⟩ | ⟨o, left, _, ho, e⟩ <;> rw [e]
  · exact .inl h
  · left; simpa using h
  · rcases selectOwn_intake ho h with rfl | hl
    · right; simp [grantOwn]
    · left; simpa [grantOwn] using hl

/-- A busy M-side makes no grant. -/
theorem grant_busy (h : s.mside ≠ .free) : grant s = s := by
  unfold grant
  split <;> simp_all

theorem selectOwn_render {w left : OwnWaiting} {o : OwnReq} (h : selectOwn w = some (o, left))
    {r : RenderReq} (hr : w.render = some r) : o = .render r ∨ left.render = some r := by
  unfold selectOwn at h
  split at h
  next => simp only [Option.some.injEq, Prod.mk.injEq] at h; right; rw [← h.2]; exact hr
  next =>
    split at h
    next => simp only [Option.some.injEq, Prod.mk.injEq] at h; right; rw [← h.2]; exact hr
    next =>
      split at h
      next => simp only [Option.some.injEq, Prod.mk.injEq] at h; right; rw [← h.2]; exact hr
      next =>
        rw [hr] at h
        simp only [Option.some.injEq, Prod.mk.injEq] at h
        exact .inl h.1.symm

/-- A render request handed stays handed through a grant. -/
theorem grant_renderHanded {r : RenderReq} (h : RenderHanded r s) : RenderHanded r (grant s) := by
  rcases h with h | h
  · rcases grant_cases s with e | ⟨r', p, _, _, e⟩ | ⟨o, left, _, ho, e⟩ <;> rw [e]
    · exact .inl h
    · left; simpa using h
    · rcases selectOwn_render ho h with rfl | hl
      · right; simp [grantOwn]
      · left; simpa [grantOwn] using hl
  · rw [grant_busy s (by simp [h])]
    exact .inr h

@[simp] theorem TileMap.setPage_plane (m : TileMap) (p : Page) (l : List TileState) :
    (m.setPage p l).plane = m.plane := by
  cases p <;> rfl

theorem renderHeld_congr (ht : s.tiles.plane = t.tiles.plane) (he : s.engine = t.engine)
    (hp : s.page = t.page) (hi : s.intake = t.intake) : renderHeld s = renderHeld t := by
  simp [renderHeld, planeWaits, ht, he, hp, hi]

/-- What the taking of a tile at the end of an event comes to. -/
theorem finish_took : TookFrom s.tiles s.render (backPage s) (finish s) := by
  unfold finish
  by_cases h : (takeTile s).tiles = s.tiles ∧ (takeTile s).render = s.render
  · left; simpa using h
  right
  revert h
  unfold takeTile
  split
  next pl hp hf =>
    split
    next hr =>
      split
      next k hk =>
        intro _
        obtain ⟨hd, hfirst⟩ := nextDirty_spec hk
        refine ⟨hf, ?_, k, pl, hp, hd, hfirst, by simp, by simp [beginRow, advanceRow_scan], ?_⟩
        · have hh : renderHeld s = false := by
            unfold renderState at hr
            split at hr
            next => cases hr
            next h => simpa using h
          rw [← hh]
          apply renderHeld_congr <;> simp
        · refine rowGoesOn_congr (advanceRow_goesOn (s.setTiles (s.tiles.setPage (backPage s)
            ((s.tiles.ofPage (backPage s)).set k .busy))) pl _ _) ?_ ?_ ?_ ?_
            (fun r hr => grant_renderHanded _ ?_)
          all_goals simp_all [beginRow]
      next => intro h; exact absurd ⟨rfl, rfl⟩ h
    next => intro h; exact absurd ⟨rfl, rfl⟩ h
  next => intro h; exact absurd ⟨rfl, rfl⟩ h

theorem finish_controlHanded {n : ControlWord} {v : Word} {x : Anchor}
    (ha : s.intake.anchor = some x)
    (h : controlStore x.addr n (fresh x.bigEndian v) ∈ s.waiting.class1) :
    ControlHanded n v (finish s) :=
  ⟨x, _, by simp [ha], rfl, grant_class1 (takeTile s) (by simpa [controlStore] using h)⟩

theorem finish_fetchHanded {f : IntakeFetch} (h : s.waiting.intake = some f) :
    FetchHanded f (finish s) := grant_fetch _ (by simpa using h)

theorem finish_busy (h : s.mside ≠ .free) : finish s = takeTile s :=
  grant_busy _ (by simpa using h)

theorem finish_busKept (hm : t.mside = s.mside) (hc : t.cside = s.cside)
    (hp : t.passover = s.passover) : BusKept s (finish t) := by
  intro h
  rw [finish_busy t (by rw [hm]; exact h)]
  simp [hm, hc, hp]

theorem finish_loadKept (hm : t.mside = s.mside) (hl : t.waiting.load = s.waiting.load) :
    LoadKept s (finish t) := by
  intro h
  rw [finish_busy t (by rw [hm]; exact h)]
  simp [hl]

/-! ## Attachment -/

/-- An attachment with nothing waiting leaves its three stores and its probe waiting. -/
theorem attach_waiting (x : Anchor) (hw : s.waiting = OwnWaiting.empty)
    (hm : ∀ f n, s.mside ≠ .own (.intake f) n) :
    (attach x s).waiting
      = ⟨attachStores x (attach x s), some (.probe (lineReqAt (ringAddr x 0))), none, none⟩ := by
  have ho : ∀ u : State, u.mside = s.mside → u.waiting.intake = none → intakeOutstanding u = false := by
    intro u hu hi
    unfold intakeOutstanding
    rw [hu, hi]
    split
    · exact absurd ‹_› (hm _ _)
    all_goals rfl
  unfold attach beginProbe
  simp only [handControl, State.setIntake_intake, State.setEngine_intake, State.setWaiting_intake,
    State.setWaiting_waiting, State.setIntake_waiting, State.setEngine_waiting, hw]
  unfold wantIntake
  rw [ho _ (by simp) (by simp [OwnWaiting.empty])]
  simp [handIntake, attachStores, OwnWaiting.empty, handClass1, Class1.isControl, controlStore,
    controlAddr, stateWord, Intake.absent]
  rfl

/-- A free M-side carries the first store of an attachment at the event's end. -/
theorem finish_attachmentIssued {x : Anchor} (hm : s.mside = .free)
    (hc : s.cside.state.isWaiting = false) (hp : s.path = .service) (ht : s.tiles.plane = none)
    (hw : s.waiting
      = ⟨attachStores x s, some (.probe (lineReqAt (ringAddr x 0))), none, none⟩) :
    AttachmentIssued x (finish s) := by
  have htake : takeTile s = s := by simp [takeTile, ht]
  have hs : stateWord (finish s) = stateWord s := by simp [stateWord, finish, htake]
  refine ⟨_, _, rfl, ?_, ?_⟩
  all_goals
    try rw [hs]
    rw [finish, htake, grant_front s hm hc hp (by rw [hw]; rfl)]
    simp [grantOwn]

/-! ## A record carried out -/

theorem nextIndex_of_inHand {k : RecKind} {x : Anchor} (h : InHand k x s) :
    advancedP s = nextIndex x s := by
  obtain ⟨ha, _, hle⟩ := h
  simp only [advancedP, ha, nextIndex, Anchor.words]
  by_cases hlt : s.intake.p + recordWords s < 4 * x.lines
  · simp [hlt, Nat.mod_eq_of_lt hlt]
  · have he : s.intake.p + recordWords s = 4 * x.lines := by omega
    simp [he]

/-- The end of a record, from a state u that its effect has left, up to the end of the event. -/
theorem endRecord_ended {x : Anchor} {u : State} (c : Option RecCause) (p : Nat)
    (hi : u.intake = s.intake) (ha : s.intake.anchor = some x)
    (hw : u.waiting.intake = s.waiting.intake) (hm : u.mside = s.mside) :
    RecordEnded x p s (finish (endRecord c p u)) := by
  have hau : u.intake.anchor = some x := by rw [hi, ha]
  have ho : intakeOutstanding u = intakeOutstanding s := intakeOutstanding_congr _ _ hw hm
  constructor
  case index =>
    exact finish_controlHanded _ (x := x) (by simp [endRecord_intake u hau, hau])
      (by rw [endRecord_class1 u hau]; exact handClass1_holds ..)
  case probe =>
    unfold FetchDue
    split
    next h => simp [endRecord_intake u hau, ho, h]
    next h =>
      refine ⟨finish_fetchHanded _ ?_, ?_⟩
      · rw [endRecord_waiting_intake u hau, ho, if_neg h]
      · simp [endRecord_intake u hau, ho, h]
  all_goals simp [endRecord_intake u hau, hi, ha]

/-- What a record carried out in its own event comes to, its effect leaving the state u. -/
theorem carryOut_carriedOut {k : RecKind} {x : Anchor} {u : State} {effect : State → RecordResult}
    (h : InHand k x s) (he : effect s = .ok u) (hi : u.intake = s.intake)
    (hw : u.waiting.intake = s.waiting.intake) (hl : u.waiting.load = s.waiting.load)
    (hm : u.mside = s.mside) (hc : u.cside = s.cside) (hp : u.passover = s.passover)
    (ho : SameOuter s u) : CarriedOut x s (finish (carryOut effect s)) := by
  simp only [carryOut, he, nextIndex_of_inHand s h]
  refine ⟨endRecord_ended s none _ (by simp [hi]) h.1 (by simp [hw]) (by simp [hm]), ?_,
    finish_busKept _ _ (by simp [hm]) (by simp [hc]) (by simp [hp]),
    finish_loadKept _ _ (by simp [hm]) (by simp [hl])⟩
  simpa [SameOuter] using ho

/-- A record refused by its checks. -/
theorem carryOut_refused {k : RecKind} {x : Anchor} {c : RecCause} {effect : State → RecordResult}
    (h : InHand k x s) (he : effect s = .error c) :
    RefusedWith c x s (.next (finish (carryOut effect s))) := by
  simp only [carryOut, he, nextIndex_of_inHand s h]
  refine ⟨_, rfl, ⟨endRecord_ended s _ _ rfl h.1 rfl rfl, by simp [SameOuter],
    finish_busKept _ _ (by simp) (by simp) (by simp), finish_loadKept _ _ (by simp) (by simp)⟩,
    by simp [SameTables], by simp [SameControl], ?_, ?_⟩
  · simpa [TilesKept, backPage] using finish_took (endRecord (some c) (nextIndex x s) s)
  · simp [endRecord_reports, recordFault, hdrKind]

/-- A record command in whose hands a record of its kind is. -/
theorem runRecord_inHand {k : RecKind} {x : Anchor} (h : InHand k x s) (run : State → State) :
    runRecord k run s = .next (finish (run s)) := by
  simp [runRecord, h.2.1]

end Sys2Proof.Machine
end

