-- ==== Sys2Proof/Tests/Slice0.lean ====
section
/-! SUPPORT. Tests: the well-formedness smoke, the manual's worked figures, single steps, and for each
statement with hypotheses a state that meets them, clause by clause, at values on the edge of a range. -/
namespace Sys2Proof.Tests
set_option maxRecDepth 100000
set_option Elab.async false
open Sys2Proof Sys2Proof.Machine

/-! ## Well-formedness -/

theorem test_wf_refuses_misaligned_line_fetch :
    Instr.wf (.cSideRequest (.lineFetch 0x00100008 0)) = false := by decide

theorem test_wf_refuses_misaligned_line_store :
    Instr.wf (.cSideRequest (.lineStore 0x0010000F 3)) = false := by decide

theorem test_wf_refuses_misaligned_word_store :
    Instr.wf (.cSideRequest (.wordStore 0x00100002 15)) = false := by decide

theorem test_wf_takes_aligned_requests :
    Instr.wf (.cSideRequest (.lineFetch 0x00100010 3)) = true
    ∧ Instr.wf (.cSideRequest (.wordStore 0x00100004 3)) = true ∧ Instr.wf .pad = true := by decide

/-! ## Worked figures of the manual -/

/-- The table of R35. -/
theorem test_mul255_table :
    mul255 0 0 = 0 ∧ mul255 127 1 = 0 ∧ mul255 128 1 = 1 ∧ mul255 255 1 = 1
    ∧ mul255 128 128 = 64 ∧ mul255 200 255 = 200 ∧ mul255 255 255 = 255 := by decide

/-- The table of R36. -/
theorem test_premultiply_table :
    premultiply ⟨255, 16, 32, 64⟩ = ⟨255, 16, 32, 64⟩ ∧ premultiply ⟨128, 255, 0, 0⟩ = ⟨128, 128, 0, 0⟩
    ∧ premultiply ⟨0, 200, 10, 10⟩ = ⟨0, 0, 0, 0⟩ ∧ premultiply ⟨128, 0, 0, 255⟩ = ⟨128, 0, 0, 128⟩ := by
  decide

/-- Section 3.8: two layers. -/
theorem test_two_layers :
    layOver (sourcePixel ⟨128, 0, 0, 255⟩ 200) (layOver (sourcePixel ⟨255, 200, 100, 50⟩ 255) ⟨0, 0, 0, 0⟩)
      = ⟨255, 122, 61, 130⟩ := by decide

/-- Section 3.9, k = 3. -/
theorem test_dissolve_level :
    dissolve 384 ⟨255, 122, 61, 130⟩ ⟨255, 0, 0, 255⟩ = ⟨255, 76, 38, 177⟩ := by decide

def plane1080 : Plane := ⟨1920, 1080, 0x00800000, 0x01000000, Argb.transparent⟩

/-- Section 3.10, k = 1. -/
theorem test_wipe_frontier :
    frontier .wipeLeft plane1080 204 = 382 ∧ frontSide .wipeLeft plane1080 204 381 10 = true
    ∧ frontSide .wipeLeft plane1080 204 382 10 = false
    ∧ frontSide .wipeRight plane1080 204 1538 10 = true
    ∧ frontSide .wipeRight plane1080 204 1537 10 = false := by decide

/-- Section 3.11, strengths 64 and 16. -/
theorem test_tint_strengths :
    tintPixel 64 ⟨255, 122, 61, 130⟩ ⟨255, 255, 255, 0⟩ = ⟨255, 155, 110, 98⟩
    ∧ tintPixel 16 ⟨255, 122, 61, 130⟩ ⟨255, 255, 255, 0⟩ = ⟨255, 130, 73, 122⟩ := by decide

/-- Section 2.7: placements 3 and 1. -/
theorem test_footprints :
    rectFootprint plane1080 (-30) 100 200 40 = some ⟨0, 2, 12, 17⟩
    ∧ rectFootprint plane1080 1856 1064 64 16 = some ⟨29, 29, 133, 134⟩
    ∧ rectFootprint plane1080 (-30) (-40) 200 40 = none := by decide

/-- Section 1.4: strides and least lengths. -/
theorem test_strides :
    rowStride .index8 100 = 7 ∧ leastLength .index8 100 40 = 4480 ∧ leastLength .index4 100 40 = 2560
    ∧ leastLength .index2 100 40 = 1280 ∧ leastLength .run8 100 40 = 160 := by decide

/-- Section 1.4: the RUN8 row of ten columns, its code at a word boundary, little-endian. -/
theorem test_run8_row :
    (Run8.go false ⟨.ready, .run8, 0, 10, 1, 0x2000000, 64⟩ 9 20
      ⟨0x2000010, .code, [], .needByte,
        [(0x2000010, fresh false 0x10020782), (0x2000014, fresh false 0x00851211), (0x2000018, fresh false 0x44)]⟩).out
      = [7, 7, 7, 7, 0x10, 0x11, 0x12, 0, 0, 0] := by decide

/-- The part just anchored, with no work in hand. -/
def act0 : State := State.reset.setEngine .active

/-- Section 7.11: the anchor at 0x00300000. -/
theorem test_anchor_signature :
    anchorOf 0x00300000 (fresh true 0x6E1BF0D4) (fresh true 0x91E40F2B) (fresh true 0x80000080) (fresh true 0xBC5AA543)
      = some ⟨0x00300000, 128, true⟩
    ∧ anchorOf 0x00300000 (fresh true 0x6E1BF0D4) (fresh true 0x91E40F2B) (fresh true 0x80001080)
        (fresh true (0x80001080 ^^^ 0x3C5AA5C3)) = none
    ∧ anchorOf 0x00300000 (fresh false 0x6E1BF0D4) (fresh false 0x91E40F2B) (fresh false 0x80000080)
        (fresh false 0xBC5AA543) = some ⟨0x00300000, 128, true⟩
    ∧ anchorOf 0x00300000 (fresh true 0x6E1BF0D4) (fresh true 0x91E40F2B)
        ⟨0x80000080, (fresh true 0x80000080).par ^^^ 1⟩ (fresh true 0xBC5AA543) = none := by decide

/-- R170: parity bit k belongs to the byte at word address + k. -/
theorem test_parity_follows_byte_order :
    fresh false 0x01000000 = ⟨0x01000000, 7⟩ ∧ fresh true 0x01000000 = ⟨0x01000000, 14⟩
    ∧ wordGood true ⟨0x01000000, 7⟩ = false ∧ byteAt true 0x82070210 1 = 0x07 := by decide

/-- Section 10.2: the first state word after anchoring, and one with plane, ring and page B. -/
theorem test_state_word :
    stateWord act0 = 0xC3010001
    ∧ stateWord (((act0.setTiles ⟨true, Plane.unset, [], [], false⟩).setReports
        { ReportUnit.empty with ring := some ⟨0, 4⟩ }).setPage ⟨.b, false, none, none⟩)
      = 0xC3010381 := by decide

/-- R176: a RECORD_FAULT line. -/
theorem test_report_words :
    reportWords ⟨.recordFault .parity 20 0x10, 3⟩ = [0x05060003, 20, 0x10, 0] := by decide

/-! ## States for the tests -/

def ring : Anchor := ⟨0x00100000, 16, false⟩

def waitingIntake : Intake := { Intake.absent with anchor := some ring, state := .waiting }

/-- ACTIVE on a ring of 16 lines, with nothing to do. -/
def act : State := (State.reset.setIntake waitingIntake).setEngine .active

/-- A record in the buffer, ready to be carried out. -/
def hold (h : Word) (ws : List Word) (s : State) : State :=
  s.setIntake { s.intake with
    state := .executing .ready, header := h,
    slots := Vector.ofFn fun i => if i.val = 0 then some h else ws[i.val - 1]? }

def plane64 : Plane := ⟨64, 8, 0x00800000, 0x01000000, Argb.transparent⟩

/-- A plane of one tile, CLEAN on both pages. -/
def planed (s : State) : State := s.setTiles ⟨true, plane64, [.clean], [.clean], true⟩

def flight (p : RowPhase) : Flight := ⟨0, .b, 7, List.replicate 64 Argb.transparent, p⟩

/-- The one tile in flight on page B. -/
def inFlight (p : RowPhase) (s : State) : State :=
  (s.setTiles ⟨true, plane64, [.clean], [.busy], true⟩).setRender ⟨0, some (flight p)⟩

def own (o : OwnReq) (n : Nat) (s : State) : State := s.setMside (.own o n)

def reportsOn (w r : Nat) (s : State) : State :=
  s.setReports { ReportUnit.empty with ring := some ⟨0x00102000, 4⟩, write := w, read := r }

def button (f : Button → Button) (b : Fin 48) (s : State) : State :=
  s.setButtons { s.buttons with entries := s.buttons.entries.set b (f ⟨true, true, ButtonDef.empty,
    none, none, none⟩) }

def selected (b : Fin 48) (a : Bool) (n : Nat) (s : State) : State :=
  s.setButtons { s.buttons with selection := some b, activated := a, hold := n }

def txn (r : BusReq) (t : Treatment) (ws : List BusWord) (s : State) : State :=
  (s.setMside (.controller r)).setCside ⟨.active ⟨r, t, ws, none⟩, []⟩

def nextOf (o : Host.Outcome State Fault Refusal) : State :=
  match o with
  | .next t => t
  | .fault _ | .refused _ => State.reset

def queued (e : CapEntry) (s : State) : State := s.setIntake { s.intake with queue := [e] }

def objs (e : ObjEntry) (s : State) : State := s.setObjects (s.objects.set 5 e)

def entry5 : ObjEntry := ⟨.ready, .index8, 0, 8, 8, 0x02000000, 128⟩

/-! ## Single steps -/

theorem test_place_enters_list :
    (nextOf (exec .place (hold 0x3060C003 [5, 0, 0x0000FF0A] (planed act)))).list
      = [⟨3, .object 5, 0, 0, 10, 255⟩] := by decide

theorem test_place_takes_tile :
    (nextOf (exec .place (objs entry5 (hold 0x3060C003 [5, 0, 0x0000FF0A] (planed act))))).tiles.b
      = [.busy] := by decide

theorem test_wrap_returns_to_zero :
    (nextOf (exec .wrap (hold 0x01000000 [] (act.setIntake { waitingIntake with p := 60 })))).intake.p
      = 0 := by decide

theorem test_pad_advances :
    (nextOf (exec .pad (hold 0x00600000 [] act))).intake.p = 4 := by decide

theorem test_park_parks :
    (nextOf (exec .park (hold 0x03000000 [] act))).engine = .parked := by decide

theorem test_show_makes_pending :
    (nextOf (exec .showRecord (hold 0x50200021 [8] act))).page.pendingShow
      = some ⟨.dissolve, 8, 2⟩ := by decide

theorem test_select_of_undefined_is_refused :
    (nextOf (exec .select (hold 0x46000004 [] (reportsOn 0 0 act)))).reports.queue
      = [⟨.recordFault .field 0 0x46, 0⟩] := by decide

/-- Section 6.7, the first KEY. -/
theorem test_key_down_selects_lowest :
    (nextOf (exec .keyDirection (hold 0x45000002 [] (button id 7 (button id 3 act))))).buttons.selection
      = some 3 := by decide

theorem test_frame_start_counts :
    (nextOf (exec .frameStart State.reset)).frames = 1 := by decide

theorem test_frame_start_flips :
    (nextOf (exec .frameStart (planed act))).page.front = .b := by decide

theorem test_reset_assert_bypasses :
    (nextOf (exec .resetAssert act)).path = .bypass
    ∧ (nextOf (exec .resetAssert act)).engine = .off := by decide

/-- Section 7.11, row 6: redirection of the front line. -/
theorem test_display_fetch_redirected :
    (nextOf (exec (.cSideRequest (.lineFetch 0x00800010 2)) ((planed act).setPage
      ⟨.b, false, none, none⟩))).mside = .controller (.lineFetch 0x01000010 2) := by decide

/-- Section 7.11, row 1: the order in which captured words join the queue. -/
theorem test_capture_order :
    (nextOf (exec .cStoreComplete (txn (.lineStore 0x00100040 2) (.passed .script)
      [fresh false 1, fresh false 2, fresh false 3, fresh false 4] act))).intake.queue.map (fun e => (e.addr, e.endMark))
      = [(0x00100048, false), (0x0010004C, false), (0x00100040, false), (0x00100044, true)] := by
  decide

theorem test_anchor_store_attaches :
    (nextOf (exec .cStoreComplete (txn (.lineStore 0x00300000 0) (.passed .other)
      [fresh true 0x6E1BF0D4, fresh true 0x91E40F2B, fresh true 0x80000080, fresh true 0xBC5AA543] State.reset))).intake.anchor
      = some ⟨0x00300000, 128, true⟩ := by decide

theorem test_drain_commits :
    (nextOf (exec .captureDrain (queued ⟨0x00100020, 0x46000004, 15, true⟩ act))).intake.state
      = .executing .ready := by decide

theorem test_bad_header_halts :
    (nextOf (exec (.probeComplete ⟨0, 0⟩ (fresh false 0) (fresh false 0) (fresh false 0))
      (own (.intake (.probe ⟨0x00100020, 0⟩)) 0
        (act.setIntake { waitingIntake with state := .probing, probeLive := true })))).intake.state
      = .halted := by decide

theorem test_report_store_moves_write_index :
    (nextOf (exec .reportStoreComplete (own (.class1 (.reportLine 0x00102030 0 [])) 0
      (act.setReports { ReportUnit.empty with
        ring := some ⟨0x00102000, 4⟩, write := 3, read := 0, inHand := some true })))).reports.write
      = 0 := by decide

theorem test_load_word_written :
    (nextOf (exec (.loadWordArrival (fresh false 0x80402010)) (own (.load ⟨0x00400000, 2⟩) 0
      (act.setColours { ColourTables.empty with
        load := some ⟨2, 250, 6, 0x00400008, false, false⟩ })))).colours.entries[2][250]
      = ⟨0x80, 0x40, 0x20, 0x10⟩ := by decide

theorem test_tile_completes_clean :
    (nextOf (exec .tileComplete (own (.render (.store 0 0 [])) 0 (inFlight (.storing 15) act)))).tiles.b
      = [.clean] := by decide

/-- R10: a row table entry beyond the data makes the object FAULTY as its word arrives. -/
theorem test_short_shows_at_arrival :
    (nextOf (exec (.objectWordArrival (fresh false 128)) (own (.render (.fetch ⟨0x02000000, 0⟩)) 0
      (objs { entry5 with coding := .run8 } (inFlight (.applying
        ⟨⟨3, .object 5, 0, 0, 10, 255⟩, 5, { entry5 with coding := .run8 }, 0, 7, 0, 7, 0, false,
          .run8 ⟨0x02000000, .entry, [], .needByte, []⟩⟩ []) act))))).objects[5].state = .faulty := by
  decide

theorem test_control_store_as_issued :
    (nextOf (exec .pad (hold 0x00600000 [] act))).mside
      = .own (.class1 (.control .scriptIndex 0x00100014 15 (fresh false 4))) 0 := by decide

theorem test_urgent_line_set : (nextOf (exec (.urgentLine true) act)).urgent = true := by decide

theorem test_sweep_end_unanchored :
    (nextOf (exec .clearingSweepEnd (State.reset.setEngine .clearing))).engine = .unanchored := by
  decide

/-! ## Hypotheses met: the step, reset and arithmetic -/

theorem hyp_StepRunsFrontCommand : State.reset.pending = [] := rfl

theorem hyp_CommandsKeepQueueAndCountFrames :
    (∃ t, exec .frameStart act = .next t) ∧ flipDue (planed act) = true
    ∧ State.reset.engine ≠ .active ∧ (State.reset.setEngine .clearing).engine = .clearing :=
  ⟨⟨_, rfl⟩, by decide, by decide, rfl⟩

theorem hyp_Mul255RoundsToNearest : (255 : Nat) ≤ 255 ∧ (0 : Nat) ≤ 255 := by decide

theorem hyp_OverLaysSourceOnDestination :
    (⟨0, 0, 0, 0⟩ : Argb).premultiplied = true ∧ (⟨255, 255, 0, 9⟩ : Argb).premultiplied = true
    ∧ (⟨128, 128, 0, 9⟩ : Argb).premultiplied = true := by decide

theorem hyp_DissolveMeetsLimits : (0 : Nat) ≤ 1024 ∧ (1024 : Nat) ≤ 1024 := by decide

theorem hyp_WipeFrontierAndSides :
    (1024 : Nat) ≤ 1024 ∧ (0 : Nat) ≤ 1024
    ∧ 380 < frontier .wipeLeft plane1080 204 ∧ frontier .wipeLeft plane1080 204 < 380 + 4
    ∧ 1536 < plane1080.width - frontier .wipeRight plane1080 204
    ∧ plane1080.width - frontier .wipeRight plane1080 204 < 1536 + 4 := by decide

theorem hyp_TintBlendsPixelsItReaches : (256 : Nat) ≤ 256 ∧ (0 : Nat) ≤ 256 := by decide

theorem plane64_legal : plane64.Legal := by unfold Plane.Legal; decide

theorem act_objects (id : Fin Config.objectCount) : act.objects[id] = ObjEntry.undef := by
  simp [act, State.setIntake, State.setEngine, State.reset, emptyObjects]

theorem act_objects_sound : ObjectsSound act := fun id => by
  rw [act_objects]; unfold ObjEntry.Sound; decide

theorem hyp_FootprintsAndMarking :
    ObjectsSound (planed act) ∧ (planed act).tiles.plane = some plane64 ∧ plane64.Legal
    ∧ 0 < plane64.tileCount ∧ act.tiles.plane = none ∧ [(⟨0, 0, 0, 0⟩ : TileRect)] ≠ []
    ∧ ((planed act).tiles.ofPage .b)[0]? = some .clean
    ∧ ((inFlight (.storing 0) act).tiles.ofPage .b)[0]? = some .busy :=
  ⟨act_objects_sound, rfl, plane64_legal, by decide, rfl, by decide, rfl, rfl⟩

/-! ## Hypotheses met: records -/

theorem hyp_PadAndWrapOnlyEnd :
    InHand .pad ring (hold 0x00E00000 [] act) ∧ InHand .wrap ring (hold 0x01000000 [] act) :=
  ⟨⟨rfl, by decide, by decide⟩, ⟨rfl, by decide, by decide⟩⟩

theorem hyp_SceneResetEmptiesScene : InHand .sceneReset ring (hold 0x02000000 [] act) :=
  ⟨rfl, by decide, by decide⟩

def spec (len settle : Nat) : TransSpec := ⟨.dissolve, len, settle⟩

def running (p : TransPhase) (s : State) : State :=
  s.setPage ⟨.a, false, none, some ⟨spec 8 2, p, 0⟩⟩

theorem hyp_ParkParksAndEndsTransition :
    InHand .park ring (hold 0x03000000 [] act) ∧ act.page.running = none
    ∧ InHand .park ring (hold 0x03000000 [] (running (.ramp 7) act))
    ∧ (hold 0x03000000 [] (running (.ramp 7) act)).page.running = some ⟨spec 8 2, .ramp 7, 0⟩ :=
  ⟨⟨rfl, by decide, by decide⟩, rfl, ⟨rfl, by decide, by decide⟩, rfl⟩

/-- A SETUP PLANE of 64 by 8 with these bases. -/
def setup (a b : Word) (s : State) : State := hold 0x10800004 [64, 8, a, b, 0] s

theorem setup_named (s : State) : planeNamed (setup 0x00800000 0x01000000 s) = plane64 := by
  show Plane.mk _ _ _ _ (premultiply (Argb.ofWord 0)) = _
  rfl

theorem setup_clear : PlaneClear (setup 0x00800000 0x01000000 act) ring plane64 := by
  have h : (setup 0x00800000 0x01000000 act).reports.ring = none := rfl
  simp only [PlaneClear, PageClear, ClearOfAnchor, RangesMeet, h]
  simp [plane64, Plane.bytes, ring]
  and_intros <;> intros <;> omega

theorem hyp_SetupPlaneSetsPlane :
    (∃ s, InHand .setupPlane ring s ∧ (planeNamed s).Legal ∧ PlaneClear s ring (planeNamed s)
      ∧ s.render.flight = none)
    ∧ (∃ s, InHand .setupPlane ring s ∧ (planeNamed s).Legal ∧ PlaneClear s ring (planeNamed s)
      ∧ s.render.flight.isSome = true)
    ∧ (∃ s, InHand .setupPlane ring s ∧ ¬ (planeNamed s).Legal)
    ∧ ∃ s, InHand .setupPlane ring s ∧ (planeNamed s).Legal
      ∧ ¬ PlaneClear s ring (planeNamed s) := by
  refine ⟨⟨setup 0x00800000 0x01000000 act, ⟨rfl, by decide, by decide⟩, ?_, ?_, rfl⟩,
    ⟨setup 0x00800000 0x01000000 (inFlight (.storing 3) act), ⟨rfl, by decide, by decide⟩, ?_, ?_, rfl⟩,
    ⟨setup 0x00800080 0x01000000 act, ⟨rfl, by decide, by decide⟩, ?_⟩,
    ⟨setup 0x00800000 0x00800700 act, ⟨rfl, by decide, by decide⟩, ?_, ?_⟩⟩
  · rw [setup_named]; exact plane64_legal
  · rw [setup_named]; exact setup_clear
  · rw [setup_named]; exact plane64_legal
  · rw [setup_named]; exact setup_clear
  · unfold Plane.Legal; decide
  · unfold Plane.Legal; decide
  · rintro ⟨h, -⟩
    exact h ⟨0x00800700, by decide, by decide, by decide, by decide⟩

/-- A SETUP REPORTS with this base and these entries. -/
def setupRing (b n : Word) (s : State) : State := hold 0x11400000 [b, n] s

theorem hyp_SetupReportsSetsRing :
    (∃ s, InHand .setupReports ring s ∧ RingLegal s (body s 1).toNat (body s 2).toNat
      ∧ RingClear s ring (body s 1).toNat (body s 2).toNat)
    ∧ (∃ s, InHand .setupReports ring s ∧ ¬ RingLegal s (body s 1).toNat (body s 2).toNat)
    ∧ ∃ s, InHand .setupReports ring s ∧ RingLegal s (body s 1).toNat (body s 2).toNat
      ∧ ¬ RingClear s ring (body s 1).toNat (body s 2).toNat := by
  refine ⟨⟨setupRing 0x00102000 4 act, ⟨rfl, by decide, by decide⟩, ?_, ?_⟩,
    ⟨setupRing 0x00102000 3 act, ⟨rfl, by decide, by decide⟩, ?_⟩,
    ⟨setupRing 0x00100100 1024 act, ⟨rfl, by decide, by decide⟩, ?_, ?_⟩⟩
  · unfold RingLegal; decide
  · have h1 : (body (setupRing 0x00102000 4 act) 1).toNat = 0x00102000 := by decide
    have h2 : (body (setupRing 0x00102000 4 act) 2).toNat = 4 := by decide
    have h3 : (setupRing 0x00102000 4 act).tiles.plane = none := rfl
    rw [h1, h2]
    simp only [RingClear, ClearOfAnchor, RangesMeet, h3]
    simp [ring]
    and_intros <;> intros <;> omega
  · unfold RingLegal; decide
  · unfold RingLegal; decide
  · rintro ⟨⟨-, -, h⟩, -⟩
    exact h ⟨0x00100100, by decide, by decide, by decide, by decide⟩

theorem hyp_SetColourWritesEntry :
    InHand .setColour ring (hold 0x20200EFF [0x80FF0000] act)
    ∧ bits (hold 0x20200EFF [0x80FF0000] act).intake.header 12 9 = (7 : Fin 8).val
    ∧ bits (hold 0x20200EFF [0x80FF0000] act).intake.header 8 0 = (255 : Fin 256).val :=
  ⟨⟨rfl, by decide, by decide⟩, by decide, by decide⟩

/-- A LOAD COLOURS of table 2 from entry 250 with this count and source. -/
def loadRec (n src : Word) : State := hold 0x214004FA [n, src] act

theorem hyp_LoadColoursBeginsLoad :
    (∀ n src, InHand .loadColours ring (loadRec n src))
    ∧ bits (loadRec 10 0x00400008).intake.header 12 9 = (2 : Fin 8).val
    ∧ bits (loadRec 10 0x00400008).intake.header 8 0 = (250 : Fin 256).val
    ∧ LoadLegal (body (loadRec 10 0x00400008) 1).toNat
        (min (body (loadRec 10 0x00400008) 1).toNat (256 - (250 : Fin 256).val))
        (body (loadRec 10 0x00400008) 2).toNat
    ∧ ¬ LoadLegal (body (loadRec 6 0xFFFFFFF0) 1).toNat
        (min (body (loadRec 6 0xFFFFFFF0) 1).toNat (256 - (250 : Fin 256).val))
        (body (loadRec 6 0xFFFFFFF0) 2).toNat
    ∧ InHand .loadColours ring (hold 0x21401000 [1, 0] act)
    ∧ 8 ≤ bits (hold 0x21401000 [1, 0] act).intake.header 12 9
    ∧ InHand .loadColours ring (hold 0x21400100 [1, 0] act)
    ∧ 256 ≤ bits (hold 0x21400100 [1, 0] act).intake.header 8 0 := by
  refine ⟨fun n src => ⟨rfl, ?_, ?_⟩, by decide, by decide, ?_, ?_, ⟨rfl, by decide, by decide⟩,
    by decide, ⟨rfl, by decide, by decide⟩, by decide⟩
  · show holdsRecord .loadColours (hold 0x214004FA [0, 0] act) = true
    decide
  · show (0 + hdrWords 0x214004FA) ≤ 4 * 16
    decide
  · unfold LoadLegal; decide
  · unfold LoadLegal; decide

/-- A DEFINE OBJECT of id 255, INDEX8 on table 7, 2048 by 1, with this data length. -/
def defRec (len : Word) : State := hold 0x226002FF [0x07001800, 0x02000000, len] act

theorem hyp_ObjectRecordsWriteEntry :
    InHand .defineObject ring (defRec 2048) ∧ InHand .defineObject ring (defRec 2047)
    ∧ bits (defRec 2048).intake.header 8 0 = (255 : Fin 256).val
    ∧ codingOf (bits (defRec 2048).intake.header 12 9) = some .index8
    ∧ bits (body (defRec 2048) 1) 27 24 = (7 : Fin 8).val
    ∧ ObjectLegal .index8 (bits (body (defRec 2048) 1) 11 0) (bits (body (defRec 2048) 1) 23 12)
        (body (defRec 2048) 2).toNat (body (defRec 2048) 3).toNat
    ∧ ¬ ObjectLegal .index8 (bits (body (defRec 2047) 1) 11 0) (bits (body (defRec 2047) 1) 23 12)
        (body (defRec 2047) 2).toNat (body (defRec 2047) 3).toNat
    ∧ InHand .dropObject ring (hold 0x230000FF [] act)
    ∧ bits (hold 0x230000FF [] act).intake.header 8 0 = (255 : Fin 256).val := by
  refine ⟨⟨rfl, by decide, by decide⟩, ⟨rfl, by decide, by decide⟩, by decide, by decide, by decide, ?_, ?_,
    ⟨rfl, by decide, by decide⟩, by decide⟩
  · unfold ObjectLegal; decide
  · unfold ObjectLegal; decide

theorem hyp_ListRecordsEditPlacements :
    (InHand .place ring (hold 0x3060007F [0x8000002F, 0x80008000, 0xFF3F] act)
      ∧ bits (hold 0x3060007F [0x8000002F, 0x80008000, 0xFF3F] act).intake.header 7 0
        = (127 : Fin 128).val
      ∧ bits (body (hold 0x3060007F [0x8000002F, 0x80008000, 0xFF3F] act) 3) 7 0 ≤ 63
      ∧ bit (body (hold 0x3060007F [0x8000002F, 0x80008000, 0xFF3F] act) 1) 31 = true
      ∧ bits (body (hold 0x3060007F [0x8000002F, 0x80008000, 0xFF3F] act) 1) 7 0
        = (47 : Fin 48).val)
    ∧ (InHand .place ring (hold 0x30600000 [255, 0, 0] act)
      ∧ bit (body (hold 0x30600000 [255, 0, 0] act) 1) 31 = false
      ∧ bits (body (hold 0x30600000 [255, 0, 0] act) 1) 7 0 = (255 : Fin 256).val)
    ∧ InHand .move ring (hold 0x3120007F [0] act) ∧ InHand .setOpacity ring (hold 0x3220007F [0] act)
    ∧ InHand .remove ring (hold 0x3300007F [] act)
    ∧ bits (hold 0x3300007F [] act).intake.header 7 0 = (127 : Fin 128).val :=
  ⟨⟨⟨rfl, by decide, by decide⟩, by decide, by decide, by decide, by decide⟩,
    ⟨⟨rfl, by decide, by decide⟩, by decide, by decide⟩, ⟨rfl, by decide, by decide⟩,
    ⟨rfl, by decide, by decide⟩, ⟨rfl, by decide, by decide⟩, by decide⟩

/-- A DEFINE BUTTON of button 47. -/
def defButton (s : State) : State := hold 0x4080012F [0, 0, 0, 0, 0] s

theorem hyp_DefineButtonWritesEntry :
    InHand .defineButton ring (defButton act)
    ∧ bits (defButton act).intake.header 7 0 = (47 : Fin 48).val
    ∧ bits (defButton act).intake.header 8 8 = 1
    ∧ (defButton act).buttons.entries[(47 : Fin 48)].defined = false
    ∧ (defButton (button id 47 act)).buttons.entries[(47 : Fin 48)].defined = true :=
  ⟨⟨rfl, by decide, by decide⟩, by decide, by decide, by decide, by decide⟩

theorem hyp_ButtonLookSetsLook :
    (InHand .buttonLook ring (hold 0x4160052F [0, 0, 0] (button id 47 act))
      ∧ bits (hold 0x4160052F [0, 0, 0] (button id 47 act)).intake.header 9 8 = 1
      ∧ bits (hold 0x4160052F [0, 0, 0] (button id 47 act)).intake.header 7 0 = (47 : Fin 48).val
      ∧ (hold 0x4160052F [0, 0, 0] (button id 47 act)).buttons.entries[(47 : Fin 48)].defined = true)
    ∧ InHand .buttonLook ring (hold 0x4160022F [0, 0, 0] (button id 47 act))
    ∧ bits (hold 0x4160022F [0, 0, 0] (button id 47 act)).intake.header 9 8 = 2 :=
  ⟨⟨⟨rfl, by decide, by decide⟩, by decide, by decide, by decide⟩,
    ⟨rfl, by decide, by decide⟩, by decide⟩

theorem hyp_EnableDisableDeleteButton :
    InHand .enableButton ring (hold 0x4200002F [] act)
    ∧ InHand .disableButton ring (hold 0x4300002F [] act)
    ∧ InHand .deleteButton ring (hold 0x4400002F [] act)
    ∧ bits (hold 0x4400002F [] act).intake.header 7 0 = (47 : Fin 48).val
    ∧ act.buttons.entries[(47 : Fin 48)].defined = false
    ∧ (button id 47 act).buttons.entries[(47 : Fin 48)].defined = true
    ∧ (button id 47 act).buttons.selection ≠ some (47 : Fin 48)
    ∧ (selected 47 false 0 (button id 47 act)).buttons.selection = some (47 : Fin 48) :=
  ⟨⟨rfl, by decide, by decide⟩, ⟨rfl, by decide, by decide⟩, ⟨rfl, by decide, by decide⟩, by decide,
    by decide, by decide, by decide, by decide⟩

/-- Button 3 links down to button 47, and both may be selected. -/
def linked (auto : Bool) : State :=
  button (fun e => { e with body := { e.body with autoActivate := auto } }) 47
    (button (fun e => { e with body := { e.body with down := some 47 } }) 3 act)

theorem hyp_KeyDirectionMovesSelection :
    (InHand .key ring (hold 0x45000002 [] act) ∧ InHand .key ring (hold 0x45000002 [] (linked false))
      ∧ ∀ a b, InHand .key ring (hold 0x45000002 [] (selected 3 a 0 (linked b))))
    ∧ keyOf (bits (hold 0x45000002 [] act).intake.header 12 0) = some .down
    ∧ (act.buttons.selection = none ∧ ∀ b, act.buttons.selectable b = false)
    ∧ (selected 3 true 0 (linked false)).buttons.activated = true
    ∧ ((linked false).buttons.selection = none ∧ (linked false).buttons.selectable 3 = true
      ∧ ∀ m, m < 3 → (linked false).buttons.selectable m = false)
    ∧ WalkReaches (selected 3 false 0 (linked false)).buttons .down 3 47
    ∧ (linked false).buttons.entries[(47 : Fin 48)].body.autoActivate = false
    ∧ WalkReaches (selected 3 false 0 (linked true)).buttons .down 3 47
    ∧ (linked true).buttons.entries[(47 : Fin 48)].body.autoActivate = true
    ∧ ∀ n, ¬ WalkReaches (selected 3 false 0 (linked true)).buttons .up 3 n := by
  refine ⟨⟨⟨rfl, by decide, by decide⟩, ⟨rfl, by decide, by decide⟩, fun a b => ⟨rfl, ?_, ?_⟩⟩,
    by decide, ⟨rfl, by decide⟩, rfl, ⟨rfl, by decide, by decide⟩,
    ⟨1, by decide, by decide, by decide, by decide, by decide, fun j h1 h2 => by omega⟩, by decide,
    ⟨1, by decide, by decide, by decide, by decide, by decide, fun j h1 h2 => by omega⟩, by decide, ?_⟩
  · cases a <;> cases b <;> decide
  · cases a <;> cases b <;> decide
  · rintro n ⟨m, h1, -, h2, -⟩
    have none_at : ∀ k, linkPath (selected 3 false 0 (linked true)).buttons .up 3 (k + 1) = none := by
      intro k
      induction k with
      | zero => decide
      | succ k ih => simp only [linkPath] at ih ⊢; rw [ih]
    obtain ⟨k, rfl⟩ : ∃ k, m = k + 1 := ⟨m - 1, by omega⟩
    rw [none_at] at h2
    cases h2

theorem hyp_KeyEnterAndSelect :
    InHand .key ring (hold 0x45000005 [] act)
    ∧ bits (hold 0x45000005 [] act).intake.header 12 0 = 5
    ∧ (selected 3 false 0 act).buttons.selection = some 3
    ∧ (selected 3 false 0 act).buttons.activated = false
    ∧ (selected 3 true 0 act).buttons.activated = true
    ∧ InHand .select ring (hold 0x4600003F [] act)
    ∧ bits (hold 0x4600003F [] act).intake.header 7 0 = 63
    ∧ InHand .select ring (hold 0x4600002F [] (button id 47 act))
    ∧ bits (hold 0x4600002F [] act).intake.header 7 0 = (47 : Fin 48).val
    ∧ (button id 47 act).buttons.selectable 47 = true ∧ act.buttons.selectable 47 = false
    ∧ InHand .select ring (hold 0x46000030 [] act)
    ∧ 48 ≤ bits (hold 0x46000030 [] act).intake.header 7 0 :=
  ⟨⟨rfl, by decide, by decide⟩, by decide, rfl, rfl, rfl, ⟨rfl, by decide, by decide⟩, by decide,
    ⟨rfl, by decide, by decide⟩, by decide, by decide, by decide, ⟨rfl, by decide, by decide⟩, by decide⟩

theorem hyp_ShowAndBatchRecords :
    InHand .showRecord ring (hold 0x502000F5 [255] act)
    ∧ showKindOf (bits (hold 0x502000F5 [255] act).intake.header 3 0) = some (.trans .wipeUp)
    ∧ bits (hold 0x502000F5 [255] act).intake.header 8 4 ≤ 15
    ∧ InHand .showRecord ring (hold 0x50200006 [255] act)
    ∧ 6 ≤ bits (hold 0x50200006 [255] act).intake.header 3 0
    ∧ InHand .showRecord ring (hold 0x50200100 [255] act)
    ∧ 16 ≤ bits (hold 0x50200100 [255] act).intake.header 8 4
    ∧ InHand .batchOpen ring (hold 0x51000000 [] act)
    ∧ InHand .batchClose ring (hold 0x52000000 [] act) :=
  ⟨⟨rfl, by decide, by decide⟩, by decide, by decide, ⟨rfl, by decide, by decide⟩, by decide,
    ⟨rfl, by decide, by decide⟩, by decide, ⟨rfl, by decide, by decide⟩, ⟨rfl, by decide, by decide⟩⟩

theorem hyp_BadFieldsAreRefused :
    (InHand .setColour ring (hold 0x20201000 [0] act)
      ∧ 8 ≤ bits (hold 0x20201000 [0] act).intake.header 12 9)
    ∧ (InHand .setColour ring (hold 0x20200100 [0] act)
      ∧ 256 ≤ bits (hold 0x20200100 [0] act).intake.header 8 0)
    ∧ (InHand .defineObject ring (hold 0x22600A00 [0, 0, 0] act)
      ∧ 5 ≤ bits (hold 0x22600A00 [0, 0, 0] act).intake.header 12 9)
    ∧ (InHand .dropObject ring (hold 0x23000100 [] act)
      ∧ 256 ≤ bits (hold 0x23000100 [] act).intake.header 8 0)
    ∧ (InHand .place ring (hold 0x30600000 [0x80000030, 0, 0] act)
      ∧ bit (body (hold 0x30600000 [0x80000030, 0, 0] act) 1) 31 = true
      ∧ 48 ≤ bits (body (hold 0x30600000 [0x80000030, 0, 0] act) 1) 7 0)
    ∧ (InHand .place ring (hold 0x30600000 [0, 0, 64] act)
      ∧ 64 ≤ bits (body (hold 0x30600000 [0, 0, 64] act) 3) 7 0)
    ∧ (InHand .move ring (hold 0x31200080 [0] act)
      ∧ InHand .setOpacity ring (hold 0x32200080 [0] act)
      ∧ InHand .remove ring (hold 0x33000080 [] act)
      ∧ 128 ≤ bits (hold 0x33000080 [] act).intake.header 7 0)
    ∧ (InHand .defineButton ring (hold 0x40800030 [0, 0, 0, 0, 0] act)
      ∧ 48 ≤ bits (hold 0x40800030 [0, 0, 0, 0, 0] act).intake.header 7 0)
    ∧ (InHand .defineButton ring (hold 0x40800000 [0, 0, 0, 0, 0] act)
      ∧ bits (hold 0x40800000 [0, 0, 0, 0, 0] act).intake.header 8 8 = 0)
    ∧ (InHand .buttonLook ring (hold 0x41600300 [0, 0, 0] act)
      ∧ bits (hold 0x41600300 [0, 0, 0] act).intake.header 9 8 = 3)
    ∧ (InHand .buttonLook ring (hold 0x41600100 [0, 0, 0] act)
      ∧ act.buttons.entries[(0 : Fin 48)].defined = false)
    ∧ (InHand .enableButton ring (hold 0x42000030 [] act)
      ∧ InHand .disableButton ring (hold 0x43000030 [] act)
      ∧ InHand .deleteButton ring (hold 0x44000030 [] act)
      ∧ 48 ≤ bits (hold 0x44000030 [] act).intake.header 7 0)
    ∧ (InHand .key ring (hold 0x45000000 [] act)
      ∧ bits (hold 0x45000000 [] act).intake.header 12 0 = 0)
    ∧ InHand .key ring (hold 0x45000006 [] act)
    ∧ 6 ≤ bits (hold 0x45000006 [] act).intake.header 12 0 :=
  ⟨⟨⟨rfl, by decide, by decide⟩, by decide⟩, ⟨⟨rfl, by decide, by decide⟩, by decide⟩,
    ⟨⟨rfl, by decide, by decide⟩, by decide⟩, ⟨⟨rfl, by decide, by decide⟩, by decide⟩,
    ⟨⟨rfl, by decide, by decide⟩, by decide, by decide⟩, ⟨⟨rfl, by decide, by decide⟩, by decide⟩,
    ⟨⟨rfl, by decide, by decide⟩, ⟨rfl, by decide, by decide⟩, ⟨rfl, by decide, by decide⟩, by decide⟩,
    ⟨⟨rfl, by decide, by decide⟩, by decide⟩, ⟨⟨rfl, by decide, by decide⟩, by decide⟩,
    ⟨⟨rfl, by decide, by decide⟩, by decide⟩, ⟨⟨rfl, by decide, by decide⟩, by decide⟩,
    ⟨⟨rfl, by decide, by decide⟩, ⟨rfl, by decide, by decide⟩, ⟨rfl, by decide, by decide⟩, by decide⟩,
    ⟨⟨rfl, by decide, by decide⟩, by decide⟩, ⟨rfl, by decide, by decide⟩, by decide⟩

theorem hyp_CommandsNeedTheirCause :
    holdsRecord .pad act = false ∧ holdsRecord .key State.reset = false
    ∧ bits (hold 0x45000005 [] act).intake.header 12 0 = 5
    ∧ (1 ≤ bits (hold 0x45000004 [] act).intake.header 12 0
      ∧ bits (hold 0x45000004 [] act).intake.header 12 0 ≤ 4)
    ∧ UnderWay (.cStoreWord (fresh false 1))
        (txn (.lineStore 0x00100040 2) (.passed .script) [fresh false 1] act)
    ∧ ¬ UnderWay .cStoreComplete
        (txn (.lineStore 0x00100040 2) (.passed .script) [fresh false 1] act)
    ∧ ¬ UnderWay (.passedFetchWord (fresh false 1))
        (act.setCside ⟨.waiting (.lineFetch 0 0), []⟩)
    ∧ UnderWay (.loadWordArrival (fresh false 1)) (own (.load ⟨0, 0⟩) 3 act)
    ∧ ¬ UnderWay (.loadWordArrival (fresh false 1)) (own (.load ⟨0, 0⟩) 4 act)
    ∧ ¬ UnderWay .objectFetchComplete (own (.load ⟨0, 0⟩) 4 act)
    ∧ UnderWay .captureDrain (queued ⟨0x00100020, 0, 15, true⟩ act) ∧ ¬ UnderWay .captureDrain act :=
  ⟨by decide, by decide, by decide, ⟨by decide, by decide⟩,
    ⟨_, rfl, rfl, by decide⟩,
    (fun ⟨t, m, h, _, _, h'⟩ => by cases h; exact absurd h' (by decide)),
    (fun ⟨_, _, h, _⟩ => nomatch h), ⟨_, _, rfl, by decide⟩,
    (fun ⟨_, _, h, h'⟩ => by cases h; exact absurd h' (by decide)), (fun ⟨_, h⟩ => nomatch h),
    (fun h => nomatch h), (fun h => h rfl)⟩

/-! ## Hypotheses met: frame starts, lines and the arbiter -/

theorem hyp_FlipExactlyWhenDue :
    ((planed act).engine = .active ∧ (planed act).tiles.plane = some plane64
      ∧ (planed act).tiles.flipWanted = true ∧ (∀ st ∈ backTiles (planed act), st = .clean)
      ∧ (planed act).page.batchOpen = false ∧ (planed act).page.running = none
      ∧ ∀ k : Fin 8, (planed act).colours.inFlight[k] = false)
    ∧ (State.reset.engine ≠ .active ∧ act.tiles.plane = none)
    ∧ (∃ st ∈ backTiles (inFlight (.storing 0) act), st ≠ .clean)
    ∧ (running (.ramp 0) act).page.running.isSome = true
    ∧ ((planed act).buttons.selection.isSome && (planed act).buttons.activated
        && (planed act).buttons.hold == 0) = false :=
  ⟨⟨rfl, rfl, rfl, by decide, rfl, rfl, by decide⟩, ⟨by decide, rfl⟩, ⟨.busy, by decide, by decide⟩, rfl,
    rfl⟩

theorem hyp_TransitionSteps :
    (∀ p, (running p act).engine = .active ∧ (running p act).page.running = some ⟨spec 8 2, p, 0⟩)
    ∧ (2 : Nat) ≤ 2 ∧ 6 + 1 < (spec 8 2).len ∧ 7 + 1 = (spec 8 2).len
    ∧ ¬ ((running (.settle 2) act).engine = .active ∧ ∃ r n,
      (running (.settle 2) act).page.running = some r ∧ r.phase = .settle n ∧ n ≤ 1)
    ∧ ¬ (act.engine = .active ∧ ∃ r k, act.page.running = some r ∧ r.phase = .ramp k
      ∧ r.spec.len ≤ k + 1)
    ∧ ¬ ((running (.ramp 7) State.reset).engine = .active ∧ ∃ r k,
      (running (.ramp 7) State.reset).page.running = some r ∧ r.phase = .ramp k
        ∧ r.spec.len ≤ k + 1) :=
  ⟨fun _ => ⟨rfl, rfl⟩, by decide, by decide, by decide,
    (fun ⟨_, _, _, h, h', h''⟩ => by cases h; cases h'; exact absurd h'' (by decide)),
    (fun ⟨_, _, _, h, _⟩ => nomatch h), (fun ⟨h, _⟩ => nomatch h)⟩

theorem hyp_HoldAndPulseAtFrameStart :
    ((selected 3 true 0 act).buttons.selection.isSome = true
      ∧ (selected 3 true 0 act).buttons.activated = true ∧ (selected 3 true 0 act).buttons.hold = 0)
    ∧ (selected 3 true 0 act).engine = .active ∧ flipDue (selected 3 true 0 act) = false
    ∧ ¬ ((selected 3 true 1 act).buttons.selection.isSome = true
      ∧ (selected 3 true 1 act).buttons.activated = true ∧ (selected 3 true 1 act).buttons.hold = 0)
    ∧ (selected 3 false 0 act).buttons.activated = false
    ∧ footprintsOf ((selected 3 true 0 (objs entry5 (button (fun e => { e with
          body := { e.body with normal := 5, activated := some 5 } }) 3 (planed act)))).setList
        [⟨3, .button 3, 0, 0, 10, 255⟩]) (fun p => p.source == .button 3) ≠ []
    ∧ ((selected 3 true 0 (planed act)).engine = .active
      ∧ (selected 3 true 0 (planed act)).buttons.hold = 0
      ∧ flipDue (selected 3 true 0 (planed act)) = true)
    ∧ State.reset.engine ≠ .active :=
  ⟨⟨rfl, rfl, rfl⟩, rfl, by decide, by decide, rfl, by decide, ⟨rfl, rfl, by decide⟩, by decide⟩

/-- A reset due while this own transaction is on the M-side. -/
def due (o : OwnReq) (n : Nat) : State := ((own o n act).setResetLine true).setResetDue true

theorem hyp_ResetAssertion :
    (act.resetLine = false ∧ act.path = .service ∧ act.mside = .free ∧ act.cside.state = .idle)
    ∧ (own (.load ⟨0, 0⟩) 0 act).mside ≠ .free
    ∧ (∀ o n, (due o n).resetDue = true ∧ (due o n).path = .service ∧ (due o n).resetLine = true
      ∧ (due o n).mside = .own o n)
    ∧ TileTaken (due (.intake (.refetch ⟨0, 0⟩)) 3)
    ∧ ((due (.load ⟨0, 0⟩) 4).setColours { ColourTables.empty with
        load := some ⟨2, 250, 4, 0, false, false⟩ }).colours.load.isSome = true
    ∧ (0 + 4 * 4 ≤ (0 : Addr).toNat + 16)
    ∧ (inFlight (.storing 15) (due (.render (.store 0 0 [])) 0)).render.flight
      = some (flight (.storing 15))
    ∧ ((due (.load ⟨0, 0⟩) 4).setCside ⟨.waiting (.lineFetch 0 0), []⟩).cside.state
      = .waiting (.lineFetch 0 0) :=
  ⟨⟨rfl, rfl, rfl, rfl⟩, by decide, fun _ _ => ⟨rfl, rfl, rfl, rfl⟩, by unfold TileTaken; decide, rfl,
    by decide, rfl, rfl⟩

/-- The part held in BYPASS. -/
def bypassed : State := (((State.reset.setResetLine true).setPath .bypass).setEngine .off)

theorem hyp_ResetReleaseEntersService :
    (bypassed.resetLine = true ∧ bypassed.path = .bypass ∧ bypassed.mside = .free
      ∧ bypassed.waiting = OwnWaiting.empty)
    ∧ (bypassed.setMside (.controller (.lineFetch 0 0))).mside ≠ .free
    ∧ (act.setResetLine true).path = .service ∧ (act.setResetLine true).resetLine = true
    ∧ act.resetLine = false :=
  ⟨⟨rfl, rfl, rfl, rfl⟩, by decide, rfl, rfl, rfl⟩

def clearing : State := State.reset.setEngine .clearing

theorem hyp_SweepClearsAndAnchors :
    (clearing.engine = .clearing ∧ clearing.waiting = OwnWaiting.empty
      ∧ (∀ o n, clearing.mside ≠ .own o n) ∧ clearing.latch = none)
    ∧ (clearing.setLatch (some ring)).latch = some ring
    ∧ (clearing.mside = .free ∧ clearing.cside.state.isWaiting = false ∧ clearing.path = .service)
    ∧ ((clearing.setMside (.controller (.lineFetch 0 0))).mside ≠ .free
      ∧ ∀ o n, (clearing.setMside (.controller (.lineFetch 0 0))).mside ≠ .own o n)
    ∧ act.engine ≠ .clearing :=
  ⟨⟨rfl, rfl, (fun _ _ h => nomatch h), rfl⟩, rfl, ⟨rfl, rfl, rfl⟩,
    ⟨(fun h => nomatch h), (fun _ _ h => nomatch h)⟩, by decide⟩

/-- The C-side and a control store contend. -/
def contending (share count : Nat) (urgent : Bool) : State :=
  (((((act.setCside ⟨.waiting (.lineFetch 0 0), []⟩).setWaiting
    ⟨[.control .stateWord 0 15 (fresh false 0)], none, none,
    none⟩).setShare share).setPassover count).setUrgent urgent)

theorem hyp_ArbiterGrants :
    (own (.load ⟨0, 0⟩) 0 act).mside ≠ .free
    ∧ (∀ g c u, (contending g c u).mside = .free
      ∧ (contending g c u).cside.state = .waiting (.lineFetch 0 0) ∧ (contending g c u).path = .service
      ∧ selectOwn (contending g c u).waiting
        = some (.class1 (.control .stateWord 0 15 (fresh false 0)), OwnWaiting.empty))
    ∧ ((contending 2 2 false).urgent = false ∧ 1 ≤ (contending 2 2 false).share
      ∧ (contending 2 2 false).share ≤ (contending 2 2 false).passover)
    ∧ ¬ ((contending 2 1 false).urgent = false ∧ 1 ≤ (contending 2 1 false).share
      ∧ (contending 2 1 false).share ≤ (contending 2 1 false).passover)
    ∧ ¬ ((contending 0 15 false).urgent = false ∧ 1 ≤ (contending 0 15 false).share
      ∧ (contending 0 15 false).share ≤ (contending 0 15 false).passover)
    ∧ ((contending 0 0 false).setPath .bypass).path = .bypass
    ∧ selectOwn ((contending 0 0 false).setWaiting OwnWaiting.empty).waiting = none
    ∧ ((contending 0 0 false).setCside ⟨.idle, []⟩).cside.state.isWaiting = false
    ∧ (OwnWaiting.mk [] (some (.probe ⟨0, 0⟩)) none none).intake = some (.probe ⟨0, 0⟩) :=
  ⟨by decide, fun _ _ _ => ⟨rfl, rfl, rfl, rfl⟩, by decide, by decide, by decide, rfl, rfl, rfl, rfl⟩

/-! ## Hypotheses met: the controller side and the display path -/

theorem hyp_RequestsAreAccepted :
    ((BusReq.lineFetch 0x008007F0 3).aligned = true ∧ (planed act).cside.state = .idle
      ∧ (planed act).mside = .free ∧ selectOwn (planed act).waiting = none ∧ TileTaken (planed act)
      ∧ (planed act).path = .service ∧ (planed act).tiles.plane = some plane64
      ∧ plane64.baseA.toNat ≤ (reqAddr (.lineFetch 0x008007F0 3)).toNat
      ∧ (reqAddr (.lineFetch 0x008007F0 3)).toNat
        < plane64.baseA.toNat + plane64.width * plane64.height * 4)
    ∧ ¬ ((reqAddr (.wordStore 0x00800800 15)).toNat
        < plane64.baseA.toNat + plane64.width * plane64.height * 4)
    ∧ (act.tiles.plane = none ∧ act.intake.anchor = some ring ∧ State.reset.intake.anchor = none)
    ∧ bypassed.path = .bypass
    ∧ (own (.load ⟨0, 0⟩) 0 act).mside ≠ .free ∧ TileTaken (own (.load ⟨0, 0⟩) 0 act)
    ∧ (BusReq.wordStore 2 15).aligned = false
    ∧ (act.setCside ⟨.waiting (.lineFetch 0 0), []⟩).cside.state ≠ .idle :=
  ⟨⟨by decide, rfl, rfl, rfl, by unfold TileTaken; decide, rfl, rfl, by decide, by decide⟩, by decide,
    ⟨rfl, rfl, rfl⟩, rfl, by decide, by unfold TileTaken; decide, by decide, by decide⟩

def transit (k : TransKind) (level : Nat) : State :=
  act.setPage ⟨.b, false, none, some ⟨⟨k, 5, 0⟩, .ramp 1, level⟩⟩

/-- A line of section 5.8's plane at an offset has this plan's row and column. -/
def planAt (s : State) (off : Nat) : DisplayPlan :=
  displayPlan s plane1080 (BitVec.ofNat 32 (0x00800000 + off)) 2

def tinted : State :=
  selected 3 false 0 (button (fun e => { e with
    displayed := some ⟨0, 0, 64, 8⟩, selectedLook := some ⟨⟨255, 255, 255, 0⟩, 64, 16, 128, 0, 0⟩ }) 3 act)

theorem hyp_DisplayFetchTreatmentAndTint :
    (act.page.running = none ∧ tintNow act = none)
    ∧ tintNow tinted = some ⟨⟨255, 255, 255, 0⟩, 64, 128, ⟨0, 0, 64, 8⟩⟩
    ∧ (∀ k l, (transit k l).page.running = some ⟨⟨k, 5, 0⟩, .ramp 1, l⟩)
    ∧ (∀ i, i < 4 → frontSide .wipeLeft plane1080 204 ((planAt (transit .wipeLeft 204) 78304).col + i)
        (planAt (transit .wipeLeft 204) 78304).row = true)
    ∧ (∀ i, i < 4 → frontSide .wipeLeft plane1080 204 ((planAt (transit .wipeLeft 204) 78336).col + i)
        (planAt (transit .wipeLeft 204) 78336).row = false)
    ∧ (∃ i j, i < 4 ∧ j < 4
      ∧ frontSide .wipeLeft plane1080 204 ((planAt (transit .wipeLeft 204) 78320).col + i)
        (planAt (transit .wipeLeft 204) 78320).row = true
      ∧ frontSide .wipeLeft plane1080 204 ((planAt (transit .wipeLeft 204) 78320).col + j)
        (planAt (transit .wipeLeft 204) 78320).row = false)
    ∧ ((⟨⟨0, 0, 0, 0⟩, 64, 16, 0, 5, 2⟩ : Look).period ≠ 0 ∧ (2 : Nat) < 5 ∧ (2 : Nat) ≤ 2) :=
  ⟨⟨rfl, by decide⟩, by decide, fun _ _ => rfl, by decide, by decide,
    ⟨1, 2, by decide, by decide, by decide, by decide⟩, by decide⟩

def plan1 : DisplayPlan := ⟨0, 0, 0, 0x01000000, none, .asFetched⟩
def plan2 : DisplayPlan := ⟨0, 0, 0, 0x00800000, some 0x01000000, .dissolve 512⟩
def four : List BusWord := [fresh false 1, fresh false 2, fresh false 3, fresh false 4]

def showing (p : DisplayPlan) (ws : List BusWord) (second : Option (List BusWord)) (s : State) : State :=
  (s.setMside (.controller (.lineFetch p.first 0))).setCside
    ⟨.active ⟨.lineFetch 0x00800000 0, .display p, ws, second⟩, []⟩

theorem hyp_TransfersAreCarried :
    ((txn (.wordStore 0x00100010 15) (.passed .control) [] act).cside.state
        = .active ⟨.wordStore 0x00100010 15, .passed .control, [], none⟩
      ∧ ([] : List BusWord).length < reqWordCount (.wordStore 0x00100010 15))
    ∧ (reqIsFetch (.lineFetch 0x00102000 0) = true ∧ [fresh false 1, fresh false 2, fresh false 3].length < 4)
    ∧ (four.length = 4 ∧ four.length = reqWordCount (.lineStore 0x01000100 0)
      ∧ storeAnchor ⟨.lineStore 0x01000100 0, .passed .other, four, none⟩ 0x01000100 = none)
    ∧ (act.path = .service ∧ act.resetDue = false
      ∧ TileTaken (txn (.lineFetch 0x00102000 0) (.passed .other) four act)
      ∧ selectOwn act.waiting = none)
    ∧ (plan1.second = none ∧ plan2.second = some 0x01000000)
    ∧ (bypassed.path = .bypass ∧ bypassed.resetLine = true ∧ bypassed.waiting = OwnWaiting.empty)
    ∧ (bypassed.setResetLine false).resetLine = false
    ∧ ((act.setResetLine true).setResetDue true).resetDue = true :=
  ⟨⟨rfl, by decide⟩, ⟨rfl, by decide⟩, ⟨rfl, rfl, by decide⟩,
    ⟨rfl, rfl, by unfold TileTaken; decide, rfl⟩, ⟨rfl, rfl⟩, ⟨rfl, rfl, rfl⟩, rfl, rfl⟩

/-- A whole store, as it stands before its completion. -/
theorem whole (r : BusReq) (t : Treatment) (ws : List BusWord) (h : reqIsFetch r = false)
    (h' : ws.length = reqWordCount r) (s : State) (hp : s.path = .service) :
    StoreWhole s.resetDue (txn r t ws s) ⟨r, t, ws, none⟩ r := ⟨rfl, rfl, h, h', hp, rfl⟩

/-- A reset is due at the completion of what the C-side carries. -/
theorem due_at_completion : (act.setResetDue true).path = .service
    ∧ (act.setResetDue true).resetDue = true ∧ act.path = .service ∧ act.resetDue = false :=
  ⟨rfl, rfl, rfl, rfl⟩

def cap (a : Addr) : CapEntry := ⟨a, 0, 15, false⟩

def queueOf (n : Nat) (s : State) : State :=
  s.setIntake { s.intake with queue := List.replicate n (cap 0x00100020) }

theorem hyp_StoreIntoRingIsCaptured :
    (∀ s, s.path = .service →
      StoreWhole s.resetDue (txn (.lineStore 0x00100040 2) (.passed .script) four s)
        ⟨.lineStore 0x00100040 2, .passed .script, four, none⟩ (.lineStore 0x00100040 2))
    ∧ storeAnchor ⟨.lineStore 0x00100040 2, .passed .script, four, none⟩ 0x00100040 = none
    ∧ (queueOf 12 act).intake.queue.length + four.length ≤ 16
    ∧ (queueOf 13 act).intake.queue.length ≤ 16
    ∧ 16 < (queueOf 13 act).intake.queue.length + four.length
    ∧ (queueOf 13 act).intake.state = .waiting
    ∧ (act.setIntake { waitingIntake with state := .halted }).intake.state = .halted
    ∧ (∀ w ∈ four, wordGood false w = true)
    ∧ ((reqWordAddrs (.lineStore 0x00100060 0)).zip [fresh false 1, ⟨2, 0⟩, fresh false 3, fresh false 4]).find?
        (fun w => !wordGood false w.2) = some (0x00100064, ⟨2, 0⟩) :=
  ⟨fun s h => whole _ _ _ rfl rfl s h, by decide, by decide, by decide, by decide, rfl, rfl, by decide,
    by decide⟩

theorem hyp_StoreIntoControlWordSetsReadIndex :
    (∀ s w, s.path = .service →
      StoreWhole s.resetDue (txn (.wordStore 0x00100010 15) (.passed .control) [w] s)
        ⟨.wordStore 0x00100010 15, .passed .control, [w], none⟩ (.wordStore 0x00100010 15)
      ∧ ((reqWordAddrs (.wordStore 0x00100010 15)).zip [w]).find?
        (fun v => v.1 == (reqAddr (.wordStore 0x00100010 15)).toNat) = some (0x00100010, w))
    ∧ storeAnchor ⟨.wordStore 0x00100010 15, .passed .control, [fresh false 7], none⟩ 0x00100010 = none
    ∧ wordGood false (fresh false 7) = true ∧ wordGood false ⟨2, 0⟩ = false
    ∧ (reportsOn 3 0 act).reports.ring = some ⟨0x00102000, 4⟩ ∧ act.reports.ring = none :=
  ⟨fun s w h => ⟨whole _ _ _ rfl rfl s h, rfl⟩, rfl, by decide, by decide, rfl, rfl⟩

def anchorWords : List BusWord :=
  [fresh true 0x6E1BF0D4, fresh true 0x91E40F2B, fresh true 0x80000080, fresh true 0xBC5AA543]

theorem hyp_AnchorStoreAttachesPart :
    (∀ t s, s.path = .service →
      StoreWhole s.resetDue (txn (.lineStore 0x00300000 0) t anchorWords s)
        ⟨.lineStore 0x00300000 0, t, anchorWords, none⟩ (.lineStore 0x00300000 0))
    ∧ storeAnchor ⟨.lineStore 0x00300000 0, .passed .other, anchorWords, none⟩ 0x00300000
      = some ⟨0x00300000, 128, true⟩
    ∧ clearing.engine = .clearing ∧ State.reset.engine = .unanchored
    ∧ State.reset.waiting = OwnWaiting.empty ∧ State.reset.tiles.plane = none
    ∧ act.engine = .active ∧ (act.setEngine .parked).engine = .parked :=
  ⟨fun _ s h => whole _ _ _ rfl rfl s h, by decide, rfl, rfl, rfl, rfl, rfl, rfl⟩

theorem hyp_AnchorSignatureRecognised :
    ((0x00300000 : Addr).toNat % 16 = 0)
    ∧ bits (0x80001000 : Word) 12 0 = 4096 ∧ bits (0x80000010 : Word) 12 0 = 16
    ∧ (∀ line st, (BusReq.wordStore 0 15) ≠ .lineStore line st)
    ∧ wordGood true ⟨0x01000000, 14⟩ = true :=
  ⟨by decide, by decide, by decide, (fun _ _ h => nomatch h), by decide⟩

theorem hyp_DisplayWordsHeldThenReturned :
    (∀ p ws sec, (showing p ws sec act).cside.state
        = .active ⟨.lineFetch 0x00800000 0, .display p, ws, sec⟩
      ∧ (showing p ws sec act).mside ≠ .free)
    ∧ plan2.second = some 0x01000000 ∧ plan1.second = none
    ∧ [fresh false 1, fresh false 2].length < 3 ∧ ([] : List BusWord).length < 3 ∧ [fresh false 1, fresh false 2, fresh false 3].length = 3 ∧ four.length = 4 :=
  ⟨fun _ _ _ => ⟨rfl, (fun h => nomatch h)⟩, rfl, rfl, by decide, by decide, rfl, rfl⟩

theorem hyp_DisplayAnswerByParity :
    four.length = 4 ∧ (∀ w ∈ four, wordGood false w = true)
    ∧ [fresh false 1, fresh false 2, fresh false 3, ⟨2, 0⟩].length = 4
    ∧ (∃ w ∈ [fresh false 1, fresh false 2, fresh false 3, ⟨2, 0⟩], wordGood false w = false)
    ∧ plan1.second = none ∧ plan2.second = some 0x01000000
    ∧ { plan2 with mix := .dissolve 1024 }.mix = .dissolve 1024 :=
  ⟨rfl, by decide, rfl, ⟨⟨2, 0⟩, by decide, by decide⟩, rfl, rfl, rfl⟩

/-! ## Hypotheses met: the intake -/

theorem hyp_DrainFillsSlotsAndCommits :
    (∀ e s, (queued e s).intake.queue = e :: [])
    ∧ ((cap 0x00100020).addr.toNat = ring.addr.toNat + 32 + 4 * (act.intake.p + (0 : Fin 16).val)
      ∧ act.intake.p + (0 : Fin 16).val < 4 * ring.lines ∧ (cap 0x00100020).enables = 15)
    ∧ (cap 0x0010005C).addr.toNat = ring.addr.toNat + 32 + 4 * (act.intake.p + (15 : Fin 16).val)
    ∧ ring.addr.toNat + 32 + 4 * (act.intake.p + 16) ≤ (cap 0x00100060).addr.toNat
    ∧ ring.addr.toNat + 32 + 16 * ring.lines ≤ (cap 0x00100120).addr.toNat
    ∧ act.intake.state = .waiting
    ∧ BitVec.ofNat 8 (bits (0x46000004 : Word) 20 13) = act.intake.expected
    ∧ BitVec.ofNat 8 (bits (0x46002004 : Word) 20 13) ≠ act.intake.expected
    ∧ (act.setIntake { waitingIntake with state := .fetching ⟨0, none, none⟩ }).intake.state
      = .fetching ⟨0, none, none⟩
    ∧ (hold 0x46000004 [] act).intake.state = .executing .ready :=
  ⟨fun _ _ => rfl, by decide, by decide, by decide, by decide, rfl, by decide, by decide, rfl, rfl⟩

def probing (live : Bool) : State :=
  own (.intake (.probe ⟨0x00100020, 0⟩)) 0
    (act.setIntake { waitingIntake with state := .probing, probeLive := live })

theorem hyp_ProbeCompletes :
    (∀ b, (probing b).mside = .own (.intake (.probe ⟨0x00100020, 0⟩)) 0
      ∧ (probing b).resetDue = false ∧ (probing b).intake.anchor = some ring)
    ∧ ((probing true).intake.probeLive = true ∧ (probing true).intake.state = .probing)
    ∧ ¬ ((probing false).intake.probeLive = true ∧ (probing false).intake.state = .probing)
    ∧ wordGood false ⟨0, 0⟩ = false ∧ wordGood false (fresh false 0x46000004) = true
    ∧ BitVec.ofNat 8 (bits (fresh false 0x46000004).data 20 13) = (probing true).intake.expected
    ∧ BitVec.ofNat 8 (bits (fresh false 0x46002004).data 20 13) ≠ (probing true).intake.expected :=
  ⟨fun _ => ⟨rfl, rfl, rfl⟩, ⟨rfl, rfl⟩, by decide, by decide, by decide, by decide, by decide⟩

/-- The refetch of a SETUP PLANE of six words at P = 2, on two lines. -/
def fetching (r : Refetch) (got : Nat) : State :=
  own (.intake (.refetch ⟨0x00100020, 2⟩)) got
    (act.setIntake { waitingIntake with p := 2, header := 0x10800004, state := .fetching r })

theorem hyp_RefetchReadsRecord :
    (∀ r n, (fetching r n).mside = .own (.intake (.refetch ⟨0x00100020, 2⟩)) n
      ∧ (fetching r n).resetDue = false ∧ (fetching r n).intake.anchor = some ring
      ∧ (fetching r n).intake.state = .fetching r)
    ∧ recordWords (fetching ⟨0, none, none⟩ 0) = 6
    ∧ (4 * (2 / 4 + 0) + ((2 : Fin 4).val + 0) % 4 = 2 ∧ 4 * (2 / 4 + 0) + ((2 : Fin 4).val + 1) % 4 = 2 + 1
      ∧ 4 * (2 / 4 + 0) + ((2 : Fin 4).val + 3) % 4 < 2)
    ∧ (0 + 1 < (2 + 6 - 1) / 4 - 2 / 4 + 1 ∧ (2 + 6 - 1) / 4 - 2 / 4 + 1 ≤ 1 + 1
      ∧ 2 + 6 ≤ 4 * ring.lines) :=
  ⟨fun _ _ => ⟨rfl, rfl, rfl, rfl⟩, by decide, by decide, by decide⟩

/-! ## Hypotheses met: the colour load and the render engine -/

def load6 (bad : Bool) : Load := ⟨2, 250, 6, 0x00400008, bad, bad⟩

def loading (bad : Bool) (r : LineReq) (got : Nat) : State :=
  own (.load r) got (act.setColours { ColourTables.empty with load := some (load6 bad) })

/-- Section 1.6: the first word needed, the last, and the words beside them. -/
theorem hyp_ColourLoadWritesEntries :
    (∀ b r n, (loading b r n).mside = .own (.load r) n
      ∧ (loading b r n).colours.load = some (load6 b) ∧ (loading b r n).resetDue = false)
    ∧ ((load6 false).source ≤ (0x00400000 : Addr).toNat + 4 * (((2 : Fin 4).val + 0) % 4)
      ∧ (0 : Nat) < 4 ∧ (250 : Fin 256).val
        = (load6 false).first + ((0x00400000 : Addr).toNat + 4 * (((2 : Fin 4).val + 0) % 4)
          - (load6 false).source) / 4)
    ∧ (0x00400000 : Addr).toNat + 4 * (((2 : Fin 4).val + 3) % 4) < (load6 false).source
    ∧ ((255 : Fin 256).val = (load6 false).first + ((0x00400010 : Addr).toNat + 12
        - (load6 false).source) / 4)
    ∧ (0x00400000 : Addr).toNat + 16 < (load6 false).source + 4 * (load6 false).count
    ∧ (load6 false).source + 4 * (load6 false).count ≤ (0x00400010 : Addr).toNat + 16
    ∧ (loading false ⟨0x00400010, 0⟩ 4).intake.anchor = some ring
    ∧ (loading false ⟨0x00400010, 0⟩ 4).intake.p
      + recordWords (loading false ⟨0x00400010, 0⟩ 4) ≤ 4 * ring.lines :=
  ⟨fun _ _ _ => ⟨rfl, rfl, rfl⟩, by decide, by decide, by decide, by decide, by decide, rfl, by decide⟩

/-- An application of eight columns of the INDEX8 object of `entry5` at column 0. -/
def app (ended : Bool) (d : AppData) : App :=
  ⟨⟨3, .object 5, 0, 0, 10, 255⟩, 5, entry5, 0, 7, 0, 7, 0, ended, d⟩

def run (m : RunMode) (st : RunStatus) : Run8 := ⟨0x02000000, m, [], st, []⟩

def applying (a : App) (r : LineReq) (got : Nat) : State :=
  own (.render (.fetch r)) got (objs entry5 (inFlight (.applying a []) act))

theorem hyp_ObjectWordsTakenOrFaulted :
    (∀ a r n, (applying a r n).mside = .own (.render (.fetch r)) n
      ∧ (applying a r n).render.flight = some (flight (.applying a []))
      ∧ (applying a r n).resetDue = false)
    ∧ (firstByte (app false (.words [])) < 0x02000000 + 4
      ∧ 0x02000000 ≤ lastByte (app false (.words [])))
    ∧ 0x02000004 ≤ lastByte (app false (.words []))
    ∧ ¬ 0x02000008 ≤ lastByte (app false (.words []))
    ∧ ((run .entry .needByte).arrive false entry5 7 0x02000000 ⟨2, 0⟩).status = .bad 0x02000000
    ∧ ((run .entry .needByte).arrive false entry5 7 0x02000000 (fresh false 127)).status = .needByte
    ∧ ((run .entry .needByte).arrive false entry5 7 0x02000000 (fresh false 128)).status = .short
    ∧ (run .entry .needByte).status = .needByte ∧ (run .code .short).status ≠ .needByte
    ∧ (app false (.words [])).entry.coding = .index8 :=
  ⟨fun _ _ _ => ⟨rfl, rfl, rfl⟩, by decide, by decide, by decide, by decide, by decide, by decide, rfl,
    by decide, rfl⟩

theorem hyp_Run8DecodeSteps :
    (∃ d : Run8, d.mode ≠ .entry ∧ 0 < d.out.length)
    ∧ ((run .code .needByte).mode ≠ .entry ∧ (run .code .needByte).out.length ≤ 0
      ∧ (run .code .needByte).pos < entry5.addr.toNat + entry5.length.toNat)
    ∧ (entry5.addr.toNat + entry5.length.toNat ≤ 0x02000080)
    ∧ (run .code .needByte).line.lookup 0x02000000 = none
    ∧ ([(0x02000000, fresh false 0x7F)] : List (Nat × BusWord)).lookup (0x02000000 - 0x02000000 % 4)
      = some (fresh false 0x7F)
    ∧ byteAt false (0x7F : Word) 0 < 128 ∧ 128 ≤ byteAt false (0x80 : Word) 0
    ∧ (entry5.length.toNat ≤ (128 : Word).toNat ∧ (127 : Word).toNat < entry5.length.toNat)
    ∧ (run .entry .needByte).mode = .entry ∧ (run .entry .needByte).status ≠ .short
    ∧ (run .entry .needByte).line.lookup 0x02000000 = none ∧ wordGood false ⟨2, 0⟩ = false :=
  ⟨⟨⟨0, .code, [7], .needByte, []⟩, by decide, by decide⟩, by decide, by decide, rfl, by decide, by decide,
    by decide, by decide, rfl, by decide, rfl, by decide⟩

theorem hyp_ObjectFetchAppliesPlacement :
    (∀ a r, (applying a r 4).mside = .own (.render (.fetch r)) 4
      ∧ (applying a r 4).render.flight = some (flight (.applying a []))
      ∧ (applying a r 4).tiles.plane = some plane64 ∧ (applying a r 4).resetDue = false)
    ∧ lastByte (app false (.words [])) < (0x02000000 : Addr).toNat + 16
    ∧ (0x01FFFFF0 : Addr).toNat + 16 ≤ lastByte (app false (.words []))
    ∧ (run .code .short).status = .short ∧ (run .code .complete).status = .complete
    ∧ (run .code .needByte).status = .needByte ∧ (app true (.words [])).ended = true
    ∧ (currentObject (objs entry5 act) ⟨3, .object 5, -7, -7, 10, 255⟩ = some 5
      ∧ (objs entry5 act).objects[(5 : Fin 256)] = entry5
      ∧ (∃ c : Int, 0 ≤ c ∧ c < 0 + 64 ∧ -7 ≤ c ∧ c < -7 + entry5.width)
      ∧ (-7 : Int) ≤ 0 ∧ (0 : Int) < -7 + entry5.height)
    ∧ (¬ ∃ c : Int, 0 ≤ c ∧ c < 0 + 64 ∧ -8 ≤ c ∧ c < -8 + entry5.width)
    ∧ currentObject act ⟨3, .button 3, 0, 0, 10, 255⟩ = none
    ∧ ([(0x02000004, 0x64636261)] : List (Nat × Word)).lookup (0x02000007 - 0x02000007 % 4)
      = some 0x64636261
    ∧ (7 : Fin 256).val = byteAt true 0x04030207 3 ∧ ([7] : List Nat)[0]? = some (7 : Fin 256).val :=
  ⟨fun _ _ => ⟨rfl, rfl, rfl, rfl⟩, by decide, by decide, rfl, rfl, rfl, rfl,
    ⟨rfl, by decide, ⟨0, by decide⟩, by decide, by decide⟩,
    (fun ⟨c, h0, _, _, h1⟩ => by simp only [entry5] at h1; omega), by decide, by decide, by decide, rfl⟩

def storing (n : Nat) (s : State) : State := own (.render (.store 0 0 [])) 0 (inFlight (.storing n) s)

theorem hyp_TileRowsAreStoredInOrder :
    (∀ n, (storing n act).mside = .own (.render (.store 0 0 [])) 0
      ∧ (storing n act).render.flight = some (flight (.storing n))
      ∧ (storing n act).tiles.plane = some plane64 ∧ (storing n act).resetDue = false)
    ∧ (14 : Nat) < 15 ∧ (flight (.storing 15)).row = 7
    ∧ { flight (.storing 15) with row := 6 }.row < 7
    ∧ planeWaits (storing 15 act) = false
    ∧ planeWaits (storing 15 (act.setIntake { waitingIntake with
        state := .executing .planeWait })) = true
    ∧ (storing 15 act).intake.anchor = some ring
    ∧ (storing 15 act).intake.p + recordWords (storing 15 act) ≤ 4 * ring.lines
    ∧ ((List.replicate 64 Argb.transparent).length = 64
      ∧ (List.replicate 64 Argb.transparent)[4 * 15 + 3]? = some Argb.transparent) :=
  ⟨fun _ => ⟨rfl, rfl, rfl, rfl⟩, by decide, rfl, by decide, by decide, by decide, rfl, by decide,
    by decide⟩

/-! ## Hypotheses met: reports and invariants -/

def unit4 (n : Nat) (overflow : Bool) : ReportUnit :=
  { ReportUnit.empty with
    ring := some ⟨0x00102000, 4⟩, overflow := overflow,
    queue := List.replicate n ⟨.flipped .a 0, 0⟩ }

theorem hyp_ReportsReachRing :
    ReportUnit.empty.ring = none
    ∧ ((unit4 8 true).ring.isSome = true ∧ (unit4 8 true).overflow = true)
    ∧ ((unit4 8 false).overflow = false ∧ 8 ≤ (unit4 8 false).queue.length)
    ∧ (unit4 7 false).queue.length < 8
    ∧ ((act.setReports (unit4 1 false)).reports.inHand = none
      ∧ (act.setReports (unit4 1 false)).reports.full = false
      ∧ (act.setReports (unit4 1 false)).reports.queue = [⟨.flipped .a 0, 0⟩])
    ∧ ((act.setReports (unit4 0 true)).reports.queue = []
      ∧ (act.setReports (unit4 0 true)).reports.overflow = true)
    ∧ (reportsOn 3 0 act).reports.full = true
    ∧ (act.resetDue = false ∧ act.intake.anchor = some ring)
    ∧ ((own (.class1 (.reportLine 0x00102000 0 [])) 0 act).mside
        = .own (.class1 (.reportLine 0x00102000 0 [])) 0
      ∧ (act.setReports { unit4 1 false with inHand := some false }).reports.inHand = some false)
    ∧ (∃ l, (handReport (act.setReports (unit4 1 false))).waiting.class1
        = (act.setReports (unit4 1 false)).waiting.class1 ++ [l])
    ∧ TileTaken (own (.class1 (.control .stateWord 0x0010001C 15 (fresh false 0))) 0 act) :=
  ⟨rfl, ⟨rfl, rfl⟩, ⟨rfl, by decide⟩, by decide, ⟨rfl, by decide, rfl⟩, ⟨rfl, rfl⟩, by decide, ⟨rfl, rfl⟩,
    ⟨rfl, rfl⟩, ⟨_, rfl⟩, by unfold TileTaken; decide⟩

theorem act_steps : ∃ t, step (act.setPending [.frameStart]) = .next t := ⟨_, rfl⟩

theorem hyp_AttentionLineFollowsIndexes : AttentionFollows act := by
  unfold AttentionFollows; decide

theorem act_buttons (b : Fin Config.buttonCount) : act.buttons.entries[b] = Button.empty := by
  simp [act, State.setIntake, State.setEngine, State.reset, ButtonTable.empty]

theorem hyp_StepKeepsTablesSound : ObjectsSound act ∧ ListSound act ∧ ButtonsSound act :=
  ⟨act_objects_sound, List.Pairwise.nil, ⟨⟨rfl, rfl⟩, rfl⟩⟩

theorem ring_legal : ring.Legal := by unfold Anchor.Legal; decide

theorem act_engine_sound : EngineSound act :=
  ⟨by decide, by decide, by decide, by decide, by decide, (fun h => nomatch h)⟩

theorem hyp_StepKeepsUnitsSound :
    EngineSound act ∧ IntakeSound act ∧ ReportsSound act ∧ PageSound act ∧ CountsSound act ∧ LoadSound act := by
  refine ⟨act_engine_sound, ⟨by decide, fun x h => ?_, (fun x h => nomatch h)⟩, rfl, ⟨(fun t h => nomatch h), (fun r h => nomatch h)⟩,
    ⟨by decide, by decide⟩, ⟨by decide, Or.inr (Or.inr (by decide))⟩⟩
  cases h
  exact ⟨ring_legal, by decide⟩

theorem hyp_StepKeepsTilesSound : EngineSound act ∧ TilesSound act :=
  ⟨act_engine_sound, (fun h => nomatch h), rfl, rfl, rfl, rfl⟩

theorem hyp_StepKeepsPixelsPremultiplied : PixelsSound act := by
  refine ⟨(fun pl h => nomatch h), (fun f h => nomatch h), fun b => ?_⟩
  rw [act_buttons]
  exact ⟨(fun l h => nomatch h), (fun l h => nomatch h)⟩

theorem hyp_StepKeepsEngineAndBusSound : EngineSound act ∧ BusSound act ∧ Class1Sound act := by
  exact ⟨act_engine_sound, rfl, fun n => Nat.zero_le 1, (fun n a e w h => nomatch h),
    (fun a p ws h => nomatch h)⟩

theorem hyp_StepLeavesNoWorkWaiting : ArbiterServed act ∧ TileTaken act ∧ ReportTaken act := by
  refine ⟨fun _ => ⟨rfl, fun _ => rfl⟩, ?_, (fun h => nomatch h)⟩
  unfold TileTaken
  decide

theorem hyp_StateWordChangesAreHanded :
    EngineSound act ∧ LoadSound act ∧ ∃ t, exec .batchOpen (hold 0x51000000 [] act) = .next t
      ∧ t.intake.anchor.isSome = true ∧ stateWord t ≠ stateWord (hold 0x51000000 [] act) :=
  ⟨act_engine_sound, hyp_StepKeepsUnitsSound.2.2.2.2.2, _, rfl, by decide, by decide⟩

/-! ## Hypotheses met: fields, codes and current objects -/

/-- The boundary values of the field readings that the statements give. -/
theorem hyp_fieldReadings :
    signed16 32767 = 32767 ∧ signed16 32768 = -32768 ∧ signed16 65535 = -1
    ∧ idBelow 48 47 = some 47 ∧ idBelow 48 48 = none ∧ kindOfCode 0x04 = none
    ∧ kindOfCode 0x53 = none
    ∧ (hold 0x20200000 [7] act).intake.slots[(1 : Fin 16)] = some 7
    ∧ body (hold 0x20200000 [7] act) 1 = 7 := by
  decide

/-- A placement of an object and one bound to a button that is not defined, with a table that the object
is indexed on. -/
theorem hyp_currentObject :
    currentObject act ⟨0, .object 255, 0, 0, 0, 255⟩ = some 255
    ∧ currentObject act ⟨0, .button 47, 0, 0, 0, 255⟩ = none
    ∧ shows act 255 ⟨0, .object 255, 0, 0, 0, 255⟩ = true := by
  decide

end Sys2Proof.Tests
end

