-- ==== Sys2Proof/Proofs/PixelArithmetic.lean ====
section
/-! SUPPORT. Pixel arithmetic (chapter 3): rounded products, the over operation, rounded blends, wipes and
tints, and the statements of that chapter settled. -/
namespace Sys2Proof.Machine
set_option Elab.async false
open Sys2Proof

/-! ## Channels -/

theorem chan_toNat {n : Nat} (hn : n ≤ 255) : (chan n).toNat = n := by
  rw [chan, BitVec.toNat_ofNat]
  exact Nat.mod_eq_of_lt (by omega)

theorem chan_of_toNat (c : BitVec 8) : chan c.toNat = c := by
  rw [chan, BitVec.ofNat_toNat, BitVec.setWidth_eq]

theorem channel_le (c : BitVec 8) : c.toNat ≤ 255 := Nat.le_of_lt_succ c.isLt

theorem premultiplied_iff (c : Argb) :
    c.premultiplied = true
      ↔ c.r.toNat ≤ c.a.toNat ∧ c.g.toNat ≤ c.a.toNat ∧ c.b.toNat ≤ c.a.toNat := by
  simp [Argb.premultiplied, BitVec.le_def, and_assoc]

/-! ## The rounded product (R35) -/

section
variable {x a : Nat}

/-- The shifts and adds of R35 divide by 255, rounding to nearest: every later fact about mul255 comes
from this form. -/
theorem mul255_eq_div (hx : x ≤ 255) (ha : a ≤ 255) : mul255 x a = (x * a + 127) / 255 := by
  have hxa : x * a ≤ 255 * 255 := Nat.mul_le_mul hx ha
  unfold mul255
  generalize x * a = t at hxa ⊢
  omega

theorem mul255_nearest (hx : x ≤ 255) (ha : a ≤ 255) :
    255 * mul255 x a ≤ x * a + 127 ∧ x * a ≤ 255 * mul255 x a + 127 := by
  rw [mul255_eq_div hx ha]
  omega

theorem mul255_comm (x a : Nat) : mul255 x a = mul255 a x := by
  rw [mul255, mul255, Nat.mul_comm]

@[simp] theorem mul255_zero (x : Nat) : mul255 x 0 = 0 := by
  rw [mul255, Nat.mul_zero]

@[simp] theorem zero_mul255 (a : Nat) : mul255 0 a = 0 := by
  rw [mul255_comm, mul255_zero]

theorem mul255_full (hx : x ≤ 255) : mul255 x 255 = x := by
  rw [mul255_eq_div hx le_rfl]
  omega

theorem full_mul255 (ha : a ≤ 255) : mul255 255 a = a := by
  rw [mul255_comm, mul255_full ha]

theorem mul255_mono {y b : Nat} (hxy : x ≤ y) (hab : a ≤ b) : mul255 x a ≤ mul255 y b := by
  have hprod : x * a ≤ y * b := Nat.mul_le_mul hxy hab
  unfold mul255
  gcongr

theorem mul255_le_left (hx : x ≤ 255) (ha : a ≤ 255) : mul255 x a ≤ x :=
  (mul255_mono le_rfl ha).trans_eq (mul255_full hx)

theorem mul255_le_right (hx : x ≤ 255) (ha : a ≤ 255) : mul255 x a ≤ a :=
  mul255_comm x a ▸ mul255_le_left ha hx

end

theorem scale_toNat (c a : BitVec 8) : (scale c a).toNat = mul255 c.toNat a.toNat :=
  chan_toNat ((mul255_le_left (channel_le c) (channel_le a)).trans (channel_le c))

theorem premultiply_premultiplied (c : Argb) : (premultiply c).premultiplied = true := by
  have hscale (x : BitVec 8) : (scale x c.a).toNat ≤ c.a.toNat :=
    scale_toNat x c.a ▸ mul255_le_right (channel_le x) (channel_le c.a)
  exact (premultiplied_iff _).2 ⟨hscale c.r, hscale c.g, hscale c.b⟩

theorem sourcePixel_premultiplied (c : Argb) (o : BitVec 8) : (sourcePixel c o).premultiplied = true :=
  premultiply_premultiplied _

/-- Settles O5: mul255 is division by 255 to nearest (`mul255_eq_div`), and the scaled channels are its
values. -/
theorem mul255RoundsToNearest : Obligations.Mul255RoundsToNearest := by
  refine ⟨fun x a hx ha => ?_,
    fun c => ⟨rfl, scale_toNat c.r c.a, scale_toNat c.g c.a, scale_toNat c.b c.a⟩,
    fun c o => ⟨scale_toNat c.a o, scale_toNat c.r _, scale_toNat c.g _, scale_toNat c.b _⟩⟩
  obtain ⟨hup, hdown⟩ := mul255_nearest hx ha
  exact ⟨rfl, by omega, by omega, mul255_zero x, zero_mul255 a, mul255_full hx, full_mul255 ha,
    mul255_comm x a, mul255_le_left hx ha, mul255_le_right hx ha,
    fun _ hxy _ => mul255_mono hxy le_rfl⟩

/-! ## The over operation (R38, R40) -/

section
variable {s sA : BitVec 8} (d : BitVec 8)

/-- What is left of a channel below a source of alpha sA fits in what that alpha leaves of 255. -/
theorem mul255_inverse_le (sA : BitVec 8) : mul255 d.toNat (255 - sA.toNat) ≤ 255 - sA.toNat :=
  mul255_le_right (channel_le d) (Nat.sub_le _ _)

/-- The sum of R38 stays within 255 when the source channel is not above the source alpha. -/
theorem overChannel_toNat (hs : s.toNat ≤ sA.toNat) :
    (overChannel s d sA).toNat = s.toNat + mul255 d.toNat (255 - sA.toNat) := by
  have hrest := mul255_inverse_le d sA
  have hsA := channel_le sA
  exact chan_toNat (by omega)

theorem overChannel_le {dA : BitVec 8} (hs : s.toNat ≤ sA.toNat) (hd : d.toNat ≤ dA.toNat) :
    (overChannel s d sA).toNat ≤ (overChannel sA dA sA).toNat := by
  rw [overChannel_toNat d hs, overChannel_toNat dA le_rfl]
  exact Nat.add_le_add hs (mul255_mono hd le_rfl)

theorem overChannel_clear : overChannel 0 d 0 = d :=
  BitVec.eq_of_toNat_eq <| (overChannel_toNat d le_rfl).trans <|
    (Nat.zero_add _).trans (mul255_full (channel_le d))

theorem overChannel_opaque (s : BitVec 8) : overChannel s d 255 = s := by
  simpa [overChannel] using chan_of_toNat s

theorem overChannel_on_zero (s sA : BitVec 8) : overChannel s 0 sA = s := by
  simpa [overChannel] using chan_of_toNat s

theorem overChannel_on_full (sA : BitVec 8) : overChannel sA 255 sA = 255 := by
  apply BitVec.eq_of_toNat_eq
  calc (overChannel sA 255 sA).toNat
      = sA.toNat + mul255 255 (255 - sA.toNat) := overChannel_toNat 255 le_rfl
    _ = sA.toNat + (255 - sA.toNat) := by rw [full_mul255 (Nat.sub_le _ _)]
    _ = 255 := Nat.add_sub_cancel' (channel_le sA)

end

section
variable {s d : Argb}

theorem layOver_premultiplied (hs : s.premultiplied = true) (hd : d.premultiplied = true) :
    (layOver s d).premultiplied = true := by
  obtain ⟨hsr, hsg, hsb⟩ := (premultiplied_iff s).1 hs
  obtain ⟨hdr, hdg, hdb⟩ := (premultiplied_iff d).1 hd
  exact (premultiplied_iff _).2
    ⟨overChannel_le _ hsr hdr, overChannel_le _ hsg hdg, overChannel_le _ hsb hdb⟩

/-- A premultiplied colour of alpha 0 holds nothing. -/
theorem eq_transparent (hs : s.premultiplied = true) (ha : s.a = 0) : s = Argb.transparent := by
  obtain ⟨a, r, g, b⟩ := s
  obtain rfl : a = 0 := ha
  obtain ⟨hr, hg, hb⟩ := (premultiplied_iff _).1 hs
  have hzero {c : BitVec 8} (hc : c.toNat ≤ 0) : c = 0 := BitVec.eq_of_toNat_eq (Nat.le_zero.1 hc)
  rw [hzero (c := r) hr, hzero (c := g) hg, hzero (c := b) hb, Argb.transparent]

theorem transparent_layOver (d : Argb) : layOver Argb.transparent d = d := by
  simp only [layOver, Argb.transparent, overChannel_clear]

theorem layOver_of_opaque (ha : s.a = 255) : layOver s d = s := by
  simp only [layOver, ha, overChannel_opaque]
  rw [← ha]

theorem layOver_transparent (s : Argb) : layOver s Argb.transparent = s := by
  simp only [layOver, Argb.transparent, overChannel_on_zero]

theorem layOver_a_of_opaque (ha : d.a = 255) : (layOver s d).a = 255 := by
  simp only [layOver, ha, overChannel_on_full]

end

/-- Settles O6, channel by channel from `overChannel_toNat` and the limits of `overChannel`. -/
theorem overLaysSourceOnDestination : Obligations.OverLaysSourceOnDestination := by
  intro s d hs
  obtain ⟨hr, hg, hb⟩ := (premultiplied_iff s).1 hs
  exact ⟨overChannel_toNat _ le_rfl, overChannel_toNat _ hr, overChannel_toNat _ hg,
    overChannel_toNat _ hb, layOver_premultiplied hs,
    fun ha => eq_transparent hs ha ▸ transparent_layOver d, layOver_of_opaque,
    fun hd => hd ▸ layOver_transparent s, layOver_a_of_opaque, sourcePixel_premultiplied⟩

/-! ## Rounded blends: the one shape of the dissolve (R42) and of the tint (R46) -/

/-- The mean of p and q with weights 2 × half − l and l out of 2 × half, rounded to nearest. -/
def blend (half l p q : Nat) : Nat := (p * (2 * half - l) + q * l + half) / (2 * half)

section
variable {half l l' p q : Nat}

theorem blend_zero (hpos : 0 < half) : blend half 0 p q = p := by
  have hround : half / (2 * half) = 0 := Nat.div_eq_of_lt (by omega)
  rw [blend, Nat.sub_zero, Nat.mul_zero, Nat.add_zero, Nat.add_comm,
    Nat.add_mul_div_right _ _ (by omega), hround, Nat.zero_add]

/-- The weight of one value is what the other's leaves. -/
theorem blend_swap (hl : l ≤ 2 * half) : blend half (2 * half - l) q p = blend half l p q := by
  rw [blend, blend, Nat.sub_sub_self hl, Nat.add_comm (q * l)]

theorem blend_full (hpos : 0 < half) : blend half (2 * half) p q = q := by
  rw [← blend_swap le_rfl, Nat.sub_self, blend_zero hpos]

theorem blend_mono (hpq : p ≤ q) (hl : l ≤ l') (hl' : l' ≤ 2 * half) :
    blend half l p q ≤ blend half l' p q := by
  obtain ⟨d, rfl⟩ := Nat.exists_eq_add_of_le hl
  have hweight : 2 * half - l = 2 * half - (l + d) + d := by omega
  have hmoved : p * d ≤ q * d := Nat.mul_le_mul_right d hpq
  refine Nat.div_le_div_right (Nat.add_le_add_right ?_ half)
  rw [hweight, Nat.mul_add, Nat.mul_add]
  omega

theorem blend_anti (hqp : q ≤ p) (hl : l ≤ l') (hl' : l' ≤ 2 * half) :
    blend half l' p q ≤ blend half l p q := by
  rw [← blend_swap hl', ← blend_swap (hl.trans hl')]
  exact blend_mono hqp (Nat.sub_le_sub_left hl _) (Nat.sub_le _ _)

/-- A blend moves from p at weight 0 to q at full weight without turning back, so it lies between. -/
theorem blend_between (hpos : 0 < half) (hl : l ≤ 2 * half) :
    min p q ≤ blend half l p q ∧ blend half l p q ≤ max p q := by
  have hstart : blend half 0 p q = p := blend_zero hpos
  have hend : blend half (2 * half) p q = q := blend_full hpos
  rcases le_total p q with hpq | hqp
  · have hlow := blend_mono hpq (Nat.zero_le l) hl
    have hhigh := blend_mono hpq hl le_rfl
    omega
  · have hlow := blend_anti hqp hl le_rfl
    have hhigh := blend_anti hqp (Nat.zero_le l) hl
    omega

theorem blend_self (hpos : 0 < half) (hl : l ≤ 2 * half) : blend half l p p = p := by
  have hbetween := blend_between (p := p) (q := p) hpos hl
  omega

end

section
variable {half l : Nat} (p q : BitVec 8)

theorem chan_blend_toNat (hpos : 0 < half) (hl : l ≤ 2 * half) :
    (chan (blend half l p.toNat q.toNat)).toNat = blend half l p.toNat q.toNat :=
  chan_toNat ((blend_between hpos hl).2.trans (max_le (channel_le p) (channel_le q)))

/-- The limits of R43 and of R47, for a channel that is a blend. -/
theorem chan_blend_limits (hpos : 0 < half) (hl : l ≤ 2 * half) :
    chan (blend half 0 p.toNat q.toNat) = p ∧ chan (blend half (2 * half) p.toNat q.toNat) = q
      ∧ chan (blend half l p.toNat p.toNat) = p
      ∧ min p.toNat q.toNat ≤ (chan (blend half l p.toNat q.toNat)).toNat
      ∧ (chan (blend half l p.toNat q.toNat)).toNat ≤ max p.toNat q.toNat := by
  rw [blend_zero hpos, blend_full hpos, blend_self hpos hl, chan_blend_toNat p q hpos hl]
  exact ⟨chan_of_toNat p, chan_of_toNat q, chan_of_toNat p, blend_between hpos hl⟩

end

/-! ## The dissolve (R42, R43) -/

section
variable (l : Nat) (p q : BitVec 8)

theorem dissolveChannel_eq : dissolveChannel l p q = chan (blend 512 l p.toNat q.toNat) := rfl

theorem dissolveChannel_toNat (hl : l ≤ 1024) :
    (dissolveChannel l p q).toNat = blend 512 l p.toNat q.toNat := by
  rw [dissolveChannel_eq, chan_blend_toNat p q (by decide) hl]

end

/-- Settles O7: a channel of the dissolve is a rounded blend out of 1024. -/
theorem dissolveMeetsLimits : Obligations.DissolveMeetsLimits := by
  refine ⟨fun l p q hl => ?_, fun _ _ _ => rfl⟩
  obtain ⟨hstart, hend, hsame, hmin, hmax⟩ := chan_blend_limits (half := 512) p q (by decide) hl
  refine ⟨dissolveChannel_toNat l p q hl, hstart, hend, hsame, hmin, hmax, fun l' hll' hl' => ?_⟩
  rw [dissolveChannel_toNat l p q hl, dissolveChannel_toNat l' p q hl']
  exact ⟨fun hpq => blend_mono hpq hll' hl', fun hqp => blend_anti hqp hll' hl'⟩

/-! ## Wipes (R44, R45) -/

/-- The extent of the plane that a wipe's frontier crosses. -/
def wipeExtent (k : TransKind) (pl : Plane) : Nat := if k.horizontal then pl.width else pl.height

section
variable (k : TransKind) (pl : Plane)

theorem frontier_eq (l : Nat) : frontier k pl l = wipeExtent k pl * l / 1024 := by
  unfold frontier wipeExtent
  split <;> rfl

theorem frontier_zero : frontier k pl 0 = 0 := by
  rw [frontier_eq, Nat.mul_zero, Nat.zero_div]

theorem frontier_full : frontier k pl 1024 = wipeExtent k pl := by
  rw [frontier_eq, Nat.mul_div_cancel _ (by decide)]

theorem frontier_mono {l l' : Nat} (hl : l ≤ l') : frontier k pl l ≤ frontier k pl l' := by
  rw [frontier_eq, frontier_eq]
  exact Nat.div_le_div_right (Nat.mul_le_mul_left _ hl)

theorem frontier_le {l : Nat} (hl : l ≤ 1024) : frontier k pl l ≤ wipeExtent k pl :=
  (frontier_mono k pl hl).trans_eq (frontier_full k pl)

end

section
variable (pl : Plane) (l x y : Nat)

theorem frontSide_wipeLeft : frontSide .wipeLeft pl l x y = true ↔ x < frontier .wipeLeft pl l :=
  decide_eq_true_iff

theorem frontSide_wipeRight :
    frontSide .wipeRight pl l x y = true ↔ pl.width - frontier .wipeRight pl l ≤ x :=
  decide_eq_true_iff

theorem frontSide_wipeDown : frontSide .wipeDown pl l x y = true ↔ y < frontier .wipeDown pl l :=
  decide_eq_true_iff

theorem frontSide_wipeUp :
    frontSide .wipeUp pl l x y = true ↔ pl.height - frontier .wipeUp pl l ≤ y :=
  decide_eq_true_iff

end

/-- Four columns whose sides change at one boundary have both sides just when it falls inside them. -/
theorem line_split_iff {side : Nat → Bool} {boundary : Nat}
    (hside : ∀ c c', side c = side c' ↔ (c < boundary ↔ c' < boundary)) (x : Nat) :
    (∃ i j, i < 4 ∧ j < 4 ∧ side (x + i) ≠ side (x + j)) ↔ x < boundary ∧ boundary < x + 4 := by
  constructor
  · rintro ⟨i, j, hi, hj, hne⟩
    rw [Ne, hside] at hne
    omega
  · rintro ⟨hlow, hhigh⟩
    refine ⟨0, 3, by decide, by decide, ?_⟩
    rw [Ne, hside]
    omega

/-- Settles O8: the frontier is a share of the extent it crosses, and a horizontal wipe's sides change at
one column (`line_split_iff`). -/
theorem wipeFrontierAndSides : Obligations.WipeFrontierAndSides := by
  refine ⟨fun k pl l hl => ⟨?_, ?_, frontier_zero k pl, fun _ => frontier_mono k pl⟩,
    fun pl l x y => ⟨frontSide_wipeLeft pl l x y, frontSide_wipeRight pl l x y,
      frontSide_wipeDown pl l x y, frontSide_wipeUp pl l x y, fun _ _ => rfl, fun _ _ => rfl,
      line_split_iff (side := (frontSide .wipeLeft pl l · y)) (fun c c' => ?_) x,
      line_split_iff (side := (frontSide .wipeRight pl l · y)) (fun c c' => ?_) x⟩⟩
  · rintro (rfl | rfl) <;> exact ⟨rfl, frontier_le _ pl hl, frontier_full _ pl⟩
  · rintro (rfl | rfl) <;> exact ⟨rfl, frontier_le _ pl hl, frontier_full _ pl⟩
  · rw [Bool.eq_iff_iff, frontSide_wipeLeft, frontSide_wipeLeft]
  · rw [Bool.eq_iff_iff, frontSide_wipeRight, frontSide_wipeRight, ← not_lt, ← not_lt, not_iff_not]

/-! ## Tints (R46, R47) -/

theorem Tint.reaches_iff (t : Tint) (x y alpha : Nat) :
    t.reaches x y alpha = true
      ↔ t.rect.x ≤ x ∧ x < t.rect.x + t.rect.w ∧ t.rect.y ≤ y ∧ y < t.rect.y + t.rect.h
        ∧ t.floor ≤ alpha := by
  simp [Tint.reaches, and_assoc]

section
variable (a : Nat) (c h : BitVec 8)

theorem tintChannel_eq : tintChannel a c h = chan (blend 128 a c.toNat h.toNat) := rfl

theorem tintChannel_toNat (ha : a ≤ 256) :
    (tintChannel a c h).toNat = blend 128 a c.toNat h.toNat := by
  rw [tintChannel_eq, chan_blend_toNat c h (by decide) ha]

end

/-- Settles O9: a tint reaches the pixels of its rectangle from its floor up, and a channel of it is a
rounded blend out of 256. -/
theorem tintBlendsPixelsItReaches : Obligations.TintBlendsPixelsItReaches := by
  refine ⟨fun be t x y w => ?_, fun _ _ _ => rfl, fun a c h ha => ?_⟩
  · exact if_congr (t.reaches_iff x y _) rfl rfl
  · exact ⟨tintChannel_toNat a c h ha, chan_blend_limits (half := 128) c h (by decide) ha⟩

end Sys2Proof.Machine
end

