-- ==== Sys2Proof/Proofs/Events.lean ====
section
/-! SUPPORT. What a command can do, said once: the effect of its event, and how the event ends. -/
namespace Sys2Proof.Machine
set_option Elab.async false
open Sys2Proof

/-- The command carries out a record. -/
def isRecord : Instr → Bool
  | .pad | .wrap | .sceneReset | .park | .setupPlane | .setupReports | .setColour | .loadColours
  | .defineObject | .dropObject | .place | .move | .setOpacity | .remove | .defineButton
  | .buttonLook | .enableButton | .disableButton | .deleteButton | .keyDirection | .keyEnter
  | .select | .showRecord | .batchOpen | .batchClose => true
  | _ => false

/-- What a record that passes its checks does before its end (R155), case by case. -/
inductive RecordDone (s : State) : RecKind → State → Prop where
  | pad : RecordDone s .pad s
  | sceneReset : RecordDone s .sceneReset (sceneReset s)
  | park : RecordDone s .park ((endTransition s).setEngine .parked)
  | setupPlane (hc : planeCheck s = none) (hf : s.render.flight = none) :
    RecordDone s .setupPlane (applyPlane s)
  | setupReports (hf : reportFieldsOk s = true) :
    RecordDone s .setupReports
      (s.setReports
        { ReportUnit.empty with ring := some ⟨(reportFields s).1, (reportFields s).2⟩ })
  | setColour (k : Fin Config.tableCount) (i : Fin Config.entryCount) (v : Argb) :
    RecordDone s .setColour (markIndexed k (s.setColours (s.colours.write k i v)))
  | defineObject (id : Fin Config.objectCount) (e : ObjEntry) (h : objectFields s = some (id, e)) :
    RecordDone s .defineObject (writeObject id e s)
  | dropObject (id : Fin Config.objectCount) :
    RecordDone s .dropObject (writeObject id ObjEntry.undef s)
  | place (p : Placement) :
    RecordDone s .place (editList p.id (insertPlacement p (removePlacement p.id s.list)) s)
  | move (id : Fin Config.placementCount) (x y : Int) :
    RecordDone s .move
      (editList id (editPlacement id (fun p => { p with x := x, y := y }) s.list) s)
  | setOpacity (id : Fin Config.placementCount) (o : BitVec 8) :
    RecordDone s .setOpacity
      (editList id (editPlacement id (fun p => { p with opacity := o }) s.list) s)
  | remove (id : Fin Config.placementCount) :
    RecordDone s .remove (editList id (removePlacement id s.list) s)
  | defineButton (b : Fin Config.buttonCount) (d : ButtonDef) :
    RecordDone s .defineButton
      (editButtons b (s.buttons.put b (s.buttons.entries[b].define d)) s)
  | buttonLook (b : Fin Config.buttonCount) (act : Bool) :
    RecordDone s .buttonLook (s.setButtons (s.buttons.writeLook b act (lookFields s)))
  | enableButton (b : Fin Config.buttonCount) :
    RecordDone s .enableButton
      (s.setButtons (s.buttons.put b { s.buttons.entries[b] with enabled := true }))
  | enableUndefined : RecordDone s .enableButton s
  | disableSelected (b : Fin Config.buttonCount) (hs : s.buttons.selection = some b) :
    RecordDone s .disableButton (dropButton b { s.buttons.entries[b] with enabled := false } s)
  | disableButton (b : Fin Config.buttonCount) (hs : s.buttons.selection ≠ some b) :
    RecordDone s .disableButton
      (s.setButtons (s.buttons.put b { s.buttons.entries[b] with enabled := false }))
  | disableUndefined : RecordDone s .disableButton s
  | deleteButton (b : Fin Config.buttonCount) :
    RecordDone s .deleteButton (dropButton b s.buttons.entries[b].deleted s)
  | deleteUndefined : RecordDone s .deleteButton s
  | keyEnter : RecordDone s .key (keyEnter s)
  | keyDirection (k : Key) : RecordDone s .key (keyDirection k s)
  | selectNone : RecordDone s .select (selectNone s)
  | selectButton (n : Fin Config.buttonCount) (h : s.buttons.selectable n = true) :
    RecordDone s .select (selectButton n s)
  | showRecord (p : Option TransSpec) (h : ∀ t, p = some t → t.Legal) :
    RecordDone s .showRecord
      ((s.setPage { s.page with pendingShow := p }).setTiles { s.tiles with flipWanted := true })
  | batchOpen : RecordDone s .batchOpen (s.setPage { s.page with batchOpen := true })
  | batchClose : RecordDone s .batchClose (s.setPage { s.page with batchOpen := false })

/-- The effect of the completion of an own transaction, by the command that names it. -/
inductive OwnEffect (s : State) : Instr → OwnReq → (State → State) → Prop where
  | probe (req : LineReq) (w0 w1 w2 w3 : BusWord) :
    OwnEffect s (.probeComplete w0 w1 w2 w3) (.intake (.probe req))
      (probeEffect req.start w0 [w1, w2, w3])
  | refetch (req : LineReq) : OwnEffect s .refetchLineComplete (.intake (.refetch req)) refetchEffect
  | loadLine (r : LineReq) : OwnEffect s .loadLineComplete (.load r) (nextLoadLine r)
  | loadDone (r : LineReq) : OwnEffect s .loadComplete (.load r) endLoad
  | objectFetch (r : LineReq) :
    OwnEffect s .objectFetchComplete (.render (.fetch r)) (objectFetchEffect r)
  | rowStore (a : Addr) (p : Fin 4) (ws : List BusWord) (f : Flight) (n : Nat)
      (hf : currentStore s = some (f, n)) (hn : s.resetDue = true ∨ lastStore f n = false) :
    OwnEffect s .renderStoreComplete (.render (.store a p ws)) renderStoreEffect
  | tile (a : Addr) (p : Fin 4) (ws : List BusWord) (f : Flight) (n : Nat)
      (hf : currentStore s = some (f, n)) (hn : lastStore f n = true) :
    OwnEffect s .tileComplete (.render (.store a p ws)) tileEffect
  | report (a : Addr) (p : Fin 4) (ws : List BusWord) :
    OwnEffect s .reportStoreComplete (.class1 (.reportLine a p ws)) reportStoreEffect
  | control (k : ControlWord) (a : Addr) (e : BitVec 4) (w : BusWord) :
    OwnEffect s .controlWordStoreComplete (.class1 (.control k a e w)) id

/-- The effect of the completion of a C-side transaction, by the command that names it. -/
inductive CEffect (s : State) (t : CTxn) : Instr → (State → State) → Prop where
  | store (m : BusReq) (hm : s.mside = .controller m) :
    CEffect s t .cStoreComplete (storeEffect t (reqAddr m).toNat)
  | passed : CEffect s t .passedTransactionComplete id
  | display : CEffect s t .displayFetchComplete id

/-- The state with no transaction on the C-side or the M-side. -/
def cDone (s : State) : State := (s.setMside .free).setCside ⟨.idle, s.cside.returned⟩

/-- The command is one of those that are a frame start. -/
def IsFrame (c : Instr) : Prop :=
  c = .frameStart ∨ c = .settleEnd ∨ c = .transitionDone ∨ c = .holdEnd

/-- What an event does before a tile is taken and the arbiter grants. -/
inductive Effect (s : State) : Instr → State → Prop where
  | carried {c : Instr} {k : RecKind} {u : State} (hr : isRecord c = true)
      (h : holdsRecord k s = true) (hu : RecordDone s k u) :
    Effect s c (endRecord none (advancedP s) (handStateWord s u))
  | refused {c : Instr} {k : RecKind} (hr : isRecord c = true) (h : holdsRecord k s = true)
      (cause : RecCause) : Effect s c (endRecord (some cause) (advancedP s) s)
  | wrap (h : holdsRecord .wrap s = true) : Effect s .wrap (endRecord none 0 s)
  | planeWaits (h : holdsRecord .setupPlane s = true) (hc : planeCheck s = none)
      (hf : s.render.flight.isSome = true) :
    Effect s .setupPlane (s.setIntake { s.intake with state := .executing .planeWait })
  | loadBegins (h : holdsRecord .loadColours s = true) (l : Load) (hl : loadFields s = some l) :
    Effect s .loadColours
      (handLoad (lineReqAt l.source)
        ((s.setColours
          { s.colours with load := some l, inFlight := s.colours.inFlight.set l.table true }).setIntake
            { s.intake with state := .executing .loading }))
  | frame {c : Instr} (h : IsFrame c) : Effect s c (frameStart s)
  | release (hl : s.resetLine = true) (hp : s.path = .bypass) (hm : s.mside = .free) :
    Effect s .resetRelease (enterService (s.setResetLine false))
  | sweep (h : s.engine = .clearing) : Effect s .clearingSweepEnd (endSweep s)
  | request (r : BusReq) (h : s.cside.state = .idle) :
    Effect s (.cSideRequest r) (s.setCside ⟨.waiting r, s.cside.returned⟩)
  | displayWord (w : BusWord) (p : DisplayPlan) (t t' : CTxn) (h : s.cside.state = .active t) :
    Effect s (.displayWordArrival w) (holdDisplayWord p t' s)
  | drained (e : CapEntry) (rest : List CapEntry) (hq : s.intake.queue = e :: rest)
      (hs : s.intake.state = .probing ∨ s.intake.state = .waiting) :
    Effect s .captureDrain (drainInto e rest s)
  | discarded (e : CapEntry) (rest : List CapEntry) (r : Refetch) (hq : s.intake.queue = e :: rest)
      (hs : s.intake.state = .fetching r) :
    Effect s .captureDrain (s.setIntake { s.intake with queue := rest })
  | loadWord (w : BusWord) (r : LineReq) (n : Nat) (hm : s.mside = .own (.load r) n) :
    Effect s (.loadWordArrival w)
      (loadWord (r.line.toNat + 4 * wrapPos r.start n) w (s.setMside (.own (.load r) (n + 1))))
  | objectWord (w : BusWord) (r : LineReq) (n : Nat) (hm : s.mside = .own (.render (.fetch r)) n) :
    Effect s (.objectWordArrival w)
      (objectWord (r.line.toNat + 4 * wrapPos r.start n) w
        (s.setMside (.own (.render (.fetch r)) (n + 1))))
  | own {c : Instr} {o : OwnReq} {n : Nat} {effect : State → State} (he : OwnEffect s c o effect)
      (hm : s.mside = .own o n) (hd : s.resetDue = false) : Effect s c (effect (s.setMside .free))
  | cSide {c : Instr} {t : CTxn} {effect : State → State} (he : CEffect s t c effect)
      (hc : s.cside.state = .active t) (hp : s.path = .service) (hd : s.resetDue = false) :
    Effect s c (effect (cDone s))

/-- What BYPASS begins on (R116): a released M-side, or what the last transaction left. -/
inductive BypassFrom (s : State) : Instr → State → Prop where
  | atOnce (hl : s.resetLine = false) (hp : s.path = .service) (hm : s.mside = .free) :
    BypassFrom s .resetAssert (s.setResetLine true)
  | own {c : Instr} {o : OwnReq} {n : Nat} {effect : State → State} (he : OwnEffect s c o effect)
      (hm : s.mside = .own o n) (hd : s.resetDue = true) : BypassFrom s c (s.setMside .free)
  | cSide {c : Instr} {t : CTxn} {effect : State → State} (he : CEffect s t c effect)
      (hc : s.cside.state = .active t) (hp : s.path = .service) (hd : s.resetDue = true) :
    BypassFrom s c (effect (cDone s))

/-- What a command can do, and how its event ends. -/
inductive Event (s : State) : Instr → State → Prop where
  | finished {c : Instr} {u : State} (h : Effect s c u) : Event s c (finish u)
  | bypassed {c : Instr} {u : State} (h : BypassFrom s c u) : Event s c (beginBypass u)
  | joined {c : Instr} {t : CTxn} {effect : State → State} (he : CEffect s t c effect)
      (hc : s.cside.state = .active t) (hp : s.path = .bypass) :
    Event s c (grant (leaveBypass (cDone s)))
  | urgent (b : Bool) : Event s (.urgentLine b) (s.setUrgent b)
  | assertedAgain (hl : s.resetLine = true) : Event s .resetAssert s
  | assertedInBypass (hp : s.path = .bypass) : Event s .resetAssert (s.setResetLine true)
  | assertedBusy (hp : s.path = .service) (hm : s.mside ≠ .free) :
    Event s .resetAssert ((s.setResetLine true).setResetDue true)
  | releasedAgain (hl : s.resetLine = false) : Event s .resetRelease s
  | released (hl : s.resetLine = true) (h : s.path = .service ∨ s.mside ≠ .free) :
    Event s .resetRelease (s.setResetLine false)
  | storeWord (w : BusWord) (t t' : CTxn) (hc : s.cside.state = .active t) :
    Event s (.cStoreWord w) (s.setCside { s.cside with state := .active t' })
  | fetchWord (w : BusWord) (t t' : CTxn) (hc : s.cside.state = .active t) :
    Event s (.passedFetchWord w) (s.setCside ⟨.active t', s.cside.returned ++ [w]⟩)
  | firstFetch (t t' : CTxn) (m : BusReq) (hc : s.cside.state = .active t) :
    Event s .displayFirstFetchComplete
      ((s.setCside { s.cside with state := .active t' }).setMside (.controller m))
  | refetchWord (w : BusWord) (req : LineReq) (n : Nat)
      (hm : s.mside = .own (.intake (.refetch req)) n) :
    Event s (.refetchWordArrival w)
      (refetchArrival req n w (s.setMside (.own (.intake (.refetch req)) (n + 1))))
  | drainedNothing (e : ExecPhase) (hs : s.intake.state = .executing e) : Event s .captureDrain s
  | drainedAll (hs : s.intake.state = .absent ∨ s.intake.state = .halted) :
    Event s .captureDrain (s.setIntake { s.intake with queue := [] })

/-! ## The inversion of each shape of command -/

section
variable {s t : State}

theorem runRecord_next {k : RecKind} {run : State → State} (h : runRecord k run s = .next t) :
    holdsRecord k s = true ∧ t = finish (run s) := by
  unfold runRecord at h
  split at h
  next hk => exact ⟨hk, (Host.Outcome.next.inj h).symm⟩
  next => cases h

/-- A record whose checks and effect come to one of the cases of `RecordDone`, or to a refusal. -/
theorem runRecord_event {c : Instr} {k : RecKind} {effect : State → RecordResult}
    (hr : isRecord c = true) (hdone : ∀ u, effect s = .ok u → RecordDone s k u)
    (h : runRecord k (carryOut effect) s = .next t) : Event s c t := by
  obtain ⟨hk, rfl⟩ := runRecord_next h
  refine .finished ?_
  unfold carryOut
  split
  next u hu => exact .carried hr hk (hdone u hu)
  next cause _ => exact .refused hr hk cause

section
variable {u : State}

theorem setColourEffect_done (h : setColourEffect s = .ok u) : RecordDone s .setColour u := by
  unfold setColourEffect at h
  split at h <;> cases h
  exact .setColour ..

theorem reportsEffect_done (h : reportsEffect s = .ok u) : RecordDone s .setupReports u := by
  unfold reportsEffect at h
  split at h
  next => cases h
  next hf =>
    split at h <;> cases h
    exact .setupReports (by simpa using hf)

theorem defineObjectEffect_done (h : defineObjectEffect s = .ok u) :
    RecordDone s .defineObject u := by
  unfold defineObjectEffect at h
  split at h <;> cases h
  next id e hf => exact .defineObject id e hf

theorem dropObjectEffect_done (h : dropObjectEffect s = .ok u) : RecordDone s .dropObject u := by
  unfold dropObjectEffect at h
  split at h <;> cases h
  exact .dropObject _

theorem placeEffect_done (h : placeEffect s = .ok u) : RecordDone s .place u := by
  unfold placeEffect at h
  split at h <;> cases h
  exact .place _

theorem moveEffect_done (h : moveEffect s = .ok u) : RecordDone s .move u := by
  unfold moveEffect at h
  split at h <;> cases h
  exact .move ..

theorem setOpacityEffect_done (h : setOpacityEffect s = .ok u) : RecordDone s .setOpacity u := by
  unfold setOpacityEffect at h
  split at h <;> cases h
  exact .setOpacity ..

theorem removeEffect_done (h : removeEffect s = .ok u) : RecordDone s .remove u := by
  unfold removeEffect at h
  split at h <;> cases h
  exact .remove _

theorem defineButtonEffect_done (h : defineButtonEffect s = .ok u) :
    RecordDone s .defineButton u := by
  unfold defineButtonEffect at h
  split at h
  next =>
    split at h <;> cases h
    exact .defineButton ..
  next => cases h

theorem buttonLookEffect_done (h : buttonLookEffect s = .ok u) : RecordDone s .buttonLook u := by
  unfold buttonLookEffect at h
  split at h
  next =>
    split at h <;> cases h
    exact .buttonLook ..
  next => cases h

theorem enableButtonEffect_done (h : enableButtonEffect s = .ok u) :
    RecordDone s .enableButton u := by
  unfold enableButtonEffect at h
  split at h
  next =>
    dsimp only at h
    split at h <;> cases h
    · exact .enableButton _
    · exact .enableUndefined
  next => cases h

theorem disableButtonEffect_done (h : disableButtonEffect s = .ok u) :
    RecordDone s .disableButton u := by
  unfold disableButtonEffect at h
  split at h
  next b _ =>
    dsimp only at h
    split at h
    next => cases h; exact .disableUndefined
    next =>
      split at h <;> cases h
      next hs => exact .disableSelected b hs
      next hs => exact .disableButton b hs
  next => cases h

theorem deleteButtonEffect_done (h : deleteButtonEffect s = .ok u) :
    RecordDone s .deleteButton u := by
  unfold deleteButtonEffect at h
  split at h
  next =>
    dsimp only at h
    split at h <;> cases h
    · exact .deleteButton _
    · exact .deleteUndefined
  next => cases h

theorem keyEffect_done (h : keyEffect s = .ok u) : RecordDone s .key u := by
  unfold keyEffect at h
  split at h <;> cases h
  · exact .keyEnter
  · exact .keyDirection _

theorem selectEffect_done (h : selectEffect s = .ok u) : RecordDone s .select u := by
  unfold selectEffect at h
  split at h
  next => cases h; exact .selectNone
  next =>
    split at h
    next n _ =>
      split at h <;> cases h
      next hs => exact .selectButton n hs
    next => cases h

theorem bits_lt (w : Word) (hi lo : Nat) : bits w hi lo < 2 ^ (hi + 1 - lo) :=
  Nat.mod_lt _ (Nat.two_pow_pos _)

theorem showTransition_legal {k : ShowKind} {settle : Nat} (hs : settle ≤ 15) {x : TransSpec}
    (h : showTransition k (field s 1 7 0) settle = some x) : x.Legal := by
  have hlen : field s 1 7 0 < 256 := bits_lt _ 7 0
  unfold showTransition at h
  split at h
  next => cases h
  next =>
    split at h <;> cases h
    exact ⟨by dsimp only; omega, by dsimp only; omega, hs⟩

theorem showEffect_done (h : showEffect s = .ok u) : RecordDone s .showRecord u := by
  unfold showEffect at h
  split at h
  next => cases h
  next k _ =>
    split at h <;> cases h
    next hs => exact .showRecord _ fun x hx => showTransition_legal (by omega) hx

end

theorem setupPlane_event (h : execSetupPlane s = .next t) : Event s .setupPlane t := by
  obtain ⟨hk, rfl⟩ := runRecord_next h
  refine .finished ?_
  unfold runSetupPlane
  split
  next cause _ => exact .refused rfl hk cause
  next hc =>
    split
    next hf => exact .carried rfl hk (.setupPlane hc (by simpa using hf))
    next hf => exact .planeWaits hk hc (by cases hx : s.render.flight <;> simp_all)

theorem loadColours_event (h : execLoadColours s = .next t) : Event s .loadColours t := by
  obtain ⟨hk, rfl⟩ := runRecord_next h
  refine .finished ?_
  unfold runLoadColours
  split
  next => exact .refused rfl hk .field
  next l hl => exact .loadBegins hk l hl

theorem frameCase_event {c : Instr} {due : Bool} (hc : IsFrame c) (h : frameCase due s = .next t) :
    Event s c t := by
  unfold frameCase at h
  split at h
  next => exact Host.Outcome.next.inj h ▸ .finished (.frame hc)
  next => cases h

theorem completeOwn_event {c : Instr} {o : OwnReq} {n : Nat} {effect : State → State}
    (he : OwnEffect s c o effect) (hm : s.mside = .own o n) : Event s c (completeOwn effect s) := by
  unfold completeOwn
  split
  next hd => exact .bypassed (.own he hm hd)
  next hd => exact .finished (.own he hm (by simpa using hd))

theorem completeC_event {c : Instr} {x : CTxn} {effect : State → State} (he : CEffect s x c effect)
    (hc : s.cside.state = .active x) : Event s c (completeC effect s) := by
  unfold completeC
  split
  next hp => exact .joined he hc hp
  next hp =>
    split
    next hd => exact .bypassed (.cSide he hc hp hd)
    next hd => exact .finished (.cSide he hc hp (by simpa using hd))

theorem assertReset_event : Event s .resetAssert (assertReset s) := by
  unfold assertReset
  split
  next hl => exact .assertedAgain hl
  next hl =>
    dsimp only
    split
    next hp => exact .assertedInBypass hp
    next hp hm => exact .bypassed (.atOnce (by simpa using hl) hp hm)
    next hp hm => exact .assertedBusy hp (by rw [hm]; exact fun h => nomatch h)
    next hp hm => exact .assertedBusy hp (by rw [hm]; exact fun h => nomatch h)

theorem releaseReset_event : Event s .resetRelease (releaseReset s) := by
  unfold releaseReset
  split
  next hl =>
    dsimp only
    split
    next hp hm => exact .finished (.release hl hp hm)
    next hp hm => exact .released hl (.inr (by rw [hm]; exact fun h => nomatch h))
    next hp hm => exact .released hl (.inr (by rw [hm]; exact fun h => nomatch h))
    next hp => exact .released hl (.inl hp)
  next hl => exact .releasedAgain (by simpa using hl)

theorem captureDrain_event (h : execCaptureDrain s = .next t) : Event s .captureDrain t := by
  unfold execCaptureDrain at h
  split at h
  next => cases h
  next e rest hq =>
    split at h <;> cases h
    next hs => exact .finished (.drained e rest hq (.inl hs))
    next hs => exact .finished (.drained e rest hq (.inr hs))
    next r hs => exact .finished (.discarded e rest r hq hs)
    next ph hs => exact .drainedNothing ph hs
    next hs => exact .drainedAll (.inl hs)
    next hs => exact .drainedAll (.inr hs)

theorem cStoreComplete_event (h : execCStoreComplete s = .next t) : Event s .cStoreComplete t := by
  unfold execCStoreComplete at h
  split at h
  next x m hc hm =>
    split at h <;> cases h
    exact completeC_event (.store m hm) hc
  next => cases h

theorem displayWordArrival_event {w : BusWord} (h : execDisplayWordArrival w s = .next t) :
    Event s (.displayWordArrival w) t := by
  unfold execDisplayWordArrival at h
  split at h
  next x hc =>
    split at h <;> cases h
    next p x' _ _ => exact .finished (.displayWord w p x x' hc)
  next => cases h
  next => cases h

theorem displayFirstFetchComplete_event (h : execDisplayFirstFetchComplete s = .next t) :
    Event s .displayFirstFetchComplete t := by
  unfold execDisplayFirstFetchComplete at h
  split at h
  next x hc =>
    split at h
    next p _ _ =>
      split at h
      next l _ =>
        split at h <;> cases h
        exact .firstFetch x _ _ hc
      next => cases h
    next => cases h
  next => cases h
  next => cases h

theorem displayFetchComplete_event (h : execDisplayFetchComplete s = .next t) :
    Event s .displayFetchComplete t := by
  unfold execDisplayFetchComplete at h
  split at h
  next x hc =>
    split at h
    next p _ =>
      split at h <;> cases h
      exact completeC_event .display hc
    next => cases h
    next => cases h
  next => cases h
  next => cases h

theorem passedTransactionComplete_event (h : execPassedTransactionComplete s = .next t) :
    Event s .passedTransactionComplete t := by
  unfold execPassedTransactionComplete at h
  split at h
  next x hc =>
    split at h <;> cases h
    exact completeC_event .passed hc
  next => cases h
  next => cases h

theorem cStoreWord_event {w : BusWord} (h : execCStoreWord w s = .next t) :
    Event s (.cStoreWord w) t := by
  unfold execCStoreWord at h
  split at h
  next x hc =>
    split at h <;> cases h
    exact .storeWord w x _ hc
  next => cases h
  next => cases h

theorem passedFetchWord_event {w : BusWord} (h : execPassedFetchWord w s = .next t) :
    Event s (.passedFetchWord w) t := by
  unfold execPassedFetchWord at h
  split at h
  next x hc =>
    split at h <;> cases h
    exact .fetchWord w x _ hc
  next => cases h
  next => cases h

theorem cSideRequest_event {r : BusReq} (h : execCSideRequest r s = .next t) :
    Event s (.cSideRequest r) t := by
  unfold execCSideRequest at h
  split at h
  next => cases h
  next =>
    split at h <;> cases h
    next hc => exact .finished (.request r hc)

theorem refetchWordArrival_event {w : BusWord} (h : execRefetchWordArrival w s = .next t) :
    Event s (.refetchWordArrival w) t := by
  unfold execRefetchWordArrival at h
  split at h <;> try cases h
  next req n hm =>
    split at h <;> cases h
    exact .refetchWord w req n hm

theorem loadWordArrival_event {w : BusWord} (h : execLoadWordArrival w s = .next t) :
    Event s (.loadWordArrival w) t := by
  unfold execLoadWordArrival at h
  split at h <;> try cases h
  next r n hm =>
    split at h <;> cases h
    exact .finished (.loadWord w r n hm)

theorem objectWordArrival_event {w : BusWord} (h : execObjectWordArrival w s = .next t) :
    Event s (.objectWordArrival w) t := by
  unfold execObjectWordArrival at h
  split at h <;> try cases h
  next r n hm =>
    split at h <;> cases h
    exact .finished (.objectWord w r n hm)

theorem probeComplete_event {w0 w1 w2 w3 : BusWord}
    (h : execProbeComplete w0 w1 w2 w3 s = .next t) : Event s (.probeComplete w0 w1 w2 w3) t := by
  unfold execProbeComplete at h
  split at h <;> cases h
  next req _ hm => exact completeOwn_event (.probe req w0 w1 w2 w3) hm

theorem refetchLineComplete_event (h : execRefetchLineComplete s = .next t) :
    Event s .refetchLineComplete t := by
  unfold execRefetchLineComplete at h
  split at h <;> try cases h
  next req _ hm =>
    split at h <;> cases h
    exact completeOwn_event (.refetch req) hm

theorem loadLineComplete_event (h : execLoadLineComplete s = .next t) :
    Event s .loadLineComplete t := by
  unfold execLoadLineComplete at h
  split at h
  next r _ l hm _ =>
    split at h <;> cases h
    exact completeOwn_event (.loadLine r) hm
  next => cases h

theorem loadComplete_event (h : execLoadComplete s = .next t) : Event s .loadComplete t := by
  unfold execLoadComplete at h
  split at h
  next r _ l hm _ =>
    split at h <;> cases h
    exact completeOwn_event (.loadDone r) hm
  next => cases h

theorem objectFetchComplete_event (h : execObjectFetchComplete s = .next t) :
    Event s .objectFetchComplete t := by
  unfold execObjectFetchComplete at h
  split at h <;> try cases h
  next r _ hm =>
    split at h <;> cases h
    exact completeOwn_event (.objectFetch r) hm

theorem renderStoreComplete_event (h : execRenderStoreComplete s = .next t) :
    Event s .renderStoreComplete t := by
  unfold execRenderStoreComplete at h
  split at h
  next a p ws _ f n hm hf =>
    split at h <;> cases h
    next hn => exact completeOwn_event (.rowStore a p ws f n hf (by simpa using hn)) hm
  next => cases h

theorem tileComplete_event (h : execTileComplete s = .next t) : Event s .tileComplete t := by
  unfold execTileComplete at h
  split at h
  next a p ws _ f n hm hf =>
    split at h <;> cases h
    next hn => exact completeOwn_event (.tile a p ws f n hf hn) hm
  next => cases h

theorem reportStoreComplete_event (h : execReportStoreComplete s = .next t) :
    Event s .reportStoreComplete t := by
  unfold execReportStoreComplete at h
  split at h <;> cases h
  next a p ws _ hm => exact completeOwn_event (.report a p ws) hm

theorem controlWordStoreComplete_event (h : execControlWordStoreComplete s = .next t) :
    Event s .controlWordStoreComplete t := by
  unfold execControlWordStoreComplete at h
  split at h <;> cases h
  next k a e w _ hm => exact completeOwn_event (.control k a e w) hm

theorem keyDirection_event (h : execKeyDirection s = .next t) : Event s .keyDirection t := by
  unfold execKeyDirection at h
  split at h
  next => cases h
  next => exact runRecord_event rfl (fun _ => keyEffect_done) h

theorem keyEnter_event (h : execKeyEnter s = .next t) : Event s .keyEnter t := by
  unfold execKeyEnter at h
  split at h
  next => exact runRecord_event rfl (fun _ => keyEffect_done) h
  next => exact runRecord_event rfl (fun _ => keyEffect_done) h
  all_goals cases h

theorem clearingSweepEnd_event (h : execClearingSweepEnd s = .next t) :
    Event s .clearingSweepEnd t := by
  unfold execClearingSweepEnd at h
  split at h <;> cases h
  next he => exact .finished (.sweep he)

/-- The inversion of the dispatch: every command that runs is one of these events. -/
theorem exec_event {c : Instr} (h : exec c s = .next t) : Event s c t := by
  cases c with
  | pad => exact runRecord_event rfl (fun _ hu => by cases hu; exact .pad) h
  | wrap =>
    obtain ⟨hk, rfl⟩ := runRecord_next h
    exact .finished (.wrap hk)
  | sceneReset => exact runRecord_event rfl (fun _ hu => by cases hu; exact .sceneReset) h
  | park => exact runRecord_event rfl (fun _ hu => by cases hu; exact .park) h
  | setupPlane => exact setupPlane_event h
  | setupReports => exact runRecord_event rfl (fun _ => reportsEffect_done) h
  | setColour => exact runRecord_event rfl (fun _ => setColourEffect_done) h
  | loadColours => exact loadColours_event h
  | defineObject => exact runRecord_event rfl (fun _ => defineObjectEffect_done) h
  | dropObject => exact runRecord_event rfl (fun _ => dropObjectEffect_done) h
  | place => exact runRecord_event rfl (fun _ => placeEffect_done) h
  | move => exact runRecord_event rfl (fun _ => moveEffect_done) h
  | setOpacity => exact runRecord_event rfl (fun _ => setOpacityEffect_done) h
  | remove => exact runRecord_event rfl (fun _ => removeEffect_done) h
  | defineButton => exact runRecord_event rfl (fun _ => defineButtonEffect_done) h
  | buttonLook => exact runRecord_event rfl (fun _ => buttonLookEffect_done) h
  | enableButton => exact runRecord_event rfl (fun _ => enableButtonEffect_done) h
  | disableButton => exact runRecord_event rfl (fun _ => disableButtonEffect_done) h
  | deleteButton => exact runRecord_event rfl (fun _ => deleteButtonEffect_done) h
  | keyDirection => exact keyDirection_event h
  | keyEnter => exact keyEnter_event h
  | select => exact runRecord_event rfl (fun _ => selectEffect_done) h
  | showRecord => exact runRecord_event rfl (fun _ => showEffect_done) h
  | batchOpen => exact runRecord_event rfl (fun _ hu => by cases hu; exact .batchOpen) h
  | batchClose => exact runRecord_event rfl (fun _ hu => by cases hu; exact .batchClose) h
  | frameStart => exact Host.Outcome.next.inj h ▸ .finished (.frame (.inl rfl))
  | settleEnd => exact frameCase_event (.inr (.inl rfl)) h
  | transitionDone => exact frameCase_event (.inr (.inr (.inl rfl))) h
  | holdEnd => exact frameCase_event (.inr (.inr (.inr rfl))) h
  | resetAssert => exact Host.Outcome.next.inj h ▸ assertReset_event
  | resetRelease => exact Host.Outcome.next.inj h ▸ releaseReset_event
  | clearingSweepEnd => exact clearingSweepEnd_event h
  | urgentLine b => exact Host.Outcome.next.inj h ▸ .urgent b
  | cSideRequest r => exact cSideRequest_event h
  | cStoreWord w => exact cStoreWord_event h
  | cStoreComplete => exact cStoreComplete_event h
  | passedFetchWord w => exact passedFetchWord_event h
  | passedTransactionComplete => exact passedTransactionComplete_event h
  | displayWordArrival w => exact displayWordArrival_event h
  | displayFirstFetchComplete => exact displayFirstFetchComplete_event h
  | captureDrain => exact captureDrain_event h
  | probeComplete w0 w1 w2 w3 => exact probeComplete_event h
  | refetchWordArrival w => exact refetchWordArrival_event h
  | refetchLineComplete => exact refetchLineComplete_event h
  | loadWordArrival w => exact loadWordArrival_event h
  | loadLineComplete => exact loadLineComplete_event h
  | loadComplete => exact loadComplete_event h
  | objectWordArrival w => exact objectWordArrival_event h
  | objectFetchComplete => exact objectFetchComplete_event h
  | renderStoreComplete => exact renderStoreComplete_event h
  | tileComplete => exact tileComplete_event h
  | reportStoreComplete => exact reportStoreComplete_event h
  | controlWordStoreComplete => exact controlWordStoreComplete_event h
  | displayFetchComplete => exact displayFetchComplete_event h

/-- A step runs the command at the front on the rest of the queue, or idles (log 7). -/
theorem step_cases (h : step s = .next t) :
    t = s ∨ ∃ c rest, Event (s.setPending rest) c t := by
  unfold step at h
  split at h
  next => exact .inl (Host.Outcome.next.inj h).symm
  next c rest _ => exact .inr ⟨c, rest, exec_event h⟩

end

/-! ## What the larger effects come to -/

/-- What the completion of a store offers to the capture or to the read-index latch. -/
inductive Offered (x : CTxn) (u : State) : State → Prop where
  | none : Offered x u u
  | capture (ht : x.treat = .passed .script) : Offered x u (offerCapture x u)
  | latch (ht : x.treat = .passed .control) : Offered x u (offerLatch x u)

/-- What the anchor watch makes of a store. -/
inductive Watched (u : State) : State → Prop where
  | none : Watched u u
  | latched {y : Anchor} (hy : y.Legal) (he : u.engine = .clearing) : Watched u (u.setLatch (some y))
  | attached {y : Anchor} (hy : y.Legal) (he : u.engine = .unanchored) : Watched u (attach y u)
  | reanchored {y : Anchor} (hy : y.Legal) (he : u.engine = .active ∨ u.engine = .parked) :
    Watched u (reanchor y u)

section
variable {s t u : State}

theorem anchorOf_legal {a : Nat} {w0 w1 w2 w3 : BusWord} {y : Anchor}
    (h : anchorOf a w0 w1 w2 w3 = some y) : y.Legal := by
  unfold anchorOf at h
  dsimp only at h
  split at h <;> cases h
  next hc =>
    obtain ⟨_, _, _, _, hlow, hhigh, hend⟩ := hc
    refine ⟨hlow, hhigh, ?_⟩
    have ha : (BitVec.ofNat 32 a).toNat ≤ a := by
      rw [BitVec.toNat_ofNat]
      exact Nat.mod_le _ _
    unfold addressSpace at hend
    dsimp only
    omega

theorem storeAnchor_legal {x : CTxn} {a : Nat} {y : Anchor} (h : storeAnchor x a = some y) :
    y.Legal := by
  unfold storeAnchor at h
  split at h
  next =>
    split at h
    next => exact anchorOf_legal h
    next => cases h
  all_goals cases h

theorem anchorWatch_watched (x : CTxn) (a : Nat) : Watched u (anchorWatch x a u) := by
  unfold anchorWatch
  split
  next => exact .none
  next y hy =>
    have hl := storeAnchor_legal hy
    split
    next => exact .none
    next he => exact .latched hl he
    next he => exact .attached hl he
    next he => exact .reanchored hl (.inl he)
    next he => exact .reanchored hl (.inr he)

/-- The completion of a C-side transaction: what it offers, and then what the anchor watch makes of it. -/
theorem CEffect.offered_watched {c : Instr} {x : CTxn} {effect : State → State}
    (he : CEffect s x c effect) : ∃ v, Offered x (cDone s) v ∧ Watched v (effect (cDone s)) := by
  cases he with
  | passed => exact ⟨_, .none, .none⟩
  | display => exact ⟨_, .none, .none⟩
  | store m hm =>
    refine ⟨_, ?_, anchorWatch_watched x _⟩
    split
    next ht => exact .capture ht
    next ht => exact .latch ht
    all_goals exact .none

/-- What the completion of a tile comes to (R51, R66). -/
inductive TileDone (s : State) : State → Prop where
  | none : TileDone s s
  | done {f : Flight} {pl : Plane} (hf : s.render.flight = some f) (hp : s.tiles.plane = some pl)
      (hw : planeWaits s = false) : TileDone s (completeTile pl f s)
  | planeSet {f : Flight} {pl : Plane} (hf : s.render.flight = some f) (hp : s.tiles.plane = some pl)
      (hw : planeWaits s = true) :
    TileDone s (endRecord none (advancedP (completeTile pl f s))
      (handStateWord (completeTile pl f s) (applyPlane (completeTile pl f s))))

theorem currentStore_flight {f : Flight} {n : Nat} (h : currentStore s = some (f, n)) :
    s.render.flight = some f ∧ f.phase = .storing n := by
  unfold currentStore at h
  split at h
  next g hg =>
    split at h <;> cases h
    next hn => exact ⟨hg, hn⟩
  next => cases h

theorem currentApp_flight {f : Flight} {a : App} {rest : List Placement}
    (h : currentApp s = some (f, a, rest)) :
    s.render.flight = some f ∧ f.phase = .applying a rest := by
  unfold currentApp at h
  split at h
  next g hg =>
    split at h <;> cases h
    next ha => exact ⟨hg, ha⟩
  next => cases h

theorem tileEffect_done : TileDone s (tileEffect s) := by
  unfold tileEffect
  split
  next f n pl hf hp =>
    obtain ⟨hfl, _⟩ := currentStore_flight hf
    have hw : planeWaits (completeTile pl f s) = planeWaits s := by simp [planeWaits]
    dsimp only
    split
    next h => exact .planeSet hfl hp (hw ▸ h)
    next h => exact .done hfl hp (by simpa [hw] using h)
  next => exact .none

/-- What the completion of an object fetch comes to (R65, R67): nothing, the next fetch, or the row going
on, with the application laid over its span unless it has ended. -/
inductive FetchDone (r : LineReq) (s : State) : State → Prop where
  | none : FetchDone r s s
  | next {f : Flight} {a a' : App} {rest : List Placement} {req : LineReq}
      (hf : s.render.flight = some f) (ha : f.phase = .applying a rest)
      (hn : a.nextFetch r = some (a', req)) :
    FetchDone r s (setFlight { f with phase := .applying a' rest } (.fetch req) s)
  | ended {f : Flight} {a : App} {rest : List Placement} {pl : Plane}
      (hf : s.render.flight = some f) (ha : f.phase = .applying a rest)
      (hp : s.tiles.plane = some pl) (he : a.ended = true) : FetchDone r s (advanceRow pl f rest s)
  | applied {f : Flight} {a : App} {rest : List Placement} {pl : Plane}
      (hf : s.render.flight = some f) (ha : f.phase = .applying a rest)
      (hp : s.tiles.plane = some pl) (he : a.ended = false) (hn : a.nextFetch r = .none) :
    FetchDone r s (applyApp pl f a rest s)

theorem objectFetchEffect_done (r : LineReq) : FetchDone r s (objectFetchEffect r s) := by
  unfold objectFetchEffect
  split
  next f a rest pl hc hp =>
    obtain ⟨hf, ha⟩ := currentApp_flight hc
    split
    next he => exact .ended hf ha hp he
    next he =>
      split
      next hn => exact .next hf ha hn
      next hn => exact .applied hf ha hp (by simpa using he) hn
  next => exact .none

end

/-! ## What commands do to one part of the state -/

/-- The part f of the state t comes from that of s by changes of the relation R. -/
def Moved {α : Type} (R : α → α → Prop) (f : State → α) (s t : State) : Prop :=
  Relation.ReflTransGen R (f s) (f t)

section
variable {α : Type} {R : α → α → Prop} {f : State → α} {s t u : State}

theorem Moved.of_eq (h : f t = f s) : Moved R f s t := by
  rw [Moved, h]

theorem Moved.of_step (h : R (f s) (f t)) : Moved R f s t := .single h

theorem Moved.trans (h : Moved R f s t) (h' : Moved R f t u) : Moved R f s u :=
  Relation.ReflTransGen.trans h h'

/-- A state with the same part will do in place of the first. -/
theorem Moved.from_eq (he : f t = f s) (h : Moved R f t u) : Moved R f s u := (Moved.of_eq he).trans h

/-- A state with the same part will do in place of the last. -/
theorem Moved.to_eq (h : Moved R f s t) (he : f u = f t) : Moved R f s u := h.trans (.of_eq he)

/-- A property that each change keeps holds of the part as long as such changes are made. -/
theorem Moved.keeps {P : α → Prop} (hP : ∀ a b, R a b → P a → P b) (h : Moved R f s t)
    (hs : P (f s)) : P (f t) := by
  have hclosed : ∀ a b, Relation.ReflTransGen R a b → P a → P b := fun a b hab ha => by
    induction hab with
    | refl => exact ha
    | tail _ hstep ih => exact hP _ _ hstep ih
  exact hclosed _ _ h hs

/-- Changes of R are changes of any wider relation. -/
theorem Moved.mono {R' : α → α → Prop} (hR : ∀ a b, R a b → R' a b) (h : Moved R f s t) :
    Moved R' f s t :=
  h.keeps (P := Relation.ReflTransGen R' (f s)) (fun a b hab hs => hs.tail (hR a b hab)) .refl

/-- What every event does to a part that does not hold the queue, a step does. -/
theorem step_moved (hf : ∀ s v, f (s.setPending v) = f s)
    (he : ∀ {s t : State} {c : Instr}, Event s c t → Moved R f s t) (h : step s = .next t) :
    Moved R f s t := by
  rcases step_cases h with rfl | ⟨c, rest, hc⟩
  · exact .of_eq rfl
  · exact (he hc).from_eq (hf s rest)

end
end Sys2Proof.Machine
end

