-- ==== Sys2Proof/Proofs/Reports.lean ====
section
/-! SUPPORT. The report unit: what a command can do to it, and what every such change keeps. -/
namespace Sys2Proof.Machine
set_option Elab.async false
open Sys2Proof

/-! ## The hand-over on the report unit alone -/

/-- The report unit after the hand-over of a report line (R164, R167). -/
def ReportUnit.hand (u : ReportUnit) : ReportUnit :=
  if u.ring.isSome = true ∧ u.inHand = none ∧ u.full = false then
    match u.queue with
    | _ :: _ => { u with inHand := some false }
    | [] =>
      if u.overflow then
        { u with inHand := some true, seq := u.seq + 1, overflow := false, firstLost := 0, lost := 0 }
      else u
  else u

theorem handReport_reports (s : State) : (handReport s).reports = s.reports.hand := by
  unfold handReport ReportUnit.hand
  split
  next r hr hh =>
    cases hf : s.reports.full
    · cases hq : s.reports.queue with
      | nil => cases s.reports.overflow <;> simp [hr, hh, hq]
      | cons => simp [hr, hh, hq]
    · simp
  next h =>
    rw [if_neg]
    rintro ⟨hr, hh, _⟩
    obtain ⟨r, hr⟩ := Option.isSome_iff_exists.1 hr
    exact h r hr hh

theorem giveReport_reports (r : Report) (s : State) :
    (giveReport r s).reports = (s.reports.arrive r).hand := by
  rw [giveReport, handReport_reports, State.setReports_reports]

/-! ## What a command can do to the report unit -/

/-- One change of the report unit at work: a report arrives, a report line store completes, or the read
index is latched. -/
inductive ReportRun : ReportUnit → ReportUnit → Prop where
  | give (r : Report) (u : ReportUnit) : ReportRun u (u.arrive r).hand
  | done {u : ReportUnit} {r : ReportRing} (overflow : Bool) (hr : u.ring = some r) :
    ReportRun u (u.lineDone overflow r.entries).hand
  | latch {u : ReportUnit} {r : ReportRing} (v : Nat) (hr : u.ring = some r) :
    ReportRun u { u with read := if v < r.entries then v else r.entries - 1 }.followIndexes.hand

/-- One change of the report unit: at work, emptied, or its ring set. -/
inductive ReportStep : ReportUnit → ReportUnit → Prop where
  | run {u v : ReportUnit} (h : ReportRun u v) : ReportStep u v
  | clear (u : ReportUnit) : ReportStep u ReportUnit.empty
  | set {u : ReportUnit} (r : ReportRing) (hlow : 4 ≤ r.entries) (hhigh : r.entries ≤ 1024) :
    ReportStep u { ReportUnit.empty with ring := some r }

/-- The report unit of t comes from that of s at work. -/
abbrev Ran (s t : State) : Prop := Moved ReportRun State.reports s t

/-- The report unit of t comes from that of s by any of its changes. -/
abbrev Reported (s t : State) : Prop := Moved ReportStep State.reports s t

section
variable {s t u : State}

theorem Moved.reported (h : Ran s t) : Reported s t := h.mono fun _ _ => .run

theorem Reported.of_empty (h : t.reports = ReportUnit.empty) : Reported s t :=
  .of_step (h ▸ .clear s.reports)

theorem Moved.give (r : Report) (h : Ran s t) : Ran s (giveReport r t) :=
  h.trans (.of_step (giveReport_reports r t ▸ .give r t.reports))

theorem Moved.give? (r : Option Report) (h : Ran s t) : Ran s (giveReport? r t) := by
  cases r with
  | none => exact h
  | some r => exact Moved.give r h

/-! ## The reports of each shared operation -/

theorem endRecord_ran (c : Option RecCause) (p : Nat) (h : Ran s t) :
    Ran s (endRecord c p t) := by
  refine (Moved.give? (c.map (recordFault t)) h).to_eq ?_
  cases c <;> simp [endRecord, giveReport?]

theorem endTransition_ran : Ran s (endTransition s) := by
  unfold endTransition
  split
  next => exact .give _ (.of_eq (by simp))
  next => exact .of_eq rfl

theorem dropButton_ran (b : Fin Config.buttonCount) (e : Button) :
    Ran s (dropButton b e s) := by
  unfold dropButton
  split
  next => exact .give _ (.of_eq (by simp))
  next => exact .of_eq (by simp)

theorem moveSelection_ran (n : Fin Config.buttonCount) : Ran s (moveSelection n s) :=
  .give _ (.of_eq (by simp))

theorem activate_ran (n : Fin Config.buttonCount) (h : Ran s t) :
    Ran s (activate n t) :=
  .give _ (h.to_eq (by simp))

theorem keyDirection_ran (k : Key) : Ran s (keyDirection k s) := by
  unfold keyDirection
  split
  next =>
    split
    next => exact moveSelection_ran _
    next => exact .of_eq rfl
  next =>
    split
    next => exact .of_eq rfl
    next =>
      split
      next => exact .of_eq rfl
      next n _ =>
        split
        next => exact activate_ran n (moveSelection_ran n)
        next => exact moveSelection_ran n

theorem keyEnter_ran : Ran s (keyEnter s) := by
  unfold keyEnter
  split
  next => exact .of_eq rfl
  next b _ =>
    split
    next => exact .of_eq rfl
    next => exact activate_ran b (.of_eq rfl)

theorem selectButton_ran (n : Fin Config.buttonCount) : Ran s (selectButton n s) := by
  unfold selectButton
  split
  next => split <;> exact .of_eq (by simp)
  next => exact moveSelection_ran n

theorem selectNone_ran : Ran s (selectNone s) := by
  unfold selectNone
  split
  next => exact .give _ (.of_eq (by simp))
  next => exact .of_eq rfl

theorem reportFields_legal (h : reportFieldsOk s = true) :
    4 ≤ (reportFields s).2 ∧ (reportFields s).2 ≤ 1024 := by
  simp only [reportFieldsOk, Bool.and_eq_true, decide_eq_true_eq] at h
  obtain ⟨⟨⟨⟨_, _⟩, hlow⟩, hhigh⟩, _⟩ := h
  exact ⟨hlow, hhigh⟩

theorem RecordDone.reported {k : RecKind} (h : RecordDone s k u) : Reported s u := by
  cases h with
  | park => exact endTransition_ran.reported.to_eq (by simp)
  | setupReports hf =>
    obtain ⟨hlow, hhigh⟩ := reportFields_legal hf
    exact .of_step (.set ⟨_, _⟩ hlow hhigh)
  | disableSelected b => exact (dropButton_ran b _).reported
  | deleteButton b => exact (dropButton_ran b _).reported
  | keyEnter => exact keyEnter_ran.reported
  | keyDirection k => exact (keyDirection_ran k).reported
  | selectNone => exact selectNone_ran.reported
  | selectButton n => exact (selectButton_ran n).reported
  | _ => exact .of_eq (by simp)

/-! ## Frame starts -/

theorem stepTransition_ran : Ran s (stepTransition s) := by
  unfold stepTransition
  split
  next => exact .of_eq rfl
  next =>
    split
    next => exact .of_eq (by simp)
    next => exact endTransition_ran

theorem flip_ran : Ran s (flip s) := .give _ (.of_eq (by simp))

theorem activeFrame_ran : Ran s (activeFrame s) := by
  have hstep : Ran s (stepTransition (countFrame s)) :=
    stepTransition_ran.from_eq (by simp)
  unfold activeFrame
  refine Moved.to_eq (t := if flipDue s then flip (stepTransition (countFrame s))
    else stepTransition (countFrame s)) ?_ (by simp)
  split
  next => exact hstep.trans flip_ran
  next => exact hstep

theorem frameStart_ran : Ran s (frameStart s) := by
  unfold frameStart
  split
  next => exact .of_eq rfl
  next => exact .of_eq rfl
  next => exact .of_eq (by simp)
  next => exact .of_eq (by simp)
  next => exact activeFrame_ran

/-! ## The intake -/

theorem enterExecuting_ran (h : Ran s t) : Ran s (enterExecuting t) := by
  unfold enterExecuting
  split
  next => exact endRecord_ran _ _ h
  next =>
    split
    next =>
      split
      next => exact h.to_eq (by simp)
      next => exact endRecord_ran _ _ h
    next => exact h.to_eq (by simp)

theorem commit_ran (hd : Word) (h : Ran s t) : Ran s (commit hd t) := by
  have hw : Ran s (wake (t.setIntake
      { t.intake with header := hd, deferred := none, probeLive := false })) := h.to_eq (by simp)
  unfold commit
  dsimp only
  split
  next => exact endRecord_ran _ _ hw
  next =>
    split
    next => exact enterExecuting_ran hw
    next => exact hw.to_eq (by simp)

theorem commitCheck_ran (h : Ran s t) : Ran s (commitCheck t) := by
  unfold commitCheck
  split
  next =>
    split
    next => exact commit_ran _ h
    next => exact h
  next => exact h

theorem drainInto_ran (e : CapEntry) (rest : List CapEntry) :
    Ran s (drainInto e rest s) := by
  unfold drainInto
  dsimp only
  split
  next => exact commitCheck_ran (.of_eq (by simp))
  next => exact .of_eq (by simp)

theorem halt_ran (k : Nat) (h : Ran s t) : Ran s (halt k t) := by
  have hgiven := (h.give (.parity .probe (headerAddr t))).give (.recordFault .parity t.intake.p k)
  exact hgiven.to_eq (by simp [halt])

theorem probeEffect_ran (start : Fin 4) (w0 : BusWord) (ws : List BusWord)
    (h : Ran s t) : Ran s (probeEffect start w0 ws t) := by
  unfold probeEffect treatProbe
  split
  next =>
    split
    next => exact halt_ran _ h
    next =>
      split
      next => exact commit_ran _ (h.to_eq (by simp))
      next => exact h.to_eq (by simp)
  next => exact h.to_eq (by simp)

theorem refetchEffect_ran (h : Ran s t) : Ran s (refetchEffect t) := by
  unfold refetchEffect
  split
  next =>
    split
    next => exact halt_ran _ h
    next =>
      split
      next => exact h.to_eq (by simp)
      next =>
        split
        next => exact endRecord_ran _ _ (h.give _)
        next => exact enterExecuting_ran h
  next => exact h.to_eq (by simp)

/-! ## The colour load, the render engine and the report unit itself -/

theorem loadWord_ran (a : Nat) (w : BusWord) (h : Ran s t) :
    Ran s (loadWord a w t) := by
  unfold loadWord
  split
  next => exact h
  next =>
    split
    next => exact h
    next =>
      split
      next => exact h
      next =>
        split
        next => exact h.to_eq (by simp)
        next =>
          unfold badLoadWord
          dsimp only
          split
          next => exact h.to_eq (by simp)
          next => exact .give _ (h.to_eq (by simp))

theorem endLoad_ran (h : Ran s t) : Ran s (endLoad t) := by
  unfold endLoad
  split
  next => exact h
  next => exact endRecord_ran _ _ (h.to_eq (by simp))

theorem objectFault_ran (id : Fin Config.objectCount) (c : ObjCause) (h : Ran s t) :
    Ran s (objectFault id c t) := by
  unfold objectFault
  split
  next => exact (Moved.give (.objectFault c id) (h.to_eq (by simp))).to_eq (mark_reports _ _)
  next => exact h

theorem objectWord_ran (a : Nat) (w : BusWord) (h : Ran s t) :
    Ran s (objectWord a w t) := by
  unfold objectWord
  split
  next => exact h
  next =>
    split
    next => exact h
    next =>
      split
      next =>
        unfold faultIfShort
        split
        next => exact objectFault_ran _ _ (h.to_eq (by simp))
        next => exact h.to_eq (by simp)
      next => exact objectFault_ran _ _ (.give _ (h.to_eq (by simp)))

theorem FetchDone.reports {r : LineReq} (h : FetchDone r s u) : u.reports = s.reports := by
  cases h <;> simp [applyApp]

theorem TileDone.reports (h : TileDone s u) : u.reports = s.reports := by
  cases h <;> simp [endRecord_reports]

theorem reportStoreEffect_ran (h : Ran s t) : Ran s (reportStoreEffect t) := by
  unfold reportStoreEffect
  split
  next r ov hr _ =>
    refine h.trans (.of_step ?_)
    rw [handReport_reports, handControl_reports, State.setReports_reports]
    exact .done ov hr
  next => exact h

theorem OwnEffect.ran {c : Instr} {o : OwnReq} {effect : State → State}
    (he : OwnEffect s c o effect) : Ran s (effect (s.setMside .free)) := by
  have h : Ran s (s.setMside .free) := .of_eq rfl
  cases he with
  | probe => exact probeEffect_ran _ _ _ h
  | refetch => exact refetchEffect_ran h
  | loadLine r => exact h.to_eq (by simp)
  | loadDone => exact endLoad_ran h
  | objectFetch => exact h.to_eq (objectFetchEffect_done _).reports
  | rowStore => exact h.to_eq (by simp)
  | tile => exact h.to_eq tileEffect_done.reports
  | report => exact reportStoreEffect_ran h
  | control => exact h

/-! ## The controller side -/

theorem latchIndex_ran (v : Nat) (h : Ran s t) : Ran s (latchIndex v t) := by
  unfold latchIndex
  split
  next => exact h
  next r hr =>
    refine h.trans (.of_step ?_)
    rw [handReport_reports, State.setReports_reports]
    exact .latch v hr

theorem offerLatch_ran (x : CTxn) (h : Ran s t) : Ran s (offerLatch x t) := by
  unfold offerLatch
  split
  next => exact h
  next =>
    split
    next => exact h.give _
    next =>
      split
      next => exact latchIndex_ran _ h
      next => exact h

theorem offerCapture_ran (x : CTxn) (h : Ran s t) : Ran s (offerCapture x t) :=
  (h.give? _).to_eq (captureWords_reports ..)

theorem Offered.ran {x : CTxn} (h : Offered x s u) : Ran s u := by
  cases h with
  | none => exact .of_eq rfl
  | capture => exact offerCapture_ran x (.of_eq rfl)
  | latch => exact offerLatch_ran x (.of_eq rfl)

theorem Watched.reported (h : Watched s u) : Reported s u := by
  cases h with
  | reanchored => exact .of_empty (by simp [reanchor, emptyForReanchor])
  | _ => exact .of_eq (by simp)

theorem CEffect.reported {c : Instr} {x : CTxn} {effect : State → State}
    (he : CEffect s x c effect) : Reported s (effect (cDone s)) := by
  obtain ⟨v, ho, hw⟩ := he.offered_watched
  exact (ho.ran.reported.trans hw.reported).from_eq rfl

theorem holdDisplayWord_ran (p : DisplayPlan) (x : CTxn) :
    Ran s (holdDisplayWord p x s) := by
  unfold holdDisplayWord
  split
  next => exact .give? _ (.of_eq (by simp))
  next => exact .of_eq (by simp)

/-! ## Every event -/

theorem endSweep_reports : (endSweep s).reports = ReportUnit.empty := by
  unfold endSweep
  split <;> simp [sweep]

theorem beginBypass_reports : (beginBypass s).reports = ReportUnit.empty := by
  simp [beginBypass, abandonAll]

theorem Effect.reported {c : Instr} (h : Effect s c u) : Reported s u := by
  cases h with
  | @carried _ _ v _ _ hu =>
    have hend : Ran (handStateWord s v) _ := endRecord_ran none (advancedP s) (.of_eq rfl)
    exact (hu.reported.to_eq (by simp)).trans hend.reported
  | refused => exact (endRecord_ran (s := s) _ _ (.of_eq rfl)).reported
  | wrap => exact (endRecord_ran (s := s) _ _ (.of_eq rfl)).reported
  | frame => exact frameStart_ran.reported
  | sweep => exact .of_empty endSweep_reports
  | displayWord => exact (holdDisplayWord_ran _ _).reported
  | drained => exact (drainInto_ran _ _).reported
  | loadWord => exact (loadWord_ran (s := s) _ _ (.of_eq (State.setMside_reports _ _))).reported
  | objectWord => exact (objectWord_ran (s := s) _ _ (.of_eq (State.setMside_reports _ _))).reported
  | own he => exact he.ran.reported
  | cSide he => exact he.reported
  | _ => exact .of_eq (by simp)

theorem Event.reported {c : Instr} (h : Event s c t) : Reported s t := by
  cases h with
  | finished h => exact h.reported.to_eq (by simp)
  | bypassed => exact .of_empty beginBypass_reports
  | joined => exact .of_eq (by simp [cDone])
  | _ => exact .of_eq (by simp)

theorem step_reported (h : step s = .next t) : Reported s t :=
  step_moved (fun _ _ => rfl) Event.reported h

end

/-- A property that each change of the report unit keeps is kept by every command. -/
theorem step_keeps_reports {P : ReportUnit → Prop} (hP : ∀ u v, ReportStep u v → P u → P v)
    {s t : State} (h : step s = .next t) (hs : P s.reports) : P t.reports :=
  (step_reported h).keeps hP hs

/-! ## What the hand-over and an arrival keep -/

section
variable (u : ReportUnit)

/-- The hand-over leaves the ring, the indexes, the attention line and the queue. -/
theorem ReportUnit.hand_frame :
    u.hand.ring = u.ring ∧ u.hand.write = u.write ∧ u.hand.read = u.read
      ∧ u.hand.attention = u.attention ∧ u.hand.queue = u.queue := by
  unfold hand
  split
  next =>
    split
    next => exact ⟨rfl, rfl, rfl, rfl, rfl⟩
    next => split <;> exact ⟨rfl, rfl, rfl, rfl, rfl⟩
  next => exact ⟨rfl, rfl, rfl, rfl, rfl⟩

@[simp] theorem ReportUnit.hand_ring : u.hand.ring = u.ring := u.hand_frame.1
@[simp] theorem ReportUnit.hand_write : u.hand.write = u.write := u.hand_frame.2.1
@[simp] theorem ReportUnit.hand_read : u.hand.read = u.read := u.hand_frame.2.2.1
@[simp] theorem ReportUnit.hand_attention : u.hand.attention = u.attention := u.hand_frame.2.2.2.1
@[simp] theorem ReportUnit.hand_queue : u.hand.queue = u.queue := u.hand_frame.2.2.2.2

/-- An arrival leaves the ring, the indexes, the attention line and the report in hand. -/
theorem ReportUnit.arrive_frame (r : Report) :
    (u.arrive r).ring = u.ring ∧ (u.arrive r).write = u.write ∧ (u.arrive r).read = u.read
      ∧ (u.arrive r).attention = u.attention ∧ (u.arrive r).inHand = u.inHand := by
  unfold arrive
  split
  next => exact ⟨rfl, rfl, rfl, rfl, rfl⟩
  next =>
    split
    next => exact ⟨rfl, rfl, rfl, rfl, rfl⟩
    next => split <;> exact ⟨rfl, rfl, rfl, rfl, rfl⟩

@[simp] theorem ReportUnit.arrive_ring (r : Report) : (u.arrive r).ring = u.ring :=
  (u.arrive_frame r).1
@[simp] theorem ReportUnit.arrive_write (r : Report) : (u.arrive r).write = u.write :=
  (u.arrive_frame r).2.1
@[simp] theorem ReportUnit.arrive_read (r : Report) : (u.arrive r).read = u.read :=
  (u.arrive_frame r).2.2.1
@[simp] theorem ReportUnit.arrive_attention (r : Report) : (u.arrive r).attention = u.attention :=
  (u.arrive_frame r).2.2.2.1
@[simp] theorem ReportUnit.arrive_inHand (r : Report) : (u.arrive r).inHand = u.inHand :=
  (u.arrive_frame r).2.2.2.2

end

/-- A report unit at work keeps its ring. -/
theorem ReportRun.ring {u v : ReportUnit} (h : ReportRun u v) : v.ring = u.ring := by
  cases h <;> simp [ReportUnit.lineDone, ReportUnit.followIndexes]

theorem Ran.ring {s t : State} (h : Ran s t) : t.reports.ring = s.reports.ring :=
  h.keeps (P := fun u => u.ring = s.reports.ring) (fun _ _ hstep hu => hstep.ring.trans hu) rfl

/-! ## The attention line (R168) -/

/-- The attention line follows the comparison of the indexes. -/
def ReportUnit.Follows (u : ReportUnit) : Prop :=
  u.attention = true ↔ (u.ring.isSome = true ∧ u.write ≠ u.read)

theorem ReportUnit.follows_followIndexes (u : ReportUnit) : u.followIndexes.Follows := by
  simp [Follows, followIndexes]

theorem ReportUnit.Follows.hand {u : ReportUnit} (h : u.Follows) : u.hand.Follows := by
  simpa [Follows] using h

theorem ReportUnit.Follows.arrive {u : ReportUnit} (h : u.Follows) (r : Report) :
    (u.arrive r).Follows := by
  simpa [Follows] using h

theorem ReportRun.keeps_follows {u v : ReportUnit} (h : ReportRun u v) (hu : u.Follows) :
    v.Follows := by
  cases h with
  | give r => exact (hu.arrive r).hand
  | done => exact (ReportUnit.follows_followIndexes _).hand
  | latch => exact (ReportUnit.follows_followIndexes _).hand

theorem ReportStep.keeps_follows {u v : ReportUnit} (h : ReportStep u v) (hu : u.Follows) :
    v.Follows := by
  cases h with
  | run h => exact h.keeps_follows hu
  | clear => simp [ReportUnit.Follows, ReportUnit.empty]
  | set => simp [ReportUnit.Follows, ReportUnit.empty]

/-- Settles O53: each change of the report unit either compares the indexes afresh or leaves the line,
the ring and both indexes. -/
theorem attentionLineFollowsIndexes : Obligations.AttentionLineFollowsIndexes :=
  fun _ _ hs h => step_keeps_reports (fun _ _ => ReportStep.keeps_follows) h hs

/-! ## The bounds of the report unit -/

/-- What `ReportsSound` says of the report unit. -/
def ReportUnit.Sound (u : ReportUnit) : Prop :=
  match u.ring with
  | none => u = ReportUnit.empty
  | some r =>
    4 ≤ r.entries ∧ r.entries ≤ 1024 ∧ u.write < r.entries ∧ u.read < r.entries
    ∧ u.queue.length ≤ 8 ∧ u.lost ≤ 65535
    ∧ (u.overflow = false → u.firstLost = 0 ∧ u.lost = 0)
    ∧ (u.inHand = some false → u.queue ≠ [])

theorem ReportUnit.sound_none {u : ReportUnit} (h : u.ring = none) :
    u.Sound ↔ u = ReportUnit.empty := by
  unfold Sound
  rw [h]

/-- With a ring, the bounds on the indexes, the queue and the counts. -/
theorem ReportUnit.sound_some {u : ReportUnit} {r : ReportRing} (h : u.ring = some r) :
    u.Sound ↔ 4 ≤ r.entries ∧ r.entries ≤ 1024 ∧ u.write < r.entries ∧ u.read < r.entries
      ∧ u.queue.length ≤ 8 ∧ u.lost ≤ 65535
      ∧ (u.overflow = false → u.firstLost = 0 ∧ u.lost = 0)
      ∧ (u.inHand = some false → u.queue ≠ []) := by
  unfold Sound
  rw [h]

theorem ReportUnit.Sound.of_bounds {u : ReportUnit} {r : ReportRing} (hr : u.ring = some r)
    (h : 4 ≤ r.entries ∧ r.entries ≤ 1024 ∧ u.write < r.entries ∧ u.read < r.entries
      ∧ u.queue.length ≤ 8 ∧ u.lost ≤ 65535
      ∧ (u.overflow = false → u.firstLost = 0 ∧ u.lost = 0)
      ∧ (u.inHand = some false → u.queue ≠ [])) : u.Sound :=
  (sound_some hr).2 h

theorem ReportUnit.Sound.hand {u : ReportUnit} (h : u.Sound) : u.hand.Sound := by
  unfold ReportUnit.hand
  split
  next hc =>
    obtain ⟨hr, hh, _⟩ := hc
    obtain ⟨r, hr⟩ := Option.isSome_iff_exists.1 hr
    obtain ⟨hlow, hhigh, hw, hrd, hq, hl, ho, -⟩ := (sound_some hr).1 h
    split
    next q rest hqe => exact .of_bounds hr ⟨hlow, hhigh, hw, hrd, hq, hl, ho, by simp [hqe]⟩
    next hqe =>
      split
      next => exact .of_bounds hr ⟨hlow, hhigh, hw, hrd, hq, by simp⟩
      next => exact h
  next => exact h

theorem ReportUnit.Sound.arrive {u : ReportUnit} (h : u.Sound) (r : Report) :
    (u.arrive r).Sound := by
  unfold ReportUnit.arrive
  split
  next => exact h
  next hn =>
    obtain ⟨g, hr⟩ := Option.ne_none_iff_exists'.1 (by simpa using hn)
    obtain ⟨hlow, hhigh, hw, hrd, hq, hl, ho, hi⟩ := (sound_some hr).1 h
    split
    next hov =>
      exact .of_bounds hr ⟨hlow, hhigh, hw, hrd, hq, Nat.min_le_left .., by simp [hov], hi⟩
    next hov =>
      split
      next => exact .of_bounds hr ⟨hlow, hhigh, hw, hrd, hq, by simpa using hi⟩
      next hlen =>
        exact .of_bounds hr
          ⟨hlow, hhigh, hw, hrd, by simp only [List.length_append, List.length_singleton]; omega, hl,
            ho, by simp⟩

theorem ReportRun.keeps_sound {u v : ReportUnit} (h : ReportRun u v) (hu : u.Sound) :
    v.Sound := by
  cases h with
  | give r => exact (hu.arrive r).hand
  | done ov hr =>
    obtain ⟨hlow, hhigh, hw, hrd, hq, hl, ho, -⟩ := (ReportUnit.sound_some hr).1 hu
    have hqueue : (if ov then u.queue else u.queue.tail).length ≤ 8 := by
      split
      · exact hq
      · simp only [List.length_tail]; omega
    exact .hand (.of_bounds hr
      ⟨hlow, hhigh, Nat.mod_lt _ (by omega), hrd, hqueue, hl, ho, fun h => nomatch h⟩)
  | latch x hr =>
    obtain ⟨hlow, hhigh, hw, hrd, hq, hl, ho, hi⟩ := (ReportUnit.sound_some hr).1 hu
    refine .hand (.of_bounds hr ⟨hlow, hhigh, hw, ?_, hq, hl, ho, hi⟩)
    simp only [ReportUnit.followIndexes]
    split <;> omega

theorem ReportStep.keeps_sound {u v : ReportUnit} (h : ReportStep u v) (hu : u.Sound) :
    v.Sound := by
  cases h with
  | run h => exact h.keeps_sound hu
  | clear => exact (ReportUnit.sound_none rfl).2 rfl
  | set r hlow hhigh =>
    have hpos : 0 < r.entries := by omega
    exact .of_bounds rfl ⟨hlow, hhigh, hpos, hpos, by simp [ReportUnit.empty]⟩

theorem step_keeps_reportsSound {s t : State} (h : step s = .next t) (hs : ReportsSound s) :
    ReportsSound t :=
  step_keeps_reports (P := ReportUnit.Sound) (fun _ _ => ReportStep.keeps_sound) h hs

/-! ## The hand-over leaves nothing that may be handed (R164) -/

/-- What `ReportTaken` says of the report unit. -/
def ReportUnit.Taken (u : ReportUnit) : Prop :=
  u.ring.isSome = true → u.inHand = none → u.full = false → u.queue = [] ∧ u.overflow = false

theorem ReportUnit.taken_hand (u : ReportUnit) : u.hand.Taken := by
  unfold hand
  split
  next hc =>
    split
    next => exact fun _ hi => by simp at hi
    next hq =>
      split
      next => exact fun _ hi => by simp at hi
      next ho => exact fun _ _ _ => ⟨hq, by simpa using ho⟩
  next hn => exact fun hr hi hf => absurd ⟨hr, hi, hf⟩ hn

theorem ReportRun.taken {u v : ReportUnit} (h : ReportRun u v) : v.Taken := by
  cases h <;> exact ReportUnit.taken_hand _

theorem ReportStep.taken {u v : ReportUnit} (h : ReportStep u v) : v.Taken := by
  cases h with
  | run h => exact h.taken
  | clear => exact fun h => nomatch h
  | set => exact fun _ _ _ => ⟨rfl, rfl⟩

theorem step_keeps_reportTaken {s t : State} (h : step s = .next t) (hs : ReportTaken s) :
    ReportTaken t :=
  step_keeps_reports (P := ReportUnit.Taken) (fun _ _ hstep _ => hstep.taken) h hs

end Sys2Proof.Machine
end

