-- ==== Sys2Proof/Proofs/Tables.lean ====
section
/-! SUPPORT. The object directory, the composition list and the button table: what a command can do to
each, and what every such change keeps. -/
namespace Sys2Proof.Machine
set_option Elab.async false
open Sys2Proof

/-! ## The tables after each operation that writes them -/

section
variable (s : State)

@[simp] theorem editList_list (id : Fin Config.placementCount) (l : List Placement) :
    (editList id l s).list = l := by
  simp [editList]

@[simp] theorem writeObject_objects (id : Fin Config.objectCount) (e : ObjEntry) :
    (writeObject id e s).objects = s.objects.set id e := by
  simp [writeObject]

@[simp] theorem editButtons_buttons (b : Fin Config.buttonCount) (bt : ButtonTable) :
    (editButtons b bt s).buttons = bt := by
  simp [editButtons]

theorem dropButton_buttons (b : Fin Config.buttonCount) (e : Button) :
    (dropButton b e s).buttons
      = if s.buttons.selection = some b then (s.buttons.put b e).deselect else s.buttons.put b e := by
  unfold dropButton
  split <;> simp

@[simp] theorem moveSelection_buttons (n : Fin Config.buttonCount) :
    (moveSelection n s).buttons = ⟨s.buttons.entries, some n, false, 0, 0⟩ := by
  simp [moveSelection]

@[simp] theorem activate_buttons (n : Fin Config.buttonCount) :
    (activate n s).buttons
      = { s.buttons with activated := true, hold := s.buttons.entries[n].body.holdFrames, phase := 0 } := by
  simp [activate]

@[simp] theorem emptyTables_objects : (emptyTables s).objects = emptyObjects := rfl
@[simp] theorem emptyTables_colours : (emptyTables s).colours = ColourTables.empty := rfl
@[simp] theorem emptyTables_list : (emptyTables s).list = [] := rfl
@[simp] theorem emptyTables_buttons : (emptyTables s).buttons = ButtonTable.empty := rfl

@[simp] theorem sceneReset_objects : (sceneReset s).objects = emptyObjects := by
  simp [sceneReset]
@[simp] theorem sceneReset_colours : (sceneReset s).colours = ColourTables.empty := by
  simp [sceneReset]
@[simp] theorem sceneReset_list : (sceneReset s).list = [] := by
  simp [sceneReset]
@[simp] theorem sceneReset_buttons : (sceneReset s).buttons = ButtonTable.empty := by
  simp [sceneReset]

@[simp] theorem sweep_objects : (sweep s).objects = emptyObjects := by
  simp [sweep]
@[simp] theorem sweep_colours : (sweep s).colours = ColourTables.empty := by
  simp [sweep]
@[simp] theorem sweep_list : (sweep s).list = [] := by
  simp [sweep]
@[simp] theorem sweep_buttons : (sweep s).buttons = ButtonTable.empty := by
  simp [sweep]

@[simp] theorem reanchor_objects (x : Anchor) : (reanchor x s).objects = emptyObjects := by
  simp [reanchor, emptyForReanchor]
@[simp] theorem reanchor_colours (x : Anchor) : (reanchor x s).colours = ColourTables.empty := by
  simp [reanchor, emptyForReanchor]
@[simp] theorem reanchor_list (x : Anchor) : (reanchor x s).list = [] := by
  simp [reanchor, emptyForReanchor]
@[simp] theorem reanchor_buttons (x : Anchor) : (reanchor x s).buttons = ButtonTable.empty := by
  simp [reanchor, emptyForReanchor]

@[simp] theorem endSweep_objects : (endSweep s).objects = emptyObjects := by
  unfold endSweep
  split <;> simp
@[simp] theorem endSweep_colours : (endSweep s).colours = ColourTables.empty := by
  unfold endSweep
  split <;> simp
@[simp] theorem endSweep_list : (endSweep s).list = [] := by
  unfold endSweep
  split <;> simp
@[simp] theorem endSweep_buttons : (endSweep s).buttons = ButtonTable.empty := by
  unfold endSweep
  split <;> simp

theorem objectFault_objects (id : Fin Config.objectCount) (c : ObjCause) :
    (objectFault id c s).objects
      = if s.objects[id].state = .ready then s.objects.set id { s.objects[id] with state := .faulty }
        else s.objects := by
  unfold objectFault
  split <;> simp

end

/-! ## The tables of the scene in an event -/

/-- The object directory, the list and the button table of t are those of s. -/
def SameScene (s t : State) : Prop :=
  t.objects = s.objects ∧ t.list = s.list ∧ t.buttons = s.buttons

theorem finish_sameScene (s : State) : SameScene s (finish s) := ⟨by simp, by simp, by simp⟩

theorem beginBypass_sameScene (s : State) : SameScene s (beginBypass s) :=
  ⟨by simp, by simp, by simp⟩

/-- An event changes a part that rests on the scene tables only as its effect changes it. -/
theorem Event.moved {α : Type} {R : α → α → Prop} {f : State → α} {s t : State} {c : Instr}
    (hf : ∀ u v, SameScene u v → f v = f u) (heff : ∀ c u, Effect s c u → Moved R f s u)
    (hc : ∀ c x effect, CEffect s x c effect → Moved R f s (effect (cDone s)))
    (h : Event s c t) : Moved R f s t := by
  cases h with
  | finished h => exact (heff _ _ h).to_eq (hf _ _ (finish_sameScene _))
  | bypassed h =>
    refine Moved.to_eq ?_ (hf _ _ (beginBypass_sameScene _))
    cases h with
    | atOnce => exact .of_eq (hf _ _ ⟨rfl, rfl, rfl⟩)
    | own => exact .of_eq (hf _ _ ⟨rfl, rfl, rfl⟩)
    | cSide he => exact hc _ _ _ he
  | _ => exact .of_eq (hf _ _ ⟨by simp [cDone], by simp [cDone], by simp [cDone]⟩)

/-! ## What a command can do to the object directory -/

/-- One change of the object directory: an entry is written, a READY object becomes FAULTY, or every
entry becomes UNDEFINED. -/
inductive ObjectStep (v : Vector ObjEntry Config.objectCount) :
    Vector ObjEntry Config.objectCount → Prop where
  | write (id : Fin Config.objectCount) {e : ObjEntry} (he : e.Sound) : ObjectStep v (v.set id e)
  | fault (id : Fin Config.objectCount) (h : v[id].state = .ready) :
    ObjectStep v (v.set id { v[id] with state := .faulty })
  | clear : ObjectStep v emptyObjects

/-- The object directory of t comes from that of s by such changes. -/
abbrev ObjectsMoved (s t : State) : Prop := Moved ObjectStep State.objects s t

theorem objectFields_sound {s : State} {id : Fin Config.objectCount} {e : ObjEntry}
    (h : objectFields s = some (id, e)) : e.Sound := by
  unfold objectFields at h
  split at h
  next =>
    dsimp only at h
    split at h <;> cases h
    next hc =>
      rw [ObjEntry.Sound, if_neg (by simp)]
      dsimp only
      omega
  next => cases h

theorem undef_sound : ObjEntry.undef.Sound := by
  simp [ObjEntry.Sound, ObjEntry.undef]

section
variable {s t u : State}

theorem objectFault_objectsMoved (id : Fin Config.objectCount) (c : ObjCause)
    (h : ObjectsMoved s t) : ObjectsMoved s (objectFault id c t) := by
  have hobj := objectFault_objects t id c
  split at hobj
  next hr => exact h.trans (.of_step (hobj ▸ .fault id hr))
  next => exact h.to_eq hobj

theorem objectWord_objectsMoved (a : Nat) (w : BusWord) (h : ObjectsMoved s t) :
    ObjectsMoved s (objectWord a w t) := by
  unfold objectWord
  split
  next => exact h
  next =>
    split
    next => exact h
    next =>
      split
      next =>
        unfold faultIfShort
        split
        next => exact objectFault_objectsMoved _ _ (h.to_eq (by simp))
        next => exact h.to_eq (by simp)
      next => exact objectFault_objectsMoved _ _ (h.to_eq (by simp))

theorem RecordDone.objectsMoved {k : RecKind} (h : RecordDone s k u) : ObjectsMoved s u := by
  cases h with
  | sceneReset => exact .of_step (by simpa using ObjectStep.clear)
  | defineObject id e hf =>
    exact .of_step (by simpa using ObjectStep.write id (objectFields_sound hf))
  | dropObject id => exact .of_step (by simpa using ObjectStep.write id undef_sound)
  | _ => exact .of_eq (by simp)

theorem FetchDone.objects {r : LineReq} (h : FetchDone r s u) : u.objects = s.objects := by
  cases h <;> simp [applyApp]

theorem TileDone.objects (h : TileDone s u) : u.objects = s.objects := by
  cases h <;> simp

theorem OwnEffect.objects {c : Instr} {o : OwnReq} {effect : State → State}
    (he : OwnEffect s c o effect) : (effect (s.setMside .free)).objects = s.objects := by
  cases he with
  | objectFetch r => exact (objectFetchEffect_done r).objects
  | tile => exact tileEffect_done.objects
  | _ => simp

theorem Offered.objects {x : CTxn} (h : Offered x s u) : u.objects = s.objects := by
  cases h <;> simp

theorem Watched.objectsMoved (h : Watched s u) : ObjectsMoved s u := by
  cases h with
  | reanchored => exact .of_step (by simpa using ObjectStep.clear)
  | _ => exact .of_eq (by simp)

theorem CEffect.objectsMoved {c : Instr} {x : CTxn} {effect : State → State}
    (he : CEffect s x c effect) : ObjectsMoved s (effect (cDone s)) := by
  obtain ⟨v, ho, hw⟩ := he.offered_watched
  exact hw.objectsMoved.from_eq ho.objects

theorem Effect.objectsMoved {c : Instr} (h : Effect s c u) : ObjectsMoved s u := by
  cases h with
  | carried _ _ hu => exact hu.objectsMoved.to_eq (by simp)
  | sweep => exact .of_step (by simpa using ObjectStep.clear)
  | objectWord => exact objectWord_objectsMoved _ _ (.of_eq rfl)
  | own he => exact .of_eq he.objects
  | cSide he => exact he.objectsMoved
  | _ => exact .of_eq (by simp)

theorem Event.objectsMoved {c : Instr} (h : Event s c t) : ObjectsMoved s t :=
  h.moved (fun _ _ h => h.1) (fun _ _ h => h.objectsMoved) fun _ _ _ h => h.objectsMoved

theorem step_objectsMoved (h : step s = .next t) : ObjectsMoved s t :=
  step_moved (fun _ _ => rfl) Event.objectsMoved h

end

/-- Every entry of an object directory is sound. -/
def DirectorySound (v : Vector ObjEntry Config.objectCount) : Prop :=
  ∀ id : Fin Config.objectCount, v[id].Sound

theorem getElem_set_fin {α : Type} {n : Nat} (v : Vector α n) (i j : Fin n) (x : α) :
    (v.set i x)[j] = if i = j then x else v[j] := by
  simp only [Fin.getElem_fin, Vector.getElem_set, Fin.ext_iff]

theorem DirectorySound.set {v : Vector ObjEntry Config.objectCount} (h : DirectorySound v)
    (id : Fin Config.objectCount) {e : ObjEntry} (he : e.Sound) : DirectorySound (v.set id e) := by
  intro j
  rw [getElem_set_fin]
  split
  next => exact he
  next => exact h j

/-- A READY entry that becomes FAULTY keeps its sides. -/
theorem ObjEntry.Sound.faulty {e : ObjEntry} (h : e.Sound) (hr : e.state = .ready) :
    ObjEntry.Sound { e with state := .faulty } := by
  rw [Sound, if_neg (by simp)]
  rwa [Sound, if_neg (by simp [hr])] at h

theorem ObjectStep.keeps_sound {v w : Vector ObjEntry Config.objectCount} (h : ObjectStep v w)
    (hv : DirectorySound v) : DirectorySound w := by
  cases h with
  | write id he => exact hv.set id he
  | fault id hr => exact hv.set id ((hv id).faulty hr)
  | clear => exact fun id => by simpa [emptyObjects] using undef_sound

theorem step_keeps_objectsSound {s t : State} (h : step s = .next t) (hs : ObjectsSound s) :
    ObjectsSound t :=
  (step_objectsMoved h).keeps (P := DirectorySound) (fun _ _ => ObjectStep.keeps_sound) hs

/-! ## What a command can do to the composition list -/

/-- One change of the list: a placement is put in its place, one is changed in fields other than its id
and layer, one is removed, or the list is emptied. -/
inductive ListStep (l : List Placement) : List Placement → Prop where
  | place (p : Placement) : ListStep l (insertPlacement p (removePlacement p.id l))
  | edit (id : Fin Config.placementCount) (f : Placement → Placement)
      (hf : ∀ p, (f p).id = p.id ∧ (f p).layer = p.layer) : ListStep l (editPlacement id f l)
  | remove (id : Fin Config.placementCount) : ListStep l (removePlacement id l)
  | clear : ListStep l []

/-- The list of t comes from that of s by such changes. -/
abbrev ListMoved (s t : State) : Prop := Moved ListStep State.list s t

section
variable {s t u : State}

theorem RecordDone.listMoved {k : RecKind} (h : RecordDone s k u) : ListMoved s u := by
  cases h with
  | sceneReset => exact .of_step (by simpa using ListStep.clear)
  | place p => exact .of_step (by simpa using ListStep.place p)
  | move id x y => exact .of_step (by
      simpa using ListStep.edit id (fun p => { p with x := x, y := y }) fun _ => ⟨rfl, rfl⟩)
  | setOpacity id o => exact .of_step (by
      simpa using ListStep.edit id (fun p => { p with opacity := o }) fun _ => ⟨rfl, rfl⟩)
  | remove id => exact .of_step (by simpa using ListStep.remove id)
  | _ => exact .of_eq (by simp)

theorem TileDone.list (h : TileDone s u) : u.list = s.list := by
  cases h <;> simp

theorem OwnEffect.list {c : Instr} {o : OwnReq} {effect : State → State}
    (he : OwnEffect s c o effect) : (effect (s.setMside .free)).list = s.list := by
  cases he with
  | tile => exact tileEffect_done.list
  | _ => simp

theorem Offered.list {x : CTxn} (h : Offered x s u) : u.list = s.list := by
  cases h <;> simp

theorem Watched.listMoved (h : Watched s u) : ListMoved s u := by
  cases h with
  | reanchored => exact .of_step (by simpa using ListStep.clear)
  | _ => exact .of_eq (by simp)

theorem CEffect.listMoved {c : Instr} {x : CTxn} {effect : State → State}
    (he : CEffect s x c effect) : ListMoved s (effect (cDone s)) := by
  obtain ⟨v, ho, hw⟩ := he.offered_watched
  exact hw.listMoved.from_eq ho.list

theorem Effect.listMoved {c : Instr} (h : Effect s c u) : ListMoved s u := by
  cases h with
  | carried _ _ hu => exact hu.listMoved.to_eq (by simp)
  | sweep => exact .of_step (by simpa using ListStep.clear)
  | own he => exact .of_eq he.list
  | cSide he => exact he.listMoved
  | _ => exact .of_eq (by simp)

theorem Event.listMoved {c : Instr} (h : Event s c t) : ListMoved s t :=
  h.moved (fun _ _ h => h.2.1) (fun _ _ h => h.listMoved) fun _ _ _ h => h.listMoved

theorem step_listMoved (h : step s = .next t) : ListMoved s t :=
  step_moved (fun _ _ => rfl) Event.listMoved h

end

/-! ## The order of the list (R19) -/

theorem placedBefore_iff (p q : Placement) :
    placedBefore p q = true ↔ p.layer < q.layer ∨ (p.layer = q.layer ∧ p.id.val < q.id.val) := by
  simp [placedBefore]

theorem placedBefore_trans {p q r : Placement} (hpq : placedBefore p q = true)
    (hqr : placedBefore q r = true) : placedBefore p r = true := by
  rw [placedBefore_iff] at *
  omega

theorem placedBefore_of_not {p q : Placement} (h : ¬ placedBefore p q = true) (hid : q.id ≠ p.id) :
    placedBefore q p = true := by
  rw [placedBefore_iff] at *
  have hval : q.id.val ≠ p.id.val := fun he => hid (Fin.ext he)
  omega

theorem mem_insertPlacement {p q : Placement} {l : List Placement} :
    q ∈ insertPlacement p l ↔ q = p ∨ q ∈ l := by
  induction l with
  | nil => simp [insertPlacement]
  | cons r rest ih =>
    unfold insertPlacement
    split
    next => simp
    next => simp only [List.mem_cons, ih]; tauto

/-- The list is ordered, and no id stands in it twice. -/
def Ordered (l : List Placement) : Prop :=
  l.Pairwise fun p q => placedBefore p q = true ∧ p.id ≠ q.id

theorem Ordered.insert {p : Placement} {l : List Placement} (h : Ordered l)
    (hid : ∀ q ∈ l, q.id ≠ p.id) : Ordered (insertPlacement p l) := by
  induction l with
  | nil => exact List.pairwise_singleton _ _
  | cons r rest ih =>
    obtain ⟨hr, hrest⟩ := List.pairwise_cons.1 h
    have hrp : r.id ≠ p.id := hid r List.mem_cons_self
    have hidrest : ∀ q ∈ rest, q.id ≠ p.id := fun q hq => hid q (List.mem_cons_of_mem _ hq)
    unfold insertPlacement
    split
    next hb =>
      refine List.pairwise_cons.2 ⟨fun q hq => ?_, h⟩
      rcases List.mem_cons.1 hq with rfl | hq
      · exact ⟨hb, hrp.symm⟩
      · exact ⟨placedBefore_trans hb (hr q hq).1, (hidrest q hq).symm⟩
    next hb =>
      refine List.pairwise_cons.2 ⟨fun q hq => ?_, ih hrest hidrest⟩
      rcases mem_insertPlacement.1 hq with rfl | hq
      · exact ⟨placedBefore_of_not hb hrp, hrp⟩
      · exact hr q hq

theorem Ordered.remove {l : List Placement} (h : Ordered l) (id : Fin Config.placementCount) :
    Ordered (removePlacement id l) := List.Pairwise.filter _ h

theorem mem_removePlacement {id : Fin Config.placementCount} {q : Placement} {l : List Placement} :
    q ∈ removePlacement id l ↔ q ∈ l ∧ q.id ≠ id := by
  simp [removePlacement]

theorem Ordered.place {l : List Placement} (h : Ordered l) (p : Placement) :
    Ordered (insertPlacement p (removePlacement p.id l)) :=
  (h.remove p.id).insert fun _ hq => (mem_removePlacement.1 hq).2

theorem Ordered.edit {l : List Placement} (h : Ordered l) (id : Fin Config.placementCount)
    {f : Placement → Placement} (hf : ∀ p, (f p).id = p.id ∧ (f p).layer = p.layer) :
    Ordered (editPlacement id f l) := by
  have hkey : ∀ p, (if p.id = id then f p else p).id = p.id
      ∧ (if p.id = id then f p else p).layer = p.layer := fun p => by
    split
    · exact hf p
    · exact ⟨rfl, rfl⟩
  refine List.pairwise_map.2 (h.imp fun {p q} hpq => ?_)
  simpa only [placedBefore_iff, hkey] using hpq

theorem ListStep.keeps_ordered {l m : List Placement} (h : ListStep l m) (hl : Ordered l) :
    Ordered m := by
  cases h with
  | place p => exact hl.place p
  | edit id f hf => exact hl.edit id hf
  | remove id => exact hl.remove id
  | clear => exact List.Pairwise.nil

theorem step_keeps_listSound {s t : State} (h : step s = .next t) (hs : ListSound s) :
    ListSound t :=
  (step_listMoved h).keeps (P := Ordered) (fun _ _ => ListStep.keeps_ordered) hs

/-! ## What a command can do to the button table -/

/-- The looks of an entry are those of another, or absent. -/
def Button.LooksFrom (e e' : Button) : Prop :=
  (e'.selectedLook = e.selectedLook ∨ e'.selectedLook = none)
  ∧ (e'.activatedLook = e.activatedLook ∨ e'.activatedLook = none)

/-- One change of the button table. -/
inductive ButtonStep (bt : ButtonTable) : ButtonTable → Prop where
  | define (b : Fin Config.buttonCount) (d : ButtonDef) :
    ButtonStep bt (bt.put b (bt.entries[b].define d))
  | look (b : Fin Config.buttonCount) (act : Bool) (l : Option Look) (hl : ∀ x, l = some x → x.Sound) :
    ButtonStep bt (bt.writeLook b act l)
  | enable (b : Fin Config.buttonCount) :
    ButtonStep bt (bt.put b { bt.entries[b] with enabled := true })
  | drop (b : Fin Config.buttonCount) (e : Button) (he : bt.entries[b].LooksFrom e) :
    ButtonStep bt (if bt.selection = some b then (bt.put b e).deselect else bt.put b e)
  | deselect : ButtonStep bt bt.deselect
  | select (n : Fin Config.buttonCount) (h : bt.selectable n = true) :
    ButtonStep bt ⟨bt.entries, some n, false, 0, 0⟩
  | activate (h : bt.selection.isSome = true) (hold : Nat) :
    ButtonStep bt { bt with activated := true, hold := hold, phase := 0 }
  | settle (h : bt.selection.isSome = true) :
    ButtonStep bt { bt with activated := false, hold := 0, phase := 0 }
  | rects (pl : Plane) : ButtonStep bt { bt with entries := bt.entries.map (Button.takeRect pl) }
  | pulse (h : bt.selection.isSome = true) (hold : Nat) :
    ButtonStep bt { bt with hold := hold, phase := bt.nextPhase }
  | rest (h : bt.selection = none) : ButtonStep bt { bt with phase := 0 }
  | clear : ButtonStep bt ButtonTable.empty

/-- The button table of t comes from that of s by such changes. -/
abbrev ButtonsMoved (s t : State) : Prop := Moved ButtonStep State.buttons s t

theorem lookFields_sound {s : State} {l : Look} (h : lookFields s = some l) : l.Sound := by
  unfold lookFields at h
  split at h <;> cases h
  exact ⟨premultiply_premultiplied _, Nat.min_le_left .., Nat.min_le_left ..⟩

theorem lowestSelectable_selectable {bt : ButtonTable} {n : Fin Config.buttonCount}
    (h : lowestSelectable bt = some n) : bt.selectable n = true := List.find?_some h

theorem walk_selectable {bt : ButtonTable} {k : Key} {start n : Fin Config.buttonCount} {m : Nat}
    {b : Fin Config.buttonCount} (h : walk bt k start m b = some n) : bt.selectable n = true := by
  induction m generalizing b with
  | zero => cases h
  | succ m ih =>
    unfold walk at h
    split at h
    next => cases h
    next q _ =>
      split at h
      next => cases h
      next =>
        split at h
        next hq => cases h; exact hq
        next => exact ih h

section
variable {s t u : State}

theorem dropButton_buttonsMoved (b : Fin Config.buttonCount) {e : Button}
    (he : s.buttons.entries[b].LooksFrom e) : ButtonsMoved s (dropButton b e s) :=
  .of_step (dropButton_buttons s b e ▸ .drop b e he)

theorem moveSelection_buttonsMoved {n : Fin Config.buttonCount} (h : s.buttons.selectable n = true) :
    ButtonsMoved s (moveSelection n s) :=
  .of_step (moveSelection_buttons s n ▸ .select n h)

theorem activate_buttonsMoved (n : Fin Config.buttonCount) (h : s.buttons.selection.isSome = true) :
    ButtonsMoved s (activate n s) :=
  .of_step (activate_buttons s n ▸ .activate h _)

theorem keyDirection_buttonsMoved (k : Key) : ButtonsMoved s (keyDirection k s) := by
  unfold keyDirection
  split
  next =>
    split
    next hn => exact moveSelection_buttonsMoved (lowestSelectable_selectable hn)
    next => exact .of_eq rfl
  next =>
    split
    next => exact .of_eq rfl
    next =>
      split
      next => exact .of_eq rfl
      next n hn =>
        have hmove := moveSelection_buttonsMoved (walk_selectable hn)
        split
        next => exact hmove.trans (activate_buttonsMoved n (by simp))
        next => exact hmove

theorem keyEnter_buttonsMoved : ButtonsMoved s (keyEnter s) := by
  unfold keyEnter
  split
  next => exact .of_eq rfl
  next b hb =>
    split
    next => exact .of_eq rfl
    next => exact activate_buttonsMoved b (by simp [hb])

theorem selectButton_buttonsMoved {n : Fin Config.buttonCount} (h : s.buttons.selectable n = true) :
    ButtonsMoved s (selectButton n s) := by
  unfold selectButton
  split
  next hs =>
    split
    next => exact .of_step (by simpa using ButtonStep.settle (by simp [hs]))
    next => exact .of_eq rfl
  next => exact moveSelection_buttonsMoved h

theorem selectNone_buttonsMoved : ButtonsMoved s (selectNone s) := by
  unfold selectNone
  split
  next => exact .of_step (by simpa using ButtonStep.deselect)
  next => exact .of_eq rfl

theorem RecordDone.buttonsMoved {k : RecKind} (h : RecordDone s k u) : ButtonsMoved s u := by
  cases h with
  | sceneReset => exact .of_step (by simpa using ButtonStep.clear)
  | defineButton b d => exact .of_step (by simpa using ButtonStep.define b d)
  | buttonLook b act => exact .of_step (.look b act _ fun _ => lookFields_sound)
  | enableButton b => exact .of_step (.enable b)
  | disableSelected b => exact dropButton_buttonsMoved b ⟨.inl rfl, .inl rfl⟩
  | disableButton b hs =>
    have hdrop := ButtonStep.drop (bt := s.buttons) b { s.buttons.entries[b] with enabled := false }
      ⟨.inl rfl, .inl rfl⟩
    rw [if_neg hs] at hdrop
    exact .of_step hdrop
  | deleteButton b => exact dropButton_buttonsMoved b ⟨.inr rfl, .inr rfl⟩
  | keyEnter => exact keyEnter_buttonsMoved
  | keyDirection k => exact keyDirection_buttonsMoved k
  | selectNone => exact selectNone_buttonsMoved
  | selectButton n h => exact selectButton_buttonsMoved h
  | _ => exact .of_eq (by simp)

theorem takeRects_buttonsMoved : ButtonsMoved s (takeRects s) := by
  unfold takeRects
  split
  next pl _ => exact .of_step (.rects pl)
  next => exact .of_eq rfl

theorem flip_buttonsMoved : ButtonsMoved s (flip s) :=
  takeRects_buttonsMoved.to_eq (by simp [flip])

theorem holdAndPulse_buttonsMoved : ButtonsMoved s (holdAndPulse s) := by
  unfold holdAndPulse
  split
  next hs => exact .of_step (.rest hs)
  next b hs =>
    have hsome : s.buttons.selection.isSome = true := by simp [hs]
    split
    next => exact .of_step (by simpa using ButtonStep.settle hsome)
    next => exact .of_step (.pulse hsome _)

theorem activeFrame_buttonsMoved : ButtonsMoved s (activeFrame s) := by
  unfold activeFrame
  refine Moved.trans (t := if flipDue s then flip (stepTransition (countFrame s))
    else stepTransition (countFrame s)) ?_ (holdAndPulse_buttonsMoved.from_eq (by simp))
  split
  next => exact flip_buttonsMoved.from_eq (by simp)
  next => exact .of_eq (by simp)

theorem frameStart_buttonsMoved : ButtonsMoved s (frameStart s) := by
  unfold frameStart
  split
  next => exact .of_eq rfl
  next => exact .of_eq rfl
  next => exact .of_eq (by simp)
  next => exact .of_eq (by simp)
  next => exact activeFrame_buttonsMoved

theorem TileDone.buttons (h : TileDone s u) : u.buttons = s.buttons := by
  cases h <;> simp

theorem OwnEffect.buttons {c : Instr} {o : OwnReq} {effect : State → State}
    (he : OwnEffect s c o effect) : (effect (s.setMside .free)).buttons = s.buttons := by
  cases he with
  | tile => exact tileEffect_done.buttons
  | _ => simp

theorem Offered.buttons {x : CTxn} (h : Offered x s u) : u.buttons = s.buttons := by
  cases h <;> simp

theorem Watched.buttonsMoved (h : Watched s u) : ButtonsMoved s u := by
  cases h with
  | reanchored => exact .of_step (by simpa using ButtonStep.clear)
  | _ => exact .of_eq (by simp)

theorem CEffect.buttonsMoved {c : Instr} {x : CTxn} {effect : State → State}
    (he : CEffect s x c effect) : ButtonsMoved s (effect (cDone s)) := by
  obtain ⟨v, ho, hw⟩ := he.offered_watched
  exact hw.buttonsMoved.from_eq ho.buttons

theorem Effect.buttonsMoved {c : Instr} (h : Effect s c u) : ButtonsMoved s u := by
  cases h with
  | carried _ _ hu => exact hu.buttonsMoved.to_eq (by simp)
  | frame => exact frameStart_buttonsMoved
  | sweep => exact .of_step (by simpa using ButtonStep.clear)
  | own he => exact .of_eq he.buttons
  | cSide he => exact he.buttonsMoved
  | _ => exact .of_eq (by simp)

theorem Event.buttonsMoved {c : Instr} (h : Event s c t) : ButtonsMoved s t :=
  h.moved (fun _ _ h => h.2.2) (fun _ _ h => h.buttonsMoved) fun _ _ _ h => h.buttonsMoved

theorem step_buttonsMoved (h : step s = .next t) : ButtonsMoved s t :=
  step_moved (fun _ _ => rfl) Event.buttonsMoved h

end

/-! ## The selection and the phase (R98, R107) -/

/-- The phase is 0, or below the period of the look in use. -/
def ButtonTable.PhaseSound (bt : ButtonTable) : Prop :=
  match lookInUse bt with
  | some l => bt.phase = 0 ∨ bt.phase < l.period
  | none => bt.phase = 0

/-- The selected button may be selected; with no selection nothing is counted. -/
def ButtonTable.SelectionSound (bt : ButtonTable) : Prop :=
  match bt.selection with
  | some b => bt.selectable b = true
  | none => bt.activated = false ∧ bt.hold = 0

section
variable {bt bt' : ButtonTable}

theorem ButtonTable.phaseSound_zero (h : bt.phase = 0) : bt.PhaseSound := by
  unfold PhaseSound
  split
  next => exact .inl h
  next => exact h

theorem ButtonTable.PhaseSound.congr (h : bt.PhaseSound) (hl : lookInUse bt' = lookInUse bt)
    (hp : bt'.phase = bt.phase) : bt'.PhaseSound := by
  unfold PhaseSound at *
  rwa [hl, hp]

theorem ButtonTable.selectionSound_some {b : Fin Config.buttonCount} (hs : bt.selection = some b) :
    bt.SelectionSound ↔ bt.selectable b = true := by
  unfold SelectionSound
  rw [hs]

theorem ButtonTable.selectionSound_none (hs : bt.selection = none) :
    bt.SelectionSound ↔ bt.activated = false ∧ bt.hold = 0 := by
  unfold SelectionSound
  rw [hs]

/-- With a selection, only that a button which may be selected stays so matters. -/
theorem ButtonTable.SelectionSound.mono (h : bt.SelectionSound) (hs : bt'.selection = bt.selection)
    (hsel : ∀ b, bt.selection = some b → bt.selectable b = true → bt'.selectable b = true)
    (hnone : bt.selection = none → bt'.activated = bt.activated ∧ bt'.hold = bt.hold) :
    bt'.SelectionSound := by
  cases hb : bt.selection with
  | some b =>
    exact (selectionSound_some (hs.trans hb)).2 (hsel b hb ((selectionSound_some hb).1 h))
  | none =>
    obtain ⟨ha, hh⟩ := hnone hb
    rw [selectionSound_none (hs.trans hb), ha, hh]
    exact (selectionSound_none hb).1 h

theorem ButtonTable.nextPhase_sound {h : Nat} :
    ButtonTable.PhaseSound { bt with hold := h, phase := bt.nextPhase } := by
  have hl : lookInUse { bt with hold := h, phase := bt.nextPhase } = lookInUse bt := rfl
  unfold PhaseSound ButtonTable.nextPhase
  rw [show lookInUse { bt with hold := h, phase := _ } = lookInUse bt from rfl]
  split
  next l hu =>
    simp only [hu]
    split
    next => exact .inl rfl
    next hp => exact .inr (Nat.mod_lt _ (Nat.pos_of_ne_zero hp))
  next hu => simp only [hu]

theorem ButtonTable.put_entries (b c : Fin Config.buttonCount) (e : Button) :
    (bt.put b e).entries[c] = if b = c then e else bt.entries[c] := getElem_set_fin ..

/-- An entry that keeps its looks and may still be selected can replace another. -/
theorem ButtonTable.put_sound {b : Fin Config.buttonCount} {e : Button} (hsel : bt.SelectionSound)
    (hph : bt.PhaseSound)
    (he : bt.selection = some b → bt.selectable b = true →
      (e.defined = true ∧ e.enabled = true) ∧ e.selectedLook = bt.entries[b].selectedLook
        ∧ e.activatedLook = bt.entries[b].activatedLook) :
    (bt.put b e).SelectionSound ∧ (bt.put b e).PhaseSound := by
  constructor
  · refine hsel.mono rfl (fun c hc hs => ?_) fun _ => ⟨rfl, rfl⟩
    unfold selectable at *
    simp only [put_entries]
    split
    next hbc =>
      subst hbc
      obtain ⟨⟨hd, hen⟩, -⟩ := he hc hs
      simp [hd, hen]
    next => exact hs
  · refine hph.congr ?_ rfl
    unfold lookInUse
    cases hc : bt.selection with
    | none => simp [put, hc]
    | some c =>
      have hcs : (bt.put b e).selection = some c := hc
      have hact : (bt.put b e).activated = bt.activated := rfl
      simp only [hcs, hact, put_entries]
      by_cases hbc : b = c
      · subst hbc
        obtain ⟨-, hsl, hal⟩ := he hc ((selectionSound_some hc).1 hsel)
        rw [if_pos rfl, hsl, hal]
      · rw [if_neg hbc]

theorem ButtonTable.writeLook_sound {b : Fin Config.buttonCount} {act : Bool} {l : Option Look}
    (hsel : bt.SelectionSound) (hph : bt.PhaseSound) :
    (bt.writeLook b act l).SelectionSound ∧ (bt.writeLook b act l).PhaseSound := by
  have hput : (bt.put b (bt.entries[b].setLook act l)).SelectionSound := by
    refine hsel.mono rfl (fun c _ hs => ?_) fun _ => ⟨rfl, rfl⟩
    unfold selectable at *
    simp only [put_entries]
    split
    next hbc => subst hbc; cases act <;> exact hs
    next => exact hs
  unfold writeLook
  dsimp only
  split
  next => exact ⟨hput.mono rfl (fun _ _ => id) fun _ => ⟨rfl, rfl⟩, phaseSound_zero rfl⟩
  next hn =>
    refine ⟨hput, hph.congr ?_ rfl⟩
    unfold lookInUse
    cases hc : bt.selection with
    | none => simp [put, hc]
    | some c =>
      have hcs : (bt.put b (bt.entries[b].setLook act l)).selection = some c := hc
      have hact : (bt.put b (bt.entries[b].setLook act l)).activated = bt.activated := rfl
      simp only [hcs, hact, put_entries]
      by_cases hbc : b = c
      · subst hbc
        have hne : bt.activated ≠ act := fun ha => hn ⟨hc, ha⟩
        rw [if_pos rfl]
        cases ha : bt.activated <;> cases act <;> simp_all [Button.setLook]
      · rw [if_neg hbc]

theorem ButtonTable.takeRects_sound {pl : Plane} (hsel : bt.SelectionSound) (hph : bt.PhaseSound) :
    ButtonTable.SelectionSound { bt with entries := bt.entries.map (Button.takeRect pl) }
      ∧ ButtonTable.PhaseSound { bt with entries := bt.entries.map (Button.takeRect pl) } := by
  constructor
  · exact hsel.mono rfl (fun b _ hb => by simpa [selectable, Button.takeRect] using hb)
      fun _ => ⟨rfl, rfl⟩
  · refine hph.congr ?_ rfl
    unfold lookInUse
    cases bt.selection <;> simp [Button.takeRect]

theorem ButtonStep.keeps_sound (h : ButtonStep bt bt')
    (hs : bt.SelectionSound ∧ bt.PhaseSound) : bt'.SelectionSound ∧ bt'.PhaseSound := by
  obtain ⟨hsel, hph⟩ := hs
  cases h with
  | define b d =>
    refine ButtonTable.put_sound hsel hph fun _ hb => ?_
    obtain ⟨hd, hen⟩ : bt.entries[b].defined = true ∧ bt.entries[b].enabled = true := by
      simpa [ButtonTable.selectable] using hb
    rw [Button.define, if_pos hd]
    exact ⟨⟨hd, hen⟩, rfl, rfl⟩
  | look b act l _ => exact ButtonTable.writeLook_sound hsel hph
  | enable b =>
    refine ButtonTable.put_sound hsel hph fun _ hb => ?_
    obtain ⟨hd, -⟩ : bt.entries[b].defined = true ∧ bt.entries[b].enabled = true := by
      simpa [ButtonTable.selectable] using hb
    exact ⟨⟨hd, rfl⟩, rfl, rfl⟩
  | drop b e he =>
    split
    next => exact ⟨⟨rfl, rfl⟩, ButtonTable.phaseSound_zero rfl⟩
    next hb => exact ButtonTable.put_sound hsel hph fun h => absurd h hb
  | deselect => exact ⟨⟨rfl, rfl⟩, ButtonTable.phaseSound_zero rfl⟩
  | select n hn => exact ⟨(ButtonTable.selectionSound_some rfl).2 hn, ButtonTable.phaseSound_zero rfl⟩
  | activate h hold =>
    exact ⟨hsel.mono rfl (fun _ _ => id) fun hn => by simp [hn] at h, ButtonTable.phaseSound_zero rfl⟩
  | settle h =>
    exact ⟨hsel.mono rfl (fun _ _ => id) fun hn => by simp [hn] at h, ButtonTable.phaseSound_zero rfl⟩
  | rects pl => exact ButtonTable.takeRects_sound hsel hph
  | pulse h hold =>
    exact ⟨hsel.mono rfl (fun _ _ => id) fun hn => by simp [hn] at h, ButtonTable.nextPhase_sound⟩
  | rest hn => exact ⟨hsel.mono rfl (fun _ _ => id) fun _ => ⟨rfl, rfl⟩, ButtonTable.phaseSound_zero rfl⟩
  | clear => exact ⟨⟨rfl, rfl⟩, ButtonTable.phaseSound_zero rfl⟩

end

theorem step_keeps_buttonsSound {s t : State} (h : step s = .next t) (hs : ButtonsSound s) :
    ButtonsSound t :=
  (step_buttonsMoved h).keeps (P := fun bt : ButtonTable => bt.SelectionSound ∧ bt.PhaseSound)
    (fun _ _ => ButtonStep.keeps_sound) hs

/-- Settles O54: each table is moved by its own changes, and each change keeps it sound. -/
theorem stepKeepsTablesSound : Obligations.StepKeepsTablesSound :=
  fun _ _ ho hl hb h =>
    ⟨step_keeps_objectsSound h ho, step_keeps_listSound h hl, step_keeps_buttonsSound h hb⟩

end Sys2Proof.Machine
end

