-- ==== Sys2Proof/Proofs/Planes.lean ====
section
/-! SUPPORT. What each operation that writes the tile map does to the plane, and each that writes the render
engine to its scan pointer. -/
namespace Sys2Proof.Machine
set_option Elab.async false
open Sys2Proof

@[simp] theorem TileMap.setPage_planeSet (m : TileMap) (p : Page) (l : List TileState) :
    (m.setPage p l).planeSet = m.planeSet := by
  cases p <;> rfl

/-- Only the set flag and the fields bear on the plane. -/
@[simp] theorem TileMap.plane_with_tiles (m : TileMap) (a b : List TileState) (w : Bool) :
    TileMap.plane { m with a := a, b := b, flipWanted := w } = m.plane := rfl

@[simp] theorem TileMap.plane_with_flipWanted (m : TileMap) (w : Bool) :
    TileMap.plane { m with flipWanted := w } = m.plane := rfl

section
variable (s : State)

@[simp] theorem mark_plane (rects : List TileRect) : (mark rects s).tiles.plane = s.tiles.plane := by
  unfold mark
  split <;> simp

@[simp] theorem markBeforeAfter_plane (which : Placement → Bool) (before : State) :
    (markBeforeAfter which before s).tiles.plane = s.tiles.plane := mark_plane ..

@[simp] theorem markIndexed_plane (k : Fin Config.tableCount) :
    (markIndexed k s).tiles.plane = s.tiles.plane := mark_plane ..

@[simp] theorem editList_plane (id : Fin Config.placementCount) (l : List Placement) :
    (editList id l s).tiles.plane = s.tiles.plane := by
  simp [editList]

@[simp] theorem writeObject_plane (id : Fin Config.objectCount) (e : ObjEntry) :
    (writeObject id e s).tiles.plane = s.tiles.plane := by
  simp [writeObject]

@[simp] theorem editButtons_plane (b : Fin Config.buttonCount) (bt : ButtonTable) :
    (editButtons b bt s).tiles.plane = s.tiles.plane := by
  simp [editButtons]

@[simp] theorem dropButton_plane (b : Fin Config.buttonCount) (e : Button) :
    (dropButton b e s).tiles.plane = s.tiles.plane := by
  unfold dropButton
  split <;> simp

@[simp] theorem moveSelection_plane (n : Fin Config.buttonCount) :
    (moveSelection n s).tiles.plane = s.tiles.plane := by
  simp [moveSelection]

@[simp] theorem activate_plane (n : Fin Config.buttonCount) :
    (activate n s).tiles.plane = s.tiles.plane := by
  simp [activate]

@[simp] theorem keyDirection_plane (k : Key) : (keyDirection k s).tiles.plane = s.tiles.plane := by
  unfold keyDirection
  (repeat' split) <;> simp

@[simp] theorem keyEnter_plane : (keyEnter s).tiles.plane = s.tiles.plane := by
  unfold keyEnter
  (repeat' split) <;> simp

@[simp] theorem selectButton_plane (n : Fin Config.buttonCount) :
    (selectButton n s).tiles.plane = s.tiles.plane := by
  unfold selectButton
  (repeat' split) <;> simp

@[simp] theorem selectNone_plane : (selectNone s).tiles.plane = s.tiles.plane := by
  unfold selectNone
  split <;> simp

@[simp] theorem sceneReset_plane : (sceneReset s).tiles.plane = s.tiles.plane := by
  simp [sceneReset]

@[simp] theorem applyPlane_plane : (applyPlane s).tiles.plane = some (planeOf (planeFields s)) := by
  simp [applyPlane]

@[simp] theorem flip_plane : (flip s).tiles.plane = s.tiles.plane := by
  simp [flip]

@[simp] theorem holdAndPulse_plane : (holdAndPulse s).tiles.plane = s.tiles.plane := by
  unfold holdAndPulse
  split
  next => simp
  next => split <;> simp

@[simp] theorem activeFrame_plane : (activeFrame s).tiles.plane = s.tiles.plane := by
  unfold activeFrame
  dsimp only
  split <;> simp

@[simp] theorem frameStart_plane : (frameStart s).tiles.plane = s.tiles.plane := by
  unfold frameStart
  split <;> simp

@[simp] theorem objectFault_plane (id : Fin Config.objectCount) (c : ObjCause) :
    (objectFault id c s).tiles.plane = s.tiles.plane := by
  unfold objectFault
  split <;> simp

@[simp] theorem objectWord_plane (a : Nat) (w : BusWord) :
    (objectWord a w s).tiles.plane = s.tiles.plane := by
  unfold objectWord faultIfShort
  (repeat' split) <;> simp

@[simp] theorem objectFetchEffect_plane (r : LineReq) :
    (objectFetchEffect r s).tiles.plane = s.tiles.plane := by
  unfold objectFetchEffect applyApp
  (repeat' split) <;> simp

@[simp] theorem completeTile_plane (pl : Plane) (f : Flight) :
    (completeTile pl f s).tiles.plane = s.tiles.plane := by
  simp [completeTile]

@[simp] theorem endLoad_plane : (endLoad s).tiles.plane = s.tiles.plane := by
  unfold endLoad
  split <;> simp

@[simp] theorem takeTile_plane : (takeTile s).tiles.plane = s.tiles.plane := by
  unfold takeTile
  (repeat' split) <;> simp

@[simp] theorem finish_plane : (finish s).tiles.plane = s.tiles.plane := by
  simp [finish]

@[simp] theorem unsetPlane_tiles : (unsetPlane s).tiles = TileMap.empty := rfl
@[simp] theorem unsetPlane_render : (unsetPlane s).render = RenderEngine.idle := rfl

@[simp] theorem sweep_tiles : (sweep s).tiles = TileMap.empty := by simp [sweep]
@[simp] theorem sweep_render : (sweep s).render = RenderEngine.idle := by simp [sweep]

@[simp] theorem endSweep_tiles : (endSweep s).tiles = TileMap.empty := by
  unfold endSweep
  split <;> simp

@[simp] theorem endSweep_render : (endSweep s).render = RenderEngine.idle := by
  unfold endSweep
  split <;> simp

@[simp] theorem reanchor_tiles (x : Anchor) : (reanchor x s).tiles = TileMap.empty := by
  simp [reanchor, emptyForReanchor]

@[simp] theorem reanchor_render (x : Anchor) : (reanchor x s).render = RenderEngine.idle := by
  simp [reanchor, emptyForReanchor]

@[simp] theorem abandonAll_tiles : (abandonAll s).tiles = TileMap.empty := by simp [abandonAll]
@[simp] theorem abandonAll_render : (abandonAll s).render = RenderEngine.idle := by simp [abandonAll]

@[simp] theorem beginBypass_tiles : (beginBypass s).tiles = TileMap.empty := by
  simp [beginBypass]

@[simp] theorem beginBypass_render : (beginBypass s).render = RenderEngine.idle := by
  simp [beginBypass]

end
end Sys2Proof.Machine
end

