-- ==== Sys2Proof/Proofs/Pixels.lean ====
section
/-! SUPPORT. The pixels the render engine has in hand: every step keeps the premultiplied property. -/
namespace Sys2Proof.Machine
set_option Elab.async false
open Sys2Proof

/-- Every pixel has the premultiplied property (R41). -/
def AllPremultiplied (l : List Argb) : Prop := ∀ c ∈ l, c.premultiplied = true

/-- The clear colour and the pixels of the row in hand have the premultiplied property. -/
def RowPixelsSound (s : State) : Prop :=
  (∀ pl, s.tiles.plane = some pl → pl.clear.premultiplied = true)
  ∧ ∀ f, s.render.flight = some f → AllPremultiplied f.pixels

/-- The looks of one entry are sound. -/
def Button.LooksSound (e : Button) : Prop :=
  (∀ l, e.selectedLook = some l → l.Sound) ∧ (∀ l, e.activatedLook = some l → l.Sound)

/-- Every look of a button table is sound. -/
def LooksSound (bt : ButtonTable) : Prop :=
  ∀ b : Fin Config.buttonCount, bt.entries[b].LooksSound

theorem pixelsSound_iff (s : State) : PixelsSound s ↔ RowPixelsSound s ∧ LooksSound s.buttons := by
  simp only [PixelsSound, RowPixelsSound, LooksSound, Button.LooksSound, AllPremultiplied, and_assoc]

/-! ## The looks -/

theorem LooksSound.put {bt : ButtonTable} (h : LooksSound bt) (b : Fin Config.buttonCount)
    {e : Button} (he : e.LooksSound) : LooksSound (bt.put b e) := by
  intro c
  rw [ButtonTable.put_entries]
  split
  next => exact he
  next => exact h c

theorem Button.LooksSound.of_from {e e' : Button} (h : e.LooksSound) (hf : e.LooksFrom e') :
    e'.LooksSound := by
  obtain ⟨hs, ha⟩ := hf
  constructor
  · rcases hs with hs | hs <;> rw [hs]
    · exact h.1
    · exact fun _ hl => nomatch hl
  · rcases ha with ha | ha <;> rw [ha]
    · exact h.2
    · exact fun _ hl => nomatch hl

theorem Button.LooksSound.define {e : Button} (h : e.LooksSound) (d : ButtonDef) :
    (e.define d).LooksSound := by
  unfold Button.define
  split
  next => exact h
  next => exact ⟨(fun _ hl => nomatch hl), (fun _ hl => nomatch hl)⟩

theorem Button.LooksSound.setLook {e : Button} (h : e.LooksSound) (act : Bool) {l : Option Look}
    (hl : ∀ x, l = some x → x.Sound) : (e.setLook act l).LooksSound := by
  cases act
  · exact ⟨hl, h.2⟩
  · exact ⟨h.1, hl⟩

theorem ButtonStep.keeps_looks {bt bt' : ButtonTable} (h : ButtonStep bt bt') (hs : LooksSound bt) :
    LooksSound bt' := by
  cases h with
  | define b d => exact hs.put b ((hs b).define d)
  | look b act l hl =>
    have hput := hs.put b ((hs b).setLook act hl)
    unfold ButtonTable.writeLook
    dsimp only
    split <;> exact hput
  | enable b => exact hs.put b (hs b)
  | drop b e he =>
    have hput := hs.put b ((hs b).of_from he)
    split <;> exact hput
  | rects pl => exact fun b => by simpa [Button.LooksSound, Button.takeRect] using hs b
  | clear =>
    exact fun b => by simp [Button.LooksSound, ButtonTable.empty, Button.empty]
  | _ => exact hs

/-! ## The pixels of a row -/

theorem allPremultiplied_replicate {n : Nat} {c : Argb} (h : c.premultiplied = true) :
    AllPremultiplied (List.replicate n c) := fun d hd => by
  rw [List.eq_of_mem_replicate hd]
  exact h

theorem AllPremultiplied.mapFrom {f : Nat → Argb → Argb}
    (hf : ∀ i c, c.premultiplied = true → (f i c).premultiplied = true) {l : List Argb}
    (h : AllPremultiplied l) (i : Nat) : AllPremultiplied (mapFrom f i l) := by
  induction l generalizing i with
  | nil => exact h
  | cons c rest ih =>
    intro d hd
    rcases List.mem_cons.1 hd with rfl | hd
    · exact hf i c (h c List.mem_cons_self)
    · exact ih (fun e he => h e (List.mem_cons_of_mem _ he)) (i + 1) d hd

/-- A placement laid over the row leaves it premultiplied (R41). -/
theorem AllPremultiplied.applySpan {l : List Argb} (h : AllPremultiplied l) (s : State) (a : App)
    (left : Nat) : AllPremultiplied (applySpan s a left l) :=
  h.mapFrom (fun i c hc => by
    split
    next => exact layOver_premultiplied (sourcePixel_premultiplied _ _) hc
    next => exact hc) 0

section
variable {s t u : State}

theorem RowPixelsSound.congr (h : RowPixelsSound s) (ht : t.tiles.plane = s.tiles.plane)
    (hr : t.render.flight = s.render.flight) : RowPixelsSound t := by
  unfold RowPixelsSound at *
  rwa [ht, hr]

theorem RowPixelsSound.setTiles (h : RowPixelsSound s) {m : TileMap}
    (hm : m.plane = s.tiles.plane) : RowPixelsSound (s.setTiles m) := h.congr hm rfl

/-- With no plane and no tile in flight there is no pixel. -/
theorem rowPixelsSound_none (ht : t.tiles.plane = none) (hr : t.render.flight = none) :
    RowPixelsSound t :=
  ⟨fun _ h => by simp [ht] at h, fun _ h => by simp [hr] at h⟩

theorem RowPixelsSound.setFlight (h : RowPixelsSound s) {f : Flight} (req : RenderReq)
    (hf : AllPremultiplied f.pixels) : RowPixelsSound (setFlight f req s) := by
  refine ⟨by simpa using h.1, fun g hg => ?_⟩
  obtain rfl : f = g := by simpa [Machine.setFlight] using hg
  exact hf

theorem RowPixelsSound.handRowStore (h : RowPixelsSound s) (pl : Plane) {f : Flight} (n : Nat)
    (hf : AllPremultiplied f.pixels) : RowPixelsSound (handRowStore pl f n s) :=
  h.setFlight _ hf

theorem RowPixelsSound.advanceRow (h : RowPixelsSound s) (pl : Plane) {f : Flight}
    (l : List Placement) (hf : AllPremultiplied f.pixels) :
    RowPixelsSound (advanceRow pl f l s) := by
  induction l with
  | nil => exact h.handRowStore pl 0 hf
  | cons p rest ih =>
    unfold Machine.advanceRow
    split
    next => exact h.setFlight _ hf
    next => exact ih

theorem RowPixelsSound.beginRow (h : RowPixelsSound s) {pl : Plane} (hp : s.tiles.plane = some pl)
    (g : Page) (k r : Nat) : RowPixelsSound (beginRow pl g k r s) :=
  h.advanceRow pl _ (allPremultiplied_replicate (h.1 pl hp))

theorem RowPixelsSound.takeTile (h : RowPixelsSound s) : RowPixelsSound (takeTile s) := by
  unfold Machine.takeTile
  split
  next pl hp _ =>
    split
    next =>
      split
      next =>
        exact (h.setTiles (by simp)).beginRow (by simpa using hp) _ _ _
      next => exact h
    next => exact h
  next => exact h

theorem RowPixelsSound.finish (h : RowPixelsSound s) : RowPixelsSound (finish s) :=
  h.takeTile.congr (by simp [Machine.finish]) (by simp [Machine.finish])

/-! ## Every event -/

@[simp] theorem Flight.endApp_pixels (which : App → Bool) (f : Flight) :
    (f.endApp which).pixels = f.pixels := by
  unfold endApp
  split
  next => split <;> rfl
  next => rfl

theorem RowPixelsSound.endApp {which : App → Bool} (h : RowPixelsSound s)
    (ht : t.tiles.plane = s.tiles.plane)
    (hr : t.render.flight = s.render.flight.map (Flight.endApp which)) : RowPixelsSound t := by
  refine ⟨fun pl hp => h.1 pl (ht ▸ hp), fun f hf => ?_⟩
  rw [hr, Option.map_eq_some_iff] at hf
  obtain ⟨g, hg, rfl⟩ := hf
  rw [Flight.endApp_pixels]
  exact h.2 g hg

theorem applyPlane_pixels (h : RowPixelsSound s) : RowPixelsSound (applyPlane s) := by
  refine ⟨fun pl hp => ?_, fun f hf => h.2 f (by simpa [applyPlane] using hf)⟩
  obtain rfl : planeOf (planeFields s) = pl := by simpa using hp
  exact premultiply_premultiplied _

theorem writeObject_pixels (id : Fin Config.objectCount) (e : ObjEntry) (h : RowPixelsSound s) :
    RowPixelsSound (writeObject id e s) :=
  h.endApp (which := fun a => a.obj == id) (by simp) (by simp [writeObject, endAppWhere])

theorem RecordDone.rowPixels {k : RecKind} (hu : RecordDone s k u) (h : RowPixelsSound s) :
    RowPixelsSound u := by
  cases hu with
  | sceneReset => exact h.endApp (by simp) rfl
  | setupPlane => exact applyPlane_pixels h
  | defineObject id e => exact writeObject_pixels id e h
  | dropObject id => exact writeObject_pixels id _ h
  | _ => exact h.congr (by simp) (by simp)

theorem giveReport_pixels (r : Report) (h : RowPixelsSound s) : RowPixelsSound (giveReport r s) :=
  h.congr (by simp) (by simp)

theorem objectFault_pixels (id : Fin Config.objectCount) (c : ObjCause) (h : RowPixelsSound s) :
    RowPixelsSound (objectFault id c s) := h.congr (by simp) (by simp)

/-- An application in the place of another leaves the pixels of the row. -/
theorem RowPixelsSound.setApp (h : RowPixelsSound s) {f : Flight} (hf : s.render.flight = some f)
    (a : App) (rest : List Placement) : RowPixelsSound (setApp f a rest s) := by
  refine ⟨by simpa using h.1, fun g hg => ?_⟩
  obtain rfl : { f with phase := .applying a rest } = g := by simpa [Machine.setApp] using hg
  exact h.2 f hf

theorem objectWord_pixels (a : Nat) (w : BusWord) (h : RowPixelsSound s) :
    RowPixelsSound (objectWord a w s) := by
  unfold objectWord
  split
  next => exact h
  next f b rest hc =>
    obtain ⟨hf, _⟩ := currentApp_flight hc
    split
    next => exact h
    next =>
      split
      next =>
        unfold faultIfShort
        split
        next => exact objectFault_pixels _ _ (h.setApp hf _ _)
        next => exact h.setApp hf _ _
      next =>
        exact objectFault_pixels _ _ (giveReport_pixels _ (h.setApp hf _ _))

theorem FetchDone.rowPixels {r : LineReq} (hu : FetchDone r s u) (h : RowPixelsSound s) :
    RowPixelsSound u := by
  cases hu with
  | none => exact h
  | @next f _ _ _ _ hf => exact h.setFlight _ (h.2 f hf)
  | ended hf => exact h.advanceRow _ _ (h.2 _ hf)
  | applied hf => exact h.advanceRow _ _ ((h.2 _ hf).applySpan _ _ _)

theorem completeTile_pixels (pl : Plane) (f : Flight) (h : RowPixelsSound s) :
    RowPixelsSound (completeTile pl f s) :=
  ⟨by simpa using h.1, fun _ hg => by simp [completeTile] at hg⟩

theorem TileDone.rowPixels (hu : TileDone s u) (h : RowPixelsSound s) : RowPixelsSound u := by
  cases hu with
  | none => exact h
  | done => exact completeTile_pixels _ _ h
  | @planeSet f pl =>
    exact (applyPlane_pixels (completeTile_pixels pl f h)).congr (by simp) (by simp)

theorem renderStoreEffect_pixels (h : RowPixelsSound s) : RowPixelsSound (renderStoreEffect s) := by
  unfold renderStoreEffect
  split
  next f n pl hc hp =>
    obtain ⟨hf, _⟩ := currentStore_flight hc
    split
    next => exact h.handRowStore _ _ (h.2 f hf)
    next => exact h.beginRow hp _ _ _
  next => exact h

theorem OwnEffect.rowPixels {c : Instr} {o : OwnReq} {effect : State → State}
    (he : OwnEffect s c o effect) (hs : RowPixelsSound s) :
    RowPixelsSound (effect (s.setMside .free)) := by
  have h : RowPixelsSound (s.setMside .free) := hs.congr rfl rfl
  cases he with
  | objectFetch r => exact (objectFetchEffect_done r).rowPixels h
  | rowStore => exact renderStoreEffect_pixels h
  | tile => exact tileEffect_done.rowPixels h
  | _ => exact h.congr (by simp) (by simp)

theorem Watched.rowPixels (hu : Watched s u) (h : RowPixelsSound s) : RowPixelsSound u := by
  cases hu with
  | reanchored => exact rowPixelsSound_none (by simp) (by simp [RenderEngine.idle])
  | _ => exact h.congr (by simp) (by simp)

theorem CEffect.rowPixels {c : Instr} {x : CTxn} {effect : State → State}
    (he : CEffect s x c effect) (hs : RowPixelsSound s) : RowPixelsSound (effect (cDone s)) := by
  obtain ⟨v, ho, hw⟩ := he.offered_watched
  have hv : RowPixelsSound v := by cases ho <;> exact hs.congr (by simp [cDone]) (by simp [cDone])
  exact hw.rowPixels hv

theorem Effect.rowPixels {c : Instr} (hu : Effect s c u) (h : RowPixelsSound s) :
    RowPixelsSound u := by
  cases hu with
  | carried _ _ hu => exact (hu.rowPixels h).congr (by simp) (by simp)
  | sweep => exact rowPixelsSound_none (by simp) (by simp [RenderEngine.idle])
  | objectWord => exact objectWord_pixels _ _ (h.congr rfl rfl)
  | own he => exact he.rowPixels h
  | cSide he => exact he.rowPixels h
  | _ => exact h.congr (by simp) (by simp)

theorem Event.rowPixels {c : Instr} (he : Event s c t) (h : RowPixelsSound s) :
    RowPixelsSound t := by
  cases he with
  | finished hu => exact (hu.rowPixels h).finish
  | bypassed => exact rowPixelsSound_none (by simp) (by simp [RenderEngine.idle])
  | _ => exact h.congr (by simp [cDone]) (by simp [cDone])

theorem step_keeps_rowPixels (h : step s = .next t) (hs : RowPixelsSound s) : RowPixelsSound t := by
  rcases step_cases h with rfl | ⟨c, rest, he⟩
  · exact hs
  · exact he.rowPixels (hs.congr rfl rfl)

end

/-- Settles O57: the pixels of a row begin at the clear colour and take source pixels by the over
operation, and a look is written with its tint premultiplied. -/
theorem stepKeepsPixelsPremultiplied : Obligations.StepKeepsPixelsPremultiplied := by
  intro s t hs h
  rw [pixelsSound_iff] at *
  obtain ⟨hrow, hlooks⟩ := hs
  exact ⟨step_keeps_rowPixels h hrow,
    (step_buttonsMoved h).keeps (fun _ _ => ButtonStep.keeps_looks) hlooks⟩

end Sys2Proof.Machine
end

