-- ==== Sys2Proof/Proofs/Intake.lean ====
section
/-! SUPPORT. The intake: what a command can do to one that has a ring, and to one that has none. -/
namespace Sys2Proof.Machine
set_option Elab.async false
open Sys2Proof

/-! ## What the intake's own work keeps -/

/-- The intake looks for a record, fetches one, or has one that is ready to be carried out. -/
def IntakeState.searching : IntakeState → Bool
  | .probing | .waiting | .fetching _ | .executing .ready => true
  | .absent | .halted | .executing .loading | .executing .planeWait => false

/-- The intake is absent just while it has no ring. -/
def Intake.Fits (i : Intake) : Prop := i.state = .absent ↔ i.anchor = none

/-- The intake j has the ring of i, and its state, queue and P are such as i's allow. -/
structure Intake.Holds (i j : Intake) : Prop where
  anchor : j.anchor = i.anchor
  fits : i.Fits → j.Fits
  queue : i.queue.length ≤ 16 → j.queue.length ≤ 16
  index : ∀ x, i.anchor = some x → x.Legal → i.p < 4 * x.lines → j.p < 4 * x.lines

/-- Besides, the state is as it was, with the record's words, or the search goes on. -/
structure Intake.Kept (i j : Intake) : Prop where
  anchor : j.anchor = i.anchor
  state : (j.state = i.state ∧ j.slots = i.slots ∧ j.header = i.header)
    ∨ (i.state.searching = true ∧ j.state.searching = true)
  queue : i.queue.length ≤ 16 → j.queue.length ≤ 16
  index : ∀ x, i.anchor = some x → x.Legal → i.p < 4 * x.lines → j.p < 4 * x.lines

theorem IntakeState.searching_absent {i : IntakeState} (h : i.searching = true) : i ≠ .absent := by
  rintro rfl; cases h

theorem IntakeState.searching_halted {i : IntakeState} (h : i.searching = true) : i ≠ .halted := by
  rintro rfl; cases h

theorem IntakeState.searching_loading {i : IntakeState} (h : i.searching = true) :
    i ≠ .executing .loading := by
  rintro rfl; cases h

theorem IntakeState.searching_planeWait {i : IntakeState} (h : i.searching = true) :
    i ≠ .executing .planeWait := by
  rintro rfl; cases h

section
variable {i j k : Intake}

theorem Intake.Kept.holds (h : i.Kept j) : i.Holds j where
  anchor := h.anchor
  fits hi := by
    unfold Fits
    rw [h.anchor]
    rcases h.state with ⟨hs, _, _⟩ | ⟨hs, hs'⟩
    · rw [hs]; exact hi
    · exact ⟨fun hj => absurd hj (IntakeState.searching_absent hs'),
        fun hn => absurd (hi.2 hn) (IntakeState.searching_absent hs)⟩
  queue := h.queue
  index := h.index

theorem Intake.Holds.refl (i : Intake) : i.Holds i := ⟨rfl, id, id, fun _ _ _ => id⟩

theorem Intake.Holds.trans (h : i.Holds j) (h' : j.Holds k) : i.Holds k where
  anchor := h'.anchor.trans h.anchor
  fits hi := h'.fits (h.fits hi)
  queue hi := h'.queue (h.queue hi)
  index x hx hl hp := h'.index x (h.anchor.trans hx) hl (h.index x hx hl hp)

theorem Intake.Kept.refl (i : Intake) : i.Kept i :=
  ⟨rfl, .inl ⟨rfl, rfl, rfl⟩, id, fun _ _ _ => id⟩

theorem Intake.Kept.searching (h : i.Kept j) (hi : i.state.searching = true) :
    j.state.searching = true := by
  rcases h.state with ⟨hs, _, _⟩ | ⟨_, hs⟩
  · rw [hs]; exact hi
  · exact hs

theorem Intake.Kept.searching_of (h : i.Kept j) (hj : j.state.searching = true) :
    i.state.searching = true := by
  rcases h.state with ⟨hs, _, _⟩ | ⟨hs, _⟩
  · rw [← hs]; exact hj
  · exact hs

theorem Intake.Kept.trans (h : i.Kept j) (h' : j.Kept k) : i.Kept k where
  anchor := h'.anchor.trans h.anchor
  state := by
    rcases h'.state with ⟨hs', hsl', hh'⟩ | ⟨hj, hk⟩
    · rcases h.state with ⟨hs, hsl, hh⟩ | ⟨hi, hj⟩
      · exact .inl ⟨hs'.trans hs, hsl'.trans hsl, hh'.trans hh⟩
      · exact .inr ⟨hi, hs' ▸ hj⟩
    · exact .inr ⟨h.searching_of hj, hk⟩
  queue hi := h'.queue (h.queue hi)
  index x hx hl hp := h'.index x (h.anchor.trans hx) hl (h.index x hx hl hp)

/-- A state that is no part of the search is the intake's own still. -/
theorem Intake.Kept.state_of (h : i.Kept j) (hj : j.state.searching = false) :
    j.state = i.state ∧ j.slots = i.slots ∧ j.header = i.header := by
  rcases h.state with hs | ⟨_, hs⟩
  · exact hs
  · rw [hs] at hj; cases hj

theorem Intake.Kept.halted (h : i.Kept j) : j.state = .halted ↔ i.state = .halted := by
  rcases h.state with ⟨hs, _, _⟩ | ⟨hi, hj⟩
  · rw [hs]
  · exact ⟨fun e => absurd e (IntakeState.searching_halted hj),
      fun e => absurd e (IntakeState.searching_halted hi)⟩

theorem Intake.Kept.loading (h : i.Kept j) :
    j.state = .executing .loading ↔ i.state = .executing .loading := by
  rcases h.state with ⟨hs, _, _⟩ | ⟨hi, hj⟩
  · rw [hs]
  · exact ⟨fun e => absurd e (IntakeState.searching_loading hj),
      fun e => absurd e (IntakeState.searching_loading hi)⟩

/-- The next state of a search, with the same ring, P and queue. -/
theorem Intake.Kept.next {st : IntakeState} {sl : Vector (Option Word) Config.slotCount}
    (hi : i.state.searching = true) (hs : st.searching = true) :
    i.Kept { i with state := st, slots := sl } :=
  ⟨rfl, .inr ⟨hi, hs⟩, id, fun _ _ _ => id⟩

end

/-- The intake of t keeps to that of s. -/
def IntakeKept (s t : State) : Prop := s.intake.Kept t.intake

/-- The intake of t holds what that of s holds. -/
def IntakeHolds (s t : State) : Prop := s.intake.Holds t.intake

section
variable {s t u : State}

theorem IntakeKept.of_eq (h : t.intake = s.intake) : IntakeKept s t := by
  rw [IntakeKept, h]
  exact .refl _

theorem IntakeKept.trans (h : IntakeKept s t) (h' : IntakeKept t u) : IntakeKept s u :=
  Intake.Kept.trans h h'

theorem IntakeKept.holds (h : IntakeKept s t) : IntakeHolds s t := Intake.Kept.holds h

theorem IntakeHolds.of_eq (h : t.intake = s.intake) : IntakeHolds s t := (IntakeKept.of_eq h).holds

theorem IntakeHolds.trans (h : IntakeHolds s t) (h' : IntakeHolds t u) : IntakeHolds s u :=
  Intake.Holds.trans h h'

theorem IntakeKept.searching (h : IntakeKept s t) (hs : s.intake.state.searching = true) :
    t.intake.state.searching = true := Intake.Kept.searching h hs

/-- The record in hand is the end of a search. -/
theorem holdsRecord_state {k : RecKind} (h : holdsRecord k s = true) :
    s.intake.state = .executing .ready := by
  simp only [holdsRecord, Bool.and_eq_true, beq_iff_eq] at h
  exact h.1

theorem holdsRecord_searching {k : RecKind} (h : holdsRecord k s = true) :
    s.intake.state.searching = true := by
  rw [holdsRecord_state h]
  rfl

/-- The words of a search may change. -/
theorem slots_kept (sl : Vector (Option Word) Config.slotCount)
    (hs : s.intake.state.searching = true) :
    IntakeKept s (s.setIntake { s.intake with slots := sl }) :=
  ⟨rfl, .inr ⟨hs, hs⟩, id, fun _ _ _ => id⟩

theorem searching_slots (sl : Vector (Option Word) Config.slotCount)
    (hs : s.intake.state.searching = true) :
    (s.setIntake { s.intake with slots := sl }).intake.state.searching = true := hs

/-! ## Fetches and ends -/

theorem handIntake_kept (f : IntakeFetch) : IntakeKept s (handIntake f s) :=
  ⟨rfl, .inl ⟨rfl, rfl, rfl⟩, id, fun _ _ _ => id⟩

theorem handDeferred_kept : IntakeKept s (handDeferred s) := by
  unfold handDeferred
  split
  next => exact handIntake_kept _
  next => exact .of_eq rfl

theorem wantIntake_kept (f : IntakeFetch) : IntakeKept s (wantIntake f s) := by
  unfold wantIntake
  split
  next => exact ⟨rfl, .inl ⟨rfl, rfl, rfl⟩, id, fun _ _ _ => id⟩
  next => exact handIntake_kept f

theorem beginProbe_kept (h : s.intake.state.searching = true) : IntakeKept s (beginProbe s) := by
  unfold beginProbe
  split
  next =>
    have hp : IntakeKept s (s.setIntake { s.intake with state := .probing }) := .next h rfl
    exact hp.trans (wantIntake_kept _)
  next => exact .of_eq rfl

theorem beginRefetch_kept (h : s.intake.state.searching = true) :
    IntakeKept s (beginRefetch s) := by
  unfold beginRefetch
  split
  next =>
    have hp : IntakeKept s (s.setIntake { s.intake with state := .fetching ⟨0, none, none⟩ }) :=
      .next h rfl
    exact hp.trans (wantIntake_kept _)
  next => exact .of_eq rfl

/-- P names a word of a legal ring. -/
def PFits (s : State) (p : Nat) : Prop :=
  ∀ x, s.intake.anchor = some x → x.Legal → p < 4 * x.lines

theorem pFits_zero : PFits s 0 := by
  rintro x _ ⟨hlow, _, _⟩
  omega

theorem pFits_advancedP : PFits s (advancedP s) := by
  intro x hx hl
  have h0 := pFits_zero x hx hl
  unfold advancedP
  rw [hx]
  dsimp only
  split
  next hlt => exact hlt
  next => exact h0

theorem endRecord_kept (c : Option RecCause) {p : Nat} (hs : s.intake.state.searching = true)
    (hp : PFits s p) : IntakeKept s (endRecord c p s) := by
  have hset : IntakeKept s (handControl .scriptIndex (BitVec.ofNat 32 p)
      ((giveReport? (c.map (recordFault s)) s).setIntake
        { (giveReport? (c.map (recordFault s)) s).intake with
          p := p, expected := (giveReport? (c.map (recordFault s)) s).intake.expected + 1,
          queue := [], slots := emptySlots, suspect := false })) := by
    unfold IntakeKept
    rw [handControl_intake, State.setIntake_intake, giveReportOpt_intake]
    exact ⟨rfl, .inr ⟨hs, hs⟩, fun _ => Nat.zero_le _, fun x hx hl _ => hp x hx hl⟩
  exact hset.trans (beginProbe_kept (hset.searching hs))

/-- The end of a record, whatever it waited for. -/
theorem endRecord_holds (c : Option RecCause) {p : Nat} (hp : PFits s p) :
    IntakeHolds s (endRecord c p s) := by
  cases ha : s.intake.anchor with
  | some x =>
    unfold IntakeHolds
    rw [endRecord_intake s ha]
    exact ⟨rfl, fun _ => ⟨(fun h => nomatch h), fun h => absurd (ha.symm.trans h) nofun⟩,
      fun _ => Nat.zero_le _, fun y hy hl _ => hp y hy hl⟩
  | none =>
    have hi : (endRecord c p s).intake
        = { s.intake with
            p := p, expected := s.intake.expected + 1, queue := [], slots := emptySlots,
            suspect := false } := by
      cases c <;> simp [endRecord, beginProbe, giveReport?, ha]
    unfold IntakeHolds
    rw [hi]
    exact ⟨rfl, id, fun _ => Nat.zero_le _, fun y hy hl _ => hp y hy hl⟩

/-- A record in hand that stays in execution. -/
theorem waits_holds {k : RecKind} (h : holdsRecord k s = true) (e : ExecPhase) :
    s.intake.Holds { s.intake with state := .executing e } :=
  ⟨rfl, fun hf => ⟨(fun h => nomatch h), fun hn =>
      absurd (hf.2 hn) (IntakeState.searching_absent (holdsRecord_searching h))⟩,
    id, fun _ _ _ => id⟩

/-- The front entry of the queue is discarded. -/
theorem discard_holds {e : CapEntry} {rest : List CapEntry} (hq : s.intake.queue = e :: rest) :
    s.intake.Holds { s.intake with queue := rest } :=
  ⟨rfl, id, fun h => by rw [hq, List.length_cons] at h; dsimp only; omega, fun _ _ _ => id⟩

/-! ## The commit -/

theorem enterExecuting_kept (hs : s.intake.state.searching = true) :
    IntakeKept s (enterExecuting s) := by
  have hready : IntakeKept s (s.setIntake { s.intake with state := .executing .ready }) :=
    .next hs rfl
  unfold enterExecuting
  split
  next => exact endRecord_kept _ hs pFits_advancedP
  next =>
    split
    next =>
      split
      next => exact hready
      next => exact endRecord_kept _ hs pFits_advancedP
    next => exact hready

theorem commit_kept (h : Word) (hs : s.intake.state.searching = true) :
    IntakeKept s (commit h s) := by
  have hw : IntakeKept s (wake (s.setIntake
      { s.intake with header := h, deferred := none, probeLive := false })) := by
    unfold IntakeKept
    rw [wake_intake, State.setIntake_intake]
    exact ⟨rfl, .inr ⟨hs, hs⟩, id, fun _ _ _ => id⟩
  unfold commit
  dsimp only
  split
  next => exact hw.trans (endRecord_kept _ (hw.searching hs) pFits_zero)
  next =>
    split
    next => exact hw.trans (enterExecuting_kept (hw.searching hs))
    next => exact hw.trans (beginRefetch_kept (hw.searching hs))

theorem commitCheck_kept (hs : s.intake.state.searching = true) : IntakeKept s (commitCheck s) := by
  unfold commitCheck
  split
  next =>
    split
    next => exact commit_kept _ hs
    next => exact .of_eq rfl
  next => exact .of_eq rfl

theorem drainInto_kept (e : CapEntry) {rest : List CapEntry} (hq : s.intake.queue = e :: rest)
    (hs : s.intake.state.searching = true) : IntakeKept s (drainInto e rest s) := by
  have hd : IntakeKept s (s.setIntake
      { s.intake with
        queue := rest,
        slots := match windowSlot s e with
          | some i => s.intake.slots.set i (some e.word)
          | none => s.intake.slots }) := by
    refine ⟨rfl, .inr ⟨hs, hs⟩, fun hlen => ?_, fun _ _ _ => id⟩
    rw [hq, List.length_cons] at hlen
    simp only [State.setIntake_intake]
    omega
  unfold drainInto
  dsimp only
  split
  next => exact hd.trans (commitCheck_kept (hd.searching hs))
  next => exact hd

/-! ## Probes and refetches -/

theorem halt_intake (k : Nat) : (halt k s).intake
    = { s.intake with state := .halted, queue := [], slots := emptySlots, deferred := none,
                      probeLive := false } := by
  simp [halt]

theorem halt_holds (k : Nat) (hs : s.intake.state.searching = true) : IntakeHolds s (halt k s) := by
  unfold IntakeHolds
  rw [halt_intake]
  exact ⟨rfl, fun hf => ⟨(fun h => nomatch h),
      fun hn => absurd (hf.2 hn) (IntakeState.searching_absent hs)⟩,
    fun _ => Nat.zero_le _, fun _ _ _ => id⟩

/-- What the completion of a probe or of a refetch line comes to: the intake halts, or its work goes on. -/
def HaltsOrKeeps (s u : State) : Prop :=
  (s.intake.state.searching = true ∧ ∃ k, u = halt k s) ∨ IntakeKept s u

theorem HaltsOrKeeps.holds (h : HaltsOrKeeps s u) : IntakeHolds s u := by
  rcases h with ⟨hs, k, rfl⟩ | h
  · exact halt_holds k hs
  · exact h.holds

theorem probeEffect_haltsOrKeeps (start : Fin 4) (w0 : BusWord) (ws : List BusWord) :
    HaltsOrKeeps s (probeEffect start w0 ws s) := by
  unfold probeEffect treatProbe
  split
  next hp =>
    have hs : s.intake.state.searching = true := by rw [hp.2]; rfl
    split
    next => exact .inl ⟨hs, _, rfl⟩
    next =>
      refine .inr ?_
      split
      next =>
        exact (slots_kept _ hs).trans (commit_kept _ (searching_slots _ hs))
      next => exact ⟨rfl, .inr ⟨hs, rfl⟩, id, fun _ _ _ => id⟩
  next => exact .inr handDeferred_kept

theorem refetchEffect_haltsOrKeeps : HaltsOrKeeps s (refetchEffect s) := by
  unfold refetchEffect
  split
  next r x hf hx =>
    have hs : s.intake.state.searching = true := by rw [hf]; rfl
    split
    next => exact .inl ⟨hs, _, rfl⟩
    next =>
      refine .inr ?_
      split
      next =>
        have hn : IntakeKept s (s.setIntake
            { s.intake with state := .fetching { r with line := r.line + 1 } }) := .next hs rfl
        exact hn.trans (handIntake_kept _)
      next =>
        split
        next a _ =>
          have hg : IntakeKept s (giveReport (.parity .probe a) s) := .of_eq (by simp)
          refine hg.trans (endRecord_kept _ (hg.searching hs) fun y hy => ?_)
          rw [giveReport_intake] at hy
          exact pFits_advancedP y hy
        next => exact enterExecuting_kept hs
  next => exact .inr handDeferred_kept

theorem refetchWord_kept (r : Refetch) (x : Anchor) (i : Nat) (w : BusWord)
    (hs : s.intake.state.searching = true) : IntakeKept s (refetchWord r x i w s) := by
  unfold refetchWord
  split
  next =>
    split
    next => exact .of_eq rfl
    next => exact .next hs rfl
  next =>
    split
    next =>
      split
      next => exact .next hs rfl
      next => exact .of_eq rfl
    next => exact .of_eq rfl

theorem refetchArrival_kept (req : LineReq) (n : Nat) (w : BusWord) :
    IntakeKept s (refetchArrival req n w s) := by
  unfold refetchArrival
  split
  next hf _ =>
    split
    next => exact .of_eq rfl
    next => exact refetchWord_kept _ _ _ _ (by rw [hf]; rfl)
  next => exact .of_eq rfl

/-! ## Captures -/

/-- A word that finds the queue full is dropped. -/
theorem captureDrop_kept (b : Bool) :
    IntakeKept s
      (if s.intake.state = .waiting then
        (beginProbe (s.setIntake { s.intake with suspect := true }), b)
      else (s.setIntake { s.intake with suspect := true }, b)).1 := by
  have hsus : IntakeKept s (s.setIntake { s.intake with suspect := true }) :=
    ⟨rfl, .inl ⟨rfl, rfl, rfl⟩, id, fun _ _ _ => id⟩
  split
  next hw => exact hsus.trans (beginProbe_kept (hsus.searching (by rw [hw]; rfl)))
  next => exact hsus

theorem captureWord_kept (e : CapEntry) (b : Bool) : IntakeKept s (captureWord e (s, b)).1 := by
  unfold captureWord
  dsimp only
  split
  next => exact .of_eq rfl
  next => exact .of_eq rfl
  all_goals
    split
    next hlen =>
      exact ⟨rfl, .inl ⟨rfl, rfl, rfl⟩,
        fun _ => by simp only [State.setIntake_intake, List.length_append, List.length_singleton]; omega,
        fun _ _ _ => id⟩
    next => simpa [*] using captureDrop_kept (s := s) b

theorem captureFold_kept (l : List CapEntry) (b : Bool) :
    IntakeKept s (l.foldl (fun acc e => captureWord e acc) (s, b)).1 := by
  induction l generalizing s b with
  | nil => exact .of_eq rfl
  | cons e l ih =>
    rw [List.foldl_cons]
    exact (captureWord_kept e b).trans (ih ..)

theorem markLast_length (l : List CapEntry) : (markLast l).length = l.length := by
  induction l using markLast.induct <;> simp_all [markLast]

theorem captureWords_kept (l : List CapEntry) : IntakeKept s (captureWords l s) := by
  have hfold := captureFold_kept (s := s) l false
  unfold captureWords
  dsimp only
  split
  next =>
    refine hfold.trans ⟨rfl, .inl ⟨rfl, rfl, rfl⟩, fun hlen => ?_, fun _ _ _ => id⟩
    simp only [State.setIntake_intake, markLast_length]
    exact hlen
  next => exact hfold

theorem offerCapture_kept (x : CTxn) : IntakeKept s (offerCapture x s) := by
  unfold offerCapture
  exact (IntakeKept.of_eq (by simp)).trans (captureWords_kept _)

theorem Offered.kept {x : CTxn} (h : Offered x s u) : IntakeKept s u := by
  cases h with
  | none => exact .of_eq rfl
  | capture => exact offerCapture_kept x
  | latch => exact .of_eq (by simp)

/-! ## The render engine and the colour load -/

theorem FetchDone.intake {r : LineReq} (h : FetchDone r s u) : u.intake = s.intake := by
  cases h <;> simp

theorem TileDone.holds (h : TileDone s u) : IntakeHolds s u := by
  cases h with
  | none => exact .of_eq rfl
  | done => exact .of_eq (by simp)
  | @planeSet f pl =>
    have he : IntakeHolds (handStateWord (completeTile pl f s) (applyPlane (completeTile pl f s))) _ :=
      endRecord_holds Option.none (p := advancedP (completeTile pl f s)) fun y hy => by
        rw [handStateWord_intake, applyPlane_intake] at hy
        exact pFits_advancedP y hy
    exact (IntakeHolds.of_eq (by simp)).trans he

theorem endLoad_holds : IntakeHolds s (endLoad s) := by
  unfold endLoad
  split
  next => exact .of_eq rfl
  next =>
    refine (IntakeHolds.of_eq ?_).trans (endRecord_holds _ fun y hy => ?_)
    · simp
    · simp only [markIndexed_intake, State.setColours_intake] at hy
      exact pFits_advancedP y hy

theorem OwnEffect.holds {c : Instr} {o : OwnReq} {effect : State → State}
    (he : OwnEffect s c o effect) : IntakeHolds s (effect (s.setMside .free)) := by
  have h : IntakeHolds s (s.setMside .free) := .of_eq rfl
  cases he with
  | probe => exact h.trans (probeEffect_haltsOrKeeps ..).holds
  | refetch => exact h.trans refetchEffect_haltsOrKeeps.holds
  | loadDone => exact h.trans endLoad_holds
  | objectFetch => exact h.trans (.of_eq (objectFetchEffect_done _).intake)
  | tile => exact h.trans tileEffect_done.holds
  | control => exact h
  | _ => exact h.trans (.of_eq (by simp))

theorem RecordDone.intake {k : RecKind} (h : RecordDone s k u) : u.intake = s.intake := by
  cases h <;> simp

theorem carried_kept {k : RecKind} (h : holdsRecord k s = true) (hu : u.intake = s.intake) :
    IntakeKept s (endRecord none (advancedP s) (handStateWord s u)) := by
  have hw : IntakeKept s (handStateWord s u) := .of_eq (by simp [hu])
  refine hw.trans (endRecord_kept _ (hw.searching (holdsRecord_searching h)) fun y hy => ?_)
  rw [handStateWord_intake, hu] at hy
  exact pFits_advancedP y hy

end
end Sys2Proof.Machine
end

