-- ==== Sys2Proof/Proofs/Engine.lean ====
section
/-! SUPPORT. The engine states: in SERVICE with a ring, in SERVICE without one, and in BYPASS. -/
namespace Sys2Proof.Machine
set_option Elab.async false
open Sys2Proof

/-! ## Three kinds of state -/

/-- In SERVICE with a ring. -/
structure Anchored (s : State) : Prop where
  path : s.path = .service
  anchor : s.intake.anchor.isSome = true
  state : s.intake.state ≠ .absent
  engine : s.engine = .active ∨ s.engine = .parked

/-- In SERVICE without a ring, and so without plane and report ring. -/
structure Unanchored (s : State) : Prop where
  path : s.path = .service
  anchor : s.intake.anchor = none
  state : s.intake.state = .absent
  engine : s.engine = .clearing ∨ s.engine = .unanchored
  plane : s.tiles.plane = none
  ring : s.reports.ring = none

/-- In BYPASS, with no own work. -/
structure Bypassed (s : State) : Prop where
  path : s.path = .bypass
  anchor : s.intake.anchor = none
  state : s.intake.state = .absent
  engine : s.engine = .off
  plane : s.tiles.plane = none
  ring : s.reports.ring = none
  waiting : s.waiting = OwnWaiting.empty
  mside : ∀ o n, s.mside ≠ .own o n

section
variable {s t u : State}

theorem Anchored.sound (h : Anchored s) : EngineSound s := by
  obtain ⟨hp, ha, hs, he⟩ := h
  refine ⟨⟨fun _ => he, fun _ => ha⟩, ⟨fun e => absurd e hs, fun e => ?_⟩, fun _ => ha, fun _ => ha,
    ⟨fun e => ?_, fun e => ?_⟩, fun e => ?_⟩
  · rw [e] at ha; cases ha
  · rw [hp] at e; cases e
  · rcases he with he | he <;> rw [he] at e <;> cases e
  · rw [hp] at e; cases e

theorem Unanchored.sound (h : Unanchored s) : EngineSound s := by
  obtain ⟨hp, ha, hs, he, hpl, hr⟩ := h
  refine ⟨?_, by simp [hs, ha], by simp [hpl], by simp [hr], ?_, by simp [hp]⟩
  · rcases he with he | he <;> simp [ha, he]
  · rcases he with he | he <;> simp [hp, he]

theorem Bypassed.sound (h : Bypassed s) : EngineSound s := by
  obtain ⟨hp, ha, hs, he, hpl, hr, hw, hm⟩ := h
  exact ⟨by simp [ha, he], by simp [hs, ha], by simp [hpl], by simp [hr], by simp [hp, he],
    fun _ => ⟨hw, hm⟩⟩

/-- A sound state is of one of the three kinds. -/
theorem EngineSound.kind (h : EngineSound s) : Anchored s ∨ Unanchored s ∨ Bypassed s := by
  obtain ⟨ha, hs, hpl, hr, hp, hby⟩ := h
  cases hanchor : s.intake.anchor with
  | some x =>
    have he := ha.1 (by simp [hanchor])
    refine .inl ⟨?_, by simp [hanchor], fun e => ?_, he⟩
    · cases hpath : s.path with
      | service => rfl
      | bypass => have := hp.1 hpath; rcases he with he | he <;> simp [he] at this
    · exact absurd (hanchor.symm.trans (hs.1 e)) nofun
  | none =>
    have hplane : s.tiles.plane = none := by simpa [hanchor] using hpl
    have hring : s.reports.ring = none := by simpa [hanchor] using hr
    have hstate := hs.2 hanchor
    refine .inr ?_
    cases hpath : s.path with
    | bypass =>
      obtain ⟨hw, hm⟩ := hby hpath
      exact .inr ⟨hpath, hanchor, hstate, hp.1 hpath, hplane, hring, hw, hm⟩
    | service =>
      refine .inl ⟨hpath, hanchor, hstate, ?_, hplane, hring⟩
      cases he : s.engine with
      | off => rw [hp.2 he] at hpath; cases hpath
      | clearing => exact .inl rfl
      | unanchored => exact .inr rfl
      | active => rw [hanchor] at ha; exact absurd (ha.2 (.inl he)) (by simp)
      | parked => rw [hanchor] at ha; exact absurd (ha.2 (.inr he)) (by simp)

/-- A sound state whose intake is not absent has a ring. -/
theorem EngineSound.anchored (h : EngineSound s) (hs : s.intake.state ≠ .absent) : Anchored s := by
  rcases h.kind with h | h | h
  · exact h
  · exact absurd h.state hs
  · exact absurd h.state hs

/-! ## What goes on unchanged -/

/-- What the kind of a state rests on goes on from s to u. -/
structure Continues (s u : State) : Prop where
  path : u.path = s.path
  intake : IntakeHolds s u
  engine : u.engine = s.engine ∨ (s.engine = .parked ∧ u.engine = .active)
    ∨ (s.intake.state ≠ .absent ∧ u.engine = .parked)
  plane : s.intake.state = .absent → s.tiles.plane = none → u.tiles.plane = none
  ring : s.intake.state = .absent → u.reports.ring = s.reports.ring

theorem Continues.anchored (h : Continues s u) (hs : Anchored s) : Anchored u where
  path := h.path.trans hs.path
  anchor := by rw [h.intake.anchor]; exact hs.anchor
  state := by
    have hfit : s.intake.Fits := by
      refine ⟨fun e => absurd e hs.state, fun e => ?_⟩
      rw [Option.eq_none_iff_forall_ne_some] at e
      obtain ⟨x, hx⟩ := Option.isSome_iff_exists.1 hs.anchor
      exact absurd hx (e x)
    intro e
    have hnone := (h.intake.fits hfit).1 e
    rw [h.intake.anchor] at hnone
    have hsome := hs.anchor
    rw [hnone] at hsome
    cases hsome
  engine := by
    rcases h.engine with e | ⟨_, e⟩ | ⟨_, e⟩
    · rw [e]; exact hs.engine
    · exact .inl e
    · exact .inr e

theorem Continues.unanchored (h : Continues s u) (hs : Unanchored s) : Unanchored u where
  path := h.path.trans hs.path
  anchor := by rw [h.intake.anchor]; exact hs.anchor
  state := by
    refine (h.intake.fits ⟨fun _ => hs.anchor, fun _ => hs.state⟩).2 ?_
    rw [h.intake.anchor]
    exact hs.anchor
  engine := by
    rcases h.engine with e | ⟨e, _⟩ | ⟨e, _⟩
    · rw [e]; exact hs.engine
    · rcases hs.engine with he | he <;> rw [e] at he <;> cases he
    · exact absurd hs.state e
  plane := h.plane hs.state hs.plane
  ring := (h.ring hs.state).trans hs.ring

theorem Continues.sound (h : Continues s u) (hs : Anchored s ∨ Unanchored s) :
    Anchored u ∨ Unanchored u :=
  hs.imp h.anchored h.unanchored

/-- An event with a record, a search or a wait at its start. -/
theorem Continues.of_present (ha : s.intake.state ≠ .absent) (hp : u.path = s.path)
    (hi : IntakeHolds s u)
    (he : u.engine = s.engine ∨ (s.engine = .parked ∧ u.engine = .active) ∨ u.engine = .parked) :
    Continues s u :=
  ⟨hp, hi, he.imp_right (.imp_right fun e => ⟨ha, e⟩), fun e => absurd e ha, fun e => absurd e ha⟩

/-- An event that leaves the engine and the plane. -/
theorem Continues.of_kept (hp : u.path = s.path) (hi : IntakeHolds s u) (he : u.engine = s.engine)
    (hpl : u.tiles.plane = s.tiles.plane) (hr : Ran s u) : Continues s u :=
  ⟨hp, hi, .inl he, fun _ e => hpl.trans e, fun _ => hr.ring⟩

/-! ## The engine through each operation -/

theorem wake_engine : (wake s).engine = s.engine ∨ (s.engine = .parked ∧ (wake s).engine = .active) := by
  unfold wake
  split
  next h => exact .inr ⟨h, by simp⟩
  next => exact .inl rfl

theorem commit_engine (h : Word) : (commit h s).engine = s.engine
    ∨ (s.engine = .parked ∧ (commit h s).engine = .active) := by
  have hw : (commit h s).engine
      = (wake (s.setIntake { s.intake with header := h, deferred := none, probeLive := false })).engine := by
    unfold commit
    dsimp only
    split
    · simp
    · split <;> simp
  rw [hw]
  simpa using wake_engine (s := s.setIntake
    { s.intake with header := h, deferred := none, probeLive := false })

theorem commitCheck_engine : (commitCheck s).engine = s.engine
    ∨ (s.engine = .parked ∧ (commitCheck s).engine = .active) := by
  unfold commitCheck
  split
  next =>
    split
    next => exact commit_engine _
    next => exact .inl rfl
  next => exact .inl rfl

theorem drainInto_engine (e : CapEntry) (rest : List CapEntry) :
    (drainInto e rest s).engine = s.engine
      ∨ (s.engine = .parked ∧ (drainInto e rest s).engine = .active) := by
  unfold drainInto
  dsimp only
  split
  next => exact commitCheck_engine
  next => exact .inl rfl

/-- Only a probe that is awaited can wake the engine. -/
theorem probeEffect_engine (start : Fin 4) (w0 : BusWord) (ws : List BusWord) :
    (probeEffect start w0 ws s).engine = s.engine
      ∨ (s.engine = .parked ∧ (probeEffect start w0 ws s).engine = .active) := by
  unfold probeEffect treatProbe
  split
  next =>
    split
    next => exact .inl (by simp)
    next =>
      split
      next => exact commit_engine _
      next => exact .inl rfl
  next => exact .inl (by simp)

theorem RecordDone.engine {k : RecKind} (h : RecordDone s k u) :
    u.engine = s.engine ∨ u.engine = .parked := by
  cases h with
  | park => exact .inr rfl
  | _ => exact .inl (by simp)

theorem RecordDone.path {k : RecKind} (h : RecordDone s k u) : u.path = s.path := by
  cases h <;> simp

theorem TileDone.continues (h : TileDone s u) : Continues s u := by
  refine ⟨by cases h <;> simp, h.holds, .inl (by cases h <;> simp), fun ha hn => ?_, fun _ => ?_⟩
  · cases h with
    | none => exact hn
    | done hf hp => simp [hn] at hp
    | planeSet hf hp => simp [hn] at hp
  · rw [h.reports]

/-- The completion of an own transaction. -/
theorem OwnEffect.continues {c : Instr} {o : OwnReq} {effect : State → State}
    (he : OwnEffect s c o effect) : Continues s (effect (s.setMside .free)) := by
  have hi := he.holds
  have hr := he.ran
  cases he with
  | probe req =>
    refine ⟨by simp, hi, ?_, fun _ hn => by simpa using hn, fun _ => hr.ring⟩
    exact (probeEffect_engine (s := s.setMside .free) ..).imp_right .inl
  | tile =>
    obtain ⟨hp, hi, he, hpl, hr⟩ := (tileEffect_done (s := s.setMside .free)).continues
    exact ⟨hp, hi, he, hpl, hr⟩
  | _ => exact .of_kept (by simp) hi (by simp) (by simp) hr

/-! ## What the anchor watch and the sweep come to -/

/-- The intake right after an attachment. -/
theorem attach_intake (x : Anchor) : (attach x s).intake
    = { Intake.absent with
        anchor := some x, state := .probing,
        deferred :=
          if intakeOutstanding s then some (.probe (lineReqAt (ringAddr x 0))) else none,
        probeLive := !intakeOutstanding s } := by
  simp only [attach, beginProbe, handControl_intake, State.setEngine_intake, State.setIntake_intake]
  rw [wantIntake_intake, intakeOutstanding_congr _ s (by simp) (by simp)]
  cases intakeOutstanding s <;> simp [Intake.absent, IntakeFetch.isProbe]

@[simp] theorem attach_engine (x : Anchor) : (attach x s).engine = .active := by
  simp [attach]

theorem attach_anchored (x : Anchor) (hp : s.path = .service) : Anchored (attach x s) :=
  ⟨by simp [hp], by simp [attach_intake], by simp [attach_intake], .inl (attach_engine x)⟩

theorem reanchor_anchored (x : Anchor) (hp : s.path = .service) : Anchored (reanchor x s) :=
  attach_anchored x (by simpa using hp)

theorem endSweep_sound (hp : s.path = .service) : Anchored (endSweep s) ∨ Unanchored (endSweep s) := by
  unfold endSweep
  split
  next => exact .inl (attach_anchored _ (by simpa using hp))
  next =>
    exact .inr ⟨by simpa using hp, rfl, rfl, .inr rfl, by simp [TileMap.plane, TileMap.empty], rfl⟩

theorem Offered.continues {x : CTxn} (h : Offered x s u) : Continues s u :=
  .of_kept (by cases h <;> simp) h.kept.holds (by cases h <;> simp) (by cases h <;> simp) h.ran

theorem Watched.sound (h : Watched s u) (hs : Anchored s ∨ Unanchored s) :
    Anchored u ∨ Unanchored u := by
  have hp : s.path = .service := hs.elim Anchored.path Unanchored.path
  cases h with
  | none => exact hs
  | @latched y => exact (Continues.of_kept (s := s) (u := s.setLatch (some y)) rfl (.of_eq rfl) rfl rfl (.of_eq rfl)).sound hs
  | attached => exact .inl (attach_anchored _ hp)
  | reanchored => exact .inl (reanchor_anchored _ hp)

theorem CEffect.sound {c : Instr} {x : CTxn} {effect : State → State} (he : CEffect s x c effect)
    (hs : Anchored s ∨ Unanchored s) : Anchored (effect (cDone s)) ∨ Unanchored (effect (cDone s)) := by
  obtain ⟨v, ho, hw⟩ := he.offered_watched
  have hd : Continues s (cDone s) := .of_kept rfl (.of_eq rfl) rfl rfl (.of_eq rfl)
  exact hw.sound (ho.continues.sound (hd.sound hs))

/-! ## How an effect leaves the kind of the state -/

/-- An effect goes on from s in its kind, or it is one of the three that set the kind anew. -/
inductive Continued (s : State) (c : Instr) : State → Prop where
  | goesOn {u : State} (h : Continues s u) (hl : u.latch = s.latch) : Continued s c u
  | released (hp : s.path = .bypass) : Continued s c (enterService (s.setResetLine false))
  | swept (he : s.engine = .clearing) : Continued s c (endSweep s)
  | cSide {x : CTxn} {effect : State → State} (he : CEffect s x c effect) (hp : s.path = .service) :
    Continued s c (effect (cDone s))

theorem RecordDone.latch {k : RecKind} (h : RecordDone s k u) : u.latch = s.latch := by
  cases h <;> simp

theorem TileDone.latch (h : TileDone s u) : u.latch = s.latch := by
  cases h <;> simp

theorem OwnEffect.latch {c : Instr} {o : OwnReq} {effect : State → State}
    (he : OwnEffect s c o effect) : (effect (s.setMside .free)).latch = s.latch := by
  cases he with
  | tile => exact tileEffect_done.latch
  | _ => simp

theorem Effect.continued {c : Instr} (h : Effect s c u) : Continued s c u := by
  cases h with
  | carried _ h hu =>
    refine .goesOn (.of_present ?_ ?_ (carried_kept h hu.intake).holds ?_) (by simp [hu.latch])
    · exact IntakeState.searching_absent (holdsRecord_searching h)
    · simp [hu.path]
    · simpa using hu.engine.imp_right .inr
  | refused _ h =>
    exact .goesOn (.of_kept (by simp) (endRecord_holds _ pFits_advancedP) (by simp) (by simp)
      (endRecord_ran _ _ (.of_eq rfl))) (by simp)
  | wrap =>
    exact .goesOn (.of_kept (by simp) (endRecord_holds _ pFits_zero) (by simp) (by simp)
      (endRecord_ran _ _ (.of_eq rfl))) (by simp)
  | planeWaits h => exact .goesOn (.of_kept (s := s) rfl (waits_holds h _) rfl rfl (.of_eq rfl)) rfl
  | loadBegins h =>
    exact .goesOn (.of_kept (by simp) (waits_holds h _) (by simp) (by simp) (.of_eq (by simp)))
      (by simp)
  | frame =>
    exact .goesOn (.of_kept (by simp) (.of_eq (by simp)) (by simp) (by simp) frameStart_ran)
      (by simp)
  | release _ hp => exact .released hp
  | sweep he => exact .swept he
  | request => exact .goesOn (.of_kept (s := s) rfl (.of_eq rfl) rfl rfl (.of_eq rfl)) rfl
  | displayWord =>
    exact .goesOn (.of_kept (by simp) (.of_eq (by simp)) (by simp) (by simp)
      (holdDisplayWord_ran _ _)) (by simp)
  | drained e rest hq hst =>
    have hsearch : s.intake.state.searching = true := by rcases hst with e | e <;> rw [e] <;> rfl
    exact .goesOn (.of_present (IntakeState.searching_absent hsearch) (by simp)
      (drainInto_kept e hq hsearch).holds ((drainInto_engine e rest).imp_right .inl)) (by simp)
  | discarded e rest _ hq =>
    exact .goesOn (.of_kept (s := s) rfl (discard_holds hq) rfl rfl (.of_eq rfl)) rfl
  | loadWord =>
    exact .goesOn (.of_kept (by simp) (.of_eq (by simp)) (by simp) (by simp)
      (loadWord_ran (s := s) _ _ (.of_eq (State.setMside_reports _ _)))) (by simp)
  | objectWord =>
    exact .goesOn (.of_kept (by simp) (.of_eq (by simp)) (by simp) (by simp)
      (objectWord_ran (s := s) _ _ (.of_eq (State.setMside_reports _ _)))) (by simp)
  | own he => exact .goesOn he.continues he.latch
  | cSide he _ hp => exact .cSide he hp

theorem Effect.keeps_service {c : Instr} (h : Effect s c u) (hs : Anchored s ∨ Unanchored s) :
    Anchored u ∨ Unanchored u := by
  have hp : s.path = .service := hs.elim Anchored.path Unanchored.path
  cases h.continued with
  | goesOn h => exact h.sound hs
  | released hb => rw [hp] at hb; cases hb
  | swept => exact endSweep_sound hp
  | cSide he => exact he.sound hs

/-! ## The grant and the tile taken -/

theorem finish_anchored (h : Anchored s) : Anchored (finish s) :=
  ⟨by simpa using h.path, by simpa using h.anchor, by simpa using h.state, by simpa using h.engine⟩

theorem grant_unanchored (h : Unanchored s) : Unanchored (grant s) :=
  ⟨by simpa using h.path, by simpa using h.anchor, by simpa using h.state, by simpa using h.engine,
    by simpa using h.plane, by simpa using h.ring⟩

theorem takeTile_unset (h : s.tiles.plane = none) : takeTile s = s := by
  simp [takeTile, h]

theorem finish_unanchored (h : Unanchored s) : Unanchored (finish s) := by
  rw [finish, takeTile_unset h.plane]
  exact grant_unanchored h

theorem grant_bypassed (h : Bypassed s) : Bypassed (grant s) := by
  refine ⟨by simpa using h.path, by simpa using h.anchor, by simpa using h.state,
    by simpa using h.engine, by simpa using h.plane, by simpa using h.ring, ?_, ?_⟩
  · rcases grant_cases s with e | ⟨r, p, _, _, e⟩ | ⟨o, left, _, ho, e⟩
    · rw [e]; exact h.waiting
    · rw [e]; simpa using h.waiting
    · rw [h.waiting] at ho; cases ho
  · rcases grant_cases s with e | ⟨r, p, _, _, e⟩ | ⟨o, left, _, ho, e⟩
    · rw [e]; exact h.mside
    · rw [e, accept]
      simp [h.path, carry]
    · rw [h.waiting] at ho; cases ho

theorem finish_bypassed (h : Bypassed s) : Bypassed (finish s) := by
  rw [finish, takeTile_unset h.plane]
  exact grant_bypassed h

theorem finish_service (h : Anchored s ∨ Unanchored s) : EngineSound (finish s) :=
  h.elim (fun h => (finish_anchored h).sound) fun h => (finish_unanchored h).sound

/-! ## In BYPASS -/

theorem enterService_unanchored (ha : s.intake.anchor = none) (hs : s.intake.state = .absent)
    (hpl : s.tiles.plane = none) (hr : s.reports.ring = none) : Unanchored (enterService s) :=
  ⟨rfl, ha, hs, .inl rfl, hpl, hr⟩

theorem leaveBypass_sound (h : Bypassed s) : EngineSound (grant (leaveBypass s)) := by
  unfold leaveBypass
  split
  next => exact (grant_bypassed h).sound
  next =>
    exact (grant_unanchored (enterService_unanchored h.anchor h.state h.plane h.ring)).sound

/-- Work abandoned at a free M-side. -/
theorem abandonAll_bypassed (hm : s.mside = .free) : Bypassed ((abandonAll s).setResetDue false) :=
  ⟨rfl, rfl, rfl, rfl, rfl, rfl, rfl, by simp [abandonAll, unsetPlane, hm]⟩

theorem Watched.mside (h : Watched s u) : u.mside = s.mside := by
  cases h <;> simp

theorem Offered.mside {x : CTxn} (h : Offered x s u) : u.mside = s.mside := by
  cases h <;> simp

theorem BypassFrom.mside {c : Instr} (h : BypassFrom s c u) : u.mside = .free := by
  cases h with
  | atOnce _ _ hm => exact hm
  | own => rfl
  | cSide he =>
    obtain ⟨v, ho, hw⟩ := he.offered_watched
    exact hw.mside.trans ho.mside

theorem BypassFrom.sound {c : Instr} (h : BypassFrom s c u) : EngineSound (beginBypass u) :=
  leaveBypass_sound (abandonAll_bypassed h.mside)

theorem giveReport_unset (r : Report) (h : s.reports.ring = none) : giveReport r s = s := by
  have ha : s.reports.arrive r = s.reports := by simp [ReportUnit.arrive, h]
  have hs : s.setReports s.reports = s := rfl
  rw [giveReport, ha, hs]
  unfold handReport
  rw [h]

theorem holdDisplayWord_unset (p : DisplayPlan) (x : CTxn) (h : s.reports.ring = none) :
    ∃ v, holdDisplayWord p x s = s.setCside v := by
  unfold holdDisplayWord
  split
  next =>
    cases hbad : (displayAnswer (byteOrder s) p x.moved x.second).2 with
    | none =>
      exact ⟨⟨.active x, (displayAnswer (byteOrder s) p x.moved x.second).1⟩,
        by simp [giveReport?, hbad]⟩
    | some a =>
      refine ⟨⟨.active x, (displayAnswer (byteOrder s) p x.moved x.second).1⟩, ?_⟩
      simp only [hbad, Option.map_some, giveReport?]
      exact giveReport_unset _ h
  next => exact ⟨_, rfl⟩

theorem setCside_bypassed (h : Bypassed s) (v : CSide) : Bypassed (s.setCside v) :=
  ⟨h.path, h.anchor, h.state, h.engine, h.plane, h.ring, h.waiting, h.mside⟩

/-- The few effects that can come in BYPASS. -/
theorem Effect.keeps_bypassed {c : Instr} (h : Effect s c u) (hs : Bypassed s) :
    Bypassed u ∨ Unanchored u := by
  have hn : s.intake.state.searching = false := by rw [hs.state]; rfl
  cases h with
  | carried _ h => rw [holdsRecord_searching h] at hn; cases hn
  | refused _ h => rw [holdsRecord_searching h] at hn; cases hn
  | wrap h => rw [holdsRecord_searching h] at hn; cases hn
  | planeWaits h => rw [holdsRecord_searching h] at hn; cases hn
  | loadBegins h => rw [holdsRecord_searching h] at hn; cases hn
  | frame =>
    have hf : frameStart s = s := by simp [frameStart, hs.engine]
    rw [hf]
    exact .inl hs
  | release => exact .inr (enterService_unanchored hs.anchor hs.state hs.plane hs.ring)
  | sweep h => rw [hs.engine] at h; cases h
  | request => exact .inl (setCside_bypassed hs _)
  | displayWord w p x x' =>
    obtain ⟨v, hv⟩ := holdDisplayWord_unset p x' hs.ring
    rw [hv]
    exact .inl (setCside_bypassed hs v)
  | drained _ _ _ h => rcases h with h | h <;> rw [hs.state] at h <;> cases h
  | discarded _ _ _ _ h => rw [hs.state] at h; cases h
  | loadWord _ _ _ h => exact absurd h (hs.mside _ _)
  | objectWord _ _ _ h => exact absurd h (hs.mside _ _)
  | own _ h => exact absurd h (hs.mside _ _)
  | cSide _ _ h => rw [hs.path] at h; cases h

theorem Effect.finish_sound {c : Instr} (h : Effect s c u) (hs : EngineSound s) :
    EngineSound (finish u) := by
  rcases hs.kind with h1 | h1 | h1
  · exact finish_service (h.keeps_service (.inl h1))
  · exact finish_service (h.keeps_service (.inr h1))
  · rcases h.keeps_bypassed h1 with h2 | h2
    · exact (finish_bypassed h2).sound
    · exact (finish_unanchored h2).sound

/-- In BYPASS a path state of SERVICE is out of the question. -/
theorem EngineSound.bypassed (h : EngineSound s) (hp : s.path = .bypass) : Bypassed s := by
  rcases h.kind with h | h | h
  · rw [h.path] at hp; cases hp
  · rw [h.path] at hp; cases hp
  · exact h

/-- What an event changes without an end may leave out all that the engine states rest on. -/
theorem EngineSound.congr (hs : EngineSound s) (hi : IntakeHolds s t) (hp : t.path = s.path)
    (he : t.engine = s.engine) (ht : t.tiles = s.tiles) (hr : t.reports = s.reports)
    (hw : t.waiting = s.waiting) (hm : ∀ o n, t.mside = .own o n → ∃ o' n', s.mside = .own o' n') :
    EngineSound t := by
  obtain ⟨ha, hst, hpl, hring, hpath, hby⟩ := hs
  refine ⟨?_, hi.fits hst, ?_, ?_, by rw [hp, he]; exact hpath, fun e => ?_⟩
  · rw [hi.anchor, he]; exact ha
  · rw [hi.anchor, ht]; exact hpl
  · rw [hi.anchor, hr]; exact hring
  · obtain ⟨hw', hm'⟩ := hby (hp ▸ e)
    refine ⟨hw.trans hw', fun o n h => ?_⟩
    obtain ⟨o', n', h'⟩ := hm o n h
    exact hm' o' n' h'

/-- Every event keeps the engine states sound. -/
theorem Event.engineSound {c : Instr} (h : Event s c t) (hs : EngineSound s) : EngineSound t := by
  cases h with
  | finished h => exact h.finish_sound hs
  | bypassed h => exact h.sound
  | joined _ _ hp =>
    obtain ⟨_, ha, hst, he, hpl, hr, hw, _⟩ := hs.bypassed hp
    exact leaveBypass_sound ⟨hp, ha, hst, he, hpl, hr, hw, nofun⟩
  | assertedAgain => exact hs
  | releasedAgain => exact hs
  | drainedNothing => exact hs
  | firstFetch => exact hs.congr (.of_eq rfl) rfl rfl rfl rfl rfl nofun
  | refetchWord w req n hm =>
    have hi := refetchArrival_kept (s := s.setMside (.own (.intake (.refetch req)) (n + 1))) req n w
    exact hs.congr hi.holds (by simp) (by simp) (by simp) (by simp) (by simp) fun _ _ _ => ⟨_, _, hm⟩
  | drainedAll =>
    exact hs.congr ⟨rfl, id, fun _ => Nat.zero_le _, fun _ _ _ => id⟩ rfl rfl rfl rfl rfl
      fun o n h => ⟨o, n, h⟩
  | _ => exact hs.congr (.of_eq rfl) rfl rfl rfl rfl rfl fun o n h => ⟨o, n, h⟩

theorem Offered.engineSound {x : CTxn} (h : Offered x s u) (hp : s.path = .service)
    (hs : EngineSound s) : EngineSound u := by
  rcases hs.kind with hk | hk | hk
  · exact (h.continues.anchored hk).sound
  · exact (h.continues.unanchored hk).sound
  · rw [hk.path] at hp; cases hp

/-- The completion of a C-side transaction finds the engine states as they were. -/
theorem EngineSound.cDone (hs : EngineSound s) : EngineSound (cDone s) :=
  hs.congr (.of_eq rfl) rfl rfl rfl rfl rfl nofun

theorem EngineSound.setPending (h : EngineSound s) (v : List Instr) : EngineSound (s.setPending v) := h

theorem step_keeps_engineSound (h : step s = .next t) (hs : EngineSound s) : EngineSound t := by
  rcases step_cases h with rfl | ⟨c, rest, hc⟩
  · exact hs
  · exact hc.engineSound (hs.setPending rest)

end
end Sys2Proof.Machine
end

