-- ==== Sys2Proof/Proofs/Units.lean ====
section
/-! SUPPORT. The intake's bounds, page control, the colour load and the counts: what every step keeps. -/
namespace Sys2Proof.Machine
set_option Elab.async false
open Sys2Proof

section
variable {s t u : State}

/-! ## The bounds of the intake -/

theorem IntakeSound.of_holds (h : IntakeSound s) (hi : IntakeHolds s u) (hl : u.latch = s.latch) :
    IntakeSound u := by
  obtain ⟨hq, ha, hlatch⟩ := h
  refine ⟨hi.queue hq, fun x hx => ?_, by rwa [hl]⟩
  rw [hi.anchor] at hx
  obtain ⟨hlegal, hp⟩ := ha x hx
  exact ⟨hlegal, hi.index x hx hlegal hp⟩

theorem IntakeSound.of_absent (hi : u.intake = Intake.absent)
    (hl : ∀ x, u.latch = some x → x.Legal) : IntakeSound u := by
  refine ⟨?_, ?_, hl⟩ <;> rw [hi] <;> simp [Intake.absent]

/-- An attachment to a legal ring begins at its first word. -/
theorem attach_intakeSound {x : Anchor} (hx : x.Legal) (hl : ∀ x, s.latch = some x → x.Legal) :
    IntakeSound (attach x s) := by
  refine ⟨by simp [attach_intake, Intake.absent], fun y hy => ?_, by simpa using hl⟩
  rw [attach_intake] at hy ⊢
  obtain rfl : x = y := by simpa using hy
  have hlow := hx.1
  refine ⟨hx, ?_⟩
  simp only [Intake.absent]
  omega

theorem endSweep_intakeSound (hs : IntakeSound s) : IntakeSound (endSweep s) := by
  unfold endSweep
  split
  next x hx => exact attach_intakeSound (hs.2.2 x hx) (by simp [sweep])
  next => exact .of_absent rfl (by simp [sweep])

theorem Watched.intakeSound (h : Watched s u) (hs : IntakeSound s) : IntakeSound u := by
  obtain ⟨hq, ha, hlatch⟩ := hs
  cases h with
  | none => exact ⟨hq, ha, hlatch⟩
  | latched hy =>
    refine ⟨hq, ha, fun z hz => ?_⟩
    obtain rfl := Option.some.inj hz
    exact hy
  | attached hy => exact attach_intakeSound hy hlatch
  | reanchored hy => exact attach_intakeSound hy (by simpa [emptyForReanchor] using hlatch)

theorem Offered.latch_eq {x : CTxn} (h : Offered x s u) : u.latch = s.latch := by
  cases h <;> simp

theorem CEffect.intakeSound {c : Instr} {x : CTxn} {effect : State → State}
    (he : CEffect s x c effect) (hs : IntakeSound s) : IntakeSound (effect (cDone s)) := by
  obtain ⟨v, ho, hw⟩ := he.offered_watched
  have hd : IntakeSound (cDone s) := hs
  exact hw.intakeSound (hd.of_holds ho.kept.holds ho.latch_eq)

theorem Effect.intakeSound {c : Instr} (h : Effect s c u) (hs : IntakeSound s) : IntakeSound u := by
  cases h.continued with
  | goesOn h hl => exact hs.of_holds h.intake hl
  | released => exact ⟨hs.1, hs.2.1, fun _ h => nomatch h⟩
  | swept => exact endSweep_intakeSound hs
  | cSide he => exact he.intakeSound hs

/-- What is left of the intake when BYPASS begins. -/
theorem beginBypass_intake : (beginBypass s).intake = Intake.absent := by
  unfold beginBypass leaveBypass
  split <;> simp [enterService, abandonAll]

theorem beginBypass_latch : (beginBypass s).latch = none := by
  unfold beginBypass leaveBypass
  split <;> simp [enterService, abandonAll]

theorem Event.intakeSound {c : Instr} (h : Event s c t) (hs : IntakeSound s) : IntakeSound t := by
  cases h with
  | finished h => exact (h.intakeSound hs).of_holds (.of_eq (by simp)) (by simp)
  | bypassed => exact .of_absent beginBypass_intake (by simp [beginBypass_latch])
  | joined =>
    unfold leaveBypass
    split
    next => exact hs.of_holds (.of_eq (by simp [cDone])) (by simp [cDone])
    next =>
      obtain ⟨hq, ha, _⟩ := hs
      exact ⟨by simpa [enterService, cDone] using hq, by simpa [enterService, cDone] using ha,
        by simp [enterService]⟩
  | refetchWord w req n =>
    have hi := refetchArrival_kept (s := s.setMside (.own (.intake (.refetch req)) (n + 1))) req n w
    exact hs.of_holds hi.holds (by simp)
  | drainedAll => exact ⟨Nat.zero_le _, hs.2.1, hs.2.2⟩
  | _ => exact hs

/-! ## Page control -/

/-- What `PageSound` says of page control. -/
def PageControl.Sound (p : PageControl) : Prop :=
  (∀ t, p.pendingShow = some t → t.Legal)
  ∧ ∀ r, p.running = some r → r.spec.Legal ∧
    match r.phase with
    | .settle n => 1 ≤ n ∧ n ≤ r.spec.settle ∧ r.level = 0
    | .ramp k => k < r.spec.len ∧ r.level = 1024 * k / r.spec.len

/-- One change of page control: a record's, the end or a step of the transition, or a flip. -/
inductive PageStep (p : PageControl) : PageControl → Prop where
  | initial : PageStep p PageControl.initial
  | ended (f : Page) : PageStep p { p with front := f, running := none }
  | batch (b : Bool) : PageStep p { p with batchOpen := b }
  | pending (b : Bool) {v : Option TransSpec} (h : ∀ t, v = some t → t.Legal) :
    PageStep p { p with batchOpen := b, pendingShow := v }
  | stepped {r r' : Running} (hr : p.running = some r) (h : r.step = some r') :
    PageStep p { p with running := some r' }
  | flipped : PageStep p
      { p with
        front := p.front.other, running := p.pendingShow.map Running.start, pendingShow := none }

/-- Page control of t comes from that of s by such changes. -/
abbrev PageMoved (s t : State) : Prop := Moved PageStep State.page s t

/-- What a running transition may stand at. -/
def Running.Sound (r : Running) : Prop :=
  r.spec.Legal ∧
    match r.phase with
    | .settle n => 1 ≤ n ∧ n ≤ r.spec.settle ∧ r.level = 0
    | .ramp k => k < r.spec.len ∧ r.level = 1024 * k / r.spec.len

theorem Running.step_sound {r r' : Running} (h : r.step = some r') (hr : r.Sound) : r'.Sound := by
  obtain ⟨hl, hph⟩ := hr
  have hpos : 0 < r.spec.len := hl.1
  unfold Running.step at h
  unfold Running.Sound
  cases hp : r.phase with
  | settle n =>
    rw [hp] at h hph
    obtain ⟨_, hn, _⟩ := hph
    dsimp only at h
    split at h <;> cases h
    next => exact ⟨hl, hpos, by simp⟩
    next => exact ⟨hl, by omega, Nat.le_trans (Nat.sub_le ..) hn, rfl⟩
  | ramp k =>
    rw [hp] at h hph
    dsimp only at h
    split at h <;> cases h
    next hk => exact ⟨hl, by dsimp only; omega, rfl⟩

theorem Running.start_sound {spec : TransSpec} (h : spec.Legal) : (Running.start spec).Sound := by
  refine ⟨h, ?_⟩
  obtain ⟨hlow, _, _⟩ := h
  unfold Running.start
  split
  next n hn =>
    split at hn <;> cases hn
    exact ⟨by omega, Nat.le_refl _, rfl⟩
  next k hk =>
    split at hk <;> cases hk
    exact ⟨hlow, by simp⟩

theorem PageStep.keeps_sound {p q : PageControl} (h : PageStep p q) (hp : p.Sound) : q.Sound := by
  obtain ⟨hpend, hrun⟩ := hp
  cases h with
  | initial => exact ⟨(fun _ h => nomatch h), fun _ h => nomatch h⟩
  | ended => exact ⟨hpend, fun _ h => nomatch h⟩
  | batch => exact ⟨hpend, hrun⟩
  | pending _ hv => exact ⟨hv, hrun⟩
  | stepped hr hstep =>
    refine ⟨hpend, fun r h => ?_⟩
    obtain rfl := Option.some.inj h
    exact Running.step_sound hstep (hrun _ hr)
  | flipped =>
    refine ⟨(fun _ h => nomatch h), fun r h => ?_⟩
    obtain ⟨spec, hspec, rfl⟩ := Option.map_eq_some_iff.1 h
    exact Running.start_sound (hpend spec hspec)

theorem endTransition_page : (endTransition s).page = { s.page with running := none } := by
  unfold endTransition
  split
  next => simp
  next h => rw [← h]

theorem stepTransition_pageMoved : PageMoved s (stepTransition s) := by
  unfold stepTransition
  split
  next => exact .of_eq rfl
  next r hr =>
    split
    next r' hstep => exact .of_step (.stepped hr hstep)
    next => exact .of_step (endTransition_page ▸ .ended s.page.front)

theorem flip_page : (flip s).page
    = { s.page with
        front := s.page.front.other, running := s.page.pendingShow.map Running.start,
        pendingShow := none } := by
  simp [flip]

theorem activeFrame_pageMoved : PageMoved s (activeFrame s) := by
  have hstep : PageMoved s (stepTransition (countFrame s)) :=
    stepTransition_pageMoved.from_eq (by simp)
  unfold activeFrame
  refine Moved.to_eq (t := if flipDue s then flip (stepTransition (countFrame s))
    else stepTransition (countFrame s)) ?_ (by simp)
  split
  next => exact hstep.trans (.of_step (flip_page ▸ .flipped))
  next => exact hstep

theorem frameStart_pageMoved : PageMoved s (frameStart s) := by
  unfold frameStart
  split
  next => exact .of_eq rfl
  next => exact .of_eq rfl
  next => exact .of_eq (by simp)
  next => exact .of_eq (by simp)
  next => exact activeFrame_pageMoved

theorem sceneReset_page :
    (sceneReset s).page = { s.page with batchOpen := false, pendingShow := none } := by
  simp [sceneReset]

theorem RecordDone.pageMoved {k : RecKind} (h : RecordDone s k u) : PageMoved s u := by
  cases h with
  | sceneReset => exact .of_step (by rw [sceneReset_page]; exact .pending false nofun)
  | park => exact .of_step (by simpa [endTransition_page] using PageStep.ended (p := s.page) s.page.front)
  | setupPlane => exact .of_step (by simpa [applyPlane] using PageStep.ended (p := s.page) .a)
  | showRecord v hv => exact .of_step (.pending s.page.batchOpen hv)
  | batchOpen => exact .of_step (.batch true)
  | batchClose => exact .of_step (.batch false)
  | _ => exact .of_eq (by simp)

theorem TileDone.pageMoved (h : TileDone s u) : PageMoved s u := by
  cases h with
  | planeSet => exact .of_step (by simpa [applyPlane] using PageStep.ended (p := s.page) .a)
  | _ => exact .of_eq (by simp)

theorem OwnEffect.pageMoved {c : Instr} {o : OwnReq} {effect : State → State}
    (he : OwnEffect s c o effect) : PageMoved s (effect (s.setMside .free)) := by
  cases he with
  | tile => exact (tileEffect_done (s := s.setMside .free)).pageMoved
  | _ => exact .of_eq (by simp)

theorem endSweep_page : (endSweep s).page = PageControl.initial := by
  unfold endSweep
  split <;> simp [sweep]

theorem reanchor_page (x : Anchor) : (reanchor x s).page = PageControl.initial := by
  simp [reanchor, emptyForReanchor]

theorem Offered.page {x : CTxn} (h : Offered x s u) : u.page = s.page := by
  cases h <;> simp

theorem Watched.pageMoved (h : Watched s u) : PageMoved s u := by
  cases h with
  | reanchored => exact .of_step (reanchor_page _ ▸ .initial)
  | _ => exact .of_eq (by simp)

theorem CEffect.pageMoved {c : Instr} {x : CTxn} {effect : State → State}
    (he : CEffect s x c effect) : PageMoved s (effect (cDone s)) := by
  obtain ⟨v, ho, hw⟩ := he.offered_watched
  exact hw.pageMoved.from_eq ho.page

theorem Effect.pageMoved {c : Instr} (h : Effect s c u) : PageMoved s u := by
  cases h with
  | carried _ _ hu => exact hu.pageMoved.to_eq (by simp)
  | frame => exact frameStart_pageMoved
  | sweep => exact .of_step (endSweep_page ▸ .initial)
  | own he => exact he.pageMoved
  | cSide he => exact he.pageMoved
  | _ => exact .of_eq (by simp [enterService])

theorem beginBypass_page : (beginBypass s).page = { s.page with running := none } := by
  unfold beginBypass leaveBypass
  split <;> simp [enterService, abandonAll]

theorem BypassFrom.pageMoved {c : Instr} (h : BypassFrom s c u) : PageMoved s u := by
  cases h with
  | cSide he => exact he.pageMoved
  | _ => exact .of_eq rfl

theorem Event.pageMoved {c : Instr} (h : Event s c t) : PageMoved s t := by
  cases h with
  | finished h => exact h.pageMoved.to_eq (by simp)
  | @bypassed _ u h => exact h.pageMoved.trans (.of_step (beginBypass_page ▸ .ended u.page.front))
  | joined =>
    refine .of_eq ?_
    unfold leaveBypass
    split <;> simp [cDone, enterService]
  | _ => exact .of_eq (by simp)

theorem step_keeps_pageSound (h : step s = .next t) (hs : PageSound s) : PageSound t :=
  (step_moved (fun _ _ => rfl) Event.pageMoved h).keeps (P := PageControl.Sound)
    (fun _ _ => PageStep.keeps_sound) hs

/-! ## The counts of the arbiter -/

/-- The counts of u are those of s, or in range. -/
structure CountsKept (s u : State) : Prop where
  share : u.share = s.share ∨ u.share ≤ 15
  passover : u.passover = s.passover ∨ u.passover ≤ 15

theorem CountsKept.of_eq (hs : u.share = s.share) (hp : u.passover = s.passover) : CountsKept s u :=
  ⟨.inl hs, .inl hp⟩

theorem CountsKept.sound (h : CountsKept s u) (hs : CountsSound s) : CountsSound u := by
  obtain ⟨hsh, hp⟩ := h
  exact ⟨hsh.elim (fun e => e ▸ hs.1) id, hp.elim (fun e => e ▸ hs.2) id⟩

theorem grant_counts (hs : CountsSound s) : CountsSound (grant s) := by
  refine ⟨by simpa using hs.1, ?_⟩
  unfold grant
  split
  next =>
    split
    next =>
      split
      next => exact Nat.zero_le _
      next => simp only [accept_passover, State.setPassover_passover]; omega
    next => simpa using hs.2
    next => simpa using hs.2
  next => split <;> first | exact Nat.zero_le _ | exact hs.2
  next => split <;> first | exact Nat.zero_le _ | exact hs.2
  all_goals exact hs.2

theorem finish_counts (hs : CountsSound s) : CountsSound (finish s) :=
  grant_counts ((CountsKept.of_eq (by simp) (by simp)).sound hs)

theorem planeFields_share : (planeFields s).share ≤ 15 := by
  have h := bits_lt s.intake.header 3 0
  simp only [planeFields, operand]
  omega

theorem applyPlane_counts : CountsKept s (applyPlane s) :=
  ⟨.inr planeFields_share, .inl rfl⟩

theorem RecordDone.counts {k : RecKind} (h : RecordDone s k u) : CountsKept s u := by
  cases h with
  | setupPlane => exact applyPlane_counts
  | _ => exact .of_eq (by simp) (by simp)

theorem CountsKept.trans (h : CountsKept s t) (h' : CountsKept t u) : CountsKept s u :=
  ⟨h'.share.elim (fun e => by rw [e]; exact h.share) .inr,
    h'.passover.elim (fun e => by rw [e]; exact h.passover) .inr⟩

theorem TileDone.counts (h : TileDone s u) : CountsKept s u := by
  cases h with
  | @planeSet f pl =>
    have hset := applyPlane_counts (s := completeTile pl f s)
    exact (CountsKept.of_eq (by simp) (by simp)).trans
      (hset.trans (.of_eq (by simp) (by simp)))
  | _ => exact .of_eq (by simp) (by simp)

theorem OwnEffect.counts {c : Instr} {o : OwnReq} {effect : State → State}
    (he : OwnEffect s c o effect) : CountsKept s (effect (s.setMside .free)) := by
  have hm : CountsKept s (s.setMside .free) := .of_eq rfl rfl
  cases he with
  | tile => exact hm.trans tileEffect_done.counts
  | _ => exact .of_eq (by simp) (by simp)

theorem Offered.counts {x : CTxn} (h : Offered x s u) : CountsKept s u :=
  .of_eq (by cases h <;> simp) (by cases h <;> simp)

theorem reanchor_counts (x : Anchor) : CountsKept s (reanchor x s) :=
  ⟨.inr (by simp [reanchor, emptyForReanchor]), .inr (by simp [reanchor, emptyForReanchor])⟩

theorem Watched.counts (h : Watched s u) : CountsKept s u := by
  cases h with
  | reanchored => exact reanchor_counts _
  | _ => exact .of_eq (by simp) (by simp)

theorem CEffect.counts {c : Instr} {x : CTxn} {effect : State → State}
    (he : CEffect s x c effect) : CountsKept s (effect (cDone s)) := by
  obtain ⟨v, ho, hw⟩ := he.offered_watched
  exact (CountsKept.of_eq (s := s) (u := cDone s) rfl rfl).trans (ho.counts.trans hw.counts)

theorem enterService_counts : CountsKept s (enterService s) :=
  ⟨.inr (by simp [enterService]), .inr (by simp [enterService])⟩

theorem Effect.counts {c : Instr} (h : Effect s c u) : CountsKept s u := by
  cases h with
  | carried _ _ hu => exact hu.counts.trans (.of_eq (by simp) (by simp))
  | release =>
    exact (CountsKept.of_eq (s := s) (u := s.setResetLine false) rfl rfl).trans enterService_counts
  | own he => exact he.counts
  | cSide he => exact he.counts
  | _ => exact .of_eq (by simp) (by simp)

theorem leaveBypass_counts : CountsKept s (leaveBypass s) := by
  unfold leaveBypass
  split
  next => exact .of_eq rfl rfl
  next => exact enterService_counts

theorem BypassFrom.counts {c : Instr} (h : BypassFrom s c u) : CountsKept s u := by
  cases h with
  | cSide he => exact he.counts
  | _ => exact .of_eq rfl rfl

theorem Event.countsSound {c : Instr} (h : Event s c t) (hs : CountsSound s) : CountsSound t := by
  cases h with
  | finished h => exact finish_counts (h.counts.sound hs)
  | @bypassed _ u h =>
    have ha : CountsKept u ((abandonAll u).setResetDue false) :=
      .of_eq (by simp [abandonAll]) (by simp [abandonAll])
    exact grant_counts ((h.counts.trans (ha.trans leaveBypass_counts)).sound hs)
  | joined => exact grant_counts ((leaveBypass_counts (s := cDone s)).sound hs)
  | _ => exact (CountsKept.of_eq (by simp) (by simp)).sound hs

/-! ## The colour load -/

/-- The table a load is into and the flags of u are those of s. -/
def SameLoad (s u : State) : Prop :=
  u.colours.load.map Load.table = s.colours.load.map Load.table
  ∧ u.colours.inFlight = s.colours.inFlight

theorem SameLoad.of_eq (h : u.colours = s.colours) : SameLoad s u := by
  rw [SameLoad, h]
  exact ⟨rfl, rfl⟩

theorem SameLoad.trans (h : SameLoad s t) (h' : SameLoad t u) : SameLoad s u :=
  ⟨h'.1.trans h.1, h'.2.trans h.2⟩

/-- A load and the state that waits for it go on together. -/
theorem LoadSound.congr (hs : LoadSound s) (hl : SameLoad s u)
    (hst : u.intake.state = .executing .loading ↔ s.intake.state = .executing .loading)
    (he : s.engine = .off ∨ s.engine = .clearing → u.engine = .off ∨ u.engine = .clearing) :
    LoadSound u := by
  obtain ⟨hload, hflags⟩ := hs
  obtain ⟨hmap, hin⟩ := hl
  have hsome : u.colours.load.isSome = s.colours.load.isSome := by
    simpa using congrArg Option.isSome hmap
  refine ⟨by rw [hsome, hst]; exact hload, ?_⟩
  rw [← or_assoc] at hflags ⊢
  exact hflags.imp he fun hk k => by rw [hin, hmap]; exact hk k

/-- With no load and the flags clear. -/
theorem LoadSound.of_idle (hl : u.colours.load = none)
    (hst : u.intake.state ≠ .executing .loading)
    (hf : u.engine = .off ∨ u.engine = .clearing
      ∨ ∀ k : Fin Config.tableCount, u.colours.inFlight[k] = false) : LoadSound u := by
  refine ⟨by simp [hl, hst], hf.imp_right (.imp_right fun h k => ?_)⟩
  rw [h k, hl]
  simp

/-- With a ring the engine is neither OFF nor CLEARING. -/
theorem Anchored.not_idle (h : Anchored s) : ¬ (s.engine = .off ∨ s.engine = .clearing) := by
  rcases h.engine with e | e <;> simp [e]

theorem Continues.engine_idle (h : Continues s u) (hs : EngineSound s)
    (he : s.engine = .off ∨ s.engine = .clearing) : u.engine = s.engine := by
  rcases h.engine with e | ⟨e, _⟩ | ⟨e, _⟩
  · exact e
  · rw [e] at he; rcases he with he | he <;> cases he
  · exact absurd he (hs.anchored e).not_idle

theorem RecordDone.sameLoad {k : RecKind} (h : RecordDone s k u) :
    SameLoad s u ∨ u.colours = ColourTables.empty := by
  cases h with
  | sceneReset => exact .inr (by simp)
  | setColour => exact .inl ⟨by simp [ColourTables.write], by simp [ColourTables.write]⟩
  | _ => exact .inl (.of_eq (by simp))

theorem loadWord_sameLoad (a : Nat) (w : BusWord) : SameLoad s (loadWord a w s) := by
  unfold loadWord
  split
  next => exact .of_eq rfl
  next l hl =>
    split
    next => exact .of_eq rfl
    next =>
      split
      next => exact .of_eq rfl
      next =>
        split
        next => exact ⟨rfl, rfl⟩
        next =>
          unfold badLoadWord
          dsimp only
          split <;> exact ⟨by simp [hl], by simp⟩

theorem nextLoadLine_sameLoad (r : LineReq) : SameLoad s (nextLoadLine r s) := by
  unfold nextLoadLine
  split
  next => exact .of_eq rfl
  next l hl => exact ⟨by simp [hl], by simp⟩

/-- A search that comes to another state of a search, or halts. -/
theorem HaltsOrKeeps.loading (h : HaltsOrKeeps s u) :
    u.intake.state = .executing .loading ↔ s.intake.state = .executing .loading := by
  rcases h with ⟨hs, k, rfl⟩ | h
  · rw [halt_intake]
    exact ⟨(fun h => nomatch h), fun h => absurd h (IntakeState.searching_loading hs)⟩
  · exact h.loading

theorem TileDone.loading (h : TileDone s u) (hs : EngineSound s) :
    u.intake.state = .executing .loading ↔ s.intake.state = .executing .loading := by
  cases h with
  | none => exact Iff.rfl
  | done => simp
  | @planeSet f pl _ _ hw =>
    have hst : s.intake.state = .executing .planeWait := by simpa [planeWaits] using hw
    obtain ⟨x, hx⟩ := Option.isSome_iff_exists.1
      (hs.anchored (by rw [hst]; nofun)).anchor
    rw [endRecord_intake _ (x := x) (by simpa using hx), hst]
    simp

theorem TileDone.colours (h : TileDone s u) : u.colours = s.colours := by
  cases h <;> simp

/-- The end of a load: the record it belonged to has ended, and its flag is clear. -/
theorem endLoad_loadSound (hs : EngineSound s) (hl : LoadSound s) : LoadSound (endLoad s) := by
  obtain ⟨hload, hflags⟩ := hl
  unfold endLoad
  split
  next => exact ⟨hload, hflags⟩
  next l hsome =>
    have hst : s.intake.state = .executing .loading := hload.1 (by simp [hsome])
    have hanch := hs.anchored (by rw [hst]; nofun)
    obtain ⟨x, hx⟩ := Option.isSome_iff_exists.1 hanch.anchor
    refine .of_idle (by simp) ?_ (.inr (.inr fun k => ?_))
    · rw [endRecord_intake _ (x := x) (by simpa using hx)]
      nofun
    · have hk : s.colours.inFlight[k] = true ↔ some l.table = some k := by
        rcases hflags with e | e | hk
        · exact absurd (.inl e) hanch.not_idle
        · exact absurd (.inr e) hanch.not_idle
        · simpa [hsome] using hk k
      simp only [endRecord_colours, markIndexed_colours, State.setColours_colours]
      rw [getElem_set_fin]
      split
      next => rfl
      next hne => simpa [hne] using hk

/-- The beginning of a load: its flag is the only one set. -/
theorem loadBegins_loadSound {r : LineReq} {l : Load} (ha : Anchored s) (hl : LoadSound s)
    (hst : s.intake.state = .executing .ready) :
    LoadSound (handLoad r
      ((s.setColours
        { s.colours with load := some l, inFlight := s.colours.inFlight.set l.table true }).setIntake
          { s.intake with state := .executing .loading })) := by
  obtain ⟨hload, hflags⟩ := hl
  have hnone : s.colours.load = none := by
    rw [hst] at hload
    simpa using hload
  refine ⟨by simp, .inr (.inr fun k => ?_)⟩
  have hk : s.colours.inFlight[k] = false := by
    rcases hflags with e | e | hk
    · exact absurd (.inl e) ha.not_idle
    · exact absurd (.inr e) ha.not_idle
    · simpa [hnone] using hk k
  simp only [handLoad_colours, State.setIntake_colours, State.setColours_colours]
  rw [getElem_set_fin]
  split
  next h => simp [h]
  next h => simp [hk, h]

theorem OwnEffect.loadSound {c : Instr} {o : OwnReq} {effect : State → State}
    (he : OwnEffect s c o effect) (hs : EngineSound s) (hl : LoadSound s) :
    LoadSound (effect (s.setMside .free)) := by
  have hidle := fun e => Or.imp (a := s.engine = .off) (b := s.engine = .clearing)
    (he.continues.engine_idle hs e).trans (he.continues.engine_idle hs e).trans e
  have hm : EngineSound (s.setMside .free) :=
    hs.congr (.of_eq rfl) rfl rfl rfl rfl rfl nofun
  cases he with
  | probe => exact hl.congr (.of_eq (by simp)) (probeEffect_haltsOrKeeps ..).loading hidle
  | refetch => exact hl.congr (.of_eq (by simp)) refetchEffect_haltsOrKeeps.loading hidle
  | loadLine r => exact hl.congr (nextLoadLine_sameLoad (s := s.setMside .free) r) (by simp) hidle
  | loadDone => exact endLoad_loadSound hm hl
  | tile => exact hl.congr (.of_eq tileEffect_done.colours) (tileEffect_done.loading hm) hidle
  | _ => exact hl.congr (.of_eq (by simp)) (by simp) hidle

/-- An attachment finds no load: the intake was absent. -/
theorem attach_loadSound (x : Anchor) (he : s.engine = .unanchored) (hs : EngineSound s)
    (hl : LoadSound s) : LoadSound (attach x s) := by
  obtain ⟨hload, hflags⟩ := hl
  have hst : s.intake.state = .absent := by
    by_contra hne
    rcases (hs.anchored hne).engine with e | e <;> rw [he] at e <;> cases e
  have hnone : s.colours.load = none := by
    rw [hst] at hload
    simpa using hload
  refine .of_idle (by simpa using hnone) (by simp [attach_intake]) (.inr (.inr fun k => ?_))
  rcases hflags with e | e | hk
  · rw [he] at e; cases e
  · rw [he] at e; cases e
  · simpa [hnone] using hk k

theorem emptyColours_inFlight (k : Fin Config.tableCount) :
    ColourTables.empty.inFlight[k] = false := by
  simp [ColourTables.empty]

theorem reanchor_loadSound (x : Anchor) : LoadSound (reanchor x s) := by
  refine .of_idle ?_ ?_ (.inr (.inr fun k => ?_))
  · rw [reanchor_colours]; rfl
  · rw [reanchor, attach_intake]; nofun
  · rw [reanchor_colours]; exact emptyColours_inFlight k

theorem endSweep_loadSound : LoadSound (endSweep s) := by
  refine .of_idle ?_ ?_ (.inr (.inr fun k => ?_))
  · rw [endSweep_colours]; rfl
  · unfold endSweep
    split
    · rw [attach_intake]; nofun
    · exact nofun
  · rw [endSweep_colours]; exact emptyColours_inFlight k

theorem Watched.loadSound (h : Watched s u) (hs : EngineSound s) (hl : LoadSound s) :
    LoadSound u := by
  cases h with
  | none => exact hl
  | latched => exact hl
  | attached _ he => exact attach_loadSound _ he hs hl
  | reanchored => exact reanchor_loadSound _

theorem Offered.loadSound {x : CTxn} (h : Offered x s u) (hl : LoadSound s) : LoadSound u :=
  hl.congr (.of_eq (by cases h <;> simp)) h.kept.loading
    (by cases h <;> simp)

theorem CEffect.loadSound {c : Instr} {x : CTxn} {effect : State → State}
    (he : CEffect s x c effect) (hp : s.path = .service) (hs : EngineSound s) (hl : LoadSound s) :
    LoadSound (effect (cDone s)) := by
  obtain ⟨v, ho, hw⟩ := he.offered_watched
  exact hw.loadSound (ho.engineSound hp hs.cDone) (ho.loadSound (s := cDone s) hl)

theorem Effect.loadSound {c : Instr} (h : Effect s c u) (hs : EngineSound s) (hl : LoadSound s) :
    LoadSound u := by
  cases h with
  | @carried _ k v _ h hu =>
    have ha := hs.anchored (IntakeState.searching_absent (holdsRecord_searching h))
    have hk := carried_kept h hu.intake
    rcases hu.sameLoad with hsame | hempty
    · exact hl.congr (hsame.trans (.of_eq (by simp))) hk.loading fun e => absurd e ha.not_idle
    · refine .of_idle (by simp [hempty, ColourTables.empty]) ?_ (.inr (.inr fun j => ?_))
      · exact IntakeState.searching_loading (hk.searching (holdsRecord_searching h))
      · simp only [endRecord_colours, handStateWord_colours, hempty]
        exact emptyColours_inFlight j
  | refused _ h =>
    exact hl.congr (.of_eq (by simp))
      (endRecord_kept _ (holdsRecord_searching h) pFits_advancedP).loading (by simp)
  | wrap h =>
    exact hl.congr (.of_eq (by simp))
      (endRecord_kept _ (holdsRecord_searching h) pFits_zero).loading (by simp)
  | planeWaits h =>
    refine hl.congr (.of_eq rfl) ?_ id
    rw [holdsRecord_state h]
    exact ⟨nofun, nofun⟩
  | loadBegins h =>
    have ha := hs.anchored (IntakeState.searching_absent (holdsRecord_searching h))
    exact loadBegins_loadSound ha hl (holdsRecord_state h)
  | release => exact hl.congr (.of_eq rfl) Iff.rfl fun _ => .inr rfl
  | sweep => exact endSweep_loadSound
  | drained e rest hq hst =>
    have hsearch : s.intake.state.searching = true := by rcases hst with e | e <;> rw [e] <;> rfl
    have ha := hs.anchored (IntakeState.searching_absent hsearch)
    exact hl.congr (.of_eq (by simp)) (drainInto_kept e hq hsearch).loading
      fun e => absurd e ha.not_idle
  | loadWord w r n =>
    exact hl.congr (loadWord_sameLoad (s := s.setMside (.own (.load r) (n + 1))) _ w) (by simp)
      (by simp)
  | own he => exact he.loadSound hs hl
  | cSide he _ hp => exact he.loadSound hp hs hl
  | _ => exact hl.congr (.of_eq (by simp)) (by simp) (by simp)

theorem beginBypass_engine : (beginBypass s).engine = .off ∨ (beginBypass s).engine = .clearing := by
  unfold beginBypass leaveBypass
  split <;> simp [enterService, abandonAll]

theorem beginBypass_load : (beginBypass s).colours.load = none := by
  unfold beginBypass leaveBypass
  split <;> simp [enterService, abandonAll]

theorem Event.loadSound {c : Instr} (h : Event s c t) (hs : EngineSound s) (hl : LoadSound s) :
    LoadSound t := by
  cases h with
  | finished h => exact (h.loadSound hs hl).congr (.of_eq (by simp)) (by simp) (by simp)
  | bypassed =>
    exact .of_idle beginBypass_load (by rw [beginBypass_intake]; nofun)
      (beginBypass_engine.imp_right .inl)
  | joined =>
    unfold leaveBypass
    split
    · exact hl.congr (.of_eq (by simp [cDone])) (by simp [cDone]) (by simp [cDone])
    · exact hl.congr (.of_eq (by simp [cDone, enterService])) (by simp [cDone, enterService])
        (by simp [enterService])
  | refetchWord w req n =>
    have hi := refetchArrival_kept (s := s.setMside (.own (.intake (.refetch req)) (n + 1))) req n w
    exact hl.congr (.of_eq (by simp)) hi.loading (by simp)
  | drainedAll => exact hl.congr (.of_eq rfl) Iff.rfl id
  | _ => exact hl.congr (.of_eq (by simp)) (by simp) (by simp)

/-! ## Every step -/

/-- Settles O55, unit by unit: what each event keeps of it. -/
theorem stepKeepsUnitsSound : Obligations.StepKeepsUnitsSound := by
  intro s t he hi hr hp hc hl h
  refine ⟨step_keeps_engineSound h he, ?_, step_keeps_reportsSound h hr, step_keeps_pageSound h hp,
    ?_, ?_⟩
  all_goals rcases step_cases h with rfl | ⟨c, rest, hev⟩
  · exact hi
  · exact hev.intakeSound hi
  · exact hc
  · exact hev.countsSound hc
  · exact hl
  · exact hev.loadSound (he.setPending rest) hl

end
end Sys2Proof.Machine
end

