-- ==== Sys2Proof/Proofs/Stores.lean ====
section
/-! SUPPORT. The class 1 stores: what a command hands to the arbiter, and what the bus carries. -/
namespace Sys2Proof.Machine
set_option Elab.async false
open Sys2Proof

/-! ## The stores that an operation hands -/

/-- What the class 1 stores rest on, with the stores that wait. -/
structure Issue where
  anchor : Option Anchor
  ring : Option ReportRing
  class1 : List Class1

/-- The ring, the report ring and the waiting class 1 stores of a state. -/
def State.issue (s : State) : Issue := ⟨s.intake.anchor, s.reports.ring, s.waiting.class1⟩

/-- The byte order of an anchor, if there is one. -/
def orderOf (a : Option Anchor) : Bool :=
  match a with
  | some x => x.bigEndian
  | none => false

/-- One store is handed: of an index of the control line, or a report line. -/
inductive IssueStep : Issue → Issue → Prop where
  | index (x : Anchor) (r : Option ReportRing) (l : List Class1) (n : ControlWord) (v : Word)
      (hn : n ≠ .stateWord) :
    IssueStep ⟨some x, r, l⟩ ⟨some x, r, handClass1 x.addr n (fresh x.bigEndian v) l⟩
  | line (a : Option Anchor) (r : ReportRing) (l : List Class1) (addr : Addr) (ws : List BusWord)
      (hlen : ws.length = 4) (hws : ∀ w ∈ ws, w = fresh (orderOf a) w.data) :
    IssueStep ⟨a, some r, l⟩ ⟨a, some r, l ++ [.reportLine addr 0 ws]⟩

/-- One store is handed, the state word's among them, or the report ring is set. -/
inductive TellStep : Issue → Issue → Prop where
  | issue {i j : Issue} (h : IssueStep i j) : TellStep i j
  | word (x : Anchor) (r : Option ReportRing) (l : List Class1) (v : Word) :
    TellStep ⟨some x, r, l⟩ ⟨some x, r, handClass1 x.addr .stateWord (fresh x.bigEndian v) l⟩
  | ring (x : Anchor) (r r' : Option ReportRing) (l : List Class1) :
    TellStep ⟨some x, r, l⟩ ⟨some x, r', l⟩

/-- Index stores and report lines are handed from s to t. -/
abbrev Issued (s t : State) : Prop := Moved IssueStep State.issue s t

/-- Any class 1 stores are handed from s to t. -/
abbrev Told (s t : State) : Prop := Moved TellStep State.issue s t

section
variable {s t u : State}

theorem Moved.told (h : Issued s t) : Told s t := h.mono fun _ _ => .issue

theorem fresh_data (b : Bool) (v : Word) : (fresh b v).data = v := rfl

theorem handControl_issued {n : ControlWord} (v : Word) (hn : n ≠ .stateWord) (h : Issued s t) :
    Issued s (handControl n v t) := by
  unfold handControl
  split
  next x hx =>
    refine h.trans (.of_step ?_)
    simp only [State.issue, State.setWaiting_intake, State.setWaiting_reports,
      State.setWaiting_waiting, hx]
    exact .index x _ _ n v hn
  next => exact h

theorem handControl_told (n : ControlWord) (v : Word) (h : Told s t) : Told s (handControl n v t) := by
  by_cases hn : n = .stateWord
  · subst hn
    unfold handControl
    split
    next x hx =>
      refine h.trans (.of_step ?_)
      simp only [State.issue, State.setWaiting_intake, State.setWaiting_reports,
        State.setWaiting_waiting, hx]
      exact .word x _ _ v
    next => exact h
  · exact h.trans (handControl_issued v hn (.of_eq rfl)).told

theorem handStateWord_told (before : State) (h : Told s t) : Told s (handStateWord before t) := by
  unfold handStateWord
  split
  next => exact h
  next => exact handControl_told _ _ h

theorem handLine_issued {r : ReportRing} (q : Queued) (hr : t.reports.ring = some r) {v : ReportUnit}
    (hv : v.ring = some r) (h : Issued s t) : Issued s ((handLine r q t).setReports v) := by
  refine h.trans (.of_step ?_)
  simp only [State.issue, State.setReports_intake, State.setReports_reports, State.setReports_waiting,
    handLine, State.setWaiting_intake, State.setWaiting_waiting, hr, hv]
  refine .line _ r _ _ _ rfl fun w hw => ?_
  obtain ⟨v, _, rfl⟩ := List.mem_map.1 hw
  exact rfl

theorem handReport_issued (h : Issued s t) : Issued s (handReport t) := by
  unfold handReport
  split
  next r hr _ =>
    split
    next => exact h
    next =>
      split
      next => exact handLine_issued _ hr hr h
      next =>
        split
        next => exact handLine_issued _ hr hr h
        next => exact h
  next => exact h

theorem giveReport_issued (r : Report) (h : Issued s t) : Issued s (giveReport r t) :=
  handReport_issued (h.to_eq (by simp [State.issue]))

theorem giveReport?_issued (r : Option Report) (h : Issued s t) : Issued s (giveReport? r t) := by
  cases r with
  | none => exact h
  | some r => exact giveReport_issued r h

/-! ## The end of a record, and the records -/

theorem beginProbe_issued (h : Issued s t) : Issued s (beginProbe t) := by
  refine h.to_eq ?_
  unfold beginProbe
  split
  next x hx => simp [State.issue, wantIntake_intake, apply_ite Intake.anchor, hx]
  next => rfl

theorem wantIntake_issued (f : IntakeFetch) (h : Issued s t) : Issued s (wantIntake f t) := by
  refine h.to_eq ?_
  simp [State.issue, wantIntake_intake, apply_ite Intake.anchor]

theorem handIntake_issued (f : IntakeFetch) (h : Issued s t) : Issued s (handIntake f t) :=
  h.to_eq rfl

theorem handDeferred_issued (h : Issued s t) : Issued s (handDeferred t) := by
  unfold handDeferred
  split
  next => exact handIntake_issued _ h
  next => exact h

theorem endRecord_issued (c : Option RecCause) (p : Nat) (h : Issued s t) :
    Issued s (endRecord c p t) :=
  beginProbe_issued (handControl_issued _ nofun
    ((giveReport?_issued (c.map (recordFault t)) h).to_eq rfl))

theorem endTransition_issued (h : Issued s t) : Issued s (endTransition t) := by
  unfold endTransition
  split
  next => exact giveReport_issued _ (h.to_eq rfl)
  next => exact h

theorem dropButton_issued (b : Fin Config.buttonCount) (e : Button) (h : Issued s t) :
    Issued s (dropButton b e t) := by
  have hedit : ∀ bt, Issued s (editButtons b bt t) := fun _ => h.to_eq (by simp [State.issue])
  unfold dropButton
  split
  next => exact giveReport_issued _ (hedit _)
  next => exact hedit _

theorem moveSelection_issued (n : Fin Config.buttonCount) (h : Issued s t) :
    Issued s (moveSelection n t) :=
  giveReport_issued _ (h.to_eq (by simp [State.issue]))

theorem activate_issued (n : Fin Config.buttonCount) (h : Issued s t) : Issued s (activate n t) :=
  giveReport_issued _ (h.to_eq (by simp [State.issue]))

theorem keyDirection_issued (k : Key) (h : Issued s t) : Issued s (keyDirection k t) := by
  unfold keyDirection
  split
  next =>
    split
    next => exact moveSelection_issued _ h
    next => exact h
  next =>
    split
    next => exact h
    next =>
      split
      next => exact h
      next n _ =>
        split
        next => exact activate_issued n (moveSelection_issued n h)
        next => exact moveSelection_issued n h

theorem keyEnter_issued (h : Issued s t) : Issued s (keyEnter t) := by
  unfold keyEnter
  split
  next => exact h
  next b _ =>
    split
    next => exact h
    next => exact activate_issued b h

theorem selectButton_issued (n : Fin Config.buttonCount) (h : Issued s t) :
    Issued s (selectButton n t) := by
  unfold selectButton
  split
  next =>
    split
    next => exact h.to_eq (by simp [State.issue])
    next => exact h
  next => exact moveSelection_issued n h

theorem selectNone_issued (h : Issued s t) : Issued s (selectNone t) := by
  unfold selectNone
  split
  next => exact giveReport_issued _ (h.to_eq (by simp [State.issue]))
  next => exact h

/-- A record hands no state word before its end, and only SETUP REPORTS sets the ring. -/
theorem RecordDone.issued {k : RecKind} (h : RecordDone s k u) :
    Issued s u ∨ ∃ r, u = s.setReports { ReportUnit.empty with ring := r } := by
  have h0 : Issued s s := .of_eq rfl
  cases h with
  | park => exact .inl ((endTransition_issued h0).to_eq rfl)
  | setupReports => exact .inr ⟨_, rfl⟩
  | disableSelected b => exact .inl (dropButton_issued b _ h0)
  | deleteButton b => exact .inl (dropButton_issued b _ h0)
  | keyEnter => exact .inl (keyEnter_issued h0)
  | keyDirection k => exact .inl (keyDirection_issued k h0)
  | selectNone => exact .inl (selectNone_issued h0)
  | selectButton n => exact .inl (selectButton_issued n h0)
  | _ => exact .inl (.of_eq (by simp [State.issue]))

/-! ## Frame starts -/

theorem stepTransition_issued (h : Issued s t) : Issued s (stepTransition t) := by
  unfold stepTransition
  split
  next => exact h
  next =>
    split
    next => exact h.to_eq rfl
    next => exact endTransition_issued h

theorem flip_issued (h : Issued s t) : Issued s (flip t) :=
  giveReport_issued _ (h.to_eq (by simp [State.issue]))

/-- The state of a frame start at an ACTIVE engine before the state word is handed. -/
def frameStepped (s : State) : State :=
  if flipDue s then flip (stepTransition (countFrame s)) else stepTransition (countFrame s)

theorem activeFrame_eq : activeFrame s = holdAndPulse (handStateWord s (frameStepped s)) := rfl

theorem frameStepped_issued : Issued s (frameStepped s) := by
  have hstep : Issued s (stepTransition (countFrame s)) := stepTransition_issued (.of_eq rfl)
  unfold frameStepped
  split
  next => exact flip_issued hstep
  next => exact hstep

theorem holdAndPulse_issue : (holdAndPulse s).issue = s.issue := by
  simp [State.issue]

theorem activeFrame_told : Told s (activeFrame s) :=
  (handStateWord_told s frameStepped_issued.told).to_eq holdAndPulse_issue

theorem frameStart_told : Told s (frameStart s) := by
  unfold frameStart
  split
  next => exact .of_eq rfl
  next => exact .of_eq rfl
  next => exact .of_eq rfl
  next => exact .of_eq rfl
  next => exact activeFrame_told

/-! ## The intake -/

theorem enterExecuting_issued (h : Issued s t) : Issued s (enterExecuting t) := by
  unfold enterExecuting
  split
  next => exact endRecord_issued _ _ h
  next =>
    split
    next =>
      split
      next => exact h.to_eq rfl
      next => exact endRecord_issued _ _ h
    next => exact h.to_eq rfl

theorem beginRefetch_issued (h : Issued s t) : Issued s (beginRefetch t) := by
  unfold beginRefetch
  split
  next => exact wantIntake_issued _ (h.to_eq rfl)
  next => exact h

theorem wake_told (h : Told s t) : Told s (wake t) := by
  unfold wake
  split
  next => exact handStateWord_told _ (h.to_eq rfl)
  next => exact h

/-- What a commit does once a PARKED engine has been woken. -/
def committed (s : State) : State :=
  if passesEnd s then endRecord (some .bounds) 0 s
  else if bodyWhole s && !s.intake.suspect then enterExecuting s
  else beginRefetch s

theorem commit_eq (hd : Word) : commit hd s = committed (wake (s.setIntake
    { s.intake with header := hd, deferred := none, probeLive := false })) := rfl

theorem committed_issued (h : Issued s t) : Issued s (committed t) := by
  unfold committed
  split
  next => exact endRecord_issued _ _ h
  next =>
    split
    next => exact enterExecuting_issued h
    next => exact beginRefetch_issued h

theorem commit_told (hd : Word) (h : Told s t) : Told s (commit hd t) := by
  rw [commit_eq]
  have hw : Told s (wake (t.setIntake
      { t.intake with header := hd, deferred := none, probeLive := false })) :=
    wake_told (h.to_eq rfl)
  exact hw.trans (committed_issued (.of_eq rfl)).told

theorem commitCheck_told (h : Told s t) : Told s (commitCheck t) := by
  unfold commitCheck
  split
  next =>
    split
    next => exact commit_told _ h
    next => exact h
  next => exact h

theorem drainInto_told (e : CapEntry) (rest : List CapEntry) (h : Told s t) :
    Told s (drainInto e rest t) := by
  unfold drainInto
  dsimp only
  split
  next => exact commitCheck_told (h.to_eq rfl)
  next => exact h.to_eq rfl

/-- The state of a halt before the state word is handed. -/
def haltState (k : Nat) (s : State) : State :=
  let s1 := giveReport (.recordFault .parity s.intake.p k)
    (giveReport (.parity .probe (headerAddr s)) s)
  s1.setIntake
    { s1.intake with state := .halted, queue := [], slots := emptySlots, deferred := none,
                     probeLive := false }

theorem halt_eq (k : Nat) : halt k s = handStateWord s (haltState k s) := rfl

theorem haltState_issued (k : Nat) : Issued s (haltState k s) :=
  Moved.to_eq (giveReport_issued (.recordFault .parity s.intake.p k)
    (giveReport_issued (.parity .probe (headerAddr s)) (.of_eq rfl))) rfl

theorem halt_told (k : Nat) (h : Told s t) : Told s (halt k t) := by
  rw [halt_eq]
  exact h.trans (handStateWord_told t (haltState_issued k).told)

theorem probeEffect_told (start : Fin 4) (w0 : BusWord) (ws : List BusWord) :
    Told s (probeEffect start w0 ws s) := by
  have h : Told s s := .of_eq rfl
  unfold probeEffect treatProbe
  split
  next =>
    split
    next => exact halt_told _ h
    next =>
      split
      next => exact commit_told _ (h.to_eq rfl)
      next => exact h.to_eq rfl
  next => exact (handDeferred_issued (.of_eq rfl)).told

theorem refetchEffect_told : Told s (refetchEffect s) := by
  have h : Issued s s := .of_eq rfl
  unfold refetchEffect
  split
  next =>
    split
    next => exact halt_told _ h.told
    next =>
      split
      next => exact (handIntake_issued _ (h.to_eq rfl)).told
      next =>
        split
        next => exact (endRecord_issued _ _ (giveReport_issued _ h)).told
        next => exact (enterExecuting_issued h).told
  next => exact (handDeferred_issued h).told

/-! ## The colour load, the render engine and the report unit -/

theorem loadWord_issued (a : Nat) (w : BusWord) (h : Issued s t) : Issued s (loadWord a w t) := by
  unfold loadWord
  split
  next => exact h
  next =>
    split
    next => exact h
    next =>
      split
      next => exact h
      next =>
        split
        next => exact h.to_eq rfl
        next =>
          unfold badLoadWord
          dsimp only
          split
          next => exact h.to_eq rfl
          next => exact giveReport_issued _ (h.to_eq rfl)

@[simp] theorem nextLoadLine_class1 (r : LineReq) :
    (nextLoadLine r s).waiting.class1 = s.waiting.class1 := by
  unfold nextLoadLine
  split <;> simp [handLoad]

@[simp] theorem renderStoreEffect_class1 :
    (renderStoreEffect s).waiting.class1 = s.waiting.class1 := by
  unfold renderStoreEffect
  split
  next => split <;> simp
  next => rfl

theorem endLoad_issued (h : Issued s t) : Issued s (endLoad t) := by
  unfold endLoad
  split
  next => exact h
  next => exact endRecord_issued _ _ (h.to_eq (by simp [State.issue]))

theorem objectFault_issued (id : Fin Config.objectCount) (c : ObjCause) (h : Issued s t) :
    Issued s (objectFault id c t) := by
  unfold objectFault
  split
  next =>
    have hset : Issued s (t.setObjects (t.objects.set id { t.objects[id] with state := .faulty })) :=
      h.to_eq rfl
    exact (giveReport_issued (.objectFault c id) hset).to_eq (by simp [State.issue])
  next => exact h

theorem objectWord_issued (a : Nat) (w : BusWord) (h : Issued s t) :
    Issued s (objectWord a w t) := by
  unfold objectWord
  split
  next => exact h
  next =>
    split
    next => exact h
    next =>
      split
      next =>
        unfold faultIfShort
        split
        next => exact objectFault_issued _ _ (h.to_eq rfl)
        next => exact h.to_eq rfl
      next => exact objectFault_issued _ _ (giveReport_issued _ (h.to_eq rfl))

theorem FetchDone.issued {r : LineReq} (h : FetchDone r s u) : Issued s u := by
  refine .of_eq ?_
  cases h <;> simp [State.issue, applyApp]

theorem TileDone.told (h : TileDone s u) : Told s u := by
  cases h with
  | none => exact .of_eq rfl
  | done => exact .of_eq (by simp [State.issue])
  | @planeSet f pl =>
    have hset : Told s (applyPlane (completeTile pl f s)) := .of_eq (by simp [State.issue])
    exact (handStateWord_told _ hset).trans (endRecord_issued _ _ (.of_eq rfl)).told

theorem reportStoreEffect_issued (h : Issued s t) : Issued s (reportStoreEffect t) := by
  unfold reportStoreEffect
  split
  next r ov hr _ =>
    exact handReport_issued (handControl_issued _ nofun
      (h.to_eq (by simp [State.issue, ReportUnit.lineDone, ReportUnit.followIndexes])))
  next => exact h

theorem OwnEffect.told {c : Instr} {o : OwnReq} {effect : State → State}
    (he : OwnEffect s c o effect) : Told s (effect (s.setMside .free)) := by
  have h : Issued s (s.setMside .free) := .of_eq rfl
  cases he with
  | probe => exact h.told.trans (probeEffect_told ..)
  | refetch => exact h.told.trans refetchEffect_told
  | loadDone => exact (endLoad_issued h).told
  | objectFetch => exact (h.trans (objectFetchEffect_done _).issued).told
  | tile => exact h.told.trans tileEffect_done.told
  | report => exact (reportStoreEffect_issued h).told
  | control => exact h.told
  | loadLine r => exact .of_eq (by simp [State.issue])
  | rowStore => exact .of_eq (by simp [State.issue])

/-! ## The controller side -/

theorem latchIndex_issued (v : Nat) (h : Issued s t) : Issued s (latchIndex v t) := by
  unfold latchIndex
  split
  next => exact h
  next r hr =>
    exact handReport_issued (h.to_eq (by simp [State.issue, ReportUnit.followIndexes]))

theorem offerLatch_issued (x : CTxn) (h : Issued s t) : Issued s (offerLatch x t) := by
  unfold offerLatch
  split
  next => exact h
  next =>
    split
    next => exact giveReport_issued _ h
    next =>
      split
      next => exact latchIndex_issued _ h
      next => exact h

theorem captureWord_class1 (e : CapEntry) (b : Bool) :
    (captureWord e (s, b)).1.waiting.class1 = s.waiting.class1 := by
  unfold captureWord
  dsimp only
  split
  next => rfl
  next => rfl
  all_goals
    split
    next => rfl
    next => simp [*]

theorem captureFold_class1 (l : List CapEntry) (b : Bool) :
    (l.foldl (fun acc e => captureWord e acc) (s, b)).1.waiting.class1 = s.waiting.class1 := by
  induction l generalizing s b with
  | nil => rfl
  | cons e l ih =>
    rw [List.foldl_cons]
    exact (ih ..).trans (captureWord_class1 e b)

theorem captureWords_class1 (l : List CapEntry) :
    (captureWords l s).waiting.class1 = s.waiting.class1 := by
  unfold captureWords
  dsimp only
  split <;> exact captureFold_class1 l false

theorem captureWords_issued (l : List CapEntry) (h : Issued s t) : Issued s (captureWords l t) := by
  refine h.to_eq ?_
  simp only [State.issue, captureWords_class1, captureWords_reports, (captureWords_kept l).anchor]

theorem offerCapture_issued (x : CTxn) (h : Issued s t) : Issued s (offerCapture x t) :=
  captureWords_issued _ (giveReport?_issued _ h)

theorem Offered.issued {x : CTxn} (h : Offered x s u) : Issued s u := by
  have h0 : Issued s s := .of_eq rfl
  cases h with
  | none => exact h0
  | capture => exact offerCapture_issued x h0
  | latch => exact offerLatch_issued x h0

theorem holdDisplayWord_issued (p : DisplayPlan) (x : CTxn) (h : Issued s t) :
    Issued s (holdDisplayWord p x t) := by
  unfold holdDisplayWord
  split
  next => exact giveReport?_issued _ (h.to_eq rfl)
  next => exact h.to_eq rfl

end
end Sys2Proof.Machine
end

