-- ==== Sys2Proof/Proofs/Bus.lean ====
section
/-! SUPPORT. The bus: the two sides go together, and the class 1 stores are in order. -/
namespace Sys2Proof.Machine
set_option Elab.async false
open Sys2Proof

/-! ## The class 1 stores that wait -/

/-- What `Class1Sound` says of the stores that wait, with a ring. -/
def Class1Fits (a : Option Anchor) (l : List Class1) : Prop :=
  (∀ n, (l.filter (Class1.isControl n)).length ≤ 1)
  ∧ (∀ n ad e w, Class1.control n ad e w ∈ l →
    ∃ x, a = some x ∧ ad = controlAddr x.addr n ∧ e = 15 ∧ w = fresh x.bigEndian w.data)
  ∧ ∀ ad p ws, Class1.reportLine ad p ws ∈ l →
    ∃ x, a = some x ∧ p = 0 ∧ ws.length = 4 ∧ ∀ w ∈ ws, w = fresh x.bigEndian w.data

theorem class1Fits_nil (a : Option Anchor) : Class1Fits a [] := by
  refine ⟨by simp, ?_, ?_⟩ <;> simp

/-- A store that a control-line store may take the place of. -/
theorem isControl_controlStore (x : Addr) (n m : ControlWord) (v : BusWord) :
    (controlStore x n v).isControl m = (n == m) := rfl

theorem isControl_unique {n m : ControlWord} {c : Class1} (hn : c.isControl n = true) :
    c.isControl m = (n == m) := by
  cases c with
  | reportLine => cases hn
  | control k =>
    obtain rfl : k = n := by simpa [Class1.isControl] using hn
    rfl

/-- The hand-over of a word keeps the number of the stores of each word at one or less. -/
theorem handClass1_count (x : Addr) (n m : ControlWord) (v : BusWord) {l : List Class1}
    (h : ∀ k, (l.filter (Class1.isControl k)).length ≤ 1) :
    ((handClass1 x n v l).filter (Class1.isControl m)).length ≤ 1 := by
  unfold handClass1
  split
  next =>
    have hsame : Class1.isControl m ∘ (fun c => if c.isControl n then controlStore x n v else c)
        = Class1.isControl m := by
      funext c
      simp only [Function.comp_apply]
      split
      next hc => rw [isControl_controlStore, isControl_unique hc]
      next => rfl
    rw [List.filter_map, List.length_map, hsame]
    exact h m
  next hany =>
    rw [List.filter_append, List.length_append]
    by_cases hm : n = m
    · subst hm
      have hnone : l.filter (Class1.isControl n) = [] := by
        simpa [List.filter_eq_nil_iff] using hany
      rw [hnone]
      exact Nat.le_of_eq (by simp [isControl_controlStore])
    · simpa [isControl_controlStore, hm] using h m

theorem mem_handClass1 {x : Addr} {n : ControlWord} {v : BusWord} {l : List Class1} {c : Class1}
    (h : c ∈ handClass1 x n v l) : c = controlStore x n v ∨ c ∈ l := by
  unfold handClass1 at h
  split at h
  next =>
    obtain ⟨d, hd, rfl⟩ := List.mem_map.1 h
    split
    · exact .inl rfl
    · exact .inr hd
  next =>
    rcases List.mem_append.1 h with h | h
    · exact .inr h
    · exact .inl (List.mem_singleton.1 h)

theorem Class1Fits.hand {x : Anchor} {l : List Class1} (h : Class1Fits (some x) l) (n : ControlWord)
    (v : Word) : Class1Fits (some x) (handClass1 x.addr n (fresh x.bigEndian v) l) := by
  obtain ⟨hcount, hctl, hline⟩ := h
  refine ⟨fun m => handClass1_count _ _ _ _ hcount, fun m ad e w hm => ?_, fun ad p ws hm => ?_⟩
  · rcases mem_handClass1 hm with hnew | hold
    · cases hnew
      exact ⟨x, rfl, rfl, rfl, rfl⟩
    · exact hctl m ad e w hold
  · rcases mem_handClass1 hm with hnew | hold
    · cases hnew
    · exact hline ad p ws hold

theorem Class1Fits.line {a : Option Anchor} {l : List Class1} (h : Class1Fits a l)
    (ha : a.isSome = true) (ad : Addr) {ws : List BusWord} (hlen : ws.length = 4)
    (hws : ∀ w ∈ ws, w = fresh (orderOf a) w.data) : Class1Fits a (l ++ [.reportLine ad 0 ws]) := by
  obtain ⟨hcount, hctl, hline⟩ := h
  obtain ⟨x, rfl⟩ := Option.isSome_iff_exists.1 ha
  refine ⟨fun n => ?_, fun n ad e w hm => ?_, fun ad' p ws' hm => ?_⟩
  · simpa [List.filter_append, Class1.isControl] using hcount n
  · rcases List.mem_append.1 hm with hm | hm
    · exact hctl n ad e w hm
    · cases List.mem_singleton.1 hm
  · rcases List.mem_append.1 hm with hm | hm
    · exact hline ad' p ws' hm
    · cases List.mem_singleton.1 hm
      exact ⟨x, rfl, rfl, hlen, hws⟩

theorem Class1Fits.tail {a : Option Anchor} {l l' : List Class1} (h : Class1Fits a l)
    (hl : l'.Sublist l) : Class1Fits a l' := by
  obtain ⟨hcount, hctl, hline⟩ := h
  exact ⟨fun n => Nat.le_trans (hl.filter _).length_le (hcount n),
    fun n ad e w hm => hctl n ad e w (hl.subset hm), fun ad p ws hm => hline ad p ws (hl.subset hm)⟩

/-- With no ring no store waits. -/
theorem Class1Fits.unset {l : List Class1} (h : Class1Fits none l) : l = [] := by
  obtain ⟨_, hctl, hline⟩ := h
  refine List.eq_nil_iff_forall_not_mem.2 fun c hc => ?_
  cases c with
  | reportLine ad p ws =>
    obtain ⟨x, hx, _⟩ := hline ad p ws hc
    cases hx
  | control n ad e w =>
    obtain ⟨x, hx, _⟩ := hctl n ad e w hc
    cases hx

/-- The report ring rests on a ring, and the stores that wait are in order. -/
def Issue.Sound (i : Issue) : Prop :=
  (i.ring.isSome = true → i.anchor.isSome = true) ∧ Class1Fits i.anchor i.class1

theorem IssueStep.keeps_sound {i j : Issue} (h : IssueStep i j) (hi : i.Sound) : j.Sound := by
  obtain ⟨hr, hc⟩ := hi
  cases h with
  | index x r l n v => exact ⟨hr, hc.hand n v⟩
  | line a r l ad ws hlen hws => exact ⟨hr, hc.line (hr rfl) ad hlen hws⟩

theorem TellStep.keeps_sound {i j : Issue} (h : TellStep i j) (hi : i.Sound) : j.Sound := by
  obtain ⟨hr, hc⟩ := hi
  cases h with
  | issue h => exact h.keeps_sound ⟨hr, hc⟩
  | word x r l v => exact ⟨hr, hc.hand _ v⟩
  | ring x r r' l => exact ⟨fun _ => rfl, hc⟩

section
variable {s t u : State}

theorem EngineSound.issue (hs : EngineSound s) (hc : Class1Sound s) : s.issue.Sound :=
  ⟨hs.2.2.2.1, hc⟩

theorem Moved.class1Sound (h : Told s u) (hs : EngineSound s) (hc : Class1Sound s) :
    Class1Sound u :=
  (h.keeps (P := Issue.Sound) (fun _ _ => TellStep.keeps_sound) (hs.issue hc)).2

/-- The state of an attachment before its stores are handed. -/
def attachBase (x : Anchor) (s : State) : State :=
  (s.setIntake { Intake.absent with anchor := some x }).setEngine .active

theorem attach_told (x : Anchor) : Told (attachBase x s) (attach x s) := by
  have hindex : Told (attachBase x s)
      (handControl .reportIndex 0 (handControl .scriptIndex 0 (attachBase x s))) :=
    handControl_told .reportIndex 0 (handControl_told .scriptIndex 0 (.of_eq rfl))
  exact (handControl_told .stateWord _ hindex).trans (beginProbe_issued (.of_eq rfl)).told

/-- An attachment where no store waits. -/
theorem attach_class1Sound (x : Anchor) (h : s.waiting.class1 = []) : Class1Sound (attach x s) := by
  refine (attach_told x).keeps (P := Issue.Sound) (fun _ _ => TellStep.keeps_sound) ?_ |>.2
  refine ⟨fun _ => rfl, ?_⟩
  simp only [State.issue, attachBase, State.setEngine_waiting, State.setIntake_waiting, h]
  exact class1Fits_nil _

theorem Class1Sound.of_empty (h : u.waiting.class1 = []) : Class1Sound u := by
  unfold Class1Sound
  rw [h]
  exact class1Fits_nil _

theorem Class1Sound.unset (h : Class1Sound s) (ha : s.intake.anchor = none) :
    s.waiting.class1 = [] := by
  have hf : Class1Fits s.intake.anchor s.waiting.class1 := h
  rw [ha] at hf
  exact hf.unset

theorem Unanchored.of_unanchored (hs : EngineSound s)
    (he : s.engine = .clearing ∨ s.engine = .unanchored) : s.intake.anchor = none := by
  rcases hs.kind with h | h | h
  · rcases h.engine with e | e <;> rw [e] at he <;> rcases he with he | he <;> cases he
  · exact h.anchor
  · exact h.anchor

theorem endSweep_class1Sound (he : s.engine = .clearing) (hs : EngineSound s) (hc : Class1Sound s) :
    Class1Sound (endSweep s) := by
  have hnone := hc.unset (Unanchored.of_unanchored hs (.inl he))
  unfold endSweep
  split
  next => exact attach_class1Sound _ (by simpa using hnone)
  next => exact .of_empty (by simpa using hnone)

theorem Watched.class1Sound (h : Watched s u) (hs : EngineSound s) (hc : Class1Sound s) :
    Class1Sound u := by
  cases h with
  | none => exact hc
  | latched => exact hc
  | attached _ he =>
    exact attach_class1Sound _ (hc.unset (Unanchored.of_unanchored hs (.inr he)))
  | reanchored => exact attach_class1Sound _ (by simp [emptyForReanchor, OwnWaiting.empty])

theorem CEffect.class1Sound {c : Instr} {x : CTxn} {effect : State → State}
    (he : CEffect s x c effect) (hp : s.path = .service) (hs : EngineSound s) (hc : Class1Sound s) :
    Class1Sound (effect (cDone s)) := by
  obtain ⟨v, ho, hw⟩ := he.offered_watched
  exact hw.class1Sound (ho.engineSound hp hs.cDone) (ho.issued.told.class1Sound hs.cDone hc)

/-- The records, and what each of the other effects hands. -/
theorem Effect.class1Sound {c : Instr} (h : Effect s c u) (hs : EngineSound s)
    (hc : Class1Sound s) : Class1Sound u := by
  have h0 : Issued s s := .of_eq rfl
  cases h with
  | @carried _ k v _ h hu =>
    have hv : Told s v := by
      rcases hu.issued with hi | ⟨r, rfl⟩
      · exact hi.told
      · obtain ⟨x, hx⟩ := Option.isSome_iff_exists.1
          (hs.anchored (IntakeState.searching_absent (holdsRecord_searching h))).anchor
        refine .of_step ?_
        simp only [State.issue, State.setReports_intake, State.setReports_reports,
          State.setReports_waiting, hx]
        exact .ring x _ _ _
    have hend : Told s (endRecord none (advancedP s) (handStateWord s v)) :=
      (handStateWord_told s hv).trans (endRecord_issued _ _ (.of_eq rfl)).told
    exact hend.class1Sound hs hc
  | refused => exact (endRecord_issued _ _ h0).told.class1Sound hs hc
  | wrap => exact (endRecord_issued _ _ h0).told.class1Sound hs hc
  | frame => exact frameStart_told.class1Sound hs hc
  | sweep he => exact endSweep_class1Sound he hs hc
  | displayWord => exact (holdDisplayWord_issued _ _ h0).told.class1Sound hs hc
  | drained e rest => exact (drainInto_told e rest (.of_eq rfl)).class1Sound hs hc
  | loadWord w r n =>
    exact (loadWord_issued _ w (h0.to_eq (u := s.setMside (.own (.load r) (n + 1))) rfl)).told.class1Sound hs hc
  | objectWord w r n =>
    exact (objectWord_issued _ w
      (h0.to_eq (u := s.setMside (.own (.render (.fetch r)) (n + 1))) rfl)).told.class1Sound hs hc
  | own he => exact he.told.class1Sound hs hc
  | cSide he _ hp => exact he.class1Sound hp hs hc
  | _ => exact hc

theorem selectOwn_sublist {w left : OwnWaiting} {o : OwnReq} (h : selectOwn w = some (o, left)) :
    left.class1.Sublist w.class1 := by
  unfold selectOwn at h
  split at h
  next c rest hc =>
    cases h
    rw [hc]
    exact List.sublist_cons_self ..
  next hc =>
    split at h
    next => cases h; exact .refl _
    next =>
      split at h
      next => cases h; exact .refl _
      next =>
        split at h
        next => cases h; exact .refl _
        next => cases h

theorem grant_class1Sound (h : Class1Sound s) : Class1Sound (grant s) := by
  have hf : Class1Fits s.intake.anchor s.waiting.class1 := h
  have hg : Class1Fits (grant s).intake.anchor (grant s).waiting.class1 := by
    rw [grant_intake]
    rcases grant_cases s with e | ⟨r, p, _, _, e⟩ | ⟨o, left, _, ho, e⟩ <;> rw [e]
    · exact hf
    · simpa using hf
    · exact hf.tail (selectOwn_sublist ho)
  exact hg

theorem finish_class1Sound (h : Class1Sound s) : Class1Sound (finish s) := by
  refine grant_class1Sound ?_
  have hf : Class1Fits s.intake.anchor s.waiting.class1 := h
  have ht : Class1Fits (takeTile s).intake.anchor (takeTile s).waiting.class1 := by simpa using hf
  exact ht

theorem leaveBypass_class1Sound (h : Class1Sound s) : Class1Sound (leaveBypass s) := by
  unfold leaveBypass
  split <;> exact h

theorem Event.class1Sound {c : Instr} (h : Event s c t) (hs : EngineSound s) (hc : Class1Sound s) :
    Class1Sound t := by
  cases h with
  | finished h => exact finish_class1Sound (h.class1Sound hs hc)
  | bypassed =>
    exact grant_class1Sound (leaveBypass_class1Sound
      (.of_empty (by simp [abandonAll, OwnWaiting.empty])))
  | joined => exact grant_class1Sound (leaveBypass_class1Sound (s := cDone s) hc)
  | refetchWord w req n =>
    have hi : Issued s (refetchArrival req n w (s.setMside (.own (.intake (.refetch req)) (n + 1)))) := by
      refine .of_eq ?_
      simp only [State.issue, refetchArrival_reports, refetchArrival_waiting,
        (refetchArrival_kept req n w).anchor]
      rfl
    exact hi.told.class1Sound hs hc
  | _ => exact hc

/-! ## The two sides of the bus -/

/-- Each side of the bus of u has what that of s has, as far as they go together. -/
structure SameBus (s u : State) : Prop where
  mside : u.mside.isController = s.mside.isController
  cside : u.cside.state.isActive = s.cside.state.isActive

theorem SameBus.of_eq (hm : u.mside = s.mside) (hc : u.cside = s.cside) : SameBus s u := by
  constructor
  · rw [hm]
  · rw [hc]

theorem SameBus.sound (h : SameBus s u) (hs : BusSound s) : BusSound u := by
  unfold BusSound
  rw [h.mside, h.cside]
  exact hs

theorem BusSound.of_free (hm : u.mside = .free) (hc : u.cside.state.isActive = false) : BusSound u := by
  unfold BusSound
  rw [hm, hc]
  rfl

/-- At a free M-side no C-side transaction is in progress. -/
theorem BusSound.idle (h : BusSound s) (hm : s.mside = .free) : s.cside.state.isActive = false := by
  unfold BusSound at h
  rw [hm] at h
  exact h.symm

theorem carry_busSound (r : BusReq) (x : Treatment) (m : BusReq) : BusSound (carry r x m s) := rfl

theorem accept_busSound (r : BusReq) : BusSound (accept r s) := by
  unfold accept
  split
  next => exact carry_busSound ..
  next =>
    split
    next => split <;> exact carry_busSound ..
    next => exact carry_busSound ..

theorem grant_busSound (h : BusSound s) : BusSound (grant s) := by
  rcases grant_cases s with e | ⟨r, p, _, _, e⟩ | ⟨o, left, hm, _, e⟩ <;> rw [e]
  · exact h
  · exact accept_busSound r
  · exact (h.idle hm).symm

theorem finish_busSound (h : BusSound s) : BusSound (finish s) :=
  grant_busSound ((SameBus.of_eq (by simp) (by simp)).sound h)

theorem leaveBypass_busSound (h : BusSound s) : BusSound (leaveBypass s) := by
  unfold leaveBypass
  split <;> exact h

theorem RecordDone.sameBus {k : RecKind} (h : RecordDone s k u) : SameBus s u := by
  cases h <;> exact .of_eq (by simp) (by simp)

theorem TileDone.bus (h : TileDone s u) : u.mside = s.mside ∧ u.cside = s.cside := by
  cases h <;> simp

theorem OwnEffect.bus {c : Instr} {o : OwnReq} {effect : State → State} (he : OwnEffect s c o effect) :
    (effect (s.setMside .free)).mside = .free ∧ (effect (s.setMside .free)).cside = s.cside := by
  cases he with
  | tile => exact (tileEffect_done (s := s.setMside .free)).bus
  | _ => simp

theorem OwnEffect.busSound {c : Instr} {o : OwnReq} {n : Nat} {effect : State → State}
    (he : OwnEffect s c o effect) (hm : s.mside = .own o n) (hs : BusSound s) :
    BusSound (effect (s.setMside .free)) := by
  obtain ⟨hfree, hc⟩ := he.bus
  unfold BusSound at hs
  rw [hm] at hs
  exact .of_free hfree (by rw [hc]; exact hs.symm)

theorem Watched.cside (h : Watched s u) : u.cside = s.cside := by
  cases h <;> simp

theorem Offered.cside {x : CTxn} (h : Offered x s u) : u.cside = s.cside := by
  cases h <;> simp

theorem CEffect.busSound {c : Instr} {x : CTxn} {effect : State → State} (he : CEffect s x c effect) :
    BusSound (effect (cDone s)) := by
  obtain ⟨v, ho, hw⟩ := he.offered_watched
  refine .of_free (hw.mside.trans ho.mside) ?_
  rw [hw.cside, ho.cside]
  rfl

theorem holdDisplayWord_active (p : DisplayPlan) (x : CTxn) :
    (holdDisplayWord p x s).cside.state = .active x := by
  unfold holdDisplayWord
  split <;> simp

theorem Effect.busSound {c : Instr} (h : Effect s c u) (hs : BusSound s) : BusSound u := by
  cases h with
  | carried _ _ hu =>
    exact (SameBus.of_eq (by simp) (by simp)).sound (hu.sameBus.sound hs)
  | request r h =>
    unfold BusSound at hs ⊢
    rw [h] at hs
    exact hs
  | displayWord w p x x' h =>
    unfold BusSound at hs ⊢
    rw [holdDisplayWord_active, holdDisplayWord_mside, hs, h]
    rfl
  | loadWord w r n hm =>
    refine SameBus.sound ⟨?_, by simp⟩ hs
    simp [hm, MSide.isController]
  | objectWord w r n hm =>
    refine SameBus.sound ⟨?_, by simp⟩ hs
    simp [hm, MSide.isController]
  | own he hm => exact he.busSound hm hs
  | cSide he => exact he.busSound
  | _ => exact (SameBus.of_eq (by simp) (by simp)).sound hs

theorem BypassFrom.busSound {c : Instr} (h : BypassFrom s c u) (hs : BusSound s) :
    BusSound u := by
  cases h with
  | atOnce => exact hs
  | own he hm =>
    unfold BusSound at hs
    rw [hm] at hs
    exact .of_free rfl hs.symm
  | cSide he => exact he.busSound

theorem Event.busSound {c : Instr} (h : Event s c t) (hs : BusSound s) : BusSound t := by
  cases h with
  | finished h => exact finish_busSound (h.busSound hs)
  | @bypassed _ u h =>
    have ha : SameBus u ((abandonAll u).setResetDue false) :=
      .of_eq (by simp [abandonAll]) (by simp [abandonAll])
    exact grant_busSound (leaveBypass_busSound (ha.sound (h.busSound hs)))
  | joined => exact grant_busSound (leaveBypass_busSound (.of_free rfl rfl))
  | storeWord w x x' hc =>
    unfold BusSound at hs ⊢
    rw [hc] at hs
    exact hs
  | fetchWord w x x' hc =>
    unfold BusSound at hs ⊢
    rw [hc] at hs
    exact hs
  | firstFetch => rfl
  | refetchWord w req n hm =>
    refine SameBus.sound ⟨?_, by simp⟩ hs
    simp [hm, MSide.isController]
  | _ => exact hs

/-- Settles O58: the engine states, the class 1 stores handed, and the two sides of the bus. -/
theorem stepKeepsEngineAndBusSound : Obligations.StepKeepsEngineAndBusSound := by
  intro s t he hb hc h
  refine ⟨step_keeps_engineSound h he, ?_⟩
  rcases step_cases h with rfl | ⟨c, rest, hev⟩
  · exact ⟨hb, hc⟩
  · exact ⟨hev.busSound hb, hev.class1Sound (he.setPending rest) hc⟩

end
end Sys2Proof.Machine
end

