-- ==== Sys2Proof/Proofs/Tiles.lean ====
section
/-! SUPPORT. The tile map and the tile in flight: what every step keeps. -/
namespace Sys2Proof.Machine
set_option Elab.async false
open Sys2Proof

/-! ## The invariant, part by part -/

/-- The row, the pixels and the line of a flight are in range. -/
def Flight.Fits (f : Flight) : Prop :=
  f.row < 8 ∧ f.pixels.length = 64 ∧ ∀ n, f.phase = .storing n → n < 16

/-- With no plane there is nothing. -/
def UnsetSound (s : State) : Prop :=
  s.tiles.plane = none → s.tiles.fields = ⟨0, 0, 0, 0, ⟨0, 0, 0, 0⟩⟩ ∧ (∀ g, s.tiles.ofPage g = [])
    ∧ s.render.flight = none

/-- With a plane: the tile in flight is the one tile of the back page that says so. -/
structure MapSound (s : State) (pl : Plane) : Prop where
  legal : pl.Legal
  length : ∀ g, (s.tiles.ofPage g).length = pl.tileCount
  scan : s.render.scan < pl.tileCount
  front : ∀ st ∈ frontTiles s, st.inFlight = false
  back : ∀ (k : Nat) (st : TileState), (backTiles s)[k]? = some st →
    (st.inFlight = true ↔ s.render.flight.map Flight.tile = some k)
  flight : ∀ f, s.render.flight = some f →
    f.page = backPage s ∧ f.Fits ∧ f.tile < pl.tileCount ∧ s.page.running = none

/-- A SETUP PLANE that waits has passed its field checks. -/
def WaitSound (s : State) : Prop := planeWaits s = true → planeFieldsOk (planeFields s) = true

/-- The tile map, whether a plane is set or not. -/
def TileMapSound (s : State) : Prop :=
  UnsetSound s ∧ ∀ pl, s.tiles.plane = some pl → MapSound s pl

theorem forall_getElem? {α : Type} {l : List α} {P : α → Prop} :
    (∀ x ∈ l, P x) ↔ ∀ (k : Nat) (x : α), l[k]? = some x → P x :=
  ⟨fun h _ _ hk => h _ (List.mem_of_getElem? hk), fun h x hx => by
    obtain ⟨k, hk⟩ := List.getElem?_of_mem hx
    exact h k x hk⟩

section
variable {s t u : State}

theorem tilesSound_iff : TilesSound s ↔ WaitSound s ∧ TileMapSound s := by
  refine and_congr_right fun _ => ?_
  unfold TileMapSound UnsetSound
  cases hp : s.tiles.plane with
  | none =>
    simp only [forall_const, reduceCtorEq, false_implies, implies_true, and_true]
    refine and_congr_right fun _ => ⟨?_, ?_⟩
    · rintro ⟨ha, hb, hf⟩
      exact ⟨fun g => by cases g <;> assumption, hf⟩
    · rintro ⟨hg, hf⟩
      exact ⟨hg .a, hg .b, hf⟩
  | some pl =>
    simp only [reduceCtorEq, false_implies, true_and, Option.some.injEq, forall_eq']
    constructor
    · rintro ⟨hl, ha, hb, hsc, hfr, hfl⟩
      refine ⟨hl, fun g => by cases g <;> assumption, hsc, hfr, ?_, ?_⟩
      · cases hf : s.render.flight with
        | none =>
          rw [hf] at hfl
          intro k st hk
          simpa using forall_getElem?.1 hfl k st hk
        | some f =>
          rw [hf] at hfl
          obtain ⟨_, _, _, _, _, _, hpat⟩ := hfl
          intro k st hk
          exact (hpat k st hk).trans ⟨fun e => e ▸ rfl, fun e => (Option.some.inj e).symm⟩
      · intro f hf
        rw [hf] at hfl
        obtain ⟨hpage, hrow, hpix, htile, hrun, hline, _⟩ := hfl
        exact ⟨hpage, ⟨hrow, hpix, hline⟩, htile, hrun⟩
    · rintro ⟨hl, hlen, hsc, hfr, hback, hflight⟩
      refine ⟨hl, hlen .a, hlen .b, hsc, hfr, ?_⟩
      cases hf : s.render.flight with
      | none =>
        refine forall_getElem?.2 fun k st hk => ?_
        simpa [hf] using hback k st hk
      | some f =>
        obtain ⟨hpage, ⟨hrow, hpix, hline⟩, htile, hrun⟩ := hflight f hf
        rw [hf] at hback
        exact ⟨hpage, hrow, hpix, htile, hrun, hline, fun k st hk =>
          (hback k st hk).trans ⟨fun e => (Option.some.inj e).symm, fun e => e ▸ rfl⟩⟩

/-! ## What leaves the pattern of the map -/

/-- A flight that goes on with the same tile. -/
def Flight.Goes (f g : Flight) : Prop := g.page = f.page ∧ g.tile = f.tile ∧ (f.Fits → g.Fits)

/-- The map of t has the plane and the tiles in flight of that of s, and the flight goes on. -/
structure SameMap (s t : State) : Prop where
  planeSet : t.tiles.planeSet = s.tiles.planeSet
  fields : t.tiles.fields = s.tiles.fields
  tiles : ∀ g, (t.tiles.ofPage g).map TileState.inFlight = (s.tiles.ofPage g).map TileState.inFlight
  scan : t.render.scan = s.render.scan
  flight : Option.Rel Flight.Goes s.render.flight t.render.flight
  front : t.page.front = s.page.front
  running : s.page.running = none → t.page.running = none

theorem Flight.Goes.refl (f : Flight) : f.Goes f := ⟨rfl, rfl, id⟩

theorem Flight.Goes.trans {f g h : Flight} (h1 : f.Goes g) (h2 : g.Goes h) : f.Goes h :=
  ⟨h2.1.trans h1.1, h2.2.1.trans h1.2.1, fun hf => h2.2.2 (h1.2.2 hf)⟩

theorem flightRel_refl (o : Option Flight) : Option.Rel Flight.Goes o o := by
  cases o with
  | none => exact .none
  | some f => exact .some (.refl f)

theorem Flight.Goes.applying (f : Flight) (a : App) (rest : List Placement) :
    f.Goes { f with phase := .applying a rest } :=
  ⟨rfl, rfl, fun ⟨hr, hx, _⟩ => ⟨hr, hx, nofun⟩⟩

theorem Flight.Goes.storing (f : Flight) {n : Nat} (hn : f.Fits → n < 16) :
    f.Goes { f with phase := .storing n } :=
  ⟨rfl, rfl, fun h => ⟨h.1, h.2.1, fun m hm => by cases hm; exact hn h⟩⟩

theorem Flight.Goes.pixels (f : Flight) {l : List Argb} (hl : l.length = f.pixels.length) :
    f.Goes { f with pixels := l } :=
  ⟨rfl, rfl, fun ⟨hr, hx, hn⟩ => ⟨hr, hl.trans hx, hn⟩⟩

/-- A row of a tile as it begins. -/
theorem Flight.Goes.row (f : Flight) {r : Nat} (c : Argb) (hr : f.Fits → r < 8) :
    f.Goes ⟨f.tile, f.page, r, List.replicate 64 c, .storing 0⟩ :=
  ⟨rfl, rfl, fun h => ⟨hr h, List.length_replicate, fun n hn => by cases hn; decide⟩⟩

theorem SameMap.of_eq (ht : t.tiles = s.tiles) (hr : t.render = s.render) (hp : t.page = s.page) :
    SameMap s t := by
  refine ⟨by rw [ht], by rw [ht], fun _ => by rw [ht], by rw [hr], ?_, by rw [hp], fun h => by rwa [hp]⟩
  rw [hr]
  exact flightRel_refl _

theorem SameMap.trans (h : SameMap s t) (h' : SameMap t u) : SameMap s u where
  planeSet := h'.planeSet.trans h.planeSet
  fields := h'.fields.trans h.fields
  tiles g := (h'.tiles g).trans (h.tiles g)
  scan := h'.scan.trans h.scan
  flight := by
    have h1 := h.flight
    have h2 := h'.flight
    cases hs : s.render.flight <;> cases ht : t.render.flight <;> cases hu : u.render.flight <;>
      rw [hs, ht] at h1 <;> rw [ht, hu] at h2 <;> cases h1 <;> cases h2
    · exact .none
    · exact .some (Flight.Goes.trans ‹_› ‹_›)
  front := h'.front.trans h.front
  running hr := h'.running (h.running hr)

theorem SameMap.plane (h : SameMap s t) : t.tiles.plane = s.tiles.plane := by
  unfold TileMap.plane
  rw [h.planeSet, h.fields]

theorem SameMap.backPage (h : SameMap s t) : backPage t = backPage s := by
  unfold Machine.backPage
  rw [h.front]

theorem getElem?_of_map_eq {α β : Type} {f : α → β} {l l' : List α} (h : l'.map f = l.map f)
    {k : Nat} {x' : α} (hk : l'[k]? = some x') : ∃ x, l[k]? = some x ∧ f x = f x' := by
  have hm : (l.map f)[k]? = some (f x') := by rw [← h, List.getElem?_map, hk]; rfl
  rw [List.getElem?_map] at hm
  exact Option.map_eq_some_iff.1 hm

theorem flightRel_tile {o o' : Option Flight} (h : Option.Rel Flight.Goes o o') :
    o'.map Flight.tile = o.map Flight.tile := by
  cases h with
  | none => rfl
  | some h => exact congrArg some h.2.1

/-- What the pattern of the map carries from s to t. -/
theorem SameMap.sound (h : SameMap s t) (hs : TileMapSound s) : TileMapSound t := by
  obtain ⟨hunset, hmap⟩ := hs
  constructor
  · intro hp
    obtain ⟨hf, hg, hfl⟩ := hunset (h.plane ▸ hp)
    refine ⟨h.fields.trans hf, fun g => ?_, ?_⟩
    · have hn := h.tiles g
      rw [hg g] at hn
      simpa using hn
    · have hr := h.flight
      rw [hfl] at hr
      cases ht : t.render.flight with
      | none => rfl
      | some f => rw [ht] at hr; cases hr
  · intro pl hp
    obtain ⟨hl, hlen, hsc, hfr, hback, hflight⟩ := hmap pl (h.plane ▸ hp)
    refine ⟨hl, fun g => ?_, h.scan ▸ hsc, ?_, fun k st hk => ?_, fun f hf => ?_⟩
    · have hn := congrArg List.length (h.tiles g)
      simpa [hlen g] using hn
    · refine forall_getElem?.2 fun k st hk => ?_
      unfold frontTiles at hk
      rw [h.front] at hk
      obtain ⟨st', hk', he⟩ := getElem?_of_map_eq (h.tiles _) hk
      rw [← he]
      exact forall_getElem?.1 hfr k st' hk'
    · unfold backTiles at hk
      rw [h.backPage] at hk
      obtain ⟨st', hk', he⟩ := getElem?_of_map_eq (h.tiles _) hk
      rw [flightRel_tile h.flight, ← he]
      exact hback k st' hk'
    · have hr := h.flight
      rw [hf] at hr
      cases hs : s.render.flight with
      | none => rw [hs] at hr; cases hr
      | some g =>
        rw [hs] at hr
        cases hr with
        | some hgo =>
          obtain ⟨hpage, hfits, htile, hrun⟩ := hflight g hs
          exact ⟨by rw [hgo.1, h.backPage]; exact hpage, hgo.2.2 hfits, by rw [hgo.2.1]; exact htile,
            h.running hrun⟩

theorem TileMapSound.of_eq (hs : TileMapSound s) (ht : u.tiles = s.tiles) (hr : u.render = s.render)
    (hp : u.page = s.page) : TileMapSound u := (SameMap.of_eq ht hr hp).sound hs

/-! ## Markings and the operations that end with one -/

theorem map_mapFrom {α β : Type} {f : Nat → α → α} {g : α → β} (h : ∀ i x, g (f i x) = g x) (i : Nat)
    (l : List α) : (mapFrom f i l).map g = l.map g := by
  induction l generalizing i with
  | nil => rfl
  | cons x l ih => simp [mapFrom, h, ih]

theorem marked_inFlight (st : TileState) : st.marked.inFlight = st.inFlight := by
  cases st <;> rfl

theorem markTiles_inFlight (rects : List TileRect) (cols : Nat) (l : List TileState) :
    (markTiles rects cols l).map TileState.inFlight = l.map TileState.inFlight :=
  map_mapFrom (fun _ st => by
    split
    · exact marked_inFlight st
    · rfl) 0 l

/-- A change of tiles alone that leaves those in flight. -/
theorem SameMap.of_tiles {m : TileMap} (hset : m.planeSet = s.tiles.planeSet)
    (hf : m.fields = s.tiles.fields)
    (hm : ∀ g, (m.ofPage g).map TileState.inFlight = (s.tiles.ofPage g).map TileState.inFlight) :
    SameMap s (s.setTiles m) :=
  ⟨hset, hf, hm, rfl, flightRel_refl _, rfl, id⟩

theorem mark_sameMap (rects : List TileRect) : SameMap s (mark rects s) := by
  unfold mark
  split
  next => exact .of_tiles rfl rfl fun g => by cases g <;> exact markTiles_inFlight ..
  next => exact .of_eq rfl rfl rfl

/-- An operation that ends with a marking. -/
theorem mark_of_sameMap (rects : List TileRect) (h : SameMap s t) : SameMap s (mark rects t) :=
  h.trans (mark_sameMap rects)

theorem editList_sameMap (id : Fin Config.placementCount) (l : List Placement) :
    SameMap s (editList id l s) := mark_of_sameMap _ (.of_eq rfl rfl rfl)

theorem markIndexed_sameMap (k : Fin Config.tableCount) : SameMap s (markIndexed k s) :=
  mark_sameMap _

theorem editButtons_sameMap (b : Fin Config.buttonCount) (bt : ButtonTable) :
    SameMap s (editButtons b bt s) := mark_of_sameMap _ (.of_eq rfl rfl rfl)

theorem giveReport_sameMap (r : Report) (h : SameMap s t) : SameMap s (giveReport r t) :=
  h.trans (.of_eq (by simp) (by simp) (by simp))

theorem dropButton_sameMap (b : Fin Config.buttonCount) (e : Button) :
    SameMap s (dropButton b e s) := by
  unfold dropButton
  split
  next => exact giveReport_sameMap _ (editButtons_sameMap b _)
  next => exact editButtons_sameMap b _

theorem moveSelection_sameMap (n : Fin Config.buttonCount) : SameMap s (moveSelection n s) :=
  giveReport_sameMap _ (mark_of_sameMap _ (.of_eq rfl rfl rfl))

theorem activate_sameMap (n : Fin Config.buttonCount) : SameMap s (activate n s) :=
  giveReport_sameMap _ (editButtons_sameMap n _)

theorem keyDirection_sameMap (k : Key) : SameMap s (keyDirection k s) := by
  unfold keyDirection
  split
  next =>
    split
    next => exact moveSelection_sameMap _
    next => exact .of_eq rfl rfl rfl
  next =>
    split
    next => exact .of_eq rfl rfl rfl
    next =>
      split
      next => exact .of_eq rfl rfl rfl
      next n _ =>
        split
        next => exact (moveSelection_sameMap n).trans (activate_sameMap n)
        next => exact moveSelection_sameMap n

theorem keyEnter_sameMap : SameMap s (keyEnter s) := by
  unfold keyEnter
  split
  next => exact .of_eq rfl rfl rfl
  next b _ =>
    split
    next => exact .of_eq rfl rfl rfl
    next => exact activate_sameMap b

theorem selectButton_sameMap (n : Fin Config.buttonCount) : SameMap s (selectButton n s) := by
  unfold selectButton
  split
  next =>
    split
    next => exact editButtons_sameMap n _
    next => exact .of_eq rfl rfl rfl
  next => exact moveSelection_sameMap n

theorem selectNone_sameMap : SameMap s (selectNone s) := by
  unfold selectNone
  split
  next b _ => exact giveReport_sameMap _ (editButtons_sameMap b _)
  next => exact .of_eq rfl rfl rfl

theorem endApp_goes (which : App → Bool) (f : Flight) : f.Goes (f.endApp which) := by
  unfold Flight.endApp
  split
  next a rest hp =>
    split
    next => exact .applying f _ rest
    next => exact .refl f
  next => exact .refl f

theorem endAppWhere_sameMap (which : App → Bool) : SameMap s (endAppWhere which s) := by
  refine ⟨rfl, rfl, fun _ => rfl, rfl, ?_, rfl, id⟩
  simp only [endAppWhere, State.setRender_render]
  cases s.render.flight with
  | none => exact .none
  | some f => exact .some (endApp_goes which f)

theorem writeObject_sameMap (id : Fin Config.objectCount) (e : ObjEntry) :
    SameMap s (writeObject id e s) := by
  have hset : SameMap s (s.setObjects (s.objects.set id e)) := .of_eq rfl rfl rfl
  exact mark_of_sameMap _ (hset.trans (endAppWhere_sameMap _))

theorem sceneReset_sameMap : SameMap s (sceneReset s) := by
  have hempty : SameMap s (emptyTables s) := .of_eq rfl rfl rfl
  have happ := hempty.trans (endAppWhere_sameMap fun _ => true)
  refine happ.trans ⟨rfl, rfl, fun g => ?_, rfl, flightRel_refl _, rfl, id⟩
  cases g <;>
    simp [sceneReset, TileMap.ofPage, Function.comp_def, marked_inFlight]

theorem objectFault_sameMap (id : Fin Config.objectCount) (c : ObjCause) :
    SameMap s (objectFault id c s) := by
  unfold objectFault
  split
  next => exact mark_of_sameMap _ (giveReport_sameMap _ (.of_eq rfl rfl rfl))
  next => exact .of_eq rfl rfl rfl

/-- An application in the place of another. -/
theorem setApp_sameMap {f : Flight} (hf : s.render.flight = some f) (a : App) (rest : List Placement) :
    SameMap s (setApp f a rest s) := by
  refine ⟨rfl, rfl, fun _ => rfl, rfl, ?_, rfl, id⟩
  rw [hf]
  exact .some (.applying f a rest)

theorem objectWord_sameMap (a : Nat) (w : BusWord) : SameMap s (objectWord a w s) := by
  unfold objectWord
  split
  next => exact .of_eq rfl rfl rfl
  next f b rest hc =>
    obtain ⟨hf, _⟩ := currentApp_flight hc
    split
    next => exact .of_eq rfl rfl rfl
    next =>
      split
      next =>
        unfold faultIfShort
        split
        next => exact (setApp_sameMap hf _ _).trans (objectFault_sameMap _ _)
        next => exact setApp_sameMap hf _ _
      next =>
        exact (giveReport_sameMap _ (setApp_sameMap hf _ _)).trans (objectFault_sameMap _ _)

/-! ## Rows -/

/-- A flight in another phase, row or pixels. -/
theorem setFlight_sameMap {f g : Flight} (hf : s.render.flight = some f) (h : f.Goes g)
    (req : RenderReq) : SameMap s (setFlight g req s) := by
  refine ⟨rfl, rfl, fun _ => rfl, rfl, ?_, rfl, id⟩
  rw [hf]
  exact .some h

/-- The flight after the entries of a row have been gone through: its phase alone is new. -/
theorem advanceRow_flight (pl : Plane) (f : Flight) (l : List Placement) :
    ∃ ph, (advanceRow pl f l s).render = { s.render with flight := some { f with phase := ph } }
      ∧ ∀ n, ph = .storing n → n = 0 := by
  induction l with
  | nil => exact ⟨.storing 0, rfl, fun n h => by cases h; rfl⟩
  | cons p rest ih =>
    unfold advanceRow
    split
    next a _ => exact ⟨.applying a rest, rfl, fun n h => nomatch h⟩
    next => exact ih

theorem advanceRow_sameMap (pl : Plane) {f g : Flight} (hf : s.render.flight = some f)
    (h : f.Goes g) (l : List Placement) : SameMap s (advanceRow pl g l s) := by
  obtain ⟨ph, hr, hph⟩ := advanceRow_flight (s := s) pl g l
  refine ⟨by simp, by simp, fun _ => by simp, by rw [hr], ?_, by simp, by simp⟩
  rw [hr, hf]
  refine .some (h.trans ⟨rfl, rfl, fun ⟨hrow, hpix, _⟩ => ⟨hrow, hpix, fun n hn => ?_⟩⟩)
  rw [hph n hn]
  decide

theorem mapFrom_length {α : Type} (f : Nat → α → α) (i : Nat) (l : List α) :
    (mapFrom f i l).length = l.length := by
  simpa using congrArg List.length (map_mapFrom (g := fun _ => ()) (f := f) (fun _ _ => rfl) i l)

theorem FetchDone.sameMap {r : LineReq} (h : FetchDone r s u) : SameMap s u := by
  cases h with
  | none => exact .of_eq rfl rfl rfl
  | next hf => exact setFlight_sameMap hf (.applying _ _ _) _
  | ended hf => exact advanceRow_sameMap _ hf (.refl _) _
  | @applied f a rest pl hf => exact advanceRow_sameMap pl hf (.pixels f (mapFrom_length ..)) rest

/-- The next line of a row, or the next row of the tile, while its last store is to come. -/
theorem renderStoreEffect_sameMap (h : ∀ f n, currentStore s = some (f, n) → lastStore f n = false) :
    SameMap s (renderStoreEffect s) := by
  unfold renderStoreEffect
  split
  next f n pl hc _ =>
    obtain ⟨hf, hph⟩ := currentStore_flight hc
    have hlast := h f n hc
    split
    next =>
      exact setFlight_sameMap hf (.storing f fun _ => by omega) _
    next hn =>
      refine advanceRow_sameMap _ hf (.row f pl.clear fun ⟨hr, _, hl⟩ => ?_) _
      have hn16 := hl n hph
      have h7 : f.row ≠ 7 := by
        intro h7
        have h15 : n = 15 := by omega
        simp [lastStore, h7, h15] at hlast
      omega
  next => exact .of_eq rfl rfl rfl

/-! ## The plane set and unset -/

theorem planeOf_legal {f : PlaneFields} (h : planeFieldsOk f = true) : (planeOf f).Legal := by
  simp only [planeFieldsOk, Bool.and_eq_true, beq_iff_eq, decide_eq_true_eq] at h
  obtain ⟨⟨⟨⟨⟨⟨⟨⟨⟨hw, hw0⟩, hw1⟩, hh⟩, hh0⟩, hh1⟩, ha⟩, hb⟩, hea⟩, heb⟩ := h
  refine ⟨hw, ?_, hw1, hh, ?_, hh1, ha, hb, hea, heb⟩
  · have hpos : 0 < f.width := hw0
    simp only [planeOf]
    omega
  · have hpos : 0 < f.height := hh0
    simp only [planeOf]
    omega

theorem Plane.Legal.tileCount_pos {pl : Plane} (h : pl.Legal) : 0 < pl.tileCount := by
  obtain ⟨_, hw, _, _, hh, _⟩ := h
  exact Nat.mul_pos (Nat.div_pos hw (by decide)) (Nat.div_pos hh (by decide))

/-- A plane as it is set: every tile DIRTY and none in flight. -/
theorem applyPlane_sound (hok : planeFieldsOk (planeFields s) = true)
    (hf : s.render.flight = none) : TileMapSound (applyPlane s) := by
  have hdirty : ∀ g, (applyPlane s).tiles.ofPage g = allDirty (planeOf (planeFields s)) :=
    fun g => by cases g <;> rfl
  have hnone : ∀ g, ∀ st ∈ (applyPlane s).tiles.ofPage g, st.inFlight = false := fun g st hst => by
    rw [hdirty] at hst
    rw [List.eq_of_mem_replicate hst]
    rfl
  refine ⟨fun h => by simp at h, fun pl hp => ?_⟩
  obtain rfl : planeOf (planeFields s) = pl := by simpa using hp
  have hflight : (applyPlane s).render.flight = none := by simpa [applyPlane] using hf
  have hlegal := planeOf_legal hok
  refine ⟨hlegal, fun g => ?_, hlegal.tileCount_pos, hnone _, fun k st hk => ?_, fun f h => ?_⟩
  · rw [hdirty]
    exact List.length_replicate
  · rw [hnone _ st (List.mem_of_getElem? hk), hflight]
    simp
  · rw [hflight] at h
    cases h

/-- With no plane, no tile and no flight. -/
theorem tileMapSound_empty (ht : u.tiles = TileMap.empty) (hr : u.render = RenderEngine.idle) :
    TileMapSound u := by
  have hp : u.tiles.plane = none := by rw [ht]; rfl
  refine ⟨fun _ => ?_, fun pl h => by rw [hp] at h; cases h⟩
  rw [ht, hr]
  exact ⟨rfl, fun g => by cases g <;> rfl, rfl⟩

/-! ## The completion of a tile -/

theorem ofPage_setPage (m : TileMap) (g h : Page) (l : List TileState) :
    (m.setPage g l).ofPage h = if h = g then l else m.ofPage h := by
  cases g <;> cases h <;> rfl

theorem other_ne (g : Page) : g.other ≠ g := by
  cases g <;> decide

theorem completed_inFlight (st : TileState) : st.completed.inFlight = false := by
  cases st <;> rfl

/-- The completed tile is in flight no more, and no other was. -/
theorem completeTile_sound {pl : Plane} {f : Flight} (hf : s.render.flight = some f)
    (hp : s.tiles.plane = some pl) (hs : TileMapSound s) : TileMapSound (completeTile pl f s) := by
  obtain ⟨hl, hlen, _, hfr, hback, hflight⟩ := hs.2 pl hp
  obtain ⟨hpage, _, _, _⟩ := hflight f hf
  have hplane : (completeTile pl f s).tiles.plane = some pl := by simpa using hp
  refine ⟨fun h => absurd (hplane.symm.trans h) nofun, fun pl' hp' => ?_⟩
  obtain rfl : pl = pl' := Option.some.inj (hplane.symm.trans hp')
  have htiles : ∀ g, (completeTile pl f s).tiles.ofPage g
      = if g = backPage s then (s.tiles.ofPage (backPage s)).modify f.tile TileState.completed
        else s.tiles.ofPage g := fun g => by
    simp only [completeTile, State.setRender_tiles, State.setTiles_tiles, ofPage_setPage, hpage]
  refine ⟨hl, fun g => ?_, Nat.mod_lt _ hl.tileCount_pos, ?_, fun k st hk => ?_, fun f h => nomatch h⟩
  · rw [htiles]
    split
    · rw [List.length_modify]; exact hlen _
    · exact hlen g
  · intro st hst
    have hne : s.page.front ≠ backPage s := (other_ne _).symm
    have hst' : st ∈ s.tiles.ofPage s.page.front := by
      unfold frontTiles at hst
      rw [htiles] at hst
      simpa [completeTile, hne] using hst
    exact hfr st hst'
  · have hk' : ((s.tiles.ofPage (backPage s)).modify f.tile TileState.completed)[k]? = some st := by
      unfold backTiles at hk
      rw [htiles] at hk
      simpa [completeTile, backPage] using hk
    have hnot : st.inFlight = false := by
      rw [List.getElem?_modify, Option.map_eq_map, Option.map_eq_some_iff] at hk'
      obtain ⟨st', hst', he⟩ := hk'
      by_cases hkt : f.tile = k
      · rw [← he, if_pos hkt]
        exact completed_inFlight _
      · rw [if_neg hkt] at he
        subst he
        have hiff := hback k st' hst'
        rw [hf] at hiff
        cases hin : st'.inFlight with
        | false => rfl
        | true => exact absurd (Option.some.inj (hiff.1 hin)) hkt
    rw [hnot]
    simp [completeTile]

/-! ## A tile taken -/

theorem renderState_rendering (h : renderState s = .rendering) :
    renderHeld s = false ∧ .dirty ∈ s.tiles.ofPage (backPage s) := by
  unfold renderState at h
  split at h
  next => cases h
  next hh =>
    split at h
    next hd => exact ⟨by simpa using hh, by simpa using hd⟩
    next => cases h

theorem renderHeld_running (h : renderHeld s = false) : s.page.running = none := by
  simp only [renderHeld, Bool.or_eq_false_iff] at h
  simpa using h.1.2

/-- A DIRTY tile of the back page has become BUSY, and row 0 of it is in hand. -/
theorem taken_sound {pl : Plane} {k : Nat} {ph : RowPhase} (hp : s.tiles.plane = some pl)
    (hf : s.render.flight = none) (hrun : s.page.running = none)
    (hk : (s.tiles.ofPage (backPage s))[k]? = some .dirty)
    (ht : u.tiles = s.tiles.setPage (backPage s) ((s.tiles.ofPage (backPage s)).set k .busy))
    (hr : u.render = { s.render with
      flight := some ⟨k, backPage s, 0, List.replicate 64 pl.clear, ph⟩ })
    (hph : ∀ n, ph = .storing n → n = 0) (hpage : u.page = s.page) (hs : TileMapSound s) :
    TileMapSound u := by
  obtain ⟨hl, hlen, hsc, hfr, hback, _⟩ := hs.2 pl hp
  have hplane : u.tiles.plane = some pl := by rw [ht]; simpa using hp
  have hbp : backPage u = backPage s := by rw [backPage, hpage]; rfl
  have hklt : k < (s.tiles.ofPage (backPage s)).length := (List.getElem?_eq_some_iff.1 hk).1
  refine ⟨fun h => absurd (hplane.symm.trans h) nofun, fun pl' hp' => ?_⟩
  obtain rfl : pl = pl' := Option.some.inj (hplane.symm.trans hp')
  refine ⟨hl, fun g => ?_, by rw [hr]; exact hsc, ?_, fun j st hj => ?_, fun f h => ?_⟩
  · rw [ht, ofPage_setPage]
    split
    · rw [List.length_set]; exact hlen _
    · exact hlen g
  · have hne : s.page.front ≠ backPage s := (other_ne _).symm
    unfold frontTiles
    rw [ht, ofPage_setPage, hpage, if_neg hne]
    exact hfr
  · unfold backTiles at hj
    rw [hbp, ht, ofPage_setPage, if_pos rfl, List.getElem?_set] at hj
    rw [hr]
    simp only [Option.map_some, Option.some.injEq]
    split at hj
    next hkj =>
      cases hj
      exact ⟨fun _ => hkj, fun _ => rfl⟩
    next hkj =>
      have hiff := hback j st hj
      rw [hf] at hiff
      exact ⟨(fun h => nomatch hiff.1 h), fun h => absurd h hkj⟩
  · rw [hr] at h
    cases h
    refine ⟨hbp.symm, ⟨Nat.zero_lt_succ 7, List.length_replicate, fun n hn => ?_⟩, ?_, by rw [hpage]; exact hrun⟩
    · rw [hph n hn]
      decide
    · rw [← hlen (backPage s)]
      exact hklt

/-- The tile taken is the one tile in flight. -/
theorem takeTile_sound (hs : TileMapSound s) : TileMapSound (takeTile s) := by
  unfold takeTile
  split
  next pl hp hf =>
    split
    next hr =>
      split
      next k hk =>
        obtain ⟨hd, _⟩ := nextDirty_spec hk
        obtain ⟨hheld, _⟩ := renderState_rendering hr
        obtain ⟨ph, hrow, hph⟩ := advanceRow_flight (s := s.setTiles (s.tiles.setPage (backPage s)
          ((s.tiles.ofPage (backPage s)).set k .busy))) pl
          ⟨k, backPage s, 0, List.replicate 64 pl.clear, .storing 0⟩ s.list
        exact taken_sound hp hf (renderHeld_running hheld) hd (by simp) hrow hph (by simp) hs
      next => exact hs
    next => exact hs
  next => exact hs

/-! ## A flip -/

theorem backClean_flight {pl : Plane} (hb : backClean s = true) (hs : MapSound s pl) :
    s.render.flight = none := by
  cases hf : s.render.flight with
  | none => rfl
  | some f =>
    obtain ⟨_, _, htile, _⟩ := hs.flight f hf
    have hlen := hs.length (backPage s)
    obtain ⟨st, hst⟩ : ∃ st, (backTiles s)[f.tile]? = some st :=
      ⟨_, List.getElem?_eq_getElem (by rw [backTiles, hlen]; exact htile)⟩
    have hin := (hs.back f.tile st hst).2 (by rw [hf]; rfl)
    have hclean : st = .clean := by
      have h := List.all_eq_true.1 hb st (List.mem_of_getElem? hst)
      simpa using h
    rw [hclean] at hin
    cases hin

/-- The pages change roles while no tile is in flight. -/
theorem flip_sound (hb : backClean s = true) (hs : TileMapSound s) : TileMapSound (flip s) := by
  have hpage : ∀ g, (flip s).tiles.ofPage g = s.tiles.ofPage g := fun g => by
    cases g <;> simp [flip, TileMap.ofPage]
  have hfront : (flip s).page.front = backPage s := by rw [flip_page]; rfl
  have hback : backPage (flip s) = s.page.front := by
    rw [backPage, hfront, backPage]
    cases s.page.front <;> rfl
  have hrender : (flip s).render = s.render := by simp
  refine ⟨fun hp => ?_, fun pl hp => ?_⟩
  · obtain ⟨hf, hg, hfl⟩ := hs.1 (by simpa using hp)
    exact ⟨by simpa [flip] using hf, fun g => by rw [hpage]; exact hg g, by rw [hrender]; exact hfl⟩
  · have hmap := hs.2 pl (by simpa using hp)
    have hfl := backClean_flight hb hmap
    refine ⟨hmap.legal, fun g => by rw [hpage]; exact hmap.length g, by rw [hrender]; exact hmap.scan,
      ?_, fun k st hk => ?_, fun f h => ?_⟩
    · unfold frontTiles
      rw [hfront, hpage]
      intro st hst
      have h := List.all_eq_true.1 hb st hst
      rw [beq_iff_eq] at h
      rw [h]
      rfl
    · unfold backTiles at hk
      rw [hback, hpage] at hk
      rw [hrender, hfl, hmap.front st (List.mem_of_getElem? hk)]
      simp
    · rw [hrender, hfl] at h
      cases h

theorem endTransition_sameMap : SameMap s (endTransition s) := by
  refine ⟨by simp, by simp, fun _ => by simp, by simp, ?_, by rw [endTransition_page], fun _ => ?_⟩
  · rw [endTransition_render]
    exact flightRel_refl _
  · rw [endTransition_page]

theorem stepTransition_sameMap : SameMap s (stepTransition s) := by
  unfold stepTransition
  split
  next => exact .of_eq rfl rfl rfl
  next r hr =>
    split
    next => exact ⟨rfl, rfl, fun _ => rfl, rfl, flightRel_refl _, rfl, fun h => by rw [hr] at h; cases h⟩
    next => exact endTransition_sameMap

theorem holdAndPulse_sameMap : SameMap s (holdAndPulse s) := by
  unfold holdAndPulse
  split
  next => exact .of_eq rfl rfl rfl
  next =>
    split
    next => exact editButtons_sameMap _ _
    next => exact .of_eq rfl rfl rfl

theorem flipDue_backClean (h : flipDue s = true) : backClean s = true := by
  simp only [flipDue, Bool.and_eq_true] at h
  exact h.1.1.1.2

theorem SameMap.backClean_eq (h : SameMap s t) (ht : t.tiles = s.tiles) :
    backClean t = backClean s := by
  unfold backClean
  rw [h.backPage, ht]

theorem frameStepped_sound (hs : TileMapSound s) : TileMapSound (frameStepped s) := by
  have hcount : SameMap s (countFrame s) := .of_eq rfl rfl rfl
  have hstep : SameMap s (stepTransition (countFrame s)) := hcount.trans stepTransition_sameMap
  unfold frameStepped
  split
  next h =>
    refine flip_sound ?_ (hstep.sound hs)
    rw [hstep.backClean_eq (by simp)]
    exact flipDue_backClean h
  next => exact hstep.sound hs

theorem countFrame_sound (hs : TileMapSound s) : TileMapSound (countFrame s) :=
  hs.of_eq rfl rfl rfl

theorem frameStart_sound (hs : TileMapSound s) : TileMapSound (frameStart s) := by
  unfold frameStart
  split
  next => exact hs
  next => exact hs
  next => exact countFrame_sound hs
  next => exact countFrame_sound hs
  next =>
    rw [activeFrame_eq]
    have hword : SameMap (frameStepped s) (handStateWord s (frameStepped s)) :=
      .of_eq (by simp) (by simp) (by simp)
    exact (hword.trans holdAndPulse_sameMap).sound (frameStepped_sound hs)

/-! ## Every effect on the tile map -/

theorem planeCheck_fieldsOk (h : planeCheck s = none) : planeFieldsOk (planeFields s) = true := by
  unfold planeCheck at h
  split at h
  next => cases h
  next hok => simpa using hok

theorem RecordDone.tileMapSound {k : RecKind} (h : RecordDone s k u) (hs : TileMapSound s) :
    TileMapSound u := by
  cases h with
  | sceneReset => exact sceneReset_sameMap.sound hs
  | park =>
    have hpark : SameMap (endTransition s) ((endTransition s).setEngine .parked) := .of_eq rfl rfl rfl
    exact (endTransition_sameMap.trans hpark).sound hs
  | setupPlane hc hf => exact applyPlane_sound (planeCheck_fieldsOk hc) hf
  | setColour k i v =>
    have hset : SameMap s (s.setColours (s.colours.write k i v)) := .of_eq rfl rfl rfl
    exact (hset.trans (markIndexed_sameMap k)).sound hs
  | defineObject id e => exact (writeObject_sameMap id e).sound hs
  | dropObject id => exact (writeObject_sameMap id _).sound hs
  | place p => exact (editList_sameMap _ _).sound hs
  | move id => exact (editList_sameMap _ _).sound hs
  | setOpacity id => exact (editList_sameMap _ _).sound hs
  | remove id => exact (editList_sameMap _ _).sound hs
  | defineButton b d => exact (editButtons_sameMap _ _).sound hs
  | disableSelected b => exact (dropButton_sameMap _ _).sound hs
  | deleteButton b => exact (dropButton_sameMap _ _).sound hs
  | keyEnter => exact keyEnter_sameMap.sound hs
  | keyDirection k => exact (keyDirection_sameMap k).sound hs
  | selectNone => exact selectNone_sameMap.sound hs
  | selectButton n => exact (selectButton_sameMap n).sound hs
  | showRecord => exact SameMap.sound (s := s) ⟨rfl, rfl, fun g => by cases g <;> rfl, rfl, flightRel_refl _, rfl, id⟩ hs
  | batchOpen => exact SameMap.sound (s := s) ⟨rfl, rfl, fun _ => rfl, rfl, flightRel_refl _, rfl, id⟩ hs
  | batchClose => exact SameMap.sound (s := s) ⟨rfl, rfl, fun _ => rfl, rfl, flightRel_refl _, rfl, id⟩ hs
  | _ => exact hs.of_eq rfl rfl rfl

theorem planeFields_congr (hsl : u.intake.slots = s.intake.slots)
    (hh : u.intake.header = s.intake.header) : planeFields u = planeFields s := by
  simp only [planeFields, body, operand, hsl, hh]

theorem TileDone.tileMapSound (h : TileDone s u) (hw : WaitSound s) (hs : TileMapSound s) :
    TileMapSound u := by
  cases h with
  | none => exact hs
  | done hf hp => exact completeTile_sound hf hp hs
  | @planeSet f pl hf hp hwait =>
    have hok : planeFieldsOk (planeFields (completeTile pl f s)) = true := by
      rw [planeFields_congr (s := s) (by simp) (by simp)]
      exact hw hwait
    refine SameMap.sound ?_ (applyPlane_sound hok rfl)
    exact .of_eq (by simp) (by simp) (by simp)

theorem endLoad_sameMap : SameMap s (endLoad s) := by
  unfold endLoad
  split
  next => exact .of_eq rfl rfl rfl
  next l _ =>
    have hset : SameMap s (s.setColours
        { s.colours with load := none, inFlight := s.colours.inFlight.set l.table false }) :=
      .of_eq rfl rfl rfl
    exact (hset.trans (markIndexed_sameMap l.table)).trans (.of_eq (by simp) (by simp) (by simp))

theorem OwnEffect.tileMapSound {c : Instr} {o : OwnReq} {effect : State → State}
    (he : OwnEffect s c o effect) (hd : s.resetDue = false) (hw : WaitSound s)
    (hs : TileMapSound s) : TileMapSound (effect (s.setMside .free)) := by
  have hm : TileMapSound (s.setMside .free) := hs.of_eq rfl rfl rfl
  cases he with
  | loadDone => exact endLoad_sameMap.sound hm
  | objectFetch r => exact (objectFetchEffect_done r).sameMap.sound hm
  | rowStore a p ws f n hf hn =>
    refine (renderStoreEffect_sameMap fun g m hg => ?_).sound hm
    obtain ⟨rfl, rfl⟩ : f = g ∧ n = m := by simpa using hf.symm.trans hg
    simpa [hd] using hn
  | tile => exact tileEffect_done.tileMapSound hw hm
  | _ => exact hs.of_eq (by simp) (by simp) (by simp)

theorem Watched.tileMapSound (h : Watched s u) (hs : TileMapSound s) : TileMapSound u := by
  cases h with
  | reanchored => exact tileMapSound_empty (by simp) (by simp)
  | _ => exact hs.of_eq (by simp) (by simp) (by simp)

theorem CEffect.tileMapSound {c : Instr} {x : CTxn} {effect : State → State}
    (he : CEffect s x c effect) (hs : TileMapSound s) : TileMapSound (effect (cDone s)) := by
  obtain ⟨v, ho, hw⟩ := he.offered_watched
  have hd : TileMapSound (cDone s) := hs.of_eq rfl rfl rfl
  have hv : SameMap (cDone s) v :=
    .of_eq (by cases ho <;> simp) (by cases ho <;> simp) (by cases ho <;> simp)
  exact hw.tileMapSound (hv.sound hd)

theorem Effect.tileMapSound {c : Instr} (h : Effect s c u) (hw : WaitSound s)
    (hs : TileMapSound s) : TileMapSound u := by
  cases h with
  | carried _ _ hu =>
    exact SameMap.sound (.of_eq (by simp) (by simp) (by simp)) (hu.tileMapSound hs)
  | frame => exact frameStart_sound hs
  | sweep => exact tileMapSound_empty (by simp) (by simp)
  | objectWord w r n =>
    have hm : TileMapSound (s.setMside (.own (.render (.fetch r)) (n + 1))) :=
      hs.of_eq rfl rfl rfl
    exact (objectWord_sameMap _ w).sound hm
  | own he _ hd => exact he.tileMapSound hd hw hs
  | cSide he => exact he.tileMapSound hs
  | _ => exact hs.of_eq (by simp) (by simp) (by simp)

theorem Event.tileMapSound {c : Instr} (h : Event s c t) (hw : WaitSound s) (hs : TileMapSound s) :
    TileMapSound t := by
  cases h with
  | finished h =>
    have ht := takeTile_sound (h.tileMapSound hw hs)
    exact SameMap.sound (.of_eq (by simp [finish]) (by simp [finish]) (by simp [finish])) ht
  | bypassed => exact tileMapSound_empty (by simp) (by simp)
  | joined =>
    refine SameMap.sound ?_ hs
    unfold leaveBypass
    split <;>
      exact .of_eq (by simp [cDone, enterService]) (by simp [cDone, enterService])
        (by simp [cDone, enterService])
  | _ => exact hs.of_eq (by simp) (by simp) (by simp)

/-! ## A SETUP PLANE that waits -/

theorem WaitSound.of_kept (h : IntakeKept s u) (hs : WaitSound s) : WaitSound u := by
  intro hw
  have hst : u.intake.state = .executing .planeWait := by simpa [planeWaits] using hw
  obtain ⟨he, hsl, hh⟩ := Intake.Kept.state_of h (by rw [hst]; rfl)
  rw [planeFields_congr hsl hh]
  exact hs (by simp [planeWaits, ← he, hst])

theorem WaitSound.of_state (h : u.intake.state ≠ .executing .planeWait) : WaitSound u := by
  intro hw
  exact absurd (by simpa [planeWaits] using hw) h

theorem HaltsOrKeeps.waitSound (h : HaltsOrKeeps s u) (hs : WaitSound s) : WaitSound u := by
  rcases h with ⟨_, k, rfl⟩ | h
  · exact .of_state (by rw [halt_intake]; nofun)
  · exact hs.of_kept h

theorem TileDone.waitSound (h : TileDone s u) (he : EngineSound s) (hs : WaitSound s) :
    WaitSound u := by
  cases h with
  | none => exact hs
  | done => exact hs.of_kept (.of_eq (by simp))
  | @planeSet f pl _ _ hw =>
    have hst : s.intake.state = .executing .planeWait := by simpa [planeWaits] using hw
    have ha := he.anchored (by rw [hst]; nofun)
    obtain ⟨x, hx⟩ := Option.isSome_iff_exists.1 ha.anchor
    exact .of_state (by rw [endRecord_intake _ (x := x) (by simpa using hx)]; nofun)

theorem endLoad_waitSound (he : EngineSound s) (hs : WaitSound s) : WaitSound (endLoad s) := by
  unfold endLoad
  split
  next => exact hs
  next l hl =>
    cases hx : s.intake.anchor with
    | some x => exact .of_state (by rw [endRecord_intake _ (x := x) (by simpa using hx)]; nofun)
    | none =>
      have hst : s.intake.state = .absent := he.2.1.2 hx
      refine .of_state ?_
      simp [endRecord, beginProbe, hx, hst]

theorem OwnEffect.waitSound {c : Instr} {o : OwnReq} {effect : State → State}
    (he : OwnEffect s c o effect) (hs : EngineSound s) (hw : WaitSound s) :
    WaitSound (effect (s.setMside .free)) := by
  have hm : EngineSound (s.setMside .free) := hs.congr (.of_eq rfl) rfl rfl rfl rfl rfl nofun
  have hwm : WaitSound (s.setMside .free) := hw
  cases he with
  | probe => exact (probeEffect_haltsOrKeeps ..).waitSound hwm
  | refetch => exact refetchEffect_haltsOrKeeps.waitSound hwm
  | loadDone => exact endLoad_waitSound hm hwm
  | tile => exact tileEffect_done.waitSound hm hwm
  | objectFetch r => exact hwm.of_kept (.of_eq (objectFetchEffect_done r).intake)
  | _ => exact hwm.of_kept (.of_eq (by simp))

theorem attach_waitSound (x : Anchor) : WaitSound (attach x s) :=
  .of_state (by rw [attach_intake]; nofun)

theorem Watched.waitSound (h : Watched s u) (hs : WaitSound s) : WaitSound u := by
  cases h with
  | attached => exact attach_waitSound _
  | reanchored => exact attach_waitSound _
  | none => exact hs
  | latched => exact hs

theorem CEffect.waitSound {c : Instr} {x : CTxn} {effect : State → State}
    (he : CEffect s x c effect) (hw : WaitSound s) : WaitSound (effect (cDone s)) := by
  obtain ⟨v, ho, hwatch⟩ := he.offered_watched
  exact hwatch.waitSound (WaitSound.of_kept (s := cDone s) ho.kept hw)

theorem endSweep_waitSound : WaitSound (endSweep s) := by
  unfold endSweep
  split
  next => exact attach_waitSound _
  next => exact .of_state nofun

theorem Effect.waitSound {c : Instr} (h : Effect s c u) (hs : EngineSound s) (hw : WaitSound s) :
    WaitSound u := by
  cases h with
  | carried _ h hu => exact hw.of_kept (carried_kept h hu.intake)
  | refused _ h => exact hw.of_kept (endRecord_kept _ (holdsRecord_searching h) pFits_advancedP)
  | wrap h => exact hw.of_kept (endRecord_kept _ (holdsRecord_searching h) pFits_zero)
  | planeWaits _ hc => exact fun _ => planeCheck_fieldsOk hc
  | loadBegins => exact .of_state nofun
  | sweep => exact endSweep_waitSound
  | drained e rest hq hst =>
    exact hw.of_kept (drainInto_kept e hq (by rcases hst with e | e <;> rw [e] <;> rfl))
  | discarded => exact hw
  | own he => exact he.waitSound hs hw
  | cSide he => exact he.waitSound hw
  | _ => exact hw.of_kept (.of_eq (by simp [enterService]))

theorem Event.waitSound {c : Instr} (h : Event s c t) (hs : EngineSound s) (hw : WaitSound s) :
    WaitSound t := by
  cases h with
  | finished h => exact (h.waitSound hs hw).of_kept (.of_eq (by simp))
  | bypassed => exact .of_state (by rw [beginBypass_intake]; nofun)
  | joined =>
    refine hw.of_kept (.of_eq ?_)
    unfold leaveBypass
    split <;> simp [cDone, enterService]
  | refetchWord w req n =>
    exact hw.of_kept (refetchArrival_kept (s := s.setMside (.own (.intake (.refetch req)) (n + 1))) req n w)
  | drainedAll => exact hw
  | _ => exact hw.of_kept (.of_eq (by simp))

/-- Settles O56: what each event keeps of the tile map, and of a SETUP PLANE that waits. -/
theorem stepKeepsTilesSound : Obligations.StepKeepsTilesSound := by
  intro s t he hs h
  refine ⟨step_keeps_engineSound h he, ?_⟩
  obtain ⟨hw, hm⟩ := tilesSound_iff.1 hs
  rw [tilesSound_iff]
  rcases step_cases h with rfl | ⟨c, rest, hev⟩
  · exact ⟨hw, hm⟩
  · exact ⟨hev.waitSound (he.setPending rest) hw, hev.tileMapSound hw (hm.of_eq rfl rfl rfl)⟩

end
end Sys2Proof.Machine
end

