-- ==== Sys2Proof/Proofs/Work.lean ====
section
/-! SUPPORT. No work is left lying: the arbiter serves, a tile is taken, and a report is handed. -/
namespace Sys2Proof.Machine
set_option Elab.async false
open Sys2Proof

section
variable {s t u : State}

/-! ## The arbiter -/

theorem accept_mside (r : BusReq) : ∃ m, (accept r s).mside = .controller m := by
  unfold accept
  split
  next => exact ⟨_, rfl⟩
  next =>
    split
    next => split <;> exact ⟨_, rfl⟩
    next => exact ⟨_, rfl⟩

/-- After a grant no request waits at a free M-side. -/
theorem grant_served : ArbiterServed (grant s) := by
  intro hm
  unfold grant at hm ⊢
  split at hm
  next r hfree hc =>
    exfalso
    split at hm
    next =>
      split at hm
      next => cases hm
      next =>
        obtain ⟨m, h⟩ := accept_mside (s := s.setPassover (min 15 (s.passover + 1))) r
        rw [h] at hm
        cases hm
    all_goals
      obtain ⟨m, h⟩ := accept_mside (s := s) r
      rw [h] at hm
      cases hm
  next hfree hc =>
    split at hm
    next => cases hm
    next hp hsel => exact ⟨by simp [hc, CState.isWaiting], fun _ => by simp [hsel]⟩
    next hp => exact ⟨by simp [hc, CState.isWaiting], fun h => by simp [hp] at h⟩
  next x hfree hc =>
    split at hm
    next => cases hm
    next hp hsel => exact ⟨by simp [hc, CState.isWaiting], fun _ => by simp [hsel]⟩
    next hp => exact ⟨by simp [hc, CState.isWaiting], fun h => by simp [hp] at h⟩
  next h => rw [h] at hm; cases hm
  next h => rw [h] at hm; cases hm

/-- An event that grants nothing leaves what waits, and adds no C-side request. -/
theorem ArbiterServed.congr (h : ArbiterServed s) (hm : t.mside = .free → s.mside = .free)
    (hc : s.cside.state.isWaiting = false → t.cside.state.isWaiting = false)
    (hp : t.path = s.path) (hw : t.waiting = s.waiting) : ArbiterServed t := by
  intro hfree
  obtain ⟨hidle, hown⟩ := h (hm hfree)
  exact ⟨hc hidle, fun e => by rw [hw]; exact hown (hp ▸ e)⟩

theorem Event.arbiterServed {c : Instr} (h : Event s c t) (hs : ArbiterServed s) :
    ArbiterServed t := by
  cases h with
  | finished => exact grant_served
  | bypassed => exact grant_served
  | joined => exact grant_served
  | storeWord => exact hs.congr id (fun _ => rfl) rfl rfl
  | fetchWord => exact hs.congr id (fun _ => rfl) rfl rfl
  | firstFetch => exact fun hm => nomatch hm
  | refetchWord => exact fun hm => by simp at hm
  | _ => exact hs.congr id id rfl rfl

/-! ## The tile taken -/

theorem renderState_held : renderState s = .held ↔ renderHeld s = true := by
  unfold renderState
  split
  next h => simp [h]
  next h => split <;> simp [h]

/-- A DIRTY tile is found from the scan pointer or from tile 0 on. -/
theorem nextDirty_none {scan : Nat} {l : List TileState} (h : nextDirty scan l = none) :
    .dirty ∉ l := by
  intro hd
  obtain ⟨k, hk⟩ := List.getElem?_of_mem hd
  have hlt : k < l.length := (List.getElem?_eq_some_iff.1 hk).1
  unfold nextDirty at h
  have hmem : k ∈ (List.range l.length).drop scan ++ List.range scan := by
    rcases Nat.lt_or_ge k scan with hks | hks
    · exact List.mem_append_right _ (List.mem_range.2 hks)
    · refine List.mem_append_left _ ?_
      rw [List.range_eq_range', List.drop_range', List.mem_range'_1]
      omega
  exact List.find?_eq_none.1 h k hmem (by simp [hk])

theorem takeTile_taken : TileTaken (takeTile s) := by
  unfold takeTile
  split
  next pl hp hf =>
    split
    next hr =>
      split
      next k hk =>
        intro _
        obtain ⟨ph, hrow, _⟩ := advanceRow_flight (s := s.setTiles (s.tiles.setPage (backPage s)
          ((s.tiles.ofPage (backPage s)).set k .busy))) pl
          ⟨k, backPage s, 0, List.replicate 64 pl.clear, .storing 0⟩ s.list
        rw [beginRow, State.setTiles_list, hrow]
        rfl
      next hn => exact absurd (renderState_rendering hr).2 (nextDirty_none hn)
    next hr => exact fun h => absurd h hr
  next hnot =>
    intro hr
    obtain ⟨hheld, _⟩ := renderState_rendering hr
    cases hf : s.render.flight with
    | some f => rfl
    | none =>
      have hplane : s.tiles.plane.isSome = true := by
        simp only [renderHeld, Bool.or_eq_false_iff] at hheld
        simpa [Option.isSome_iff_ne_none] using hheld.1.1.1
      obtain ⟨pl, hp⟩ := Option.isSome_iff_exists.1 hplane
      exact absurd hf (hnot pl hp)

/-- The render state rests on the tile map, page control, the engine and whether a SETUP PLANE waits. -/
theorem renderState_congr (ht : t.tiles = s.tiles) (hp : t.page = s.page) (he : t.engine = s.engine)
    (hw : planeWaits t = planeWaits s) : renderState t = renderState s := by
  have hh : renderHeld t = renderHeld s := by simp only [renderHeld, ht, hp, he, hw]
  have hb : backPage t = backPage s := by rw [backPage, hp]; rfl
  unfold renderState
  rw [hh, hb, ht]

theorem TileTaken.congr (h : TileTaken s) (hr : t.render = s.render) (ht : t.tiles = s.tiles)
    (hp : t.page = s.page) (he : t.engine = s.engine) (hw : planeWaits t = planeWaits s) :
    TileTaken t := by
  intro hstate
  rw [hr]
  exact h (renderState_congr ht hp he hw ▸ hstate)

theorem planeWaits_congr (h : t.intake = s.intake) : planeWaits t = planeWaits s := by
  rw [planeWaits, h]
  rfl

theorem TileTaken.of_held (h : renderHeld t = true) : TileTaken t := by
  intro hr
  rw [renderState_held.2 h] at hr
  cases hr

theorem finish_taken : TileTaken (finish s) :=
  (takeTile_taken (s := s)).congr (by simp [finish]) (by simp [finish]) (by simp [finish])
    (by simp [finish]) (planeWaits_congr (by simp [finish]))

theorem IntakeKept.planeWaits (h : IntakeKept s t) : planeWaits t = planeWaits s := by
  unfold Machine.planeWaits
  rcases Intake.Kept.state h with ⟨he, _, _⟩ | ⟨hs, ht⟩
  · rw [he]
  · rw [beq_eq_false_iff_ne.2 (IntakeState.searching_planeWait hs),
      beq_eq_false_iff_ne.2 (IntakeState.searching_planeWait ht)]

theorem Event.tileTaken {c : Instr} (h : Event s c t) (hs : TileTaken s) : TileTaken t := by
  cases h with
  | finished => exact finish_taken
  | bypassed => exact .of_held (by simp [renderHeld, TileMap.plane, TileMap.empty])
  | joined =>
    unfold leaveBypass
    split
    next =>
      exact hs.congr (by simp [cDone]) (by simp [cDone]) (by simp [cDone]) (by simp [cDone])
        (planeWaits_congr (by simp [cDone]))
    next => exact .of_held (by simp [renderHeld, enterService])
  | refetchWord w req n =>
    exact hs.congr (by simp) (by simp) (by simp) (by simp)
      (refetchArrival_kept (s := s.setMside (.own (.intake (.refetch req)) (n + 1))) req n w).planeWaits
  | _ => exact hs.congr (by simp) (by simp) (by simp) (by simp) rfl

/-- What holds the render engine, condition by condition (R59). -/
theorem renderHeld_iff : renderHeld s = true ↔ s.tiles.plane = none ∨ s.engine ≠ .active
    ∨ s.page.running ≠ none ∨ s.intake.state = .executing .planeWait := by
  simp [renderHeld, planeWaits, or_assoc, Option.isSome_iff_ne_none]

theorem renderState_iff (s : State) {back : List TileState} (hb : back = s.tiles.ofPage (backPage s)) :
    (renderState s = .rendering ↔ renderHeld s = false ∧ .dirty ∈ back)
      ∧ (renderState s = .idle ↔ renderHeld s = false ∧ ¬ .dirty ∈ back) := by
  subst hb
  unfold renderState
  cases renderHeld s
  · by_cases hd : TileState.dirty ∈ s.tiles.ofPage (backPage s) <;> simp [hd]
  · simp

/-- Settles O59: a grant serves, the taking of a tile takes one where it can, and the hand-over of a report
hands one where it may. -/
theorem stepLeavesNoWorkWaiting : Obligations.StepLeavesNoWorkWaiting := by
  refine ⟨fun s t ha ht hr h => ⟨?_, ?_, step_keeps_reportTaken h hr⟩, fun s back hback => ?_⟩
  · rcases step_cases h with rfl | ⟨c, rest, hev⟩
    · exact ha
    · exact hev.arbiterServed ha
  · rcases step_cases h with rfl | ⟨c, rest, hev⟩
    · exact ht
    · exact hev.tileTaken (ht.congr rfl rfl rfl rfl rfl)
  · have hb : back = s.tiles.ofPage (backPage s) := by
      rw [hback, backPage]
      cases s.page.front <;> rfl
    obtain ⟨hrendering, hidle⟩ := renderState_iff s hb
    have hfree : renderHeld s = false ↔ s.tiles.plane ≠ none ∧ s.engine = .active
        ∧ s.page.running = none ∧ s.intake.state ≠ .executing .planeWait := by
      rw [← Bool.not_eq_true, renderHeld_iff]
      simp only [not_or, Decidable.not_not, ne_eq]
    rw [renderState_held, renderHeld_iff, hrendering, hidle, hfree]
    simp only [and_assoc, true_and]

end
end Sys2Proof.Machine
end

