-- ==== Sys2Proof/Proofs/StateWords.lean ====
section
/-! SUPPORT. The state word: what changes it, and that each change of it is handed. -/
namespace Sys2Proof.Machine
set_option Elab.async false
open Sys2Proof

/-! ## The store of the state word -/

/-- The store of this value of the state word waits. -/
def Issue.HasWord (v : Word) (i : Issue) : Prop :=
  ∃ x, i.anchor = some x ∧ controlStore x.addr .stateWord (fresh x.bigEndian v) ∈ i.class1

theorem IssueStep.keeps_hasWord {v : Word} {i j : Issue} (h : IssueStep i j) (hi : i.HasWord v) :
    j.HasWord v := by
  obtain ⟨x, hx, hmem⟩ := hi
  cases h with
  | index y r l n w hn => exact ⟨x, hx, handClass1_keeps hn.symm hmem⟩
  | line => exact ⟨x, hx, List.mem_append_left _ hmem⟩

theorem IssueStep.anchor {i j : Issue} (h : IssueStep i j) : j.anchor = i.anchor := by
  cases h <;> rfl

/-- With a ring, the state word of u is that of s, or its store waits. -/
def Spoken (s u : State) : Prop :=
  u.intake.anchor.isSome = true → stateWord u = stateWord s ∨ u.issue.HasWord (stateWord u)

section
variable {s t u : State}

theorem Moved.anchor (h : Issued s t) : t.intake.anchor = s.intake.anchor :=
  h.keeps (P := fun i => i.anchor = s.intake.anchor) (fun _ _ hstep hi => hstep.anchor.trans hi) rfl

theorem Spoken.of_eq (h : stateWord u = stateWord s) : Spoken s u := fun _ => .inl h

/-- Stores of other words, with the state word left. -/
theorem Spoken.issued (h : Spoken s t) (hi : Issued t u) (hw : stateWord u = stateWord t) :
    Spoken s u := by
  intro ha
  rw [hi.anchor] at ha
  rw [hw]
  exact (h ha).imp id fun hword =>
    hi.keeps (P := Issue.HasWord (stateWord t)) (fun _ _ => IssueStep.keeps_hasWord) hword

theorem Spoken.from_eq (h : Spoken t u) (hw : stateWord t = stateWord s) : Spoken s u :=
  fun ha => hw ▸ h ha

/-! ## What the state word rests on -/

theorem stateWord_congr (hp : u.page = s.page) (hr : u.reports.ring = s.reports.ring)
    (ht : u.tiles.plane = s.tiles.plane)
    (hh : u.intake.state = .halted ↔ s.intake.state = .halted) (he : u.engine = s.engine) :
    stateWord u = stateWord s := by
  have hhalt : (u.intake.state == .halted) = (s.intake.state == .halted) := by
    rw [Bool.eq_iff_iff, beq_iff_eq, beq_iff_eq]
    exact hh
  unfold stateWord
  rw [hp, hr, ht, hhalt, he]

theorem handStateWord_stateWord (before : State) :
    stateWord (handStateWord before s) = stateWord s :=
  stateWord_congr (by simp) (by simp) (by simp) (by simp) (by simp)

/-- The hand-over at the end of an event that has changed a field (R143). -/
theorem handStateWord_spoken (before : State) : Spoken before (handStateWord before s) := by
  intro ha
  rw [handStateWord_stateWord]
  unfold handStateWord at ha ⊢
  split at ha
  next h => exact .inl h.symm
  next h =>
    rw [if_neg h]
    rw [handControl_intake] at ha
    obtain ⟨x, hx⟩ := Option.isSome_iff_exists.1 ha
    refine .inr ⟨x, by simpa [State.issue] using hx, ?_⟩
    simp only [State.issue]
    rw [handControl_class1 s hx]
    exact handClass1_holds ..

theorem endRecord_stateWord (c : Option RecCause) {p : Nat}
    (hh : (endRecord c p s).intake.state = .halted ↔ s.intake.state = .halted) :
    stateWord (endRecord c p s) = stateWord s :=
  stateWord_congr (by simp) (endRecord_ran c p (.of_eq rfl)).ring (by simp) hh (by simp)

/-- The end of a record that was no halt. -/
theorem endRecord_spoken (c : Option RecCause) {p : Nat} (hs : t.intake.state.searching = true)
    (hp : PFits t p) (h : Spoken s t) : Spoken s (endRecord c p t) :=
  h.issued (endRecord_issued c p (.of_eq rfl))
    (endRecord_stateWord c (endRecord_kept c hs hp).halted)

/-- The end of a record in an intake with a ring. -/
theorem endRecord_spoken_anchored (c : Option RecCause) (p : Nat)
    (ha : t.intake.anchor.isSome = true) (hh : t.intake.state ≠ .halted) (h : Spoken s t) :
    Spoken s (endRecord c p t) := by
  obtain ⟨x, hx⟩ := Option.isSome_iff_exists.1 ha
  refine h.issued (endRecord_issued c p (.of_eq rfl)) (endRecord_stateWord c ?_)
  rw [endRecord_intake t hx]
  exact ⟨(fun h => nomatch h), fun h => absurd h hh⟩

/-! ## The intake -/

theorem wake_spoken : Spoken s (wake s) := by
  unfold wake
  split
  next => exact handStateWord_spoken s
  next => exact .of_eq rfl

theorem enterExecuting_stateWord (hs : s.intake.state.searching = true) :
    stateWord (enterExecuting s) = stateWord s := by
  refine stateWord_congr (by simp) (enterExecuting_ran (.of_eq rfl)).ring (by simp)
    (enterExecuting_kept hs).halted (by simp)

theorem committed_kept (hs : s.intake.state.searching = true) : IntakeKept s (committed s) := by
  unfold committed
  split
  next => exact endRecord_kept _ hs pFits_zero
  next =>
    split
    next => exact enterExecuting_kept hs
    next => exact beginRefetch_kept hs

theorem committed_stateWord (hs : s.intake.state.searching = true) :
    stateWord (committed s) = stateWord s := by
  refine stateWord_congr ?_ ?_ ?_ (committed_kept hs).halted ?_ <;> unfold committed
  · (repeat' split) <;> simp
  · split
    next => exact (endRecord_ran _ _ (.of_eq rfl)).ring
    next =>
      split
      next => exact (enterExecuting_ran (.of_eq rfl)).ring
      next => simp
  · (repeat' split) <;> simp
  · (repeat' split) <;> simp

theorem commit_spoken (hd : Word) (hs : s.intake.state.searching = true) :
    Spoken s (commit hd s) := by
  rw [commit_eq]
  have hw : Spoken s (wake (s.setIntake
      { s.intake with header := hd, deferred := none, probeLive := false })) :=
    wake_spoken.from_eq (stateWord_congr rfl rfl rfl Iff.rfl rfl)
  have hsearch : (wake (s.setIntake
      { s.intake with header := hd, deferred := none, probeLive := false })).intake.state.searching
        = true := by
    rw [wake_intake]
    exact hs
  exact hw.issued (committed_issued (.of_eq rfl)) (committed_stateWord hsearch)

theorem commitCheck_spoken (hs : s.intake.state.searching = true) : Spoken s (commitCheck s) := by
  unfold commitCheck
  split
  next =>
    split
    next => exact commit_spoken _ hs
    next => exact .of_eq rfl
  next => exact .of_eq rfl

theorem drainInto_spoken (e : CapEntry) (rest : List CapEntry)
    (hs : s.intake.state.searching = true) : Spoken s (drainInto e rest s) := by
  have hw : stateWord (s.setIntake
      { s.intake with
        queue := rest,
        slots := match windowSlot s e with
          | some i => s.intake.slots.set i (some e.word)
          | none => s.intake.slots }) = stateWord s :=
    stateWord_congr rfl rfl rfl Iff.rfl rfl
  unfold drainInto
  dsimp only
  split
  next => exact Spoken.from_eq (commitCheck_spoken (s := s.setIntake _) hs) hw
  next => exact .of_eq hw

theorem halt_spoken (k : Nat) : Spoken s (halt k s) := by
  rw [halt_eq]
  exact handStateWord_spoken s

theorem handDeferred_stateWord : stateWord (handDeferred s) = stateWord s :=
  stateWord_congr (by simp) (by simp) (by simp) handDeferred_kept.halted (by simp)

theorem slots_stateWord (sl : Vector (Option Word) Config.slotCount) :
    stateWord (s.setIntake { s.intake with slots := sl }) = stateWord s := rfl

theorem probeEffect_spoken (start : Fin 4) (w0 : BusWord) (ws : List BusWord) :
    Spoken s (probeEffect start w0 ws s) := by
  unfold probeEffect treatProbe
  split
  next hp =>
    have hs : s.intake.state.searching = true := by rw [hp.2]; rfl
    split
    next => exact halt_spoken _
    next =>
      split
      next =>
        exact (commit_spoken _ (searching_slots _ hs)).from_eq (slots_stateWord _)
      next =>
        refine .of_eq (stateWord_congr rfl rfl rfl ?_ rfl)
        exact ⟨(fun h => nomatch h), fun h => absurd h (IntakeState.searching_halted hs)⟩
  next => exact .of_eq handDeferred_stateWord

theorem giveReport_stateWord (r : Report) : stateWord (giveReport r s) = stateWord s :=
  stateWord_congr (by simp) (Moved.give r (.of_eq rfl)).ring (by simp) (by simp) (by simp)

theorem refetchEffect_spoken : Spoken s (refetchEffect s) := by
  unfold refetchEffect
  split
  next r x hf hx =>
    have hs : s.intake.state.searching = true := by rw [hf]; rfl
    split
    next => exact halt_spoken _
    next =>
      split
      next =>
        refine .of_eq (stateWord_congr rfl rfl rfl ?_ rfl)
        exact ⟨(fun h => nomatch h), fun h => absurd h (IntakeState.searching_halted hs)⟩
      next =>
        split
        next a _ =>
          have hg : Spoken s (giveReport (.parity .probe a) s) := .of_eq (giveReport_stateWord _)
          refine endRecord_spoken _ (by simpa using hs) (fun y hy => ?_) hg
          rw [giveReport_intake] at hy
          exact pFits_advancedP y hy
        next => exact .of_eq (enterExecuting_stateWord hs)
  next => exact .of_eq handDeferred_stateWord

/-! ## The other units -/

theorem endLoad_spoken (he : EngineSound s) (hl : LoadSound s) : Spoken s (endLoad s) := by
  unfold endLoad
  split
  next => exact .of_eq rfl
  next l hsome =>
    have hst : s.intake.state = .executing .loading := hl.1.1 (by simp [hsome])
    have ha := he.anchored (by rw [hst]; nofun)
    refine endRecord_spoken_anchored _ _ (by simpa using ha.anchor) (by simp [hst])
      (.of_eq (stateWord_congr (by simp) (by simp) (by simp) (by simp) (by simp)))

theorem TileDone.spoken (h : TileDone s u) (he : EngineSound s) : Spoken s u := by
  cases h with
  | none => exact .of_eq rfl
  | done => exact .of_eq (stateWord_congr (by simp) (by simp) (by simp) (by simp) (by simp))
  | @planeSet f pl _ _ hw =>
    have hst : s.intake.state = .executing .planeWait := by simpa [planeWaits] using hw
    have ha := he.anchored (by rw [hst]; nofun)
    refine endRecord_spoken_anchored _ _ (by simpa using ha.anchor) (by simp [hst])
      ((handStateWord_spoken _).from_eq ?_)
    exact stateWord_congr (by simp) (by simp) (by simp) (by simp) (by simp)

theorem OwnEffect.spoken {c : Instr} {o : OwnReq} {effect : State → State}
    (he : OwnEffect s c o effect) (hs : EngineSound s) (hl : LoadSound s) :
    Spoken s (effect (s.setMside .free)) := by
  have hm : EngineSound (s.setMside .free) := hs.congr (.of_eq rfl) rfl rfl rfl rfl rfl nofun
  have hw : stateWord (s.setMside .free) = stateWord s := rfl
  have hr := he.ran
  cases he with
  | probe => exact Spoken.from_eq (probeEffect_spoken _ _ _) hw
  | refetch => exact refetchEffect_spoken.from_eq hw
  | loadDone => exact (endLoad_spoken hm hl).from_eq hw
  | tile => exact (tileEffect_done.spoken hm).from_eq hw
  | _ => exact .of_eq (stateWord_congr (by simp) hr.ring (by simp) (by simp) (by simp))

theorem holdAndPulse_stateWord : stateWord (holdAndPulse s) = stateWord s :=
  stateWord_congr (by simp) (by simp) (by simp) (by simp) (by simp)

theorem frameStart_spoken : Spoken s (frameStart s) := by
  unfold frameStart
  split
  next => exact .of_eq rfl
  next => exact .of_eq rfl
  next => exact .of_eq rfl
  next => exact .of_eq rfl
  next =>
    rw [activeFrame_eq]
    exact (handStateWord_spoken s).issued (.of_eq holdAndPulse_issue) holdAndPulse_stateWord

/-! ## Attachments -/

/-- The state of an attachment with its first two stores handed. -/
def attachIndexed (x : Anchor) (s : State) : State :=
  handControl .reportIndex 0 (handControl .scriptIndex 0 (attachBase x s))

theorem attach_eq (x : Anchor) : attach x s = beginProbe
    (handControl .stateWord (stateWord (attachIndexed x s)) (attachIndexed x s)) := rfl

theorem attach_stateWord (x : Anchor) : stateWord (attach x s) = stateWord (attachIndexed x s) := by
  refine stateWord_congr ?_ ?_ ?_ ?_ ?_
  · simp [attachIndexed, attachBase]
  · simp [attachIndexed, attachBase]
  · simp [attachIndexed, attachBase]
  · rw [attach_intake]
    simp [attachIndexed, attachBase, Intake.absent]
  · simp [attachIndexed, attachBase]

/-- An attachment hands the state word as it then stands. -/
theorem attach_hasWord (x : Anchor) : (attach x s).issue.HasWord (stateWord (attach x s)) := by
  rw [attach_stateWord, attach_eq]
  have ha : (attachIndexed x s).intake.anchor = some x := by simp [attachIndexed, attachBase]
  refine (beginProbe_issued (.of_eq rfl)).keeps (P := Issue.HasWord (stateWord (attachIndexed x s)))
    (fun _ _ => IssueStep.keeps_hasWord) ⟨x, by simpa [State.issue] using ha, ?_⟩
  simp only [State.issue]
  rw [handControl_class1 _ ha]
  exact handClass1_holds ..

theorem attach_spoken (x : Anchor) : Spoken t (attach x s) := fun _ => .inr (attach_hasWord x)

theorem endSweep_spoken : Spoken t (endSweep s) := by
  unfold endSweep
  split
  next => exact attach_spoken _
  next => exact fun h => nomatch h

theorem Offered.stateWord {x : CTxn} (h : Offered x s u) : stateWord u = stateWord s :=
  stateWord_congr (by cases h <;> simp) h.ran.ring (by cases h <;> simp) h.kept.halted
    (by cases h <;> simp)

theorem Watched.spoken (h : Watched s u) : Spoken s u := by
  cases h with
  | none => exact .of_eq rfl
  | latched => exact .of_eq rfl
  | attached => exact attach_spoken _
  | reanchored => exact attach_spoken _

theorem CEffect.spoken {c : Instr} {x : CTxn} {effect : State → State}
    (he : CEffect s x c effect) : Spoken s (effect (cDone s)) := by
  obtain ⟨v, ho, hw⟩ := he.offered_watched
  exact hw.spoken.from_eq ho.stateWord

/-! ## Every event -/

theorem Effect.spoken {c : Instr} (h : Effect s c u) (hs : EngineSound s) (hl : LoadSound s) :
    Spoken s u := by
  cases h with
  | @carried _ k v _ h hu =>
    have hw : IntakeKept s (handStateWord s v) := .of_eq (by simp [hu.intake])
    refine endRecord_spoken _ (hw.searching (holdsRecord_searching h)) (fun y hy => ?_)
      (handStateWord_spoken s)
    rw [handStateWord_intake, hu.intake] at hy
    exact pFits_advancedP y hy
  | refused _ h =>
    exact endRecord_spoken _ (holdsRecord_searching h) pFits_advancedP (.of_eq rfl)
  | wrap h => exact endRecord_spoken _ (holdsRecord_searching h) pFits_zero (.of_eq rfl)
  | planeWaits h =>
    refine .of_eq (stateWord_congr rfl rfl rfl ?_ rfl)
    rw [holdsRecord_state h]
    exact ⟨nofun, nofun⟩
  | loadBegins h =>
    refine .of_eq (stateWord_congr (by simp) (by simp) (by simp) ?_ (by simp))
    rw [holdsRecord_state h]
    exact ⟨nofun, nofun⟩
  | frame => exact frameStart_spoken
  | release _ hp =>
    intro ha
    have hnone := (hs.bypassed hp).anchor
    simp [enterService, hnone] at ha
  | sweep => exact endSweep_spoken
  | displayWord =>
    exact .of_eq (stateWord_congr (by simp) (holdDisplayWord_ran _ _).ring (by simp) (by simp)
      (by simp))
  | drained e rest _ hst =>
    exact drainInto_spoken e rest (by rcases hst with e | e <;> rw [e] <;> rfl)
  | loadWord w r n =>
    exact .of_eq (stateWord_congr (by simp)
      (loadWord_ran (s := s) _ _ (.of_eq (State.setMside_reports _ _))).ring (by simp) (by simp)
      (by simp))
  | objectWord w r n =>
    exact .of_eq (stateWord_congr (by simp)
      (objectWord_ran (s := s) _ _ (.of_eq (State.setMside_reports _ _))).ring (by simp) (by simp)
      (by simp))
  | own he => exact he.spoken hs hl
  | cSide he => exact he.spoken
  | _ => exact .of_eq (stateWord_congr rfl rfl rfl Iff.rfl rfl)

theorem finish_stateWord : stateWord (finish s) = stateWord s :=
  stateWord_congr (by simp) (by simp) (by simp) (by simp) (by simp)

/-- A store that waits at an event's end still waits, or is the one issued. -/
theorem Issue.HasWord.finish (h : s.issue.HasWord (stateWord s)) :
    ControlHanded .stateWord (stateWord (finish s)) (finish s) := by
  obtain ⟨x, hx, hmem⟩ := h
  rw [finish_stateWord]
  exact finish_controlHanded s hx hmem

theorem Event.word_handed {c : Instr} (h : Event s c t) (hs : EngineSound s) (hl : LoadSound s)
    (ha : t.intake.anchor.isSome = true) (hne : stateWord t ≠ stateWord s) :
    ControlHanded .stateWord (stateWord t) t := by
  cases h with
  | @finished _ u h =>
    rw [finish_intake] at ha
    rw [finish_stateWord] at hne
    exact ((h.spoken hs hl ha).resolve_left hne).finish
  | bypassed => rw [beginBypass_intake] at ha; cases ha
  | joined _ _ hp =>
    have hnone := (hs.bypassed hp).anchor
    unfold leaveBypass at ha
    split at ha <;> simp [cDone, enterService, hnone] at ha
  | refetchWord w req n =>
    refine absurd (stateWord_congr (by simp) (by simp) (by simp) ?_ (by simp)) hne
    exact (refetchArrival_kept (s := s.setMside (.own (.intake (.refetch req)) (n + 1))) req n w).halted
  | _ => exact absurd (stateWord_congr rfl rfl rfl Iff.rfl rfl) hne

/-! ## The fields of the state word (R172) -/

theorem flag_le (b : Bool) : flag b ≤ 1 := by
  cases b <;> decide

theorem pageCode_le (g : Page) : pageCode g ≤ 1 := by
  cases g <;> decide

theorem engineCode_le (e : EngineState) : engineCode e ≤ 2 := by
  cases e <;> decide

/-- A word made of the fields of the state word, and the fields read back. -/
theorem bits_stateFields {n : Nat} {f r p t b h e : Nat} (hf : f ≤ 1) (hr : r ≤ 1) (hp : p ≤ 1)
    (ht : t ≤ 1) (hb : b ≤ 1) (hh : h ≤ 1) (he : e ≤ 2)
    (hn : n = 0xC3010000 + 512 * f + 256 * r + 128 * p + 64 * t + 32 * b + 16 * h + e) :
    bits (BitVec.ofNat 32 n) 31 24 = 0xC3 ∧ bits (BitVec.ofNat 32 n) 23 16 = 1
      ∧ bits (BitVec.ofNat 32 n) 15 10 = 0 ∧ bits (BitVec.ofNat 32 n) 9 9 = f
      ∧ bits (BitVec.ofNat 32 n) 8 8 = r ∧ bits (BitVec.ofNat 32 n) 7 7 = p
      ∧ bits (BitVec.ofNat 32 n) 6 6 = t ∧ bits (BitVec.ofNat 32 n) 5 5 = b
      ∧ bits (BitVec.ofNat 32 n) 4 4 = h ∧ bits (BitVec.ofNat 32 n) 3 0 = e := by
  have hmod : n % 2 ^ 32 = n := Nat.mod_eq_of_lt (by omega)
  simp only [bits, BitVec.toNat_ofNat, hmod]
  omega

theorem flag_eq (b : Bool) : flag b = if b then 1 else 0 := by
  cases b <;> rfl

theorem plane_isSome (m : TileMap) : m.plane.isSome = m.planeSet := by
  unfold TileMap.plane
  cases m.planeSet <;> rfl

theorem stateWord_fields (s : State) :
    bits (stateWord s) 31 24 = 0xC3 ∧ bits (stateWord s) 23 16 = 1
      ∧ bits (stateWord s) 15 10 = 0
      ∧ bits (stateWord s) 9 9 = pageCode s.page.front
      ∧ bits (stateWord s) 8 8 = flag s.reports.ring.isSome
      ∧ bits (stateWord s) 7 7 = flag s.tiles.plane.isSome
      ∧ bits (stateWord s) 6 6 = flag s.page.running.isSome
      ∧ bits (stateWord s) 5 5 = flag s.page.batchOpen
      ∧ bits (stateWord s) 4 4 = flag (s.intake.state == .halted)
      ∧ bits (stateWord s) 3 0 = engineCode s.engine :=
  bits_stateFields (pageCode_le _) (flag_le _) (flag_le _) (flag_le _) (flag_le _) (flag_le _)
    (engineCode_le _) rfl

/-- Settles O60: each event that changes a field hands the word, and the fields are those of R172. -/
theorem stateWordChangesAreHanded : Obligations.StateWordChangesAreHanded := by
  refine ⟨fun c s t hs hl h ha hne => (exec_event h).word_handed hs hl ha hne, fun s => ?_,
    fun x => ⟨rfl, rfl, rfl⟩⟩
  obtain ⟨hid, hver, hzero, hfront, hring, hplane, hrun, hbatch, hhalt, heng⟩ := stateWord_fields s
  refine ⟨hid, hver, hzero, ?_, ?_, ?_, ?_, ?_, ?_, ?_, ?_⟩
  · rw [hfront]
    cases s.page.front <;> rfl
  · rw [hring, flag_eq]
  · rw [hplane, plane_isSome, flag_eq]
  · rw [hrun, flag_eq]
  · rw [hbatch, flag_eq]
  · rw [hhalt, flag_eq]
    simp only [beq_iff_eq]
  · intro he
    rw [heng, he]
    rfl
  · intro he
    rw [heng, he]
    rfl

end
end Sys2Proof.Machine
end

