-- ==== Sys2Proof/Proofs/Records.lean ====
section
/-! SUPPORT. What a record carried out in its own event comes to, given the state its effect leaves; the
records of control and set-up. -/
namespace Sys2Proof.Machine
set_option Elab.async false
open Sys2Proof

/-! ## A record carried out -/

/-- The effect of a record in hand leaves the intake, the bus, the fetches that wait and the outer state
as they are. -/
structure Apart (s u : State) : Prop where
  intake : u.intake = s.intake
  fetch : u.waiting.intake = s.waiting.intake
  load : u.waiting.load = s.waiting.load
  mside : u.mside = s.mside
  cside : u.cside = s.cside
  passover : u.passover = s.passover
  outer : SameOuter s u

/-- The event of a record that ends at t: the record carried out, the units as its effect left them in u,
and a tile that may be taken from there. -/
structure Yields (x : Anchor) (s u t : State) : Prop where
  carried : CarriedOut x s t
  engine : t.engine = u.engine
  share : t.share = u.share
  page : t.page = u.page
  reports : t.reports = u.reports
  objects : t.objects = u.objects
  colours : t.colours = u.colours
  list : t.list = u.list
  buttons : t.buttons = u.buttons
  took : TookFrom u.tiles u.render (backPage u) t

section
variable {s t u v : State} {x : Anchor}

theorem backPage_congr (h : t.page = s.page) : backPage t = backPage s := by
  rw [backPage, backPage, h]

theorem Yields.sameTables (h : Yields x s u t) (hu : SameTables s u) : SameTables s t := by
  obtain ⟨ho, hc, hl, hb⟩ := hu
  exact ⟨h.objects.trans ho, h.colours.trans hc, h.list.trans hl, h.buttons.trans hb⟩

theorem Yields.sameControl (h : Yields x s u t) (hu : SameControl s u) : SameControl s t := by
  obtain ⟨he, hs, hp⟩ := hu
  exact ⟨h.engine.trans he, h.share.trans hs, h.page.trans hp⟩

/-- The tiles from which one may be taken, where the effect keeps the page that is back. -/
theorem Yields.took_of (h : Yields x s u t) {m : TileMap} {r : RenderEngine}
    (hp : u.page.front = s.page.front) (hm : u.tiles = m) (hr : u.render = r) :
    TookFrom m r (backPage s) t := by
  have hk := h.took
  rwa [hm, hr, backPage, hp] at hk

/-- No tile is taken while the render engine is held. -/
theorem TookFrom.held {m : TileMap} {r : RenderEngine} {back : Page} (h : TookFrom m r back t)
    (hh : renderHeld t = true) : t.tiles = m ∧ t.render = r := by
  rcases h with h | ⟨_, hf, _⟩
  · exact h
  · rw [hh] at hf
    cases hf

theorem carryOut_yields {k : RecKind} {effect : State → RecordResult} (h : InHand k x s)
    (he : effect s = .ok u) (ha : Apart s u) : Yields x s u (finish (carryOut effect s)) := by
  refine ⟨carryOut_carriedOut s h he ha.intake ha.fetch ha.load ha.mside ha.cside ha.passover ha.outer,
    ?_, ?_, ?_, ?_, ?_, ?_, ?_, ?_, ?_⟩
  case refine_9 =>
    have hk := finish_took (endRecord none (advancedP s) (handStateWord s u))
    have hp : backPage (endRecord none (advancedP s) (handStateWord s u)) = backPage u :=
      backPage_congr (by simp)
    rw [hp] at hk
    simpa [carryOut, he] using hk
  all_goals simp [carryOut, he, endRecord_reports]

theorem runRecord_yields {k : RecKind} {effect : State → RecordResult} (h : InHand k x s)
    (he : effect s = .ok u) (ha : Apart s u) :
    ∃ t, runRecord k (carryOut effect) s = .next t ∧ Yields x s u t :=
  ⟨_, runRecord_inHand s h _, carryOut_yields h he ha⟩

theorem runRecord_refused {k : RecKind} {effect : State → RecordResult} {c : RecCause}
    (h : InHand k x s) (he : effect s = .error c) :
    RefusedWith c x s (runRecord k (carryOut effect) s) := by
  rw [runRecord_inHand s h]
  exact carryOut_refused s h he

end

/-! ## Emptied tables -/

theorem scenesEmpty_of {t : State} (ho : t.objects = emptyObjects) (hc : t.colours = ColourTables.empty)
    (hl : t.list = []) (hb : t.buttons = ButtonTable.empty) : ScenesEmpty t := by
  unfold ScenesEmpty
  rw [ho, hc, hl, hb]
  refine ⟨?_, ?_, ?_, rfl, rfl, ?_, rfl, rfl, rfl⟩
  · intro id; simp [emptyObjects, ObjEntry.undef]
  · intro k i; simp [ColourTables.empty, Argb.transparent]
  · intro k; simp [ColourTables.empty]
  · intro b; simp [ButtonTable.empty, Button.empty, ButtonDef.empty]

/-! ## PAD, WRAP, SCENE RESET and PARK -/

/-- Settles O11. -/
theorem padAndWrapOnlyEnd : Obligations.PadAndWrapOnlyEnd := by
  intro s x
  constructor
  · intro h
    obtain ⟨t, ht, hy⟩ := runRecord_yields (effect := padEffect) h rfl
      ⟨rfl, rfl, rfl, rfl, rfl, rfl, rfl, rfl, rfl, rfl, rfl, rfl, rfl⟩
    exact ⟨t, ht, hy.carried, hy.sameTables ⟨rfl, rfl, rfl, rfl⟩, hy.sameControl ⟨rfl, rfl, rfl⟩,
      hy.reports, hy.took⟩
  · intro h
    refine ⟨_, runRecord_inHand s h _, endRecord_ended s none 0 rfl h.1 rfl rfl, by simp [SameOuter],
      finish_busKept _ _ (by simp) (by simp) (by simp), finish_loadKept _ _ (by simp) (by simp),
      by simp [SameTables], by simp [SameControl], by simp [endRecord_reports], ?_⟩
    simpa [TilesKept, backPage] using finish_took (endRecord none 0 s)

theorem TileState.marked_eq (st : TileState) :
    st.marked = if st.inFlight then .busyStale else .dirty := by
  cases st <;> rfl

/-- Settles O12. -/
theorem sceneResetEmptiesScene : Obligations.SceneResetEmptiesScene := by
  intro s x h
  obtain ⟨t, ht, hy⟩ := runRecord_yields (effect := sceneResetEffect) h rfl
    ⟨by simp, by simp, by simp, by simp, by simp, by simp, by simp [SameOuter]⟩
  refine ⟨t, ht, hy.carried, scenesEmpty_of ?_ ?_ ?_ ?_, ?_, ?_, ?_, ?_, hy.took_of ?_ ?_ ?_⟩
  · simp [hy.objects]
  · simp [hy.colours]
  · simp [hy.list]
  · simp [hy.buttons]
  · simp [hy.engine]
  · simp [hy.share]
  · simp [hy.reports]
  · simp [hy.page, sceneReset, endAppWhere, emptyTables]
  · simp [sceneReset, endAppWhere, emptyTables]
  · simp [sceneReset, endAppWhere, emptyTables, funext TileState.marked_eq]
  · simp [sceneReset, endAppWhere, emptyTables]

theorem endTransition_of_none {s : State} (h : s.page.running = none) : endTransition s = s := by
  simp [endTransition, h]

theorem endTransition_of_some {s : State} {r : Running} (h : s.page.running = some r) :
    endTransition s
      = giveReport (.transitionDone r.spec.kind) (s.setPage { s.page with running := none }) := by
  simp [endTransition, h]

/-- Settles O13. -/
theorem parkParksAndEndsTransition : Obligations.ParkParksAndEndsTransition := by
  intro s x h
  obtain ⟨t, ht, hy⟩ := runRecord_yields (effect := parkEffect) h rfl
    ⟨by simp, by simp, by simp, by simp, by simp, by simp, by simp [SameOuter]⟩
  have hheld : renderHeld t = true := renderHeld_iff.2 (.inr (.inl (by simp [hy.engine])))
  obtain ⟨htiles, hrender⟩ := hy.took.held hheld
  refine ⟨t, ht, hy.carried, hy.sameTables ⟨by simp, by simp, by simp, by simp⟩, by simp [hy.engine],
    by simp [hy.share], by simp [hy.page, endTransition_page], by simpa using htiles,
    by simpa using hrender, fun hr => ?_, fun r hr => ?_⟩
  · rw [hy.reports, State.setEngine_reports, endTransition_of_none hr]
  · rw [hy.reports, State.setEngine_reports, endTransition_of_some hr]
    exact giveReport_reports_congr _ _ _ rfl

/-! ## SETUP PLANE -/

theorem overlap_iff (b1 l1 b2 l2 : Nat) :
    overlap (b1, l1) (b2, l2) = true ↔ RangesMeet b1 l1 b2 l2 := by
  simp only [overlap, RangesMeet, Bool.and_eq_true, decide_eq_true_eq]
  constructor
  · rintro ⟨⟨⟨h1, h2⟩, h3⟩, h4⟩
    exact ⟨max b1 b2, by omega⟩
  · rintro ⟨n, hn⟩
    omega

theorem overlap_false_iff (b1 l1 b2 l2 : Nat) :
    overlap (b1, l1) (b2, l2) = false ↔ ¬ RangesMeet b1 l1 b2 l2 := by
  rw [← overlap_iff, Bool.not_eq_true]

section
variable {s : State} {x : Anchor}

theorem planeFieldsOk_iff (s : State) :
    planeFieldsOk (planeFields s) = true ↔ (planeNamed s).Legal := by
  refine ⟨planeOf_legal, fun ⟨hw, hw0, hw1, hh, hh0, hh1, ha, hb, hea, heb⟩ => ?_⟩
  have hwpos : 0 < (planeFields s).width := by
    have : 64 ≤ (planeFields s).width := hw0
    omega
  have hhpos : 0 < (planeFields s).height := by
    have : 8 ≤ (planeFields s).height := hh0
    omega
  simp only [planeFieldsOk, Bool.and_eq_true, decide_eq_true_eq, beq_iff_eq]
  exact ⟨⟨⟨⟨⟨⟨⟨⟨⟨hw, hwpos⟩, hw1⟩, hh⟩, hhpos⟩, hh1⟩, ha⟩, hb⟩, hea⟩, heb⟩

/-- A range meets one of the anchor's ranges. -/
theorem anchorRanges_clear (ha : s.intake.anchor = some x) (base len : Nat) :
    (∀ r ∈ anchorRanges s, ¬ overlap (base, len) r = true) ↔ ClearOfAnchor x base len := by
  simp only [anchorRanges, ha, List.forall_mem_cons, List.not_mem_nil, false_implies, implies_true,
    and_true, overlap_iff, ClearOfAnchor]

theorem reportRange_clear (s : State) (base len : Nat) :
    (∀ r ∈ reportRange s, ¬ overlap (base, len) r = true)
      ↔ ∀ r, s.reports.ring = some r → ¬ RangesMeet base len r.base.toNat (16 * r.entries) := by
  unfold reportRange
  split
  next r hr => simp [hr, overlap_false_iff]
  next hr => simp [hr]

theorem pageClear_iff (ha : s.intake.anchor = some x) (base len : Nat) :
    (∀ r ∈ anchorRanges s ++ reportRange s, ¬ overlap (base, len) r = true)
      ↔ PageClear s x base len := by
  rw [List.forall_mem_append, anchorRanges_clear ha, reportRange_clear, PageClear]

theorem planeOverlaps_iff (ha : s.intake.anchor = some x) :
    planeOverlaps (planeFields s) s = false ↔ PlaneClear s x (planeNamed s) := by
  have hp : PlaneClear s x (planeNamed s) ↔ PlaneClear s x (planeOf (planeFields s)) := Iff.rfl
  rw [hp, PlaneClear, ← pageClear_iff ha, ← pageClear_iff ha, ← overlap_iff, ← Bool.not_eq_true]
  simp only [planeOverlaps, Bool.or_eq_true, List.any_eq_true, not_or, not_exists, not_and,
    forall_and, planeOf, Plane.bytes, pageSize]

theorem planeCheck_none (ha : s.intake.anchor = some x) (hl : (planeNamed s).Legal)
    (hc : PlaneClear s x (planeNamed s)) : planeCheck s = none := by
  simp [planeCheck, (planeFieldsOk_iff _).2 hl, (planeOverlaps_iff ha).2 hc]

theorem planeCheck_field (hl : ¬ (planeNamed s).Legal) : planeCheck s = some .field := by
  have hf : ¬ planeFieldsOk (planeFields s) = true := fun h => hl ((planeFieldsOk_iff _).1 h)
  simp [planeCheck, hf]

theorem planeCheck_overlap (ha : s.intake.anchor = some x) (hl : (planeNamed s).Legal)
    (hc : ¬ PlaneClear s x (planeNamed s)) : planeCheck s = some .overlap := by
  have ho : ¬ planeOverlaps (planeFields s) s = false := fun h => hc ((planeOverlaps_iff ha).1 h)
  simp [planeCheck, (planeFieldsOk_iff _).2 hl, ho]

theorem execSetupPlane_inHand (h : InHand .setupPlane x s) :
    exec .setupPlane s = .next (finish (runSetupPlane s)) := runRecord_inHand s h _

theorem execSetupPlane_refused (h : InHand .setupPlane x s) {c : RecCause}
    (hc : planeCheck s = some c) : RefusedWith c x s (exec .setupPlane s) := by
  have hrun : runSetupPlane s = carryOut (fun _ => .error c) s := by
    unfold runSetupPlane
    rw [hc]
    rfl
  rw [execSetupPlane_inHand h, hrun]
  exact carryOut_refused s h rfl

/-- No tile is taken while one is in flight. -/
theorem takeTile_of_flight (h : s.render.flight.isSome = true) : takeTile s = s := by
  unfold takeTile
  split
  next _ hf => simp [hf] at h
  next => rfl

/-- Settles O14. -/
theorem setupPlaneSetsPlane : Obligations.SetupPlaneSetsPlane := by
  refine ⟨fun s x h hl hc hf => ?_, fun s x h => ⟨fun hl hc hf => ?_, fun hl => ?_, fun hl hc => ?_⟩⟩
  · have hrun : runSetupPlane s = carryOut planeEffect s := by
      unfold runSetupPlane
      rw [planeCheck_none h.1 hl hc, hf]
      rfl
    have hy := carryOut_yields (effect := planeEffect) h rfl
      ⟨by simp, by simp, by simp, by simp, by simp, by simp, by simp [SameOuter]⟩
    rw [← hrun] at hy
    refine ⟨_, execSetupPlane_inHand h, hy.carried,
      hy.sameTables ⟨by simp, by simp, by simp, by simp⟩, hy.engine.trans rfl, hy.reports.trans rfl,
      hy.share, hy.page, ?_⟩
    have hrender : (applyPlane s).render = ⟨0, none⟩ := by simp [applyPlane, hf]
    have hk := hy.took
    rw [hrender] at hk
    exact hk
  · have hrun : runSetupPlane s = s.setIntake { s.intake with state := .executing .planeWait } := by
      unfold runSetupPlane
      rw [planeCheck_none h.1 hl hc, ← Option.not_isSome, hf]
      rfl
    have htake := takeTile_of_flight (s := runSetupPlane s) (by rw [hrun]; exact hf)
    refine ⟨_, execSetupPlane_inHand h, ?_⟩
    rw [hrun] at htake ⊢
    refine ⟨by simp, by simp [SameOuter], finish_busKept _ _ rfl rfl rfl, finish_loadKept _ _ rfl rfl,
      by simp [SameTables], by simp [SameControl], by simp, ?_, ?_⟩
    · rw [finish, htake]; simp
    · rw [finish, htake]; simp
  · exact execSetupPlane_refused h (planeCheck_field hl)
  · exact execSetupPlane_refused h (planeCheck_overlap h.1 hl hc)

/-! ## SETUP REPORTS -/

theorem reportFieldsOk_iff (s : State) :
    reportFieldsOk s = true ↔ RingLegal s (body s 1).toNat (body s 2).toNat := by
  unfold reportFieldsOk RingLegal reportFields addressSpace
  simp
  tauto

theorem pageRanges_clear (s : State) (base len : Nat) :
    (∀ r ∈ pageRanges s, ¬ overlap (base, len) r = true)
      ↔ ∀ pl, s.tiles.plane = some pl → ¬ RangesMeet base len pl.baseA.toNat pl.bytes
          ∧ ¬ RangesMeet base len pl.baseB.toNat pl.bytes := by
  unfold pageRanges
  split
  next pl hp => simp [hp, overlap_false_iff, Plane.bytes, pageSize]
  next hp => simp [hp]

theorem reportOverlaps_iff (ha : s.intake.anchor = some x) :
    reportOverlaps s = false ↔ RingClear s x (body s 1).toNat (body s 2).toNat := by
  rw [RingClear, ← anchorRanges_clear ha, ← pageRanges_clear, ← List.forall_mem_append,
    ← Bool.not_eq_true]
  simp only [reportOverlaps, reportFields, List.any_eq_true, not_exists, not_and]

/-- Settles O15. -/
theorem setupReportsSetsRing : Obligations.SetupReportsSetsRing := by
  intro s x h
  refine ⟨fun hl hc => ?_, fun hl => ?_, fun hl hc => ?_⟩
  · have he : reportsEffect s
        = .ok (s.setReports { ReportUnit.empty with ring := some ⟨body s 1, (body s 2).toNat⟩ }) := by
      simp [reportsEffect, (reportFieldsOk_iff s).2 hl, (reportOverlaps_iff h.1).2 hc, reportFields]
    obtain ⟨t, ht, hy⟩ := runRecord_yields h he
      ⟨rfl, rfl, rfl, rfl, rfl, rfl, rfl, rfl, rfl, rfl, rfl, rfl, rfl⟩
    exact ⟨t, ht, hy.carried, hy.sameTables ⟨rfl, rfl, rfl, rfl⟩, hy.sameControl ⟨rfl, rfl, rfl⟩,
      hy.took, hy.reports⟩
  · have hf : ¬ reportFieldsOk s = true := fun h => hl ((reportFieldsOk_iff s).1 h)
    exact runRecord_refused h (by simp [reportsEffect, hf])
  · have ho : ¬ reportOverlaps s = false := fun ho => hc ((reportOverlaps_iff h.1).1 ho)
    exact runRecord_refused h (by simp [reportsEffect, (reportFieldsOk_iff s).2 hl, ho])

end

end Sys2Proof.Machine
end

