-- ==== Sys2Proof/Proofs/TableRecords.lean ====
section
/-! SUPPORT. The markings of a record and the ids its fields name; the records of colours, objects and
the composition list. -/
namespace Sys2Proof.Machine
set_option Elab.async false
open Sys2Proof

/-! ## Ids -/

theorem idBelow_val {n v : Nat} {i : Fin n} (h : v = i.val) : idBelow n v = some i := by
  subst h
  simp [idBelow]

theorem idBelow_none {n v : Nat} (h : n ≤ v) : idBelow n v = none := by
  simp [idBelow, h]

/-! ## Markings -/

section
variable {s t : State}

theorem footprint_congr (hp : t.tiles.plane = s.tiles.plane) (ho : t.objects = s.objects)
    (hb : t.buttons = s.buttons) : footprint t = footprint s := by
  funext p
  simp only [footprint, currentObject, hp, ho, hb]

theorem footprintsOf_congr (hp : t.tiles.plane = s.tiles.plane) (ho : t.objects = s.objects)
    (hb : t.buttons = s.buttons) (hl : t.list = s.list) (which : Placement → Bool) :
    footprintsOf t which = footprintsOf s which := by
  simp only [footprintsOf, footprint_congr hp ho hb, hl]

theorem mark_tiles_congr (h : t.tiles = s.tiles) (rects : List TileRect) :
    (mark rects t).tiles = (mark rects s).tiles := by
  unfold mark
  rw [h]
  split <;> simp [h]

theorem markBeforeAfter_tiles {u : State} (h : t.tiles = s.tiles) (which : Placement → Bool)
    (hr : footprintsOf t which = footprintsOf u which) :
    (markBeforeAfter which s t).tiles
      = (mark (footprintsOf s which ++ footprintsOf u which) s).tiles := by
  rw [markBeforeAfter, mark_tiles_congr h, hr]

end

/-! ## SET COLOUR -/

theorem markIndexed_tiles (k : Fin Config.tableCount) (c : ColourTables) (s : State) :
    (markIndexed k (s.setColours c)).tiles = (mark (footprintsOf s (indexedOn s k)) s).tiles :=
  mark_tiles_congr (t := s.setColours c) (s := s) rfl _

/-- Settles O16. -/
theorem setColourWritesEntry : Obligations.SetColourWritesEntry := by
  intro s x k i h hk hi
  have he : setColourEffect s
      = .ok (markIndexed k (s.setColours (s.colours.write k i (Argb.ofWord (body s 1))))) := by
    simp only [setColourEffect, operand, idBelow_val hk, idBelow_val hi]
  obtain ⟨t, ht, hy⟩ := runRecord_yields h he
    ⟨by simp, by simp, by simp, by simp, by simp, by simp, by simp [SameOuter]⟩
  have hc : t.colours = s.colours.write k i (Argb.ofWord (body s 1)) := by simp [hy.colours]
  refine ⟨t, ht, hy.carried, hy.sameControl ⟨by simp, by simp, by simp⟩, by simp [hy.reports],
    by simp [hy.objects], by simp [hy.list], by simp [hy.buttons], by simp [hc, ColourTables.write],
    by simp [hc, ColourTables.write], ?_, fun k' i' hne => ?_, hy.took_of (by simp) (markIndexed_tiles ..) (by simp)⟩
  · simp [hc, ColourTables.write]
  · simp only [hc, ColourTables.write, getElem_set_fin]
    split
    next hkk =>
      subst hkk
      have hii : i ≠ i' := fun hii => hne.elim (fun h => h rfl) fun h => h hii.symm
      rw [getElem_set_fin, if_neg hii]
    next => rfl

/-! ## LOAD COLOURS -/

section
variable {s t : State} {x : Anchor}

theorem selectOwn_load {w left : OwnWaiting} {o : OwnReq} (h : selectOwn w = some (o, left))
    {r : LineReq} (hr : w.load = some r) : o = .load r ∨ left.load = some r := by
  unfold selectOwn at h
  split at h
  next =>
    simp only [Option.some.injEq, Prod.mk.injEq] at h
    exact .inr (by rw [← h.2]; exact hr)
  next =>
    split at h
    next =>
      simp only [Option.some.injEq, Prod.mk.injEq] at h
      exact .inr (by rw [← h.2]; exact hr)
    next =>
      rw [hr] at h
      simp only [Option.some.injEq, Prod.mk.injEq] at h
      exact .inl h.1.symm

/-- A colour-load fetch that waits still waits after a grant, or is the one issued. -/
theorem grant_loadHanded {r : LineReq} (h : s.waiting.load = some r) : LoadHanded r (grant s) := by
  rcases grant_cases s with e | ⟨r', p, _, _, e⟩ | ⟨o, left, _, ho, e⟩ <;> rw [e]
  · exact .inl h
  · left; simpa using h
  · rcases selectOwn_load ho h with rfl | hl
    · right; simp [grantOwn]
    · left; simpa [grantOwn] using hl

theorem finish_loadHanded {r : LineReq} (h : s.waiting.load = some r) : LoadHanded r (finish s) :=
  grant_loadHanded (by simpa using h)

theorem execLoadColours_inHand (h : InHand .loadColours x s) :
    exec .loadColours s = .next (finish (runLoadColours s)) := runRecord_inHand s h _

theorem execLoadColours_refused (h : InHand .loadColours x s) (hf : loadFields s = none) :
    RefusedWith .field x s (exec .loadColours s) := by
  have hrun : runLoadColours s = carryOut (fun _ => .error .field) s := by
    unfold runLoadColours
    rw [hf]
    rfl
  rw [execLoadColours_inHand h, hrun]
  exact carryOut_refused s h rfl

/-- The state of a LOAD COLOURS that has begun its load. -/
def loadBegun (l : Load) (s : State) : State :=
  handLoad (lineReqAt l.source)
    ((s.setColours { s.colours with load := some l, inFlight := s.colours.inFlight.set l.table true }).setIntake
      { s.intake with state := .executing .loading })

theorem execLoadColours_begun (h : InHand .loadColours x s) {l : Load} (hf : loadFields s = some l) :
    exec .loadColours s = .next (finish (loadBegun l s)) := by
  rw [execLoadColours_inHand h, runLoadColours, hf]
  rfl

/-- A LOAD COLOURS of an entry of a table passes its checks, or asks for no load. -/
theorem loadFields_of_legal {k : Fin 8} {first : Fin 256} (hk : bits s.intake.header 12 9 = k.val)
    (hi : bits s.intake.header 8 0 = first.val)
    (hl : LoadLegal (body s 1).toNat (min (body s 1).toNat (256 - first.val)) (body s 2).toNat) :
    loadFields s
      = some ⟨k, first.val, min (body s 1).toNat (256 - first.val), (body s 2).toNat, false, false⟩ := by
  obtain ⟨hc, hs, hle⟩ := hl
  simp only [loadFields, operand, idBelow_val hk, idBelow_val hi]
  exact if_neg fun hbad => hbad.elim hc fun hbad => hbad.elim (· hs) fun hlt => absurd hle (Nat.not_le.2 hlt)

theorem loadFields_of_illegal {k : Fin 8} {first : Fin 256} (hk : bits s.intake.header 12 9 = k.val)
    (hi : bits s.intake.header 8 0 = first.val)
    (hl : ¬ LoadLegal (body s 1).toNat (min (body s 1).toNat (256 - first.val)) (body s 2).toNat) :
    loadFields s = none := by
  simp only [loadFields, operand, idBelow_val hk, idBelow_val hi]
  refine if_pos (by_contra fun hok => hl ?_)
  simp only [not_or, Decidable.not_not] at hok
  exact ⟨hok.1, hok.2.1, Nat.not_lt.1 hok.2.2⟩

theorem loadFields_of_bad (h : 8 ≤ bits s.intake.header 12 9 ∨ 256 ≤ bits s.intake.header 8 0) :
    loadFields s = none := by
  unfold loadFields operand
  rcases h with hk | hi
  · rw [idBelow_none hk]
  · rw [idBelow_none hi]
    split <;> trivial

end

/-- Settles O17. -/
theorem loadColoursBeginsLoad : Obligations.LoadColoursBeginsLoad := by
  intro s x h
  refine ⟨fun k first hk hi => ⟨fun hl => ?_, fun hl => ?_⟩, fun hbad => ?_⟩
  · have hf := loadFields_of_legal hk hi hl
    generalize hload : Load.mk k first.val (min (body s 1).toNat (256 - first.val)) (body s 2).toNat
      false false = l at hf
    have hsource : (body s 2).toNat = l.source := by rw [← hload]
    have htable : k = l.table := by rw [← hload]
    rw [hsource, htable]
    exact ⟨_, execLoadColours_begun h hf, by simp [loadBegun, handLoad], by simp [loadBegun, handLoad],
      finish_loadHanded rfl, by simp [SameOuter, loadBegun, handLoad], finish_busKept _ _ rfl rfl rfl,
      by simp [SameControl, loadBegun, handLoad], by simp [loadBegun, handLoad],
      by simp [loadBegun, handLoad], by simp [loadBegun, handLoad], by simp [loadBegun, handLoad],
      finish_took (loadBegun l s)⟩
  · exact execLoadColours_refused h (loadFields_of_illegal hk hi hl)
  · exact execLoadColours_refused h (loadFields_of_bad hbad)

/-! ## DEFINE OBJECT and DROP OBJECT -/

section
variable {s t : State} {x : Anchor}

theorem objectFields_of_legal {c : Coding} {k : Fin 8} {id : Fin 256}
    (hid : bits s.intake.header 8 0 = id.val) (hc : codingOf (bits s.intake.header 12 9) = some c)
    (hk : bits (body s 1) 27 24 = k.val)
    (hl : ObjectLegal c (bits (body s 1) 11 0) (bits (body s 1) 23 12) (body s 2).toNat
      (body s 3).toNat) :
    objectFields s = some (id, ⟨.ready, c, k, bits (body s 1) 11 0, bits (body s 1) 23 12,
      body s 2, body s 3⟩) := by
  obtain ⟨hw, hw', hh, hh', hend, hcoding⟩ := hl
  simp only [objectFields, operand, field, idBelow_val hid, hc, idBelow_val hk]
  refine if_neg ?_
  cases c <;> simp [dataAlign, leastLength, addressSpace, rowStride] at hcoding ⊢ <;> omega

theorem objectFields_of_illegal {c : Coding} {k : Fin 8} {id : Fin 256}
    (hid : bits s.intake.header 8 0 = id.val) (hc : codingOf (bits s.intake.header 12 9) = some c)
    (hk : bits (body s 1) 27 24 = k.val)
    (hl : ¬ ObjectLegal c (bits (body s 1) 11 0) (bits (body s 1) 23 12) (body s 2).toNat
      (body s 3).toNat) :
    objectFields s = none := by
  simp only [objectFields, operand, field, idBelow_val hid, hc, idBelow_val hk]
  refine if_pos (by_contra fun hok => hl ?_)
  unfold ObjectLegal
  cases c <;> simp [dataAlign, leastLength, addressSpace, rowStride] at hok ⊢ <;> omega

/-- What a write of an object entry leaves. -/
theorem writeObject_tiles (id : Fin Config.objectCount) (e : ObjEntry) (s : State) :
    (writeObject id e s).tiles = (mark (footprintsOf s (shows s id)
      ++ footprintsOf (s.setObjects (s.objects.set id e)) (shows s id)) s).tiles :=
  markBeforeAfter_tiles (s := s) (u := s.setObjects (s.objects.set id e))
    (t := endAppWhere (fun a => a.obj == id) (s.setObjects (s.objects.set id e))) rfl _ rfl

theorem writeObject_render (id : Fin Config.objectCount) (e : ObjEntry) (s : State) :
    (writeObject id e s).render
      = ⟨s.render.scan, s.render.flight.map (Flight.endApp fun a => a.obj == id)⟩ := by
  simp [writeObject, endAppWhere]

theorem writeObject_apart (id : Fin Config.objectCount) (e : ObjEntry) (s : State) :
    Apart s (writeObject id e s) :=
  ⟨by simp, by simp, by simp, by simp, by simp, by simp, by simp [SameOuter]⟩

/-- A placement of an object that is not defined has no footprint. -/
theorem footprintsOf_undefined (id : Fin Config.objectCount) (h : t.objects[id].state = .undefined)
    (hb : t.buttons = s.buttons) : footprintsOf t (shows s id) = [] := by
  refine List.filterMap_eq_nil_iff.2 fun p hp => ?_
  have hshows : currentObject s p = some id := by simpa [shows] using (List.mem_filter.1 hp).2
  have hcur : currentObject t p = some id := by rw [← hshows, currentObject, currentObject, hb]
  unfold footprint
  rw [hcur]
  split
  next h' => cases h'; exact if_pos h
  next => rfl

end

/-- Settles O18. -/
theorem objectRecordsWriteEntry : Obligations.ObjectRecordsWriteEntry := by
  refine ⟨rfl, fun s x id hid => ⟨fun c k h hc hk => ⟨fun hl => ?_, fun hl => ?_⟩, fun h => ?_⟩⟩
  · have he : defineObjectEffect s = .ok (writeObject id ⟨.ready, c, k, bits (body s 1) 11 0,
        bits (body s 1) 23 12, body s 2, body s 3⟩ s) := by
      rw [defineObjectEffect, objectFields_of_legal hid hc hk hl]
    obtain ⟨t, ht, hy⟩ := runRecord_yields h he (writeObject_apart _ _ _)
    have hobj := hy.objects.trans (writeObject_objects _ _ _)
    refine ⟨t, ht, hy.carried, hy.sameControl ⟨by simp, by simp, by simp⟩, by simp [hy.reports],
      by simp [hy.colours], by simp [hy.list], by simp [hy.buttons], hobj,
      hy.took_of (by simp) ?_ (writeObject_render ..)⟩
    rw [hobj, writeObject_tiles]
  · exact runRecord_refused h (by rw [defineObjectEffect, objectFields_of_illegal hid hc hk hl])
  · have he : dropObjectEffect s = .ok (writeObject id ObjEntry.undef s) := by
      rw [dropObjectEffect, operand, idBelow_val hid]
    obtain ⟨t, ht, hy⟩ := runRecord_yields h he (writeObject_apart _ _ _)
    refine ⟨t, ht, hy.carried, hy.sameControl ⟨by simp, by simp, by simp⟩, by simp [hy.reports],
      by simp [hy.colours], by simp [hy.list], by simp [hy.buttons],
      hy.objects.trans (writeObject_objects _ _ _),
      hy.took_of (by simp) ?_ (writeObject_render ..)⟩
    have hnone := footprintsOf_undefined (s := s) (t := s.setObjects (s.objects.set id ObjEntry.undef)) id
      (by simp [ObjEntry.undef]) rfl
    rw [writeObject_tiles, hnone, List.append_nil]

/-! ## PLACE, MOVE, SET OPACITY and REMOVE -/

section
variable {s t : State} {x : Anchor}

theorem editList_apart (id : Fin Config.placementCount) (l : List Placement) (s : State) :
    Apart s (editList id l s) :=
  ⟨by simp, by simp, by simp, by simp, by simp, by simp, by simp [SameOuter]⟩

/-- What a record that replaces the list in an event on one id comes to. -/
structure ListEdited (x : Anchor) (id : Fin Config.placementCount) (l : List Placement)
    (s t : State) : Prop where
  carried : CarriedOut x s t
  control : SameControl s t
  reports : t.reports = s.reports
  objects : t.objects = s.objects
  colours : t.colours = s.colours
  buttons : t.buttons = s.buttons
  list : t.list = l
  marked : TilesMarked (footprintsOf s (fun p => p.id == id)
    ++ footprintsOf (s.setList t.list) (fun p => p.id == id)) s t

theorem runRecord_listEdited {k : RecKind} {effect : State → RecordResult}
    {id : Fin Config.placementCount} {l : List Placement} (h : InHand k x s)
    (he : effect s = .ok (editList id l s)) :
    ∃ t, runRecord k (carryOut effect) s = .next t ∧ ListEdited x id l s t := by
  obtain ⟨t, ht, hy⟩ := runRecord_yields h he (editList_apart id l s)
  have hlist : t.list = l := by simp [hy.list]
  refine ⟨t, ht, hy.carried, hy.sameControl ⟨by simp, by simp, by simp⟩, by simp [hy.reports],
    by simp [hy.objects], by simp [hy.colours], by simp [hy.buttons], hlist,
    hy.took_of (by simp) ?_ (by simp)⟩
  rw [hlist]
  exact markBeforeAfter_tiles (s := s) (t := s.setList l) (u := s.setList l) rfl _ rfl

/-- A list without an id has no footprint of it. -/
theorem footprintsOf_removed (id : Fin Config.placementCount) (s : State) :
    footprintsOf (s.setList (removePlacement id s.list)) (fun p => p.id == id) = [] := by
  refine List.filterMap_eq_nil_iff.2 fun p hp => ?_
  obtain ⟨hmem, hid⟩ := List.mem_filter.1 hp
  exact absurd (by simpa using hid) (mem_removePlacement.1 hmem).2

/-- The source a PLACE names. -/
theorem placeSource_object {o : Fin 256} (hf : bit (body s 1) 31 = false)
    (ho : bits (body s 1) 7 0 = o.val) : placeSource s = some (.object o) := by
  simp [placeSource, hf, field, ho, objectField]

theorem placeSource_button {b : Fin 48} (hf : bit (body s 1) 31 = true)
    (hb : bits (body s 1) 7 0 = b.val) : placeSource s = some (.button b) := by
  simp [placeSource, hf, field, idBelow_val hb]

theorem placeFields_eq {id : Fin 128} {src : Source} (hid : bits s.intake.header 7 0 = id.val)
    (hl : bits (body s 3) 7 0 ≤ 63) (hs : placeSource s = some src) :
    placeFields s = some ⟨id, src, signed16 (bits (body s 2) 15 0), signed16 (bits (body s 2) 31 16),
      bits (body s 3) 7 0, BitVec.ofNat 8 (bits (body s 3) 15 8)⟩ := by
  simp only [placeFields, placementId, operand, idBelow_val hid, hs, field]
  exact if_neg (Nat.not_lt.2 hl)

end

/-- Settles O19. -/
theorem listRecordsEditPlacements : Obligations.ListRecordsEditPlacements := by
  refine ⟨fun n => ⟨fun h => if_pos h, fun h _ => if_neg (Nat.not_lt.2 h)⟩,
    fun s x id src h hid hl hsrc => ?_, fun s x id hid => ⟨fun h => ?_, fun h => ?_, fun h => ?_⟩⟩
  · have hs : placeSource s = some src := by
      cases src with
      | object o => exact placeSource_object hsrc.1 hsrc.2
      | button b => exact placeSource_button hsrc.1 hsrc.2
    have hf := placeFields_eq hid hl hs
    generalize hp : Placement.mk id src (signed16 (bits (body s 2) 15 0)) (signed16 (bits (body s 2) 31 16))
      (bits (body s 3) 7 0) (BitVec.ofNat 8 (bits (body s 3) 15 8)) = p at hf
    have hpid : p.id = id := by rw [← hp]
    have he : placeEffect s = .ok (editList id (insertPlacement p (removePlacement id s.list)) s) := by
      rw [placeEffect, hf, ← hpid]
    obtain ⟨t, ht, hy⟩ := runRecord_listEdited h he
    refine ⟨t, ht, hy.carried, hy.control, hy.reports, hy.objects, hy.colours, hy.buttons,
      fun q => ?_, fun hsound => ?_, hy.marked⟩
    · rw [hy.list, mem_insertPlacement, mem_removePlacement, ← hp]
      tauto
    · rw [ListSound, hy.list, ← hpid]
      exact Ordered.place hsound p
  · have he : moveEffect s = .ok (editList id (editPlacement id (fun p => { p with
        x := signed16 (bits (body s 1) 15 0), y := signed16 (bits (body s 1) 31 16) }) s.list) s) := by
      simp only [moveEffect, placementId, operand, idBelow_val hid, field]
    obtain ⟨t, ht, hy⟩ := runRecord_listEdited h he
    exact ⟨t, ht, hy.carried, hy.control, hy.reports, hy.objects, hy.colours, hy.buttons, hy.list,
      hy.marked⟩
  · have he : setOpacityEffect s = .ok (editList id (editPlacement id (fun p => { p with
        opacity := BitVec.ofNat 8 (bits (body s 1) 7 0) }) s.list) s) := by
      simp only [setOpacityEffect, placementId, operand, idBelow_val hid, field]
    obtain ⟨t, ht, hy⟩ := runRecord_listEdited h he
    exact ⟨t, ht, hy.carried, hy.control, hy.reports, hy.objects, hy.colours, hy.buttons, hy.list,
      hy.marked⟩
  · have he : removeEffect s = .ok (editList id (removePlacement id s.list) s) := by
      simp only [removeEffect, placementId, operand, idBelow_val hid]
    obtain ⟨t, ht, hy⟩ := runRecord_listEdited h he
    refine ⟨t, ht, hy.carried, hy.control, hy.reports, hy.objects, hy.colours, hy.buttons, hy.list, ?_⟩
    have hmarked := hy.marked
    rwa [hy.list, footprintsOf_removed, List.append_nil] at hmarked

end Sys2Proof.Machine
end

