-- ==== Sys2Proof/Proofs/ButtonRecords.lean ====
section
/-! SUPPORT. The records of the button table and of page control. -/
namespace Sys2Proof.Machine
set_option Elab.async false
open Sys2Proof

/-! ## An event on buttons -/

/-- The effect u of an event on buttons: the button table becomes bt and the report unit rp, and the
placements chosen are marked before and after. -/
structure ButtonEffect (which : Placement → Bool) (bt : ButtonTable) (rp : ReportUnit) (s u : State) :
    Prop where
  apart : Apart s u
  control : SameControl s u
  objects : u.objects = s.objects
  colours : u.colours = s.colours
  list : u.list = s.list
  render : u.render = s.render
  buttons : u.buttons = bt
  reports : u.reports = rp
  tiles : u.tiles = (mark (footprintsOf s which ++ footprintsOf (s.setButtons bt) which) s).tiles

/-- A record of such an effect, carried out. -/
structure ButtonEvent (x : Anchor) (which : Placement → Bool) (bt : ButtonTable) (rp : ReportUnit)
    (s t : State) : Prop where
  carried : CarriedOut x s t
  control : SameControl s t
  objects : t.objects = s.objects
  colours : t.colours = s.colours
  list : t.list = s.list
  buttons : t.buttons = bt
  reports : t.reports = rp
  marked : TilesMarked (footprintsOf s which ++ footprintsOf (s.setButtons t.buttons) which) s t

/-- A record that changes nothing but its end. -/
structure NoEffect (x : Anchor) (s t : State) : Prop where
  carried : CarriedOut x s t
  control : SameControl s t
  objects : t.objects = s.objects
  colours : t.colours = s.colours
  list : t.list = s.list
  buttons : t.buttons = s.buttons
  reports : t.reports = s.reports
  kept : TilesKept s t

section
variable {s t u : State} {x : Anchor} {k : RecKind} {effect : State → RecordResult}

theorem runRecord_buttonEvent {which : Placement → Bool} {bt : ButtonTable} {rp : ReportUnit}
    (h : InHand k x s) (he : effect s = .ok u) (hu : ButtonEffect which bt rp s u) :
    ∃ t, runRecord k (carryOut effect) s = .next t ∧ ButtonEvent x which bt rp s t := by
  obtain ⟨t, ht, hy⟩ := runRecord_yields h he hu.apart
  have hb := hy.buttons.trans hu.buttons
  refine ⟨t, ht, hy.carried, hy.sameControl hu.control, hy.objects.trans hu.objects,
    hy.colours.trans hu.colours, hy.list.trans hu.list, hb, hy.reports.trans hu.reports,
    hy.took_of (congrArg PageControl.front hu.control.2.2) ?_ hu.render⟩
  rw [hb, hu.tiles]

theorem runRecord_noEffect (h : InHand k x s) (he : effect s = .ok s) :
    ∃ t, runRecord k (carryOut effect) s = .next t ∧ NoEffect x s t := by
  obtain ⟨t, ht, hy⟩ := runRecord_yields h he
    ⟨rfl, rfl, rfl, rfl, rfl, rfl, rfl, rfl, rfl, rfl, rfl, rfl, rfl⟩
  exact ⟨t, ht, hy.carried, hy.sameControl ⟨rfl, rfl, rfl⟩, hy.objects, hy.colours, hy.list, hy.buttons,
    hy.reports, hy.took⟩

/-! ## The effects -/

theorem editButtons_effect (b : Fin Config.buttonCount) (bt : ButtonTable) (s : State) :
    ButtonEffect (boundTo b) bt s.reports s (editButtons b bt s) :=
  ⟨⟨by simp, by simp, by simp, by simp, by simp, by simp, by simp [SameOuter]⟩, by simp [SameControl],
    by simp, by simp, by simp, by simp, by simp, by simp,
    markBeforeAfter_tiles (s := s) (t := s.setButtons bt) (u := s.setButtons bt) rfl _ rfl⟩

/-- An event on buttons that gives a report. -/
theorem ButtonEffect.give {which : Placement → Bool} {bt : ButtonTable} {rp : ReportUnit}
    (h : ButtonEffect which bt rp s u) (hr : u.reports = s.reports) (r : Report) :
    ButtonEffect which bt (giveReport r s).reports s (giveReport r u) := by
  obtain ⟨⟨hi, hf, hl, hm, hc, hp, ho⟩, hcontrol, hobj, hcol, hlist, hrender, hbt, _, htiles⟩ := h
  exact ⟨⟨by simp [hi], by simp [hf], by simp [hl], by simp [hm], by simp [hc], by simp [hp],
      by simpa [SameOuter] using ho⟩, by simpa [SameControl] using hcontrol, by simp [hobj],
    by simp [hcol], by simp [hlist], by simp [hrender], by simp [hbt],
    giveReport_reports_congr _ _ _ hr, by simp [htiles]⟩

theorem moveSelection_effect (n : Fin Config.buttonCount) (s : State) :
    ButtonEffect (boundToEither n s.buttons.selection) ⟨s.buttons.entries, some n, false, 0, 0⟩
      (giveReport (.selection (some n) s.buttons.selection) s).reports s (moveSelection n s) := by
  refine ButtonEffect.give (rp := s.reports) ⟨⟨by simp, by simp, by simp, by simp, by simp, by simp,
    by simp [SameOuter]⟩, by simp [SameControl], by simp, by simp, by simp, by simp, by simp, by simp,
    ?_⟩ (by simp) _
  exact markBeforeAfter_tiles (s := s)
    (t := s.setButtons { s.buttons with selection := some n, activated := false, hold := 0, phase := 0 })
    (u := s.setButtons { s.buttons with selection := some n, activated := false, hold := 0, phase := 0 })
    rfl _ rfl

theorem activate_effect (n : Fin Config.buttonCount) (s : State) :
    ButtonEffect (boundTo n)
      ⟨s.buttons.entries, s.buttons.selection, true, s.buttons.entries[n].body.holdFrames, 0⟩
      (giveReport (.activated n s.buttons.entries[n].body.command) s).reports s (activate n s) :=
  (editButtons_effect n _ s).give (by simp) _

theorem dropButton_selected {b : Fin Config.buttonCount} (h : s.buttons.selection = some b) (e : Button) :
    ButtonEffect (boundTo b) (s.buttons.put b e).deselect (giveReport (.selection none (some b)) s).reports s
      (dropButton b e s) := by
  rw [dropButton, if_pos h]
  exact (editButtons_effect b _ s).give (by simp) _

theorem dropButton_other {b : Fin Config.buttonCount} (h : s.buttons.selection ≠ some b) (e : Button) :
    ButtonEffect (boundTo b) (s.buttons.put b e) s.reports s (dropButton b e s) := by
  rw [dropButton, if_neg h]
  exact editButtons_effect b _ s

/-- A button that is not defined has no footprint. -/
theorem footprintsOf_undefinedButton {b : Fin Config.buttonCount}
    (h : s.buttons.entries[b].defined = false) : footprintsOf s (boundTo b) = [] := by
  refine List.filterMap_eq_nil_iff.2 fun p hp => ?_
  have hsource : p.source = .button b := by simpa [boundTo] using (List.mem_filter.1 hp).2
  have hcur : currentObject s p = none := by
    simp only [currentObject, hsource, buttonObject, h]
    rfl
  simp [footprint, hcur]

end

/-! ## DEFINE BUTTON -/

theorem idBelow_objectField {w : Word} {hi lo : Nat} (h : hi + 1 - lo = 8) :
    idBelow 256 (bits w hi lo) = some (objectField (bits w hi lo)) := by
  have hlt := bits_lt w hi lo
  rw [h] at hlt
  refine idBelow_val ?_
  simp only [objectField, Fin.ofNat]
  exact (Nat.mod_eq_of_lt hlt).symm

theorem idBelow_objectField_if {w : Word} {hi lo : Nat} (h : hi + 1 - lo = 8) (c : Prop) [Decidable c] :
    (if c then some (objectField (bits w hi lo)) else none)
      = if c then idBelow 256 (bits w hi lo) else none := by
  rw [idBelow_objectField h]

theorem Button.define_defined (e : Button) (d : ButtonDef) : (e.define d).defined = true := by
  unfold Button.define
  split
  next h => exact h
  next => rfl

theorem Button.define_body (e : Button) (d : ButtonDef) : (e.define d).body = d := by
  unfold Button.define
  split <;> rfl

theorem Button.define_again {e : Button} (h : e.defined = true) (d : ButtonDef) :
    e.define d = { e with body := d } := if_pos h

theorem Button.define_new {e : Button} (h : e.defined = false) (d : ButtonDef) :
    e.define d = ⟨true, true, d, none, none, none⟩ := by
  simp [Button.define, h]

/-- Settles O20. -/
theorem defineButtonWritesEntry : Obligations.DefineButtonWritesEntry := by
  refine ⟨fun n v => ⟨fun i hi => idBelow_val hi.symm, idBelow_none⟩, fun s x b h hb hzero => ?_⟩
  have he : defineButtonEffect s = .ok (editButtons b
      (s.buttons.put b (s.buttons.entries[b].define (buttonDefFields s))) s) := by
    simp only [defineButtonEffect, buttonId, operand, idBelow_val hb]
    exact if_pos hzero
  obtain ⟨t, ht, hy⟩ := runRecord_buttonEvent h he (editButtons_effect b _ s)
  have hentry : t.buttons.entries[b] = s.buttons.entries[b].define (buttonDefFields s) := by
    rw [hy.buttons, ButtonTable.put_entries, if_pos rfl]
  have hbody : t.buttons.entries[b].body = buttonDefFields s := by
    rw [hentry, Button.define_body]
  refine ⟨t, ht, hy.carried, hy.control, hy.reports, hy.objects, hy.colours, hy.list, ?_, ?_, ?_⟩
  · rw [hentry]
    exact hy.buttons
  · rw [hentry]
    exact Button.define_defined ..
  rw [hbody]
  refine ⟨rfl, rfl, rfl, rfl, rfl, rfl, ?_, idBelow_objectField_if rfl _, idBelow_objectField_if rfl _,
    rfl, rfl, fun hd => ?_, fun hd => ?_, hy.marked⟩
  · exact Nat.mod_eq_of_lt (bits_lt _ 7 0)
  · rw [hentry, Button.define_again hd]
    exact ⟨rfl, rfl, rfl, rfl⟩
  · rw [hentry, Button.define_new hd]
    exact ⟨rfl, rfl, rfl, rfl⟩

/-! ## BUTTON LOOK -/

/-- Settles O21. -/
theorem buttonLookSetsLook : Obligations.ButtonLookSetsLook := by
  intro s x b act h hb hact hd
  have hstate : lookState s = some act := by
    cases act <;> simp [lookState, operand, hact]
  have he : buttonLookEffect s = .ok (s.setButtons (s.buttons.writeLook b act (lookFields s))) := by
    simp only [buttonLookEffect, buttonId, operand, idBelow_val hb, hstate]
    exact if_pos hd
  obtain ⟨t, ht, hy⟩ := runRecord_yields h he
    ⟨rfl, rfl, rfl, rfl, rfl, rfl, rfl, rfl, rfl, rfl, rfl, rfl, rfl⟩
  refine ⟨t, ht, hy.carried, hy.sameControl ⟨rfl, rfl, rfl⟩, hy.reports, hy.objects, hy.colours, hy.list,
    hy.took, ?_⟩
  rw [hy.buttons, State.setButtons_buttons, ButtonTable.writeLook]
  split
  · exact ⟨rfl, rfl, rfl, rfl, rfl⟩
  · exact ⟨rfl, rfl, rfl, rfl, rfl⟩

/-! ## ENABLE, DISABLE and DELETE BUTTON -/

/-- Settles O22. -/
theorem enableDisableDeleteButton : Obligations.EnableDisableDeleteButton := by
  intro s x b hb
  have hid : buttonId s = some b := idBelow_val hb
  refine ⟨fun h => ?_, fun h => ?_, fun h => ?_⟩
  · by_cases hd : s.buttons.entries[b].defined = true
    · have he : enableButtonEffect s
          = .ok (s.setButtons (s.buttons.put b { s.buttons.entries[b] with enabled := true })) := by
        simp only [enableButtonEffect, hid]
        rw [if_pos hd]
      obtain ⟨t, ht, hy⟩ := runRecord_yields h he
        ⟨rfl, rfl, rfl, rfl, rfl, rfl, rfl, rfl, rfl, rfl, rfl, rfl, rfl⟩
      refine ⟨t, ht, hy.carried, hy.sameControl ⟨rfl, rfl, rfl⟩, hy.reports, hy.objects, hy.colours,
        hy.list, hy.took, ?_, ?_⟩
      · rw [hy.buttons]; rfl
      · rw [hy.buttons, if_pos hd]; rfl
    · have he : enableButtonEffect s = .ok s := by
        simp only [enableButtonEffect, hid]
        rw [if_neg hd]
      obtain ⟨t, ht, hy⟩ := runRecord_noEffect h he
      refine ⟨t, ht, hy.carried, hy.control, hy.reports, hy.objects, hy.colours, hy.list, hy.kept, ?_, ?_⟩
      · rw [hy.buttons]
      · rw [hy.buttons, if_neg hd]
        exact (Vector.set_getElem_self _).symm
  · by_cases hd : s.buttons.entries[b].defined = true
    · have he : disableButtonEffect s
          = .ok (if s.buttons.selection = some b then
              dropButton b { s.buttons.entries[b] with enabled := false } s
            else s.setButtons (s.buttons.put b { s.buttons.entries[b] with enabled := false })) := by
        simp only [disableButtonEffect, hid]
        rw [if_neg (by simpa using hd)]
      by_cases hsel : s.buttons.selection = some b
      · rw [if_pos hsel] at he
        obtain ⟨t, ht, hy⟩ := runRecord_buttonEvent h he (dropButton_selected hsel _)
        exact ⟨t, ht, hy.carried, hy.control, hy.objects, hy.colours, hy.list,
          fun hn => absurd (hd.symm.trans hn) (by decide), fun _ hn => absurd hsel hn,
          fun _ _ => ⟨hy.buttons, hy.reports, hy.marked⟩⟩
      · rw [if_neg hsel] at he
        obtain ⟨t, ht, hy⟩ := runRecord_yields h he
          ⟨rfl, rfl, rfl, rfl, rfl, rfl, rfl, rfl, rfl, rfl, rfl, rfl, rfl⟩
        exact ⟨t, ht, hy.carried, hy.sameControl ⟨rfl, rfl, rfl⟩, hy.objects, hy.colours, hy.list,
          fun hn => absurd (hd.symm.trans hn) (by decide), fun _ _ => ⟨hy.buttons, hy.reports, hy.took⟩,
          fun _ h => absurd h hsel⟩
    · have he : disableButtonEffect s = .ok s := by
        simp only [disableButtonEffect, hid]
        rw [if_pos (by simpa using hd)]
      obtain ⟨t, ht, hy⟩ := runRecord_noEffect h he
      exact ⟨t, ht, hy.carried, hy.control, hy.objects, hy.colours, hy.list,
        fun _ => ⟨hy.buttons, hy.reports, hy.kept⟩, fun h => absurd h hd, fun h => absurd h hd⟩
  · by_cases hd : s.buttons.entries[b].defined = true
    · have he : deleteButtonEffect s = .ok (dropButton b s.buttons.entries[b].deleted s) := by
        simp only [deleteButtonEffect, hid]
        rw [if_pos hd]
      have hgone {bt : ButtonTable}
          (hbt : bt.entries = s.buttons.entries.set b s.buttons.entries[b].deleted) :
          footprintsOf (s.setButtons bt) (boundTo b) = [] := by
        refine footprintsOf_undefinedButton ?_
        rw [State.setButtons_buttons, hbt, getElem_set_fin, if_pos rfl]
        rfl
      by_cases hsel : s.buttons.selection = some b
      · obtain ⟨t, ht, hy⟩ := runRecord_buttonEvent h he (dropButton_selected hsel _)
        have hmarked := hy.marked
        rw [hgone (by rw [hy.buttons]; rfl), List.append_nil] at hmarked
        refine ⟨t, ht, hy.carried, hy.control, hy.objects, hy.colours, hy.list,
          fun hn => absurd (hd.symm.trans hn) (by decide),
          fun _ => ⟨by rw [hy.buttons]; rfl, hmarked, fun hn => absurd hsel hn,
            fun _ => ⟨hy.reports, ?_⟩⟩⟩
        rw [hy.buttons]
        exact ⟨rfl, rfl, rfl, rfl⟩
      · obtain ⟨t, ht, hy⟩ := runRecord_buttonEvent h he (dropButton_other hsel _)
        have hmarked := hy.marked
        rw [hgone (by rw [hy.buttons]; rfl), List.append_nil] at hmarked
        refine ⟨t, ht, hy.carried, hy.control, hy.objects, hy.colours, hy.list,
          fun hn => absurd (hd.symm.trans hn) (by decide),
          fun _ => ⟨by rw [hy.buttons]; rfl, hmarked, fun _ => ⟨hy.reports, ?_⟩, fun h => absurd h hsel⟩⟩
        rw [hy.buttons]
        exact ⟨rfl, rfl, rfl, rfl⟩
    · have he : deleteButtonEffect s = .ok s := by
        simp only [deleteButtonEffect, hid]
        rw [if_neg hd]
      obtain ⟨t, ht, hy⟩ := runRecord_noEffect h he
      exact ⟨t, ht, hy.carried, hy.control, hy.objects, hy.colours, hy.list,
        fun _ => ⟨hy.buttons, hy.reports, hy.kept⟩, fun h => absurd h hd⟩

/-! ## KEY -/

/-- A search of at most m + 1 places ends at the first, or passes over it and goes on. -/
theorem exists_first_succ {P Q : Nat → Prop} (m : Nat) :
    (∃ i, 1 ≤ i ∧ i ≤ m + 1 ∧ P i ∧ ∀ j, 1 ≤ j → j < i → Q j)
      ↔ P 1 ∨ (Q 1 ∧ ∃ i, 1 ≤ i ∧ i ≤ m ∧ P (i + 1) ∧ ∀ j, 1 ≤ j → j < i → Q (j + 1)) := by
  constructor
  · rintro ⟨i, h1, hm, hp, hq⟩
    obtain rfl | ⟨i, rfl⟩ : i = 1 ∨ ∃ i', i = i' + 2 := by
      rcases i with _ | _ | i
      · omega
      · exact .inl rfl
      · exact .inr ⟨i, rfl⟩
    · exact .inl hp
    · exact .inr ⟨hq 1 (by omega) (by omega), i + 1, by omega, by omega, hp,
        fun j h1 hj => hq (j + 1) (by omega) (by omega)⟩
  · rintro (hp | ⟨hq, i, h1, hm, hp, hrest⟩)
    · exact ⟨1, by omega, by omega, hp, fun j h1 hj => by omega⟩
    · refine ⟨i + 1, by omega, by omega, hp, fun j h1 hj => ?_⟩
      obtain rfl | ⟨j, rfl, hj1⟩ : j = 1 ∨ ∃ j', j = j' + 1 ∧ 1 ≤ j' := by
        rcases j with _ | _ | j
        · omega
        · exact .inl rfl
        · exact .inr ⟨j + 1, rfl, by omega⟩
      · exact hq
      · exact hrest j hj1 (by omega)

/-- The path of the links from b reaches, at m, a button that a walk selects. -/
def Ends (bt : ButtonTable) (k : Key) (b n : Fin Config.buttonCount) (m : Nat) : Prop :=
  linkPath bt k b m = some n ∧ n ≠ b ∧ bt.selectable n = true

/-- The path reaches, at m, a button that a walk passes over. -/
def Passes (bt : ButtonTable) (k : Key) (b : Fin Config.buttonCount) (m : Nat) : Prop :=
  ∃ q, linkPath bt k b m = some q ∧ q ≠ b ∧ bt.selectable q = false

/-- A walk of m steps from the button at place j of the path. -/
theorem walk_iff {bt : ButtonTable} {k : Key} {b n : Fin Config.buttonCount} (m : Nat) {j : Nat}
    {q : Fin Config.buttonCount} (hq : linkPath bt k b j = some q) :
    walk bt k b m q = some n ↔ ∃ i, 1 ≤ i ∧ i ≤ m ∧ Ends bt k b n (j + i)
      ∧ ∀ j', 1 ≤ j' → j' < i → Passes bt k b (j + j') := by
  induction m generalizing j q with
  | zero =>
    refine ⟨nofun, fun ⟨i, h1, h0, _⟩ => ?_⟩
    omega
  | succ m ih =>
    have hnext : bt.entries[q].link k = linkPath bt k b (j + 1) := by
      simp only [linkPath, hq]
    rw [exists_first_succ (P := fun i => Ends bt k b n (j + i)) (Q := fun i => Passes bt k b (j + i)),
      walk, hnext]
    cases hr : linkPath bt k b (j + 1) with
    | none => simp [Ends, Passes, hr]
    | some r =>
      have hends : Ends bt k b n (j + 1) ↔ r = n ∧ n ≠ b ∧ bt.selectable n = true := by
        simp [Ends, hr]
      have hpasses : Passes bt k b (j + 1) ↔ r ≠ b ∧ bt.selectable r = false := by
        simp [Passes, hr]
      rw [hends, hpasses]
      by_cases hrb : r = b
      · simp only [hrb, if_pos, reduceCtorEq, ne_eq, not_true, false_and, or_false, false_iff, not_and]
        exact fun h hn => absurd h.symm hn
      · by_cases hsel : bt.selectable r = true
        · simp only [hrb, if_false, hsel, if_true, Option.some.injEq, reduceCtorEq, and_false, false_and,
            or_false]
          exact ⟨fun h => h ▸ ⟨rfl, hrb, hsel⟩, fun h => h.1⟩
        · have hgo := ih hr
          simp only [Nat.add_assoc, Nat.add_comm 1] at hgo
          dsimp only
          rw [if_neg hrb, if_neg hsel, hgo]
          exact ⟨fun h => .inr ⟨⟨hrb, by simpa using hsel⟩, h⟩,
            fun h => h.elim (fun ⟨hrn, _, hn⟩ => absurd (hrn ▸ hn) hsel) And.right⟩

theorem walkReaches_iff {bt : ButtonTable} {k : Key} {b n : Fin Config.buttonCount} :
    WalkReaches bt k b n ↔ walk bt k b 48 b = some n := by
  rw [walk_iff 48 (j := 0) rfl]
  simp only [Nat.zero_add]
  exact ⟨fun ⟨m, h1, hm, hp, hb, hs, hq⟩ => ⟨m, h1, hm, ⟨hp, hb, hs⟩, hq⟩,
    fun ⟨m, h1, hm, ⟨hp, hb, hs⟩, hq⟩ => ⟨m, h1, hm, hp, hb, hs, hq⟩⟩

theorem lowestSelectable_none {bt : ButtonTable} (h : ∀ b, bt.selectable b = false) :
    lowestSelectable bt = none := List.find?_eq_none.2 fun b _ => by simp [h b]

theorem lowestSelectable_eq {bt : ButtonTable} {n : Fin Config.buttonCount}
    (hn : bt.selectable n = true) (hlow : ∀ m, m < n → bt.selectable m = false) :
    lowestSelectable bt = some n := by
  cases hl : lowestSelectable bt with
  | none => exact absurd hn (List.find?_eq_none.1 hl n (List.mem_finRange n))
  | some m =>
    obtain ⟨hm, before, after, hsplit, hnot⟩ := List.find?_eq_some_iff_append.1 hl
    have hmem : n ∈ before ++ m :: after := hsplit ▸ List.mem_finRange n
    have hsorted : (before ++ m :: after).Pairwise (· < ·) := hsplit ▸ List.pairwise_lt_finRange _
    rcases List.mem_append.1 hmem with h | h
    · exact absurd hn (by simpa using hnot n h)
    · rcases List.mem_cons.1 h with rfl | h
      · rfl
      · have hlt := (List.pairwise_cons.1 (List.pairwise_append.1 hsorted).2.1).1 n h
        exact absurd hm (by simp [hlow m hlt])

section
variable {s : State} {x : Anchor} {k : Key}

theorem keyDirection_activated (hs : s.buttons.selection.isSome = true)
    (ha : s.buttons.activated = true) : keyDirection k s = s := by
  obtain ⟨b, hb⟩ := Option.isSome_iff_exists.1 hs
  simp [keyDirection, hb, ha]

theorem keyDirection_none (hs : s.buttons.selection = none)
    (hn : ∀ b, s.buttons.selectable b = false) : keyDirection k s = s := by
  simp [keyDirection, hs, lowestSelectable_none hn]

theorem keyDirection_lowest {n : Fin 48} (hs : s.buttons.selection = none)
    (hn : lowestSelectable s.buttons = some n) : keyDirection k s = moveSelection n s := by
  simp [keyDirection, hs, hn]

theorem keyDirection_unreached {b : Fin 48} (hs : s.buttons.selection = some b)
    (hn : ∀ n, ¬ WalkReaches s.buttons k b n) : keyDirection k s = s := by
  have hwalk : walk s.buttons k b 48 b = none :=
    Option.eq_none_iff_forall_ne_some.2 fun n hw => hn n (walkReaches_iff.2 hw)
  simp [keyDirection, hs, hwalk]

theorem keyDirection_reached {b n : Fin 48} (hs : s.buttons.selection = some b)
    (ha : s.buttons.activated = false) (hw : WalkReaches s.buttons k b n) :
    keyDirection k s = if s.buttons.entries[n].body.autoActivate then activate n (moveSelection n s)
      else moveSelection n s := by
  unfold keyDirection
  rw [hs, ha]
  simp only [Bool.false_eq_true, if_false, walkReaches_iff.1 hw]

theorem boundToEither_none (n : Fin Config.buttonCount) : boundToEither n none = boundTo n := by
  funext p
  simp [boundToEither]

theorem Apart.trans {s u v : State} (h : Apart s u) (h' : Apart u v) : Apart s v := by
  obtain ⟨hi, hf, hl, hm, hc, hp, h1, h2, h3, h4, h5, h6, h7⟩ := h
  obtain ⟨hi', hf', hl', hm', hc', hp', h1', h2', h3', h4', h5', h6', h7'⟩ := h'
  exact ⟨hi'.trans hi, hf'.trans hf, hl'.trans hl, hm'.trans hm, hc'.trans hc, hp'.trans hp, h1'.trans h1,
    h2'.trans h2, h3'.trans h3, h4'.trans h4, h5'.trans h5, h6'.trans h6, h7'.trans h7⟩

theorem SameControl.trans {s u v : State} (h : SameControl s u) (h' : SameControl u v) :
    SameControl s v := by
  obtain ⟨he, hs, hp⟩ := h
  obtain ⟨he', hs', hp'⟩ := h'
  exact ⟨he'.trans he, hs'.trans hs, hp'.trans hp⟩

/-- The markings of a move of the selection to a button that is then activated. -/
theorem autoActivate_tiles (n : Fin 48) {mid : State}
    (hmid : mid = s.setButtons ⟨s.buttons.entries, some n, false, 0, 0⟩) (bt : ButtonTable) :
    (mark (footprintsOf (moveSelection n s) (boundTo n)
        ++ footprintsOf ((moveSelection n s).setButtons bt) (boundTo n)) (moveSelection n s)).tiles
      = (mark (footprintsOf mid (boundTo n) ++ footprintsOf (s.setButtons bt) (boundTo n))
          (mark (footprintsOf s (boundToEither n s.buttons.selection)
            ++ footprintsOf mid (boundToEither n s.buttons.selection)) s)).tiles := by
  subst hmid
  have hmove := moveSelection_effect n s
  have hplane : (moveSelection n s).tiles.plane = s.tiles.plane := by
    rw [hmove.tiles, mark_plane]
  rw [footprintsOf_congr (s := s.setButtons ⟨s.buttons.entries, some n, false, 0, 0⟩) hplane hmove.objects
      hmove.buttons hmove.list,
    footprintsOf_congr (s := s.setButtons bt) (t := (moveSelection n s).setButtons bt) hplane
      hmove.objects rfl hmove.list]
  exact mark_tiles_congr hmove.tiles _

theorem execKeyDirection_inHand (hk : keyOf (bits s.intake.header 12 0) = some k) (he : k ≠ .enter) :
    exec .keyDirection s = runRecord .key (carryOut keyEffect) s := by
  refine if_neg ?_
  rw [operand, hk]
  simpa using he

theorem keyEffect_direction (hk : keyOf (bits s.intake.header 12 0) = some k) (he : k ≠ .enter) :
    keyEffect s = .ok (keyDirection k s) := by
  rw [keyEffect, operand, hk]
  cases k <;> first | rfl | exact absurd rfl he

end

/-- Settles O23. -/
theorem keyDirectionMovesSelection : Obligations.KeyDirectionMovesSelection := by
  refine ⟨rfl, fun e => ⟨rfl, rfl, rfl, rfl⟩, fun bt b => by simp [ButtonTable.selectable],
    fun s x k h hk hke => ?_⟩
  rw [execKeyDirection_inHand hk hke]
  have he := keyEffect_direction hk hke
  by_cases hidle : (s.buttons.selection.isSome = true ∧ s.buttons.activated = true)
      ∨ (s.buttons.selection = none ∧ ∀ b, s.buttons.selectable b = false)
      ∨ (∃ b, s.buttons.selection = some b ∧ ∀ n, ¬ WalkReaches s.buttons k b n)
  · have hstay : keyDirection k s = s := by
      rcases hidle with ⟨hs, ha⟩ | ⟨hs, hn⟩ | ⟨b, hs, hn⟩
      · exact keyDirection_activated hs ha
      · exact keyDirection_none hs hn
      · exact keyDirection_unreached hs hn
    obtain ⟨t, ht, hy⟩ := runRecord_noEffect h (he.trans (by rw [hstay]))
    refine ⟨t, ht, hy.carried, hy.control, hy.objects, hy.colours, hy.list, by rw [hy.buttons],
      fun _ => ⟨hy.buttons, hy.reports, hy.kept⟩, fun n hs hn hlow => ?_, fun b n hs ha hw => ?_⟩
    · rcases hidle with ⟨hs', _⟩ | ⟨_, hn'⟩ | ⟨b, hs', _⟩
      · rw [hs] at hs'
        cases hs'
      · rw [hn' n] at hn
        cases hn
      · rw [hs] at hs'
        cases hs'
    · rcases hidle with ⟨_, ha'⟩ | ⟨hs', _⟩ | ⟨b', hs', hn'⟩
      · rw [ha] at ha'
        cases ha'
      · rw [hs] at hs'
        cases hs'
      · obtain rfl := Option.some.inj (hs.symm.trans hs')
        exact absurd hw (hn' n)
  · cases hs : s.buttons.selection with
    | none =>
      rw [hs] at hidle
      obtain ⟨m, hm⟩ : ∃ m, lowestSelectable s.buttons = some m := by
        refine Option.ne_none_iff_exists'.1 fun hnone => hidle (.inr (.inl ⟨rfl, fun b => ?_⟩))
        simpa using List.find?_eq_none.1 hnone b (List.mem_finRange b)
      rw [keyDirection_lowest hs hm] at he
      have hmove := moveSelection_effect m s
      rw [hs, boundToEither_none] at hmove
      obtain ⟨t, ht, hy⟩ := runRecord_buttonEvent h he hmove
      refine ⟨t, ht, hy.carried, hy.control, hy.objects, hy.colours, hy.list, by rw [hy.buttons],
        fun hc => absurd hc hidle, fun n _ hn hlow => ?_, nofun⟩
      obtain rfl := Option.some.inj (hm.symm.trans (lowestSelectable_eq hn hlow))
      exact ⟨hy.buttons, hy.reports, hy.marked⟩
    | some b =>
      rw [hs] at hidle
      have hact : s.buttons.activated = false :=
        Bool.not_eq_true _ ▸ fun ha => hidle (.inl ⟨rfl, ha⟩)
      obtain ⟨n, hw⟩ : ∃ n, WalkReaches s.buttons k b n :=
        by_contra fun hnone => hidle (.inr (.inr ⟨b, rfl, fun n hn => hnone ⟨n, hn⟩⟩))
      rw [keyDirection_reached hs hact hw] at he
      have hunique {c m : Fin 48} (hc : some b = some c) (hm : WalkReaches s.buttons k c m) :
          b = c ∧ n = m := by
        obtain rfl := Option.some.inj hc
        exact ⟨rfl, Option.some.inj ((walkReaches_iff.1 hw).symm.trans (walkReaches_iff.1 hm))⟩
      have hmove := moveSelection_effect n s
      rw [hs] at hmove
      by_cases hauto : s.buttons.entries[n].body.autoActivate = true
      · rw [if_pos hauto] at he
        have hactivate := activate_effect n (moveSelection n s)
        rw [hmove.buttons] at hactivate
        obtain ⟨t, ht, hy⟩ := runRecord_yields h he (hmove.apart.trans hactivate.apart)
        have hb := hy.buttons.trans hactivate.buttons
        refine ⟨t, ht, hy.carried, hy.sameControl (hmove.control.trans hactivate.control),
          hy.objects.trans (hactivate.objects.trans hmove.objects),
          hy.colours.trans (hactivate.colours.trans hmove.colours),
          hy.list.trans (hactivate.list.trans hmove.list), by rw [hb],
          fun hc => absurd hc hidle, nofun, fun c m hc _ hm => ?_⟩
        obtain ⟨rfl, rfl⟩ := hunique hc hm
        refine ⟨fun hn => absurd (hauto.symm.trans hn) (by decide), fun _ => ⟨hb,
          hy.reports.trans (hactivate.reports.trans (giveReport_reports_congr _ _ _ hmove.reports)),
          fun mid hmid => ?_⟩⟩
        refine hy.took_of (congrArg PageControl.front (hactivate.control.2.2.trans hmove.control.2.2)) ?_
          (hactivate.render.trans hmove.render)
        have htiles := autoActivate_tiles n hmid t.buttons
        rw [hs] at htiles
        rw [hactivate.tiles, ← hactivate.buttons, ← hy.buttons]
        exact htiles
      · rw [if_neg hauto] at he
        obtain ⟨t, ht, hy⟩ := runRecord_buttonEvent h he hmove
        refine ⟨t, ht, hy.carried, hy.control, hy.objects, hy.colours, hy.list, by rw [hy.buttons],
          fun hc => absurd hc hidle, nofun, fun c m hc _ hm => ?_⟩
        obtain ⟨rfl, rfl⟩ := hunique hc hm
        exact ⟨fun _ => ⟨hy.buttons, hy.reports, hy.marked⟩, fun ha => absurd ha hauto⟩

end Sys2Proof.Machine
end

