-- ==== Sys2Proof/Proofs/SelectRecords.lean ====
section
/-! SUPPORT. KEY enter, SELECT, the records of page control, and the refusals of records. -/
namespace Sys2Proof.Machine
set_option Elab.async false
open Sys2Proof

/-! ## KEY enter and SELECT -/

section
variable {s : State} {x : Anchor}

theorem execKeyEnter_enter (hk : bits s.intake.header 12 0 = 5) :
    exec .keyEnter s = runRecord .key (carryOut keyEffect) s := by
  change execKeyEnter s = _
  rw [execKeyEnter, operand, hk]
  rfl

theorem keyEffect_enter (hk : bits s.intake.header 12 0 = 5) : keyEffect s = .ok (keyEnter s) := by
  rw [keyEffect, operand, hk]
  rfl

theorem selectEffect_none (h : bits s.intake.header 7 0 = 63) :
    selectEffect s = .ok (selectNone s) := if_pos h

theorem selectEffect_button {n : Fin 48} (h : bits s.intake.header 7 0 = n.val)
    (hn : s.buttons.selectable n = true) : selectEffect s = .ok (selectButton n s) := by
  have hlt := n.isLt
  simp only [selectEffect, buttonId, operand, idBelow_val h]
  rw [if_neg (by omega), if_pos hn]

theorem selectEffect_unselectable {n : Fin 48} (h : bits s.intake.header 7 0 = n.val)
    (hn : s.buttons.selectable n = false) : selectEffect s = .error .field := by
  have hlt := n.isLt
  simp only [selectEffect, buttonId, operand, idBelow_val h]
  rw [if_neg (by omega), if_neg (by simp [hn])]

theorem selectEffect_bad (h : bits s.intake.header 7 0 ≠ 63) (hn : 48 ≤ bits s.intake.header 7 0) :
    selectEffect s = .error .field := by
  simp only [selectEffect, buttonId, operand, idBelow_none hn]
  rw [if_neg h]

theorem boundToEither_eq (n : Fin 48) (previous : Link) :
    boundToEither n previous
      = fun p => p.source == .button n || previous.any fun q => p.source == .button q := by
  funext p
  cases previous <;> rfl

end

/-- Settles O24. -/
theorem keyEnterAndSelect : Obligations.KeyEnterAndSelect := by
  refine ⟨fun s x h hk => ?_, fun s x h => ⟨fun hnone => ?_, fun n hb hn => ?_, fun hne hge => ?_,
    fun n hb hn => ?_⟩⟩
  · rw [execKeyEnter_enter hk]
    have he := keyEffect_enter hk
    by_cases hidle : s.buttons.selection = none ∨ s.buttons.activated = true
    · have hstay : keyEnter s = s := by
        unfold keyEnter
        split
        next => rfl
        next b hb => exact if_pos (hidle.resolve_left (by simp [hb]))
      rw [hstay] at he
      obtain ⟨t, ht, hy⟩ := runRecord_noEffect h he
      refine ⟨t, ht, hy.carried, hy.control, hy.objects, hy.colours, hy.list,
        fun _ => ⟨hy.buttons, hy.reports, hy.kept⟩, fun b hb ha => ?_⟩
      rcases hidle with hs | ha'
      · rw [hb] at hs
        cases hs
      · rw [ha] at ha'
        cases ha'
    · obtain ⟨hs, ha⟩ := not_or.1 hidle
      obtain ⟨b, hb⟩ := Option.ne_none_iff_exists'.1 hs
      have hgo : keyEnter s = activate b s := by simp [keyEnter, hb, ha]
      rw [hgo] at he
      have heffect := activate_effect b s
      rw [hb] at heffect
      obtain ⟨t, ht, hy⟩ := runRecord_buttonEvent h he heffect
      refine ⟨t, ht, hy.carried, hy.control, hy.objects, hy.colours, hy.list,
        fun hc => absurd hc hidle, fun c hc _ => ?_⟩
      obtain rfl := Option.some.inj (hb.symm.trans hc)
      exact ⟨hy.buttons, hy.reports, hy.marked⟩
  · have he := selectEffect_none hnone
    cases hs : s.buttons.selection with
    | none =>
      have hstay : selectNone s = s := by simp [selectNone, hs]
      rw [hstay] at he
      obtain ⟨t, ht, hy⟩ := runRecord_noEffect h he
      exact ⟨t, ht, hy.carried, hy.control, hy.objects, hy.colours, hy.list,
        fun _ => ⟨hy.buttons, hy.reports, hy.kept⟩, nofun⟩
    | some b =>
      have hgo : selectNone s
          = giveReport (.selection none (some b)) (editButtons b s.buttons.deselect s) := by
        simp [selectNone, hs]
      rw [hgo] at he
      obtain ⟨t, ht, hy⟩ := runRecord_buttonEvent h he
        ((editButtons_effect b s.buttons.deselect s).give (by simp) _)
      refine ⟨t, ht, hy.carried, hy.control, hy.objects, hy.colours, hy.list, nofun, fun c hc => ?_⟩
      obtain rfl := Option.some.inj hc
      exact ⟨hy.buttons, hy.reports, hy.marked⟩
  · have he := selectEffect_button hb hn
    by_cases hs : s.buttons.selection = some n
    · by_cases ha : s.buttons.activated = true
      · have hgo : selectButton n s
            = editButtons n ⟨s.buttons.entries, some n, false, 0, 0⟩ s := by
          simp [selectButton, hs, ha]
        rw [hgo] at he
        obtain ⟨t, ht, hy⟩ := runRecord_buttonEvent h he (editButtons_effect n _ s)
        exact ⟨t, ht, hy.carried, hy.control, hy.objects, hy.colours, hy.list,
          fun _ hn => absurd (ha.symm.trans hn) (by decide),
          fun _ _ => ⟨hy.buttons, hy.reports, hy.marked⟩, fun hn => absurd hs hn⟩
      · have hstay : selectButton n s = s := by simp [selectButton, hs, ha]
        rw [hstay] at he
        obtain ⟨t, ht, hy⟩ := runRecord_noEffect h he
        exact ⟨t, ht, hy.carried, hy.control, hy.objects, hy.colours, hy.list,
          fun _ _ => ⟨hy.buttons, hy.reports, hy.kept⟩, fun _ hc => absurd hc ha, fun hn => absurd hs hn⟩
    · have hgo : selectButton n s = moveSelection n s := if_neg hs
      rw [hgo] at he
      obtain ⟨t, ht, hy⟩ := runRecord_buttonEvent h he (moveSelection_effect n s)
      have hmarked := hy.marked
      rw [boundToEither_eq] at hmarked
      exact ⟨t, ht, hy.carried, hy.control, hy.objects, hy.colours, hy.list, fun hc => absurd hc hs,
        fun hc => absurd hc hs, fun _ => ⟨hy.buttons, hy.reports, hmarked⟩⟩
  · exact runRecord_refused h (selectEffect_bad hne hge)
  · exact runRecord_refused h (selectEffect_unselectable hb hn)

/-! ## SHOW, BATCH OPEN and BATCH CLOSE -/

theorem showKindOf_bad {v : Nat} (h : 6 ≤ v) : showKindOf v = none := by
  obtain ⟨n, rfl⟩ := Nat.exists_eq_add_of_le' h
  rfl

/-- Settles O25. -/
theorem showAndBatchRecords : Obligations.ShowAndBatchRecords := by
  refine ⟨rfl, fun s x => ⟨fun k h hk hlen => ?_, fun h hbad => ?_, fun h => ?_, fun h => ?_⟩⟩
  · have he : showEffect s = .ok ((s.setPage { s.page with
        pendingShow := showTransition k (field s 1 7 0) (operand s 8 4) }).setTiles
          { s.tiles with flipWanted := true }) := by
      simp only [showEffect, operand, hk]
      exact if_neg (Nat.not_lt.2 hlen)
    obtain ⟨t, ht, hy⟩ := runRecord_yields h he
      ⟨rfl, rfl, rfl, rfl, rfl, rfl, rfl, rfl, rfl, rfl, rfl, rfl, rfl⟩
    exact ⟨t, ht, hy.carried, hy.sameTables ⟨rfl, rfl, rfl, rfl⟩, hy.engine, hy.share, hy.reports,
      hy.page, hy.took⟩
  · refine runRecord_refused h ?_
    unfold showEffect operand
    split
    next => rfl
    next k hk =>
      rcases hbad with hv | hlen
      · rw [showKindOf_bad hv] at hk
        cases hk
      · exact if_pos hlen
  · obtain ⟨t, ht, hy⟩ := runRecord_yields (effect := batchOpenEffect) h rfl
      ⟨rfl, rfl, rfl, rfl, rfl, rfl, rfl, rfl, rfl, rfl, rfl, rfl, rfl⟩
    exact ⟨t, ht, hy.carried, hy.sameTables ⟨rfl, rfl, rfl, rfl⟩, hy.engine, hy.share, hy.reports,
      hy.page, hy.took⟩
  · obtain ⟨t, ht, hy⟩ := runRecord_yields (effect := batchCloseEffect) h rfl
      ⟨rfl, rfl, rfl, rfl, rfl, rfl, rfl, rfl, rfl, rfl, rfl, rfl, rfl⟩
    exact ⟨t, ht, hy.carried, hy.sameTables ⟨rfl, rfl, rfl, rfl⟩, hy.engine, hy.share, hy.reports,
      hy.page, hy.took⟩

/-! ## Refusals -/

section
variable {s : State} {x : Anchor}

theorem setColourEffect_bad (h : 8 ≤ bits s.intake.header 12 9 ∨ 256 ≤ bits s.intake.header 8 0) :
    setColourEffect s = .error .field := by
  unfold setColourEffect operand
  rcases h with h | h <;> rw [idBelow_none h]
  split <;> trivial

theorem codingOf_bad {v : Nat} (h : 5 ≤ v) : codingOf v = none := by
  obtain ⟨n, rfl⟩ := Nat.exists_eq_add_of_le' h
  rfl

theorem objectFields_bad (h : 256 ≤ bits s.intake.header 8 0 ∨ 5 ≤ bits s.intake.header 12 9
    ∨ 8 ≤ bits (body s 1) 27 24) : objectFields s = none := by
  unfold objectFields operand field
  rcases h with h | h | h
  · rw [idBelow_none h]
  · rw [codingOf_bad h]
    split <;> trivial
  · rw [idBelow_none h]
    split <;> trivial

theorem placeFields_bad (h : 128 ≤ bits s.intake.header 7 0 ∨ 64 ≤ bits (body s 3) 7 0
    ∨ (bit (body s 1) 31 = true ∧ 48 ≤ bits (body s 1) 7 0)) : placeFields s = none := by
  unfold placeFields placementId operand
  rcases h with h | h | ⟨hbit, h⟩
  · rw [idBelow_none h]
  · split
    next => exact if_pos h
    next => rfl
  · have hsource : placeSource s = none := by
      rw [placeSource, if_pos hbit, field, idBelow_none h]
      rfl
    rw [hsource]
    split <;> trivial

theorem buttonId_bad (h : 48 ≤ bits s.intake.header 7 0) : buttonId s = none := idBelow_none h

theorem lookState_bad (h : bits s.intake.header 9 8 = 0 ∨ bits s.intake.header 9 8 = 3) :
    lookState s = none := by
  unfold lookState operand
  rcases h with h | h <;> rw [h] <;> rfl

theorem buttonLookEffect_bad (h : 48 ≤ bits s.intake.header 7 0 ∨ bits s.intake.header 9 8 = 0
    ∨ bits s.intake.header 9 8 = 3) : buttonLookEffect s = .error .field := by
  unfold buttonLookEffect
  rcases h with h | h
  · rw [buttonId_bad h]
  · rw [lookState_bad h]
    split <;> trivial

theorem buttonLookEffect_undefined {b : Fin 48} (hb : bits s.intake.header 7 0 = b.val)
    (hd : s.buttons.entries[b].defined = false) : buttonLookEffect s = .error .field := by
  unfold buttonLookEffect
  rw [show buttonId s = some b from idBelow_val hb]
  split
  next hb' _ =>
    obtain rfl := Option.some.inj hb'
    exact if_neg (by rw [hd]; decide)
  next => rfl

theorem keyOf_bad {v : Nat} (h : v = 0 ∨ 6 ≤ v) : keyOf v = none := by
  rcases h with rfl | h
  · rfl
  · obtain ⟨n, rfl⟩ := Nat.exists_eq_add_of_le' h
    rfl

theorem keyEffect_bad (h : keyOf (operand s 12 0) = none) : keyEffect s = .error .field := by
  rw [keyEffect, h]

end

/-- Settles O26. -/
theorem badFieldsAreRefused : Obligations.BadFieldsAreRefused := by
  intro s x
  refine ⟨fun h hb => runRecord_refused h (setColourEffect_bad hb),
    fun h hb => runRecord_refused h (by rw [defineObjectEffect, objectFields_bad hb]),
    fun h hb => runRecord_refused h (by rw [dropObjectEffect, operand, idBelow_none hb]),
    fun h hb => runRecord_refused h (by rw [placeEffect, placeFields_bad hb]),
    fun hb => ⟨fun h => ?_, fun h => ?_, fun h => ?_⟩, fun h hb => runRecord_refused h ?_,
    fun h hb => runRecord_refused h (buttonLookEffect_bad hb),
    fun b h hb hd => runRecord_refused h (buttonLookEffect_undefined hb hd),
    fun hb => ⟨fun h => ?_, fun h => ?_, fun h => ?_⟩, fun h hb => ⟨?_, ?_⟩⟩
  · exact runRecord_refused h (by rw [moveEffect, placementId, operand, idBelow_none hb])
  · exact runRecord_refused h (by rw [setOpacityEffect, placementId, operand, idBelow_none hb])
  · exact runRecord_refused h (by rw [removeEffect, placementId, operand, idBelow_none hb])
  · unfold defineButtonEffect
    rcases hb with hb | hb
    · rw [buttonId_bad hb]
    · split
      next => exact if_neg (by rw [operand, hb]; decide)
      next => rfl
  · exact runRecord_refused h (by rw [enableButtonEffect, buttonId_bad hb])
  · exact runRecord_refused h (by rw [disableButtonEffect, buttonId_bad hb])
  · exact runRecord_refused h (by rw [deleteButtonEffect, buttonId_bad hb])
  · have hk : keyOf (operand s 12 0) = none := keyOf_bad hb
    have hexec : exec .keyDirection s = runRecord .key (carryOut keyEffect) s :=
      if_neg (by rw [hk]; nofun)
    rw [hexec]
    exact runRecord_refused h (keyEffect_bad hk)
  · have hk : keyOf (operand s 12 0) = none := keyOf_bad hb
    have hexec : exec .keyEnter s = runRecord .key (carryOut keyEffect) s := by
      change execKeyEnter s = _
      rw [execKeyEnter, hk]
    rw [hexec]
    exact runRecord_refused h (keyEffect_bad hk)

end Sys2Proof.Machine
end

