-- ==== Sys2Proof/Proofs/Steps.lean ====
section
/-! SUPPORT. The step and its queue, the lines, the frame counter, and the state at reset. -/
namespace Sys2Proof.Machine
set_option Elab.async false
open Sys2Proof

/-- Settles O1. -/
theorem stepRunsFrontCommand : Obligations.StepRunsFrontCommand :=
  ⟨fun _ _ _ => rfl, fun s h => by rw [step, h]⟩

/-! ## The state at reset -/

/-- Settles O3. -/
theorem resetLeavesClearedTables : Obligations.ResetLeavesClearedTables :=
  ⟨scenesEmpty_of rfl rfl rfl rfl,
    ⟨rfl, rfl, rfl, rfl, rfl, rfl, rfl, rfl, rfl⟩, rfl, rfl, rfl, rfl, rfl, rfl, rfl, rfl, rfl, rfl, rfl, rfl,
    rfl⟩

theorem directorySound_empty : DirectorySound emptyObjects :=
  fun id => by simpa [emptyObjects] using undef_sound

theorem inFlight_empty (k : Fin Config.tableCount) : ColourTables.empty.inFlight[k] = false := by
  simp [ColourTables.empty]

theorem entries_empty (b : Fin Config.buttonCount) : ButtonTable.empty.entries[b] = Button.empty := by
  simp [ButtonTable.empty]

/-- Settles O4. -/
theorem resetMeetsInvariants : Obligations.ResetMeetsInvariants := by
  refine ⟨directorySound_empty, ?_, ?_, ?_, ?_, ?_, ?_, ?_, ?_, ?_, ?_, ?_, ?_, ?_, ?_, ?_, ?_⟩
  · exact .nil
  · exact ⟨⟨rfl, rfl⟩, rfl⟩
  · exact ⟨by decide, nofun, nofun⟩
  · exact rfl
  · exact ⟨nofun, nofun⟩
  · exact ⟨nofun, nofun⟩
  · exact ⟨by decide, by decide⟩
  · refine ⟨⟨nofun, nofun⟩, .inr (.inr fun k => ?_)⟩
    rw [show State.reset.colours.inFlight[k] = false from inFlight_empty k]
    exact ⟨nofun, nofun⟩
  · exact ⟨nofun, rfl, rfl, rfl, rfl⟩
  · refine ⟨nofun, (fun f (h : none = some f) => nomatch h), fun b => ?_⟩
    rw [show State.reset.buttons.entries[b] = Button.empty from entries_empty b]
    exact ⟨nofun, nofun⟩
  · exact ⟨⟨nofun, fun h => h.elim nofun nofun⟩, ⟨fun _ => rfl, fun _ => rfl⟩, nofun, nofun,
      ⟨nofun, nofun⟩, nofun⟩
  · exact ⟨fun _ => Nat.zero_le _, fun _ _ _ _ h => absurd h List.not_mem_nil,
      fun _ _ _ h => absurd h List.not_mem_nil⟩
  · rfl
  · exact fun _ => ⟨rfl, fun _ => rfl⟩
  · exact nofun
  · exact nofun

/-! ## The queue, the lines and the frame counter -/

/-- The command changes a line. -/
def isLine : Instr → Bool
  | .urgentLine _ | .resetAssert | .resetRelease => true
  | _ => false

/-- The queue of commands and the input lines of t are those of s. -/
def SameLines (s t : State) : Prop :=
  t.pending = s.pending ∧ t.urgent = s.urgent ∧ t.resetLine = s.resetLine

section
variable {s t u : State} {c : Instr}

theorem RecordDone.sameLines {k : RecKind} (h : RecordDone s k u) : SameLines s u := by
  cases h <;> simp [SameLines]

theorem TileDone.sameLines (h : TileDone s u) : SameLines s u := by
  cases h <;> simp [SameLines]

theorem OwnEffect.sameLines {o : OwnReq} {effect : State → State} (he : OwnEffect s c o effect) :
    SameLines s (effect (s.setMside .free)) := by
  cases he with
  | tile => exact tileEffect_done.sameLines
  | _ => simp [SameLines]

theorem Offered.sameLines {x : CTxn} {v : State} (h : Offered x u v) (hu : SameLines s u) :
    SameLines s v := by
  cases h <;> simpa [SameLines] using hu

theorem Watched.sameLines {v : State} (h : Watched u v) (hu : SameLines s u) : SameLines s v := by
  cases h <;> simpa [SameLines] using hu

theorem CEffect.sameLines {x : CTxn} {effect : State → State} (he : CEffect s x c effect) :
    SameLines s (effect (cDone s)) := by
  obtain ⟨v, ho, hw⟩ := he.offered_watched
  exact hw.sameLines (ho.sameLines ⟨rfl, rfl, rfl⟩)

theorem Effect.sameLines (h : Effect s c u) (hl : isLine c = false) : SameLines s u := by
  cases h with
  | carried _ _ hu => simpa [SameLines] using hu.sameLines
  | own he => exact he.sameLines
  | cSide he => exact he.sameLines
  | release => cases hl
  | _ => simp [SameLines]

theorem Event.sameLines (h : Event s c t) (hl : isLine c = false) : SameLines s t := by
  cases h with
  | finished h => simpa [SameLines] using h.sameLines hl
  | bypassed h =>
    cases h with
    | atOnce => cases hl
    | own => simp [SameLines]
    | cSide he => simpa [SameLines] using he.sameLines
  | urgent | assertedAgain | assertedInBypass | assertedBusy | releasedAgain | released => cases hl
  | _ => simp [SameLines, cDone]

/-! ## The frame counter -/

theorem RecordDone.frames {k : RecKind} (h : RecordDone s k u) : u.frames = s.frames := by
  cases h <;> simp

theorem TileDone.frames (h : TileDone s u) : u.frames = s.frames := by
  cases h <;> simp

theorem OwnEffect.frames {o : OwnReq} {effect : State → State} (he : OwnEffect s c o effect) :
    (effect (s.setMside .free)).frames = s.frames := by
  cases he with
  | tile => exact tileEffect_done.frames
  | _ => simp

theorem Offered.frames {x : CTxn} {v : State} (h : Offered x u v) : v.frames = u.frames := by
  cases h <;> simp

theorem Watched.frames {v : State} (h : Watched u v) : v.frames = u.frames := by
  cases h <;> simp

theorem CEffect.frames {x : CTxn} {effect : State → State} (he : CEffect s x c effect) :
    (effect (cDone s)).frames = s.frames := by
  obtain ⟨v, ho, hw⟩ := he.offered_watched
  exact hw.frames.trans ho.frames

theorem Effect.frames (h : Effect s c u) (hf : ¬ IsFrame c) (hs : c ≠ .clearingSweepEnd) :
    u.frames = s.frames := by
  cases h with
  | carried _ _ hu => simpa using hu.frames
  | own he => exact he.frames
  | cSide he => exact he.frames
  | frame h => exact absurd h hf
  | sweep => exact absurd rfl hs
  | _ => simp

theorem Event.frames (h : Event s c t) (hf : ¬ IsFrame c) (hs : c ≠ .clearingSweepEnd) :
    t.frames = s.frames := by
  cases h with
  | finished h => simpa using h.frames hf hs
  | bypassed h =>
    cases h with
    | atOnce => simp
    | own => simp
    | cSide he => simpa using he.frames
  | _ => simp [cDone]

theorem frameStart_frames (s : State) : (frameStart s).frames
    = if s.engine = .unanchored ∨ s.engine = .active ∨ s.engine = .parked then s.frames + 1
      else s.frames := by
  unfold frameStart
  split
  next h => simp [h]
  next h => simp [h]
  next h => simp [h, countFrame]
  next h => simp [h, countFrame]
  next h =>
    have hstep : (frameStepped s).frames = s.frames + 1 := by
      unfold frameStepped
      split <;> simp [countFrame]
    simp [h, activeFrame_eq, hstep]

theorem frameCase_next {due : Bool} (h : frameCase due s = .next t) : t = finish (frameStart s) := by
  unfold frameCase at h
  split at h
  next => exact (Host.Outcome.next.inj h).symm
  next => cases h

theorem exec_frame (hf : IsFrame c) (h : exec c s = .next t) : t = finish (frameStart s) := by
  rcases hf with rfl | rfl | rfl | rfl
  · exact (Host.Outcome.next.inj h).symm
  · exact frameCase_next h
  · exact frameCase_next h
  · exact frameCase_next h

theorem endSweep_frames (s : State) : (endSweep s).frames = 0 := by
  unfold endSweep
  split <;> simp [sweep]

theorem exec_clearingSweepEnd (h : exec .clearingSweepEnd s = .next t) :
    s.engine = .clearing ∧ t = finish (endSweep s) := by
  change execClearingSweepEnd s = _ at h
  unfold execClearingSweepEnd at h
  split at h
  next he => exact ⟨he, (Host.Outcome.next.inj h).symm⟩
  next => cases h

/-- No tile is taken while the render engine is held. -/
theorem takeTile_of_held (h : renderHeld s = true) : takeTile s = s := by
  unfold takeTile
  split
  next => rw [if_neg (by rw [renderState_held.2 h]; nofun)]
  next => rfl

/-- A frame start at an engine that is not ACTIVE counts the frame or does nothing. -/
theorem frameStart_inactive (h : s.engine ≠ .active) : frameStart s = s.setFrames
    (if s.engine = .off ∨ s.engine = .clearing then s.frames else s.frames + 1) := by
  unfold frameStart
  split
  next e => simp [e]; rfl
  next e => simp [e]; rfl
  next e => simp [e, countFrame]
  next e => simp [e, countFrame]
  next e => exact absurd e h

/-- The transition that a frame start finds running is not one at which a flip is due. -/
theorem running_of_flipDue (h : flipDue s = true) : s.page.running = none := by
  simp only [flipDue, Bool.and_eq_true, Option.isNone_iff_eq_none] at h
  exact h.1.2

theorem frameStepped_flip (h : flipDue s = true) : frameStepped s = flip (countFrame s) := by
  have hnone : (countFrame s).page.running = none := running_of_flipDue h
  rw [frameStepped, if_pos h, stepTransition, hnone]

theorem flip_reports (s : State) :
    (flip (countFrame s)).reports
      = (giveReport (.flipped s.page.front.other (s.frames + 1)) s).reports := by
  have hframes : (takeRects (countFrame s)).frames = s.frames + 1 := by simp [countFrame]
  have hfront : (takeRects (countFrame s)).page.front = s.page.front := by simp [countFrame]
  unfold flip
  dsimp only [State.setPage_page, State.setPage_frames, State.setTiles_frames, State.setTiles_page]
  rw [hframes, hfront]
  exact giveReport_reports_congr _ _ _ (by simp [countFrame])

theorem assertReset_lines (s : State) : (assertReset s).pending = s.pending
    ∧ (assertReset s).urgent = s.urgent ∧ (assertReset s).resetLine = true := by
  unfold assertReset
  split
  next h => exact ⟨rfl, rfl, h⟩
  next => dsimp only; split <;> simp

theorem releaseReset_lines (s : State) : (releaseReset s).pending = s.pending
    ∧ (releaseReset s).urgent = s.urgent ∧ (releaseReset s).resetLine = false := by
  unfold releaseReset
  split
  next => dsimp only; split <;> simp
  next h => exact ⟨rfl, rfl, by simpa using h⟩

theorem isLine_cases (h : isLine c = true) :
    (∃ b, c = .urgentLine b) ∨ c = .resetAssert ∨ c = .resetRelease := by
  cases c with
  | urgentLine b => exact .inl ⟨b, rfl⟩
  | resetAssert => exact .inr (.inl rfl)
  | resetRelease => exact .inr (.inr rfl)
  | _ => cases h

end

/-- Settles O2. -/
theorem commandsKeepQueueAndCountFrames : Obligations.CommandsKeepQueueAndCountFrames := by
  refine ⟨fun c s t h => ?_, ⟨fun c s t h => ?_, fun s h => ?_⟩, fun s h => ?_⟩
  · by_cases hl : isLine c = true
    · rcases isLine_cases hl with ⟨b, rfl⟩ | rfl | rfl
      · cases h
        exact ⟨rfl, rfl, rfl⟩
      · cases h
        exact assertReset_lines s
      · cases h
        exact releaseReset_lines s
    · rw [Bool.not_eq_true] at hl
      obtain ⟨hp, hu, hr⟩ := (exec_event h).sameLines hl
      refine ⟨hp, ?_, ?_⟩
      · split
        next => cases hl
        next => exact hu
      · split
        next => cases hl
        next => cases hl
        next => exact hr
  · by_cases hf : IsFrame c
    · have hmem : c ∈ [Instr.frameStart, .settleEnd, .transitionDone, .holdEnd] := by
        simpa [IsFrame] using hf
      rw [if_pos hmem, exec_frame hf h, finish_frames, frameStart_frames]
    · have hmem : c ∉ [Instr.frameStart, .settleEnd, .transitionDone, .holdEnd] := by
        simpa [IsFrame] using hf
      rw [if_neg hmem]
      split
      next hs =>
        subst hs
        rw [(exec_clearingSweepEnd h).2, finish_frames, endSweep_frames]
      next hs => exact (exec_event h).frames hf hs
  · refine ⟨_, rfl, ?_⟩
    have he : s.engine = .active := by
      by_contra hne
      simp [flipDue, hne] at h
    have hstart : frameStart s = holdAndPulse (handStateWord s (frameStepped s)) := by
      rw [frameStart, he, activeFrame_eq]
    rw [finish_reports, hstart, holdAndPulse_reports, handStateWord_reports, frameStepped_flip h]
    exact flip_reports ..
  · refine ⟨_, rfl, ?_⟩
    have hheld : renderHeld (frameStart s) = true := by
      rw [renderHeld_iff, frameStart_inactive h]
      exact .inr (.inl h)
    have hfinish : finish (frameStart s) = grant (frameStart s) := by
      rw [finish, takeTile_of_held hheld]
    have hstart := frameStart_inactive h
    refine ⟨?_, ?_, ?_, ?_, ?_, ?_, ?_, ?_, ?_, ?_, ?_, finish_busKept _ _ ?_ ?_ ?_,
      finish_loadKept _ _ ?_ ?_, ?_⟩
    case refine_5 | refine_6 => rw [hfinish, hstart]; simp
    all_goals rw [hstart]; simp [SameTables, SameControl]

end Sys2Proof.Machine
end

