-- ==== Sys2Proof/Proofs/Causes.lean ====
section
/-! SUPPORT. The command that names an event runs just when the event may arrive. -/
namespace Sys2Proof.Machine
set_option Elab.async false
open Sys2Proof

section
variable {s : State} {c : Instr}

/-- The command runs just when the event it names is under way. -/
def NeedsCause (c : Instr) (s : State) : Prop :=
  (UnderWay c s → ∃ t, exec c s = .next t) ∧ (¬ UnderWay c s → exec c s = .fault .noSuchTransfer)

theorem needsCause_of_if {p : Prop} [Decidable p] {t : State}
    (he : exec c s = if p then .next t else .fault .noSuchTransfer) (hp : UnderWay c s ↔ p) :
    NeedsCause c s :=
  ⟨fun h => ⟨t, he.trans (if_pos (hp.1 h))⟩, fun h => he.trans (if_neg fun hc => h (hp.2 hc))⟩

theorem needsCause_of_next {t : State} (he : exec c s = .next t) (hu : UnderWay c s) : NeedsCause c s :=
  ⟨fun _ => ⟨t, he⟩, fun h => absurd hu h⟩

theorem needsCause_of_fault (he : exec c s = .fault .noSuchTransfer) (hu : ¬ UnderWay c s) :
    NeedsCause c s := ⟨fun h => absurd h hu, fun _ => he⟩

/-! ## Words and completions of the C-side -/

theorem cStoreWord_needsCause (w : BusWord) : NeedsCause (.cStoreWord w) s := by
  cases hc : s.cside.state with
  | active t =>
    exact needsCause_of_if (by simp only [exec, execCStoreWord, hc]; rfl) (by simp [UnderWay, hc])
  | idle => exact needsCause_of_fault (by simp [exec, execCStoreWord, hc]) (by simp [UnderWay, hc])
  | waiting r => exact needsCause_of_fault (by simp [exec, execCStoreWord, hc]) (by simp [UnderWay, hc])

theorem cStoreComplete_needsCause : NeedsCause .cStoreComplete s := by
  cases hc : s.cside.state with
  | active t =>
    cases hm : s.mside with
    | controller m =>
      exact needsCause_of_if (by simp only [exec, execCStoreComplete, hc, hm]; rfl)
        (by simp [UnderWay, hc, hm])
    | free => exact needsCause_of_fault (by simp [exec, execCStoreComplete, hc, hm]) (by simp [UnderWay, hm])
    | own o n =>
      exact needsCause_of_fault (by simp [exec, execCStoreComplete, hc, hm]) (by simp [UnderWay, hm])
  | idle => exact needsCause_of_fault (by simp [exec, execCStoreComplete, hc]) (by simp [UnderWay, hc])
  | waiting r =>
    exact needsCause_of_fault (by simp [exec, execCStoreComplete, hc]) (by simp [UnderWay, hc])

theorem isPassedFetch_iff (t : CTxn) :
    isPassedFetch t = true ↔ reqIsFetch t.req = true ∧ ∃ k, t.treat = .passed k := by
  cases ht : t.treat <;> simp [isPassedFetch, ht]

theorem passedFetchWord_needsCause (w : BusWord) : NeedsCause (.passedFetchWord w) s := by
  cases hc : s.cside.state with
  | active t =>
    refine needsCause_of_if (by simp only [exec, execPassedFetchWord, hc]; rfl) ?_
    simp [UnderWay, hc, isPassedFetch_iff, and_assoc]
  | idle => exact needsCause_of_fault (by simp [exec, execPassedFetchWord, hc]) (by simp [UnderWay, hc])
  | waiting r =>
    exact needsCause_of_fault (by simp [exec, execPassedFetchWord, hc]) (by simp [UnderWay, hc])

theorem passedTransactionComplete_needsCause : NeedsCause .passedTransactionComplete s := by
  cases hc : s.cside.state with
  | active t =>
    refine needsCause_of_if (by simp only [exec, execPassedTransactionComplete, hc]; rfl) ?_
    simp [UnderWay, hc, isPassedFetch_iff, and_assoc]
  | idle =>
    exact needsCause_of_fault (by simp [exec, execPassedTransactionComplete, hc]) (by simp [UnderWay, hc])
  | waiting r =>
    exact needsCause_of_fault (by simp [exec, execPassedTransactionComplete, hc]) (by simp [UnderWay, hc])

/-! ## Words and completions of display fetches -/

theorem displayWordArrival_needsCause (w : BusWord) : NeedsCause (.displayWordArrival w) s := by
  cases hc : s.cside.state with
  | active t =>
    cases ht : t.treat with
    | display p =>
      cases hs : t.second with
      | none =>
        by_cases hl : t.moved.length < 4
        · exact needsCause_of_next
            (by simp only [exec, execDisplayWordArrival, hc, ht, displayTake, hs, hl, if_true]; rfl)
            ⟨t, p, hc, ht, .inl ⟨hs, hl⟩⟩
        · exact needsCause_of_fault (by simp [exec, execDisplayWordArrival, hc, ht, displayTake, hs, hl])
            (by simp [UnderWay, hc, ht, hs, hl])
      | some fs =>
        by_cases hl : fs.length < 4
        · exact needsCause_of_next
            (by simp only [exec, execDisplayWordArrival, hc, ht, displayTake, hs, hl, if_true]; rfl)
            ⟨t, p, hc, ht, .inr ⟨fs, hs, hl⟩⟩
        · exact needsCause_of_fault (by simp [exec, execDisplayWordArrival, hc, ht, displayTake, hs, hl])
            (by simp [UnderWay, hc, hs, hl])
    | passed k =>
      exact needsCause_of_fault (by simp [exec, execDisplayWordArrival, hc, ht])
        (by simp [UnderWay, hc, ht])
    | redirected =>
      exact needsCause_of_fault (by simp [exec, execDisplayWordArrival, hc, ht])
        (by simp [UnderWay, hc, ht])
  | idle => exact needsCause_of_fault (by simp [exec, execDisplayWordArrival, hc]) (by simp [UnderWay, hc])
  | waiting r =>
    exact needsCause_of_fault (by simp [exec, execDisplayWordArrival, hc]) (by simp [UnderWay, hc])

theorem displayFirstFetchComplete_needsCause : NeedsCause .displayFirstFetchComplete s := by
  cases hc : s.cside.state with
  | active t =>
    cases ht : t.treat with
    | display p =>
      cases hs : t.second with
      | none =>
        cases hp : p.second with
        | none =>
          exact needsCause_of_fault (by simp [exec, execDisplayFirstFetchComplete, hc, ht, hs, hp])
            (by simp [UnderWay, hc, ht, hp])
        | some line =>
          exact needsCause_of_if (by simp only [exec, execDisplayFirstFetchComplete, hc, ht, hs, hp]; rfl)
            (by simp [UnderWay, hc, ht, hs, hp])
      | some fs =>
        exact needsCause_of_fault (by simp [exec, execDisplayFirstFetchComplete, hc, ht, hs])
          (by simp [UnderWay, hc, hs])
    | passed k =>
      exact needsCause_of_fault (by simp [exec, execDisplayFirstFetchComplete, hc, ht])
        (by simp [UnderWay, hc, ht])
    | redirected =>
      exact needsCause_of_fault (by simp [exec, execDisplayFirstFetchComplete, hc, ht])
        (by simp [UnderWay, hc, ht])
  | idle =>
    exact needsCause_of_fault (by simp [exec, execDisplayFirstFetchComplete, hc]) (by simp [UnderWay, hc])
  | waiting r =>
    exact needsCause_of_fault (by simp [exec, execDisplayFirstFetchComplete, hc]) (by simp [UnderWay, hc])

theorem displayWhole_iff (p : DisplayPlan) (t : CTxn) :
    displayWhole p t = true ↔ t.moved.length = 4 ∧ ((p.second = none ∧ t.second = none)
      ∨ ∃ fs, p.second.isSome = true ∧ t.second = some fs ∧ fs.length = 4) := by
  cases hp : p.second <;> cases hs : t.second <;> simp [displayWhole, hp, hs]

theorem displayFetchComplete_needsCause : NeedsCause .displayFetchComplete s := by
  cases hc : s.cside.state with
  | active t =>
    cases ht : t.treat with
    | display p =>
      exact needsCause_of_if (by simp only [exec, execDisplayFetchComplete, hc, ht]; rfl)
        (by simp [UnderWay, hc, ht, displayWhole_iff])
    | passed k =>
      exact needsCause_of_fault (by simp [exec, execDisplayFetchComplete, hc, ht])
        (by simp [UnderWay, hc, ht])
    | redirected =>
      exact needsCause_of_fault (by simp [exec, execDisplayFetchComplete, hc, ht])
        (by simp [UnderWay, hc, ht])
  | idle => exact needsCause_of_fault (by simp [exec, execDisplayFetchComplete, hc]) (by simp [UnderWay, hc])
  | waiting r =>
    exact needsCause_of_fault (by simp [exec, execDisplayFetchComplete, hc]) (by simp [UnderWay, hc])

/-! ## Words and completions of the own fetches and stores -/

theorem probeComplete_needsCause (w w1 w2 w3 : BusWord) : NeedsCause (.probeComplete w w1 w2 w3) s := by
  by_cases h : ∃ r n, s.mside = .own (.intake (.probe r)) n
  · obtain ⟨r, n, hm⟩ := h
    exact needsCause_of_next (by simp only [exec, execProbeComplete, hm]; rfl) ⟨r, n, hm⟩
  · refine needsCause_of_fault ?_ h
    change execProbeComplete w w1 w2 w3 s = _
    unfold execProbeComplete
    split
    next r n hm => exact absurd ⟨r, n, hm⟩ h
    all_goals rfl

theorem refetchWordArrival_needsCause (w : BusWord) : NeedsCause (.refetchWordArrival w) s := by
  by_cases h : ∃ r n, s.mside = .own (.intake (.refetch r)) n
  · obtain ⟨r, n, hm⟩ := h
    exact needsCause_of_if (by simp only [exec, execRefetchWordArrival, hm]; rfl) (by simp [UnderWay, hm])
  · refine needsCause_of_fault ?_ fun hu => h ?_
    · change execRefetchWordArrival w s = _
      unfold execRefetchWordArrival
      split
      next hm => exact absurd ⟨_, _, hm⟩ h
      all_goals rfl
    · obtain ⟨r, n, hm, _⟩ := hu
      exact ⟨r, n, hm⟩

theorem refetchLineComplete_needsCause : NeedsCause .refetchLineComplete s := by
  by_cases h : ∃ r n, s.mside = .own (.intake (.refetch r)) n
  · obtain ⟨r, n, hm⟩ := h
    exact needsCause_of_if (by simp only [exec, execRefetchLineComplete, hm]; rfl) (by simp [UnderWay, hm])
  · refine needsCause_of_fault ?_ fun hu => h ?_
    · change execRefetchLineComplete s = _
      unfold execRefetchLineComplete
      split
      next hm => exact absurd ⟨_, _, hm⟩ h
      all_goals rfl
    · obtain ⟨r, hm⟩ := hu
      exact ⟨r, 4, hm⟩

theorem loadWordArrival_needsCause (w : BusWord) : NeedsCause (.loadWordArrival w) s := by
  by_cases h : ∃ r n, s.mside = .own (.load r) n
  · obtain ⟨r, n, hm⟩ := h
    exact needsCause_of_if (by simp only [exec, execLoadWordArrival, hm]; rfl) (by simp [UnderWay, hm])
  · refine needsCause_of_fault ?_ fun hu => h ?_
    · change execLoadWordArrival w s = _
      unfold execLoadWordArrival
      split
      next hm => exact absurd ⟨_, _, hm⟩ h
      all_goals rfl
    · obtain ⟨r, n, hm, _⟩ := hu
      exact ⟨r, n, hm⟩

theorem objectWordArrival_needsCause (w : BusWord) : NeedsCause (.objectWordArrival w) s := by
  by_cases h : ∃ r n, s.mside = .own (.render (.fetch r)) n
  · obtain ⟨r, n, hm⟩ := h
    exact needsCause_of_if (by simp only [exec, execObjectWordArrival, hm]; rfl) (by simp [UnderWay, hm])
  · refine needsCause_of_fault ?_ fun hu => h ?_
    · change execObjectWordArrival w s = _
      unfold execObjectWordArrival
      split
      next hm => exact absurd ⟨_, _, hm⟩ h
      all_goals rfl
    · obtain ⟨r, n, hm, _⟩ := hu
      exact ⟨r, n, hm⟩

theorem objectFetchComplete_needsCause : NeedsCause .objectFetchComplete s := by
  by_cases h : ∃ r n, s.mside = .own (.render (.fetch r)) n
  · obtain ⟨r, n, hm⟩ := h
    exact needsCause_of_if (by simp only [exec, execObjectFetchComplete, hm]; rfl) (by simp [UnderWay, hm])
  · refine needsCause_of_fault ?_ fun hu => h ?_
    · change execObjectFetchComplete s = _
      unfold execObjectFetchComplete
      split
      next hm => exact absurd ⟨_, _, hm⟩ h
      all_goals rfl
    · obtain ⟨r, hm⟩ := hu
      exact ⟨r, 4, hm⟩

theorem reportStoreComplete_needsCause : NeedsCause .reportStoreComplete s := by
  by_cases h : ∃ a p ws n, s.mside = .own (.class1 (.reportLine a p ws)) n
  · obtain ⟨a, p, ws, n, hm⟩ := h
    exact needsCause_of_next (by simp only [exec, execReportStoreComplete, hm]; rfl) ⟨a, p, ws, n, hm⟩
  · refine needsCause_of_fault ?_ h
    change execReportStoreComplete s = _
    unfold execReportStoreComplete
    split
    next hm => exact absurd ⟨_, _, _, _, hm⟩ h
    all_goals rfl

theorem controlWordStoreComplete_needsCause : NeedsCause .controlWordStoreComplete s := by
  by_cases h : ∃ k a e w n, s.mside = .own (.class1 (.control k a e w)) n
  · obtain ⟨k, a, e, w, n, hm⟩ := h
    exact needsCause_of_next (by simp only [exec, execControlWordStoreComplete, hm]; rfl)
      ⟨k, a, e, w, n, hm⟩
  · refine needsCause_of_fault ?_ h
    change execControlWordStoreComplete s = _
    unfold execControlWordStoreComplete
    split
    next hm => exact absurd ⟨_, _, _, _, _, hm⟩ h
    all_goals rfl

theorem lastLoadLine_iff (l : Load) (r : LineReq) :
    lastLoadLine l r = true ↔ l.source + 4 * l.count ≤ r.line.toNat + 16 := by
  simp [lastLoadLine]

theorem loadLineComplete_needsCause : NeedsCause .loadLineComplete s := by
  by_cases h : ∃ r n l, s.mside = .own (.load r) n ∧ s.colours.load = some l
  · obtain ⟨r, n, l, hm, hl⟩ := h
    refine needsCause_of_if (by simp only [exec, execLoadLineComplete, hm, hl]; rfl) ?_
    simp [UnderWay, hm, hl, lastLoadLine]
  · refine needsCause_of_fault ?_ fun ⟨r, l, hm, hl, _⟩ => h ⟨r, 4, l, hm, hl⟩
    change execLoadLineComplete s = _
    unfold execLoadLineComplete
    split
    next hm hl => exact absurd ⟨_, _, _, hm, hl⟩ h
    next => rfl

theorem loadComplete_needsCause : NeedsCause .loadComplete s := by
  by_cases h : ∃ r n l, s.mside = .own (.load r) n ∧ s.colours.load = some l
  · obtain ⟨r, n, l, hm, hl⟩ := h
    refine needsCause_of_if (by simp only [exec, execLoadComplete, hm, hl]; rfl) ?_
    simp [UnderWay, hm, hl, lastLoadLine]
  · refine needsCause_of_fault ?_ fun ⟨r, l, hm, hl, _⟩ => h ⟨r, 4, l, hm, hl⟩
    change execLoadComplete s = _
    unfold execLoadComplete
    split
    next hm hl => exact absurd ⟨_, _, _, hm, hl⟩ h
    next => rfl

theorem currentStore_iff {f : Flight} {n : Nat} :
    currentStore s = some (f, n) ↔ s.render.flight = some f ∧ f.phase = .storing n := by
  unfold currentStore
  split
  next g hg =>
    split
    next m hm =>
      simp only [hg, Option.some.injEq, Prod.mk.injEq]
      constructor
      · rintro ⟨rfl, rfl⟩
        exact ⟨rfl, hm⟩
      · rintro ⟨rfl, h⟩
        exact ⟨rfl, RowPhase.storing.inj (hm.symm.trans h)⟩
    next a rest ha =>
      simp only [hg, Option.some.injEq, reduceCtorEq, false_iff, not_and]
      rintro rfl h
      rw [ha] at h
      cases h
  next hg => simp [hg]

theorem renderStoreComplete_needsCause : NeedsCause .renderStoreComplete s := by
  by_cases h : ∃ a p ws k f n, s.mside = .own (.render (.store a p ws)) k ∧ currentStore s = some (f, n)
  · obtain ⟨a, p, ws, k, f, n, hm, hc⟩ := h
    refine needsCause_of_if (by simp only [exec, execRenderStoreComplete, hm, hc]; rfl) ?_
    obtain ⟨hf, hn⟩ := currentStore_iff.1 hc
    simp [UnderWay, hm, hf, hn, lastStore, imp_iff_not_or]
  · refine needsCause_of_fault ?_ fun ⟨a, p, ws, k, f, n, hm, hf, hn, _⟩ =>
      h ⟨a, p, ws, k, f, n, hm, currentStore_iff.2 ⟨hf, hn⟩⟩
    change execRenderStoreComplete s = _
    unfold execRenderStoreComplete
    split
    next hm hc => exact absurd ⟨_, _, _, _, _, _, hm, hc⟩ h
    next => rfl

theorem tileComplete_needsCause : NeedsCause .tileComplete s := by
  by_cases h : ∃ a p ws k f n, s.mside = .own (.render (.store a p ws)) k ∧ currentStore s = some (f, n)
  · obtain ⟨a, p, ws, k, f, n, hm, hc⟩ := h
    refine needsCause_of_if (by simp only [exec, execTileComplete, hm, hc]; rfl) ?_
    obtain ⟨hf, hn⟩ := currentStore_iff.1 hc
    simp [UnderWay, hm, hf, hn, lastStore, and_comm]
  · refine needsCause_of_fault ?_ fun ⟨a, p, ws, k, f, hm, hf, hn, _⟩ =>
      h ⟨a, p, ws, k, f, 15, hm, currentStore_iff.2 ⟨hf, hn⟩⟩
    change execTileComplete s = _
    unfold execTileComplete
    split
    next hm hc => exact absurd ⟨_, _, _, _, _, _, hm, hc⟩ h
    next => rfl

theorem captureDrain_runs (h : s.intake.queue ≠ []) : ∃ t, exec .captureDrain s = .next t := by
  change ∃ t, execCaptureDrain s = .next t
  unfold execCaptureDrain
  split
  next hq => exact absurd hq h
  next => split <;> exact ⟨_, rfl⟩

theorem captureDrain_faults (h : ¬ s.intake.queue ≠ []) :
    exec .captureDrain s = .fault .nothingToDrain := by
  simp [exec, execCaptureDrain, not_not.1 h]

end

/-! ## Records -/

theorem holdsRecord_iff (s : State) (k : RecKind) : holdsRecord k s = true ↔
    s.intake.state = .executing .ready ∧ kindOfCode (bits s.intake.header 31 24) = some k := by
  simp [holdsRecord, recordKind, hdrKind]

theorem body_of_slot {s : State} {i : Fin 16} {w : Word} (h : s.intake.slots[i] = some w) :
    body s i = w := by
  have hs : s.intake.slots[(i : Nat)]? = some (some w) := by
    rw [← h]
    exact Vector.getElem?_eq_getElem i.isLt
  rw [body, hs]
  rfl

theorem runRecord_none {s : State} {k : RecKind} {run : State → State} (h : holdsRecord k s = false) :
    runRecord k run s = .fault .noRecordInHand := by
  simp [runRecord, h]

theorem execKeyDirection_none {s : State} (h : holdsRecord .key s = false) :
    exec .keyDirection s = .fault .noRecordInHand := by
  change execKeyDirection s = _
  unfold execKeyDirection
  split
  next => rfl
  next => exact runRecord_none h

theorem execKeyEnter_none {s : State} (h : holdsRecord .key s = false) :
    exec .keyEnter s = .fault .noRecordInHand := by
  change execKeyEnter s = _
  unfold execKeyEnter
  split <;> first | exact runRecord_none h | rfl

/-- Settles O27. -/
theorem commandsNeedTheirCause : Obligations.CommandsNeedTheirCause := by
  refine ⟨fun s k => ⟨holdsRecord_iff s k, fun i w => body_of_slot⟩, fun s => ⟨?_, fun hk => ?_, fun h1 h4 => ?_⟩,
    fun s => ⟨fun w w1 w2 w3 => ?_, captureDrain_runs, captureDrain_faults⟩⟩
  · iterate 19 refine List.forall_mem_cons.2 ⟨runRecord_none, ?_⟩
    refine List.forall_mem_cons.2 ⟨execKeyDirection_none, ?_⟩
    refine List.forall_mem_cons.2 ⟨execKeyEnter_none, ?_⟩
    iterate 4 refine List.forall_mem_cons.2 ⟨runRecord_none, ?_⟩
    exact nofun
  · exact if_pos (by rw [operand, hk]; rfl)
  · change execKeyEnter s = _
    unfold execKeyEnter operand
    generalize bits s.intake.header 12 0 = v at h1 h4 ⊢
    interval_cases v <;> rfl
  · refine (List.forall_iff_forall_mem (p := fun c => NeedsCause c s)).1
      ⟨cStoreWord_needsCause w, cStoreComplete_needsCause, passedFetchWord_needsCause w,
        passedTransactionComplete_needsCause, displayWordArrival_needsCause w,
        displayFirstFetchComplete_needsCause, displayFetchComplete_needsCause,
        probeComplete_needsCause w w1 w2 w3, refetchWordArrival_needsCause w,
        refetchLineComplete_needsCause, loadWordArrival_needsCause w, loadLineComplete_needsCause,
        loadComplete_needsCause, objectWordArrival_needsCause w, objectFetchComplete_needsCause,
        renderStoreComplete_needsCause, tileComplete_needsCause, reportStoreComplete_needsCause,
        controlWordStoreComplete_needsCause⟩

end Sys2Proof.Machine
end

