-- ==== Sys2Proof/Proofs/Frames.lean ====
section
/-! SUPPORT. The frame start: the flip, the step of a transition, the activation hold and the pulse. -/
namespace Sys2Proof.Machine
set_option Elab.async false
open Sys2Proof

/-! ## Displayed rectangles -/

/-- The button table with its displayed rectangles given afresh. -/
def ButtonTable.redisplay (bt : ButtonTable) (f : Button → Option Rect) : ButtonTable :=
  { bt with entries := bt.entries.map fun e => { e with displayed := f e } }

section
variable {bt : ButtonTable} {f : Button → Option Rect}

theorem ButtonTable.redisplay_getElem (b : Fin Config.buttonCount) :
    (bt.redisplay f).entries[b] = { bt.entries[b] with displayed := f bt.entries[b] } := by
  simp [redisplay]

theorem ButtonTable.redisplay_self : bt.redisplay Button.displayed = bt := by
  simp [redisplay]

theorem lookInUse_redisplay : lookInUse (bt.redisplay f) = lookInUse bt := by
  unfold lookInUse
  rw [show (bt.redisplay f).selection = bt.selection from rfl]
  split
  next b _ => rw [ButtonTable.redisplay_getElem]; rfl
  next => rfl

theorem buttonObject_redisplay (b : Fin Config.buttonCount) :
    buttonObject (bt.redisplay f) b = buttonObject bt b := by
  unfold buttonObject
  rw [ButtonTable.redisplay_getElem]
  rfl

end

section
variable {s t u : State}

theorem takeRects_buttons {pl : Plane} (h : s.tiles.plane = some pl) :
    (takeRects s).buttons = s.buttons.redisplay (displayedAfterFlip pl) := by
  rw [takeRects, h]
  rfl

theorem takeRects_redisplay : ∃ f, (takeRects s).buttons = s.buttons.redisplay f := by
  unfold takeRects
  split
  next pl _ => exact ⟨displayedAfterFlip pl, rfl⟩
  next => exact ⟨Button.displayed, ButtonTable.redisplay_self.symm⟩

/-! ## The flip and the step, before the button table is treated -/

theorem flip_buttons : (flip s).buttons = (takeRects s).buttons := by
  simp [flip]

theorem flip_tiles : (flip s).tiles = { s.tiles with flipWanted := false } := by
  simp [flip]

theorem frameStepped_of_not_due (h : flipDue s = false) :
    frameStepped s = stepTransition (countFrame s) := by
  rw [frameStepped, if_neg (by rw [h]; decide)]

theorem frameStepped_redisplay : ∃ f, (frameStepped s).buttons = s.buttons.redisplay f := by
  unfold frameStepped
  split
  next h =>
    obtain ⟨f, hf⟩ := takeRects_redisplay (s := stepTransition (countFrame s))
    exact ⟨f, by rw [flip_buttons, hf, stepTransition_buttons]; rfl⟩
  next => exact ⟨Button.displayed, by rw [ButtonTable.redisplay_self, stepTransition_buttons]; rfl⟩

theorem stepTransition_none (h : s.page.running = none) : stepTransition s = s := by
  simp [stepTransition, h]

theorem stepTransition_stepped {r r' : Running} (h : s.page.running = some r) (hr : r.step = some r') :
    stepTransition s = s.setPage { s.page with running := some r' } := by
  simp [stepTransition, h, hr]

theorem stepTransition_ended {r : Running} (h : s.page.running = some r) (hr : r.step = none) :
    stepTransition s = endTransition s := by
  simp [stepTransition, h, hr]

/-- A step keeps all of page control but the running transition. -/
theorem stepTransition_page : (stepTransition s).page
    = { s.page with running := s.page.running.bind Running.step } := by
  cases h : s.page.running with
  | none => rw [stepTransition_none h, Option.bind_none, ← h]
  | some r =>
    cases hr : r.step with
    | none => rw [stepTransition_ended h hr, endTransition_page, Option.bind_some, hr]
    | some r' => rw [stepTransition_stepped h hr, Option.bind_some, hr]; rfl

theorem flipDue_iff : flipDue s = true ↔ s.engine = .active ∧ s.tiles.plane.isSome = true
    ∧ s.tiles.flipWanted = true ∧ (∀ st ∈ backTiles s, st = .clean) ∧ s.page.batchOpen = false
    ∧ s.page.running = none ∧ ∀ k : Fin 8, s.colours.inFlight[k] = false := by
  have hflags : s.colours.inFlight.toList.all (!·) = true
      ↔ ∀ k : Fin 8, s.colours.inFlight[k] = false := by
    simp only [List.all_eq_true, Vector.mem_toList_iff, Vector.mem_iff_getElem, Bool.not_eq_true']
    exact ⟨fun h k => h _ ⟨k.val, k.isLt, rfl⟩, fun h b ⟨i, hi, hb⟩ => hb ▸ h ⟨i, hi⟩⟩
  simp only [flipDue, Bool.and_eq_true, hflags, backClean, List.all_eq_true, beq_iff_eq, backTiles,
    Bool.not_eq_true', Option.isNone_iff_eq_none, and_assoc]

/-! ## The activation hold and the pulse -/

theorem holdEnds_iff (bt : ButtonTable) : holdEnds bt = true
    ↔ bt.selection.isSome = true ∧ bt.activated = true ∧ bt.hold = 0 := by
  simp [holdEnds, and_assoc]

theorem holdAndPulse_ended {b : Fin Config.buttonCount} (hb : s.buttons.selection = some b)
    (h : holdEnds s.buttons = true) : holdAndPulse s
      = editButtons b { s.buttons with activated := false, hold := 0, phase := 0 } s := by
  simp [holdAndPulse, hb, h]

/-- With no hold ending only the hold count and the phase move. -/
theorem holdAndPulse_counted (h : holdEnds s.buttons = false) : ∃ n m, holdAndPulse s
      = s.setButtons { s.buttons with hold := n, phase := m } := by
  unfold holdAndPulse
  split
  next => exact ⟨s.buttons.hold, 0, rfl⟩
  next => rw [if_neg (by rw [h]; decide)]; exact ⟨_, _, rfl⟩

theorem holdAndPulse_entries : (holdAndPulse s).buttons.entries = s.buttons.entries := by
  unfold holdAndPulse
  split
  next => rfl
  next => split <;> simp

theorem holdAndPulse_selection : (holdAndPulse s).buttons.selection = s.buttons.selection := by
  unfold holdAndPulse
  split
  next => rfl
  next => split <;> simp

/-! ## The frame start at an ACTIVE engine -/

theorem frameStart_active (h : s.engine = .active) :
    frameStart s = holdAndPulse (handStateWord s (frameStepped s)) := by
  rw [frameStart, h, activeFrame_eq]

theorem frameStart_page (h : s.engine = .active) : (frameStart s).page = (frameStepped s).page := by
  rw [frameStart_active h, holdAndPulse_page, handStateWord_page]

theorem frameStart_reports (h : s.engine = .active) :
    (frameStart s).reports = (frameStepped s).reports := by
  rw [frameStart_active h, holdAndPulse_reports, handStateWord_reports]

theorem frameStart_entries (h : s.engine = .active) :
    (frameStart s).buttons.entries = (frameStepped s).buttons.entries := by
  rw [frameStart_active h, holdAndPulse_entries, handStateWord_buttons]

theorem frameStart_selection (h : s.engine = .active) :
    (frameStart s).buttons.selection = s.buttons.selection := by
  obtain ⟨f, hf⟩ := frameStepped_redisplay (s := s)
  rw [frameStart_active h, holdAndPulse_selection, handStateWord_buttons, hf]
  rfl

theorem holdEnds_stepped (s u : State) :
    holdEnds (handStateWord u (frameStepped s)).buttons = holdEnds s.buttons := by
  obtain ⟨f, hf⟩ := frameStepped_redisplay (s := s)
  rw [handStateWord_buttons, hf]
  rfl

/-- With no hold ending the button table marks nothing. -/
theorem frameStart_tiles (h : s.engine = .active) (hh : holdEnds s.buttons = false) :
    (frameStart s).tiles = (frameStepped s).tiles := by
  obtain ⟨n, m, he⟩ := holdAndPulse_counted (s := handStateWord s (frameStepped s))
    (by rw [holdEnds_stepped, hh])
  rw [frameStart_active h, he, State.setButtons_tiles, handStateWord_tiles]

end

theorem Page.other_other (g : Page) : g.other.other = g := by
  cases g <;> rfl

/-- Settles O28. -/
theorem flipExactlyWhenDue : Obligations.FlipExactlyWhenDue := by
  refine ⟨fun s pl he hpl hw hclean hbatch hrun hflags => ?_, fun s hnot => ?_⟩
  · have hdue : flipDue s = true :=
      flipDue_iff.2 ⟨he, by rw [hpl]; rfl, hw, hclean, hbatch, hrun, hflags⟩
    have hflip := frameStepped_flip hdue
    have hpage : (frameStart s).page = ⟨s.page.front.other, false, none,
        s.page.pendingShow.map Running.start⟩ := by
      rw [frameStart_page he, hflip, flip_page, ← hbatch]
      rfl
    refine ⟨_, rfl, by simp [he], by simp, by simp, by simp, by simp, by simp, ?_, fun b => ?_, ?_, ?_,
      fun hh => ?_⟩
    · rw [finish_page, hpage]
      rfl
    · rw [finish_buttons, frameStart_entries he, hflip, flip_buttons,
        takeRects_buttons (s := countFrame s) hpl]
      exact ButtonTable.redisplay_getElem b
    · rw [finish_buttons, frameStart_selection he]
    · rw [finish_reports, frameStart_reports he, hflip, flip_reports]
    · have htook := finish_took (frameStart s)
      rw [frameStart_tiles he hh, hflip, flip_tiles] at htook
      rwa [frameStart_render, backPage, hpage, Page.other_other] at htook
  · have hdue : flipDue s = false := by
      rw [← Bool.not_eq_true, flipDue_iff]
      rintro ⟨he, hpl, hw, hclean, hbatch, hrun, hflags⟩
      rcases hnot with h | h | h | ⟨st, hst, h⟩ | h | h | ⟨k, h⟩
      · exact h he
      · simp [h] at hpl
      · simp [h] at hw
      · exact h (hclean st hst)
      · simp [h] at hbatch
      · simp [hrun] at h
      · simp [hflags k] at h
    by_cases he : s.engine = .active
    · have hstep := frameStepped_of_not_due hdue
      have hpage : (frameStart s).page
          = { s.page with running := s.page.running.bind Running.step } := by
        rw [frameStart_page he, hstep, stepTransition_page]
        rfl
      refine ⟨_, rfl, by rw [finish_page, hpage], by rw [finish_page, hpage], by rw [finish_page, hpage],
        ?_, fun hrun => ⟨?_, ?_⟩, fun hh => ?_⟩
      · rw [finish_buttons, frameStart_entries he, hstep, stepTransition_buttons]
        rfl
      · rw [finish_reports, frameStart_reports he, hstep, stepTransition_none (s := countFrame s) hrun]
        rfl
      · rw [finish_page, hpage, hrun, Option.bind_none, ← hrun]
      · have htook := finish_took (frameStart s)
        rw [frameStart_tiles he hh, hstep, stepTransition_tiles, frameStart_render, backPage, hpage]
          at htook
        exact htook
    · refine ⟨_, rfl, ?_⟩
      have htook := finish_took (frameStart s)
      rw [frameStart_inactive he] at htook ⊢
      exact ⟨by simp, by simp, by simp, by simp, fun _ => ⟨by simp, by simp⟩, fun _ => htook⟩

/-! ## The step of a transition -/

section
variable {s : State}

theorem frameCase_due {due : Bool} (h : due = true) : frameCase due s = exec .frameStart s := if_pos h

theorem frameCase_not_due {due : Bool} (h : ¬ due = true) :
    frameCase due s = .fault .frameCaseNotDue := if_neg h

theorem settleEndDue_iff : settleEndDue s = true ↔ s.engine = .active
    ∧ ∃ r n, s.page.running = some r ∧ r.phase = .settle n ∧ n ≤ 1 := by
  unfold settleEndDue
  rw [Bool.and_eq_true, beq_iff_eq]
  refine and_congr_right fun _ => ?_
  split
  next h => simp [h]
  next h => simp [h]
  next h => simp [h]

theorem transitionDoneDue_iff : transitionDoneDue s = true ↔ s.engine = .active
    ∧ ∃ r k, s.page.running = some r ∧ r.phase = .ramp k ∧ r.spec.len ≤ k + 1 := by
  unfold transitionDoneDue
  rw [Bool.and_eq_true, beq_iff_eq]
  refine and_congr_right fun _ => ?_
  split
  next h => simp [h]
  next h => simp [h]
  next h => simp [h]

/-- A frame start with a transition running steps it. -/
theorem frameStepped_running {r : Running} (h : s.page.running = some r) :
    frameStepped s = stepTransition (countFrame s) := by
  refine frameStepped_of_not_due ?_
  rw [← Bool.not_eq_true]
  intro hdue
  rw [running_of_flipDue hdue] at h
  cases h

theorem frameStart_stepped {r r' : Running} (he : s.engine = .active) (h : s.page.running = some r)
    (hr : r.step = some r') : (finish (frameStart s)).reports = s.reports
      ∧ (finish (frameStart s)).page = { s.page with running := some r' } := by
  have hstep : frameStepped s
      = (countFrame s).setPage { (countFrame s).page with running := some r' } := by
    rw [frameStepped_running h, stepTransition_stepped (s := countFrame s) h hr]
  rw [finish_reports, finish_page, frameStart_reports he, frameStart_page he, hstep]
  exact ⟨rfl, rfl⟩

theorem frameStart_ended {r : Running} (he : s.engine = .active) (h : s.page.running = some r)
    (hr : r.step = none) : (finish (frameStart s)).page = { s.page with running := none }
      ∧ (finish (frameStart s)).reports = (giveReport (.transitionDone r.spec.kind) s).reports := by
  have hstep : frameStepped s = endTransition (countFrame s) := by
    rw [frameStepped_running h, stepTransition_ended (s := countFrame s) h hr]
  rw [finish_reports, finish_page, frameStart_reports he, frameStart_page he, hstep, endTransition_page,
    endTransition_of_some (s := countFrame s) h]
  exact ⟨rfl, giveReport_reports_congr _ _ _ rfl⟩

end

/-- Settles O29. -/
theorem transitionSteps : Obligations.TransitionSteps := by
  refine ⟨fun s r he hr => ⟨fun n hn hle => ?_, fun h1 => ?_, fun k hk hlt => ?_, fun k hk heq => ?_⟩,
    fun s => ⟨fun h => frameCase_not_due fun hd => h (settleEndDue_iff.1 hd),
      fun h => frameCase_not_due fun hd => h (transitionDoneDue_iff.1 hd)⟩⟩
  · have hstep : r.step = some ⟨r.spec, .settle (n - 1), 0⟩ := by
      rw [Running.step, hn]
      exact if_neg (by omega)
    exact ⟨_, rfl, frameStart_stepped he hr hstep⟩
  · have hstep : r.step = some ⟨r.spec, .ramp 0, 0⟩ := by
      rw [Running.step, h1]
      rfl
    exact ⟨_, frameCase_due (settleEndDue_iff.2 ⟨he, r, 1, hr, h1, Nat.le_refl 1⟩), rfl,
      frameStart_stepped he hr hstep⟩
  · have hstep : r.step = some ⟨r.spec, .ramp (k + 1), 1024 * (k + 1) / r.spec.len⟩ := by
      rw [Running.step, hk]
      exact if_neg (by omega)
    exact ⟨_, rfl, frameStart_stepped he hr hstep⟩
  · have hstep : r.step = none := by
      rw [Running.step, hk]
      exact if_pos (by omega)
    exact ⟨_, frameCase_due (transitionDoneDue_iff.2 ⟨he, r, k, hr, hk, by omega⟩), rfl,
      frameStart_ended he hr hstep⟩

/-! ## The activation hold and the pulse -/

section
variable {s t u : State}

theorem currentObject_redisplay {f : Button → Option Rect} (h : t.buttons = s.buttons.redisplay f) :
    currentObject t = currentObject s := by
  funext p
  unfold currentObject
  rw [h]
  split
  next => rfl
  next b _ => exact buttonObject_redisplay b

theorem footprintsOf_redisplay {f : Button → Option Rect} (hp : t.tiles.plane = s.tiles.plane)
    (ho : t.objects = s.objects) (hl : t.list = s.list) (hb : t.buttons = s.buttons.redisplay f)
    (which : Placement → Bool) : footprintsOf t which = footprintsOf s which := by
  have hfoot : footprint t = footprint s := by
    funext p
    simp only [footprint, hp, ho, currentObject_redisplay hb]
  simp only [footprintsOf, hfoot, hl]

theorem mark_flipWanted {rects : List TileRect} (h : rects ≠ [])
    (hp : s.tiles.plane.isSome = true) : (mark rects s).tiles.flipWanted = true := by
  obtain ⟨pl, hpl⟩ := Option.isSome_iff_exists.1 hp
  unfold mark
  split
  next => rfl
  next hnot =>
    obtain ⟨r, rest, rfl⟩ := List.exists_cons_of_ne_nil h
    exact absurd hpl (fun h => hnot _ _ _ h rfl)

theorem TookFrom.flipWanted {m : TileMap} {r : RenderEngine} {back : Page} (h : TookFrom m r back t) :
    t.tiles.flipWanted = m.flipWanted := by
  rcases h with ⟨h, _⟩ | ⟨_, _, k, pl, _, _, _, h, _⟩
  · rw [h]
  · rw [h]
    cases back <;> rfl

theorem frameStepped_plane : (frameStepped s).tiles.plane = s.tiles.plane := by
  unfold frameStepped
  split <;> simp [countFrame]

theorem frameStepped_objects : (frameStepped s).objects = s.objects := by
  unfold frameStepped
  split <;> simp

theorem frameStepped_list : (frameStepped s).list = s.list := by
  unfold frameStepped
  split <;> simp

/-- The frame start at which the hold of the selected button ends. -/
theorem frameStart_ends {b : Fin Config.buttonCount} (he : s.engine = .active)
    (hb : s.buttons.selection = some b) (hh : holdEnds s.buttons = true) :
    (frameStart s).buttons = { (frameStepped s).buttons with activated := false, hold := 0, phase := 0 }
      ∧ (frameStart s).tiles = (mark (footprintsOf s (boundTo b)
          ++ footprintsOf (s.setButtons (frameStart s).buttons) (boundTo b)) (frameStepped s)).tiles := by
  obtain ⟨f, hf⟩ := frameStepped_redisplay (s := s)
  generalize hw : handStateWord s (frameStepped s) = w
  have hbuttons : w.buttons = (frameStepped s).buttons := by rw [← hw, handStateWord_buttons]
  have htiles : w.tiles = (frameStepped s).tiles := by rw [← hw, handStateWord_tiles]
  have hplane : w.tiles.plane = s.tiles.plane := by rw [htiles, frameStepped_plane]
  have hobjects : w.objects = s.objects := by rw [← hw, handStateWord_objects, frameStepped_objects]
  have hlist : w.list = s.list := by rw [← hw, handStateWord_list, frameStepped_list]
  have hstart : frameStart s
      = editButtons b { w.buttons with activated := false, hold := 0, phase := 0 } w := by
    rw [frameStart_active he, hw]
    exact holdAndPulse_ended (by rw [hbuttons, hf]; exact hb) (by rw [← hw, holdEnds_stepped, hh])
  rw [hstart, editButtons_buttons, hbuttons]
  refine ⟨rfl, ?_⟩
  generalize { (frameStepped s).buttons with activated := false, hold := 0, phase := 0 } = bt
  have hafter : footprintsOf (w.setButtons bt) (boundTo b) = footprintsOf (s.setButtons bt) (boundTo b) :=
    footprintsOf_congr (s := s.setButtons bt) (t := w.setButtons bt) hplane hobjects rfl hlist _
  have hbefore : footprintsOf w (boundTo b) = footprintsOf s (boundTo b) :=
    footprintsOf_redisplay hplane hobjects hlist (hbuttons.trans hf) _
  rw [editButtons, markBeforeAfter_tiles (s := w) (t := w.setButtons bt) rfl _ hafter, hbefore]
  exact mark_tiles_congr htiles _

/-- The frame start at which no hold ends counts the hold and moves the phase. -/
theorem frameStart_counts (he : s.engine = .active) (hh : holdEnds s.buttons = false) :
    (frameStart s).buttons.activated = s.buttons.activated
      ∧ (frameStart s).buttons.phase = s.buttons.nextPhase
      ∧ (frameStart s).buttons.hold = if s.buttons.selection.isSome && s.buttons.activated then
          s.buttons.hold - 1 else s.buttons.hold := by
  obtain ⟨f, hf⟩ := frameStepped_redisplay (s := s)
  rw [frameStart_active he]
  have hends := holdEnds_stepped s s
  rw [hh] at hends
  unfold holdAndPulse
  rw [handStateWord_buttons, hf] at hends ⊢
  have hphase : (s.buttons.redisplay f).nextPhase = s.buttons.nextPhase := by
    unfold ButtonTable.nextPhase
    rw [lookInUse_redisplay]
    rfl
  rw [show (s.buttons.redisplay f).selection = s.buttons.selection from rfl]
  split
  next hs =>
    have hlook : lookInUse s.buttons = none := by simp [lookInUse, hs]
    refine ⟨rfl, ?_, ?_⟩
    · simp [ButtonTable.nextPhase, hlook]
    · simp [ButtonTable.redisplay, hs]
  next b hs =>
    rw [if_neg (by rw [hends]; decide), State.setButtons_buttons, hphase]
    exact ⟨rfl, rfl, by simp [ButtonTable.redisplay, hs]⟩

end

/-- Settles O30. -/
theorem holdAndPulseAtFrameStart : Obligations.HoldAndPulseAtFrameStart := by
  refine ⟨fun s he => ⟨fun hhold => ?_, fun hhold => ?_⟩, fun s he => ?_, fun bt => ⟨fun h => ?_, fun b h => ?_⟩⟩
  · have hh := (holdEnds_iff s.buttons).2 hhold
    obtain ⟨b, hb⟩ := Option.isSome_iff_exists.1 hhold.1
    obtain ⟨hbuttons, htiles⟩ := frameStart_ends he hb hh
    have htook := finish_took (frameStart s)
    have hbt : (finish (frameStart s)).buttons = (frameStart s).buttons := finish_buttons _
    refine ⟨_, frameCase_due ?_, rfl, ?_, ?_, ?_, ?_, fun hdue c hc => ?_, fun hdue c hc => ?_,
      fun c hc hne hpl => ?_⟩
    · simp [holdEndDue, he, hh]
    · rw [hbt, frameStart_selection he]
    · rw [hbt, hbuttons]
    · rw [hbt, hbuttons]
    · rw [hbt, hbuttons]
    · obtain rfl := Option.some.inj (hb.symm.trans hc)
      have hstep := frameStepped_of_not_due hdue
      have hfront : backPage (frameStart s) = backPage s := by
        rw [backPage, frameStart_page he, hstep, stepTransition_page]
        rfl
      have hsame : (frameStepped s).tiles = s.tiles := by
        rw [hstep, stepTransition_tiles]
        rfl
      rw [htiles, mark_tiles_congr hsame, frameStart_render, hfront] at htook
      rw [hbt]
      exact htook
    · obtain rfl := Option.some.inj (hb.symm.trans hc)
      have hflip := frameStepped_flip hdue
      have hfront : backPage (frameStart s) = s.page.front := by
        rw [backPage, frameStart_page he, hflip, flip_page]
        exact Page.other_other _
      have hcleared : (frameStepped s).tiles = (s.setTiles { s.tiles with flipWanted := false }).tiles := by
        rw [hflip, flip_tiles]
        rfl
      rw [htiles, mark_tiles_congr hcleared, frameStart_render, hfront] at htook
      rw [hbt]
      exact htook
    · obtain rfl := Option.some.inj (hb.symm.trans hc)
      rw [htook.flipWanted, htiles]
      exact mark_flipWanted (fun hnil => hne (List.append_eq_nil_iff.1 hnil).1)
        (by rw [frameStepped_plane]; exact hpl)
  · have hh : holdEnds s.buttons = false := by
      rw [← Bool.not_eq_true, holdEnds_iff]
      exact hhold
    obtain ⟨hact, hphase, hcount⟩ := frameStart_counts he hh
    refine ⟨frameCase_not_due (by simp [holdEndDue, hh]), _, rfl, ?_, ?_, fun hs ha => ?_, fun ha => ?_, ?_⟩
    all_goals rw [finish_buttons]
    · exact frameStart_selection he
    · exact hact
    · rw [hcount, hs, ha]
      rfl
    · rw [hcount, ha, Bool.and_false]
      rfl
    · exact hphase
  · exact frameCase_not_due (by simp [holdEndDue, he])
  · simp [lookInUse, h]
  · simp only [lookInUse, h]

end Sys2Proof.Machine
end

