-- ==== Sys2Proof/Proofs/Resets.lean ====
section
/-! SUPPORT. The reset line, and the clearing sweep. -/
namespace Sys2Proof.Machine
set_option Elab.async false
open Sys2Proof

section
variable {s t u : State}

/-! ## BYPASS begun -/

/-- The state in which BYPASS has begun, before the arbiter grants. -/
def bypassEntered (s : State) : State := leaveBypass ((abandonAll s).setResetDue false)

theorem beginBypass_eq : beginBypass s = grant (bypassEntered s) := rfl

theorem leaveBypass_held (h : s.resetLine = true) : leaveBypass s = s := if_pos h

theorem leaveBypass_released (h : s.resetLine = false) : leaveBypass s = enterService s :=
  if_neg (by rw [h]; decide)

theorem bypassEntered_waiting : (bypassEntered s).waiting = OwnWaiting.empty := by
  simp [bypassEntered, abandonAll]

theorem selectOwn_empty : selectOwn OwnWaiting.empty = none := rfl

theorem bypassEntered_begun : BypassBegun s (bypassEntered s) := by
  cases hl : s.resetLine with
  | true =>
    have he : bypassEntered s = (abandonAll s).setResetDue false := leaveBypass_held (by simpa using hl)
    have hline : (bypassEntered s).resetLine = true := by simp [bypassEntered, hl]
    constructor
    case path | engine | share | passover => rw [hline, he]; simp [abandonAll]
    all_goals rw [he]; simp [abandonAll, OwnWaiting.empty, Intake.absent, ReportUnit.empty,
      RenderEngine.idle, TileMap.empty, Plane.unset, Argb.transparent]
  | false =>
    have he : bypassEntered s = enterService ((abandonAll s).setResetDue false) :=
      leaveBypass_released (by simpa using hl)
    have hline : (bypassEntered s).resetLine = false := by simp [bypassEntered, hl]
    constructor
    case path | engine | share | passover => rw [hline, he]; simp [enterService]
    all_goals rw [he]; simp [abandonAll, enterService, OwnWaiting.empty, Intake.absent, ReportUnit.empty,
      RenderEngine.idle, TileMap.empty, Plane.unset, Argb.transparent]

/-- The start of BYPASS rests on nothing of the bus. -/
theorem BypassBegun.carry (h : BypassBegun s t) (r : BusReq) (treat : Treatment) (m : BusReq) :
    BypassBegun s (carry r treat m t) :=
  ⟨h.path, h.engine, h.share, h.passover, h.resetDue, h.latch, h.waiting, h.intake, h.reports, h.render,
    h.tiles, h.load, h.running, h.objects, h.entries, h.inFlight, h.list, h.buttons, h.frames, h.urgent⟩

/-- BYPASS begun from a state that shares with s what BYPASS keeps. -/
theorem BypassBegun.from_eq (h : BypassBegun u t) (hs : u.share = s.share) (hp : u.passover = s.passover)
    (ho : u.objects = s.objects) (hc : u.colours = s.colours) (hl : u.list = s.list)
    (hb : u.buttons = s.buttons) (hf : u.frames = s.frames) (hu : u.urgent = s.urgent) :
    BypassBegun s t :=
  ⟨h.path, h.engine, hs ▸ h.share, hp ▸ h.passover, h.resetDue, h.latch, h.waiting, h.intake, h.reports,
    h.render, h.tiles, h.load, h.running, h.objects.trans ho,
    h.entries.trans (congrArg ColourTables.entries hc), h.inFlight.trans (congrArg ColourTables.inFlight hc),
    h.list.trans hl, h.buttons.trans hb, h.frames.trans hf, h.urgent.trans hu⟩

theorem grant_of_idle (hw : s.waiting = OwnWaiting.empty) (hc : s.cside.state.isWaiting = false) :
    grant s = s := by
  rcases grant_cases s with e | ⟨r, p, _, hr, _⟩ | ⟨o, left, _, ho, _⟩
  · exact e
  · rw [hr] at hc
    cases hc
  · rw [hw, selectOwn_empty] at ho
    cases ho

/-- A request that waits at a free M-side with no own request waiting is accepted. -/
theorem grant_of_alone {r : BusReq} (hm : s.mside = .free) (hw : selectOwn s.waiting = none)
    (hc : s.cside.state = .waiting r) : grant s = accept r s := by
  unfold grant
  rw [hm, hc, hw]
  cases s.path <;> rfl

theorem beginBypass_of_idle (hc : s.cside.state.isWaiting = false) :
    beginBypass s = bypassEntered s :=
  grant_of_idle bypassEntered_waiting (by simpa [bypassEntered] using hc)

theorem accept_of_bypass {r : BusReq} (h : s.path = .bypass) : accept r s = carry r (.passed .other) r s := by
  rw [accept, h]

/-- With no plane and no anchor every request is joined straight through. -/
theorem accept_of_bare {r : BusReq} (ht : s.tiles.plane = none) (ha : s.intake.anchor = none) :
    accept r s = carry r (.passed .other) r s := by
  unfold accept
  split
  next => rfl
  next =>
    rw [show windowAt s (reqAddr r).toNat = none by simp [windowAt, ht],
      show passClass s (reqAddr r).toNat = .other by simp [passClass, ha]]

/-- A request that waits as BYPASS begins is joined straight through. -/
theorem beginBypass_of_waiting {r : BusReq} (hm : s.mside = .free) (hc : s.cside.state = .waiting r) :
    beginBypass s = carry r (.passed .other) r (bypassEntered s) := by
  have hbegun := bypassEntered_begun (s := s)
  rw [beginBypass_eq, grant_of_alone (r := r) (by simpa [bypassEntered] using hm)
    (by rw [bypassEntered_waiting, selectOwn_empty]) (by simpa [bypassEntered] using hc)]
  exact accept_of_bare (by rw [hbegun.tiles]; rfl) (by rw [hbegun.intake]; rfl)

theorem beginBypass_begun : BypassBegun s (beginBypass s) := by
  by_cases hm : s.mside = .free
  · cases hc : s.cside.state with
    | waiting r =>
      rw [beginBypass_of_waiting hm hc]
      exact bypassEntered_begun.carry ..
    | _ =>
      rw [beginBypass_of_idle (by rw [hc]; rfl)]
      exact bypassEntered_begun
  · rw [beginBypass_eq, grant_busy _ (by simpa [bypassEntered] using hm)]
    exact bypassEntered_begun

/-! ## RESET_ASSERT -/

theorem assertReset_free (hl : s.resetLine = false) (hp : s.path = .service) (hm : s.mside = .free) :
    assertReset s = beginBypass (s.setResetLine true) := by
  simp [assertReset, hl, hp, hm]

theorem assertReset_busy (hl : s.resetLine = false) (hp : s.path = .service) (hm : s.mside ≠ .free) :
    assertReset s = (s.setResetLine true).setResetDue true := by
  cases h : s.mside with
  | free => exact absurd h hm
  | own o n => simp [assertReset, hl, hp, h]
  | controller m => simp [assertReset, hl, hp, h]

/-! ## The words and completions of a reset that is due -/

theorem takeTile_of_taken (h : TileTaken s) : takeTile s = s := by
  unfold takeTile
  split
  next _ hf =>
    split
    next hr => rw [TileTaken, hf] at h; exact absurd (h hr) (by decide)
    next => rfl
  next => rfl

theorem finish_of_settled (h : TileTaken s) (hm : s.mside ≠ .free) : finish s = s := by
  rw [finish_busy s hm, takeTile_of_taken h]

theorem refetchArrival_due (h : s.resetDue = true) (req : LineReq) (n : Nat) (w : BusWord) :
    refetchArrival req n w s = s := by
  unfold refetchArrival
  split
  next => exact if_pos h
  next => rfl

theorem loadWord_due (h : s.resetDue = true) (a : Nat) (w : BusWord) : loadWord a w s = s := by
  unfold loadWord
  split
  next => rfl
  next => exact if_pos h

theorem objectWord_due (h : s.resetDue = true) (a : Nat) (w : BusWord) : objectWord a w s = s := by
  unfold objectWord
  split
  next => rfl
  next => exact if_pos (by rw [h, Bool.or_true])

theorem completeOwn_due (h : s.resetDue = true) (effect : State → State) :
    completeOwn effect s = beginBypass (s.setMside .free) := if_pos h

end

/-- Settles O31. -/
theorem resetAssertion : Obligations.ResetAssertion := by
  refine ⟨fun s hl hp => ⟨fun hm hc => ?_, fun hm => ?_⟩, fun s hd hp => ⟨fun r n w hn ht => ⟨fun hm => ?_,
    fun hm => ?_, fun hm => ?_⟩, _, rfl, ?_, fun hc => ?_, fun r hc => ?_, fun a p ws n hm => ?_,
    fun k a e w n hm => ?_, fun r n w0 w1 w2 w3 hm => ?_, fun r hm => ?_, fun r hm hload => ?_,
    fun r a rest f hm hf hphase => ?_, fun a p ws n m f hm hf hphase => ?_⟩⟩
  · have hidle := beginBypass_of_idle (s := s.setResetLine true) (by rw [State.setResetLine_cside, hc]; rfl)
    refine ⟨_, rfl, ?_, ?_, ?_, ?_⟩
    all_goals rw [assertReset_free hl hp hm]
    · simp
    · rw [hidle]
      simp [bypassEntered, hm]
    · rw [hidle]
      simp [bypassEntered]
    · exact beginBypass_begun.from_eq rfl rfl rfl rfl rfl rfl rfl rfl
  · exact congrArg Host.Outcome.next (assertReset_busy hl hp hm)
  · have hexec : exec (.refetchWordArrival w) s
        = .next (refetchArrival r n w (s.setMside (.own (.intake (.refetch r)) (n + 1)))) := by
      simp only [exec, execRefetchWordArrival, hm, hn, if_true]
    rw [hexec, refetchArrival_due (by exact hd)]
  · have hexec : exec (.loadWordArrival w) s = .next (finish (loadWord
        (r.line.toNat + 4 * wrapPos r.start n) w (s.setMside (.own (.load r) (n + 1))))) := by
      simp only [exec, execLoadWordArrival, hm, hn, if_true]
    rw [hexec, loadWord_due (by exact hd),
      finish_of_settled (s := s.setMside (.own (.load r) (n + 1))) ht nofun]
  · have hexec : exec (.objectWordArrival w) s = .next (finish (objectWord
        (r.line.toNat + 4 * wrapPos r.start n) w (s.setMside (.own (.render (.fetch r)) (n + 1))))) := by
      simp only [exec, execObjectWordArrival, hm, hn, if_true]
    rw [hexec, objectWord_due (by exact hd),
      finish_of_settled (s := s.setMside (.own (.render (.fetch r)) (n + 1))) ht nofun]
  · exact beginBypass_begun.from_eq rfl rfl rfl rfl rfl rfl rfl rfl
  · have hidle := beginBypass_of_idle (s := s.setMside .free) hc
    rw [hidle]
    simp [bypassEntered]
  · rw [beginBypass_of_waiting (s := s.setMside .free) rfl hc]
    exact ⟨rfl, rfl⟩
  · simp only [exec, execReportStoreComplete, hm]
    rw [completeOwn_due hd]
  · simp only [exec, execControlWordStoreComplete, hm]
    rw [completeOwn_due hd]
  · simp only [exec, execProbeComplete, hm]
    rw [completeOwn_due hd]
  · simp only [exec, execRefetchLineComplete, hm, if_true]
    rw [completeOwn_due hd]
  · obtain ⟨l, hl⟩ := Option.isSome_iff_exists.1 hload
    refine ⟨?_, fun l' hl' hlast => ?_⟩
    · simp only [exec, execLoadLineComplete, hm, hl]
      rw [if_pos ⟨trivial, .inl hd⟩, completeOwn_due hd]
    · simp only [exec, execLoadComplete, hm, hl']
      rw [if_pos ⟨trivial, (lastLoadLine_iff l' r).2 hlast⟩, completeOwn_due hd]
  · simp only [exec, execObjectFetchComplete, hm, if_true]
    rw [completeOwn_due hd]
  · have hcur := currentStore_iff.2 ⟨hf, hphase⟩
    refine ⟨?_, fun hrow hlast => ?_⟩
    · simp only [exec, execRenderStoreComplete, hm, hcur]
      rw [if_pos (.inl hd), completeOwn_due hd]
    · simp only [exec, execTileComplete, hm, hcur]
      rw [if_pos (by simp [lastStore, hrow, hlast]), completeOwn_due hd]

/-! ## RESET_RELEASE -/

section
variable {s : State}

theorem releaseReset_bypass (hl : s.resetLine = true) (hp : s.path = .bypass) (hm : s.mside = .free) :
    releaseReset s = finish (enterService (s.setResetLine false)) := by
  simp [releaseReset, hl, hp, hm]

theorem releaseReset_busy (hl : s.resetLine = true) (h : s.path = .service ∨ s.mside ≠ .free) :
    releaseReset s = s.setResetLine false := by
  unfold releaseReset
  rw [if_pos hl]
  dsimp only
  split
  next hp hm => exact (h.elim (fun h => by rw [h] at hp; cases hp) fun h => absurd hm h)
  all_goals rfl

/-- While no own request waits, the end of an event with the render engine held grants a request of the
controller alone. -/
theorem finish_of_clearing (hw : s.waiting = OwnWaiting.empty) (he : s.engine ≠ .active) :
    finish s = s ∨ ∃ r, finish s = accept r s := by
  rw [finish, takeTile_of_held (renderHeld_iff.2 (.inr (.inl he)))]
  cases hc : s.cside.state with
  | waiting r =>
    by_cases hm : s.mside = .free
    · exact .inr ⟨r, grant_of_alone hm (by rw [hw, selectOwn_empty]) hc⟩
    · exact .inl (grant_busy s hm)
  | _ => exact .inl (grant_of_idle hw (by rw [hc]; rfl))

end

/-- Settles O32. -/
theorem resetReleaseEntersService : Obligations.ResetReleaseEntersService := by
  refine fun s => ⟨fun hl hp hm hw => ?_, fun hl hp hm => congrArg _ (releaseReset_busy hl (.inr hm)),
    fun hl hp => congrArg _ (releaseReset_busy hl (.inl hp)), fun hl => congrArg _ (if_neg (by rw [hl]; decide))⟩
  refine ⟨_, rfl, ?_⟩
  rw [releaseReset_bypass hl hp hm]
  have hwait : (enterService (s.setResetLine false)).waiting = OwnWaiting.empty := by simp [hw]
  rcases finish_of_clearing hwait (by simp [enterService]) with h | ⟨r, h⟩
  · rw [h]
    simp [enterService, SameTables, hw]
  · rw [h]
    simp [enterService, SameTables, hw]

/-! ## CLEARING_SWEEP_END -/

section
variable {s t : State} {x : Anchor}

theorem endSweep_none (h : s.latch = none) : endSweep s = (sweep s).setEngine .unanchored := by
  simp [endSweep, h]

theorem endSweep_some (h : s.latch = some x) : endSweep s = attach x (sweep s) := by
  simp [endSweep, h]

/-- A part attached with nothing waiting and no intake fetch outstanding, up to the end of the event. -/
theorem finish_attached (hw : s.waiting = OwnWaiting.empty) (hm : ∀ f n, s.mside ≠ .own (.intake f) n) :
    Attached x (finish (attach x s)) := by
  have hout : intakeOutstanding s = false := by
    unfold intakeOutstanding
    rw [hw]
    split
    next h => exact absurd h (hm _ _)
    all_goals rfl
  have hwait := attach_waiting s x hw hm
  have hanchor : (attach x s).intake.anchor = some x := by rw [attach_intake]
  have hword : stateWord (finish (attach x s)) = stateWord (attach x s) := finish_stateWord
  constructor
  case index | report =>
    exact finish_controlHanded _ hanchor (by rw [hwait]; simp [attachStores, controlStore, controlAddr])
  case word =>
    rw [hword]
    exact finish_controlHanded _ hanchor (by rw [hwait]; simp [attachStores, controlStore, controlAddr])
  case probe => exact finish_fetchHanded _ (by rw [hwait])
  all_goals simp [attach_intake, Intake.absent]

/-- With no plane no tile is taken, so a busy M-side ends the event at once. -/
theorem finish_of_unset (ht : s.tiles.plane = none) : finish s = grant s := by
  rw [finish, takeTile_unset ht]

/-- The stores of an attachment in an event whose M-side stays busy. -/
theorem finish_attached_busy (hw : s.waiting = OwnWaiting.empty)
    (hm : ∀ f n, s.mside ≠ .own (.intake f) n) (ht : s.tiles.plane = none) (hb : s.mside ≠ .free) :
    (finish (attach x s)).mside = s.mside ∧ (finish (attach x s)).waiting
      = ⟨attachStores x (finish (attach x s)), some (.probe (lineReqAt (ringAddr x 0))), none, none⟩ := by
  have hstay : finish (attach x s) = attach x s := by
    rw [finish_of_unset (by simpa using ht), grant_busy _ (by simpa using hb)]
  rw [hstay]
  exact ⟨by simp, attach_waiting s x hw hm⟩

theorem finish_attached_free (hw : s.waiting = OwnWaiting.empty) (ht : s.tiles.plane = none)
    (hm : s.mside = .free) (hc : s.cside.state.isWaiting = false) (hp : s.path = .service) :
    AttachmentIssued x (finish (attach x s)) := by
  have hwait := attach_waiting s x hw (by rw [hm]; nofun)
  exact finish_attachmentIssued _ (by simpa using hm) (by simpa using hc) (by simpa using hp)
    (by simpa using ht) hwait

theorem endSweep_latch (s : State) : (endSweep s).latch = none := by
  unfold endSweep
  split <;> simp [sweep]

/-- With no plane, page control at its first values and the report unit empty, the units are cleared. -/
theorem unitsCleared_of (ht : t.tiles = TileMap.empty) (hr : t.render = RenderEngine.idle)
    (hp : t.page = PageControl.initial) (hu : t.reports = ReportUnit.empty) : UnitsCleared t := by
  unfold UnitsCleared
  rw [ht, hr, hp, hu]
  exact ⟨rfl, rfl, rfl, rfl, rfl, rfl, rfl, rfl, rfl⟩

end

/-- Settles O33. -/
theorem sweepClearsAndAnchors : Obligations.SweepClearsAndAnchors := by
  refine fun s => ⟨fun he hw hm => ⟨_, if_pos he, ?_⟩, fun he => if_neg he⟩
  have hend : finish (endSweep s) = grant (endSweep s) := finish_of_unset (by simp)
  have hwait : (sweep s).waiting = OwnWaiting.empty := by simpa [sweep] using hw
  refine ⟨scenesEmpty_of (by simp) (by simp) (by simp) (by simp), unitsCleared_of ?_ ?_ ?_ ?_, ?_, ?_, ?_,
    ?_, ?_, ?_, fun hl => ⟨?_, ?_⟩, fun x hl => ?_⟩
  · rw [hend]; simp
  · rw [hend]; simp
  · rw [finish_page, endSweep_page]
  · rw [finish_reports, endSweep_reports]
  · rw [finish_frames, endSweep_frames]
  · rw [finish_latch, endSweep_latch]
  · simp
  · rw [finish_share, endSweep_share]
  · simp
  · simp
  · rw [finish_engine, endSweep_none hl]; rfl
  · rw [finish_intake, endSweep_none hl]; rfl
  · have hmside : (sweep s).mside = s.mside := by simp [sweep]
    have hcside : (sweep s).cside = s.cside := by simp [sweep]
    have hpath : (sweep s).path = s.path := by simp [sweep]
    have hplane : (sweep s).tiles.plane = none := by simp
    have hmi : ∀ f n, (sweep s).mside ≠ .own (.intake f) n := fun f n => by
      rw [hmside]
      exact hm _ _
    rw [endSweep_some hl, ← hmside, ← hcside, ← hpath]
    exact ⟨finish_attached hwait hmi, finish_attached_free hwait hplane,
      finish_attached_busy hwait hmi hplane⟩

end Sys2Proof.Machine
end

