-- ==== Sys2Proof/Proofs/Grants.lean ====
section
/-! SUPPORT. The arbiter, the acceptance of requests, and the treatment of display fetches. -/
namespace Sys2Proof.Machine
set_option Elab.async false
open Sys2Proof

section
variable {s : State} {r : BusReq} {o : OwnReq} {left : OwnWaiting}

/-! ## The arbiter -/

/-- Every acceptance puts the request on the C-side and a first transaction on the M-side. -/
theorem accept_carry (r : BusReq) (s : State) : ∃ treat m, accept r s = carry r treat m s := by
  unfold accept
  split
  next => exact ⟨_, _, rfl⟩
  next =>
    split
    next => dsimp only; split <;> exact ⟨_, _, rfl⟩
    next => exact ⟨_, _, rfl⟩

theorem shareReached_iff :
    shareReached s = true ↔ s.urgent = false ∧ 1 ≤ s.share ∧ s.share ≤ s.passover := by
  simp [shareReached, and_assoc]

theorem grant_shared (hm : s.mside = .free) (hc : s.cside.state = .waiting r) (hp : s.path = .service)
    (ho : selectOwn s.waiting = some (o, left)) : grant s = if shareReached s then grantOwn o left s
      else accept r (s.setPassover (min 15 (s.passover + 1))) := by
  simp only [grant, hm, hc, hp, ho]

theorem grant_passed (hm : s.mside = .free) (hc : s.cside.state = .waiting r)
    (h : s.path = .bypass ∨ selectOwn s.waiting = none) : grant s = accept r s := by
  rcases h with h | h
  · simp only [grant, hm, hc, h]
  · exact grant_of_alone hm h hc

theorem selectOwn_none_iff (w : OwnWaiting) : selectOwn w = none ↔ w = OwnWaiting.empty := by
  refine ⟨fun h => ?_, fun h => h ▸ rfl⟩
  obtain ⟨class1, intake, load, render⟩ := w
  cases class1 with
  | cons c rest => cases h
  | nil =>
    cases intake with
    | some f => cases h
    | none =>
      cases load with
      | some l => cases h
      | none =>
        cases render with
        | some r => cases h
        | none => rfl

end

/-- Settles O34. -/
theorem arbiterGrants : Obligations.ArbiterGrants := by
  refine ⟨fun s => ⟨grant_busy s, fun r o left hm hc hp ho => ⟨fun hs => ?_, fun hs => ?_⟩,
    fun r hm hc h => ?_, fun o left hm hc hp ho => ?_⟩, fun w => ⟨fun c rest h => ?_, fun f h1 h2 => ?_,
    fun l h1 h2 h3 => ?_, fun q h1 h2 h3 h4 => ?_, selectOwn_none_iff w⟩, fun s b => rfl⟩
  · rw [grant_shared hm hc hp ho, if_pos (shareReached_iff.2 hs)]
    exact ⟨rfl, rfl, rfl, rfl⟩
  · rw [grant_shared hm hc hp ho, if_neg fun h => hs (shareReached_iff.1 h)]
    obtain ⟨treat, m, h⟩ := accept_carry r (s.setPassover (min 15 (s.passover + 1)))
    rw [h]
    exact ⟨⟨m, rfl⟩, rfl, rfl, _, rfl, rfl, rfl, rfl⟩
  · rw [grant_passed hm hc h]
    obtain ⟨treat, m, h⟩ := accept_carry r s
    rw [h]
    exact ⟨⟨m, rfl⟩, rfl, rfl, _, rfl, rfl⟩
  · rw [grant_front s hm hc hp ho]
    exact ⟨rfl, rfl, rfl, rfl⟩
  · simp only [selectOwn, h]
  · simp only [selectOwn, h1, h2]
  · simp only [selectOwn, h1, h2, h3]
  · simp only [selectOwn, h1, h2, h3, h4]

/-! ## The acceptance of a request -/

section
variable {s : State} {r : BusReq}

theorem inWindow_iff (pl : Plane) (a : Nat) : inWindow pl a = true
    ↔ pl.baseA.toNat ≤ a ∧ a < pl.baseA.toNat + pl.width * pl.height * 4 := by
  rw [inWindow, Bool.and_eq_true]
  exact and_congr decide_eq_true_iff decide_eq_true_iff

theorem windowAt_inside {pl : Plane} {a : Nat} (h : s.tiles.plane = some pl) (hl : pl.baseA.toNat ≤ a)
    (hr : a < pl.baseA.toNat + pl.width * pl.height * 4) : windowAt s a = some pl := by
  simp only [windowAt, h]
  exact if_pos ((inWindow_iff pl a).2 ⟨hl, hr⟩)

theorem windowAt_outside {a : Nat} (h : ∀ pl, s.tiles.plane = some pl → ¬ (pl.baseA.toNat ≤ a
    ∧ a < pl.baseA.toNat + pl.width * pl.height * 4)) : windowAt s a = none := by
  unfold windowAt
  split
  next pl hp => exact if_neg fun hin => h pl hp ((inWindow_iff pl a).1 hin)
  next => rfl

theorem accept_fetch {pl : Plane} {a : Addr} {p : Fin 4} (hp : s.path = .service)
    (hw : windowAt s a.toNat = some pl) : accept (.lineFetch a p) s
      = carry (.lineFetch a p) (.display (displayPlan s pl a p))
          (.lineFetch (displayPlan s pl a p).first (displayPlan s pl a p).start) s := by
  have hw' : windowAt s (reqAddr (.lineFetch a p)).toNat = some pl := hw
  simp only [accept, hp, hw']
  rfl

theorem accept_store {pl : Plane} (hp : s.path = .service) (hw : windowAt s (reqAddr r).toNat = some pl)
    (hr : reqIsFetch r = false) : accept r s
      = carry r .redirected (withAddr (redirect s pl (reqAddr r)) r) s := by
  simp only [accept, hp, hw, hr]
  rfl

theorem accept_passed (hp : s.path = .service) (hw : windowAt s (reqAddr r).toNat = none) :
    accept r s = carry r (.passed (passClass s (reqAddr r).toNat)) r s := by
  simp only [accept, hp, hw]

theorem displayPlan_start (s : State) (pl : Plane) (a : Addr) (p : Fin 4) :
    (displayPlan s pl a p).start = p := by
  unfold displayPlan
  dsimp only
  repeat' split
  all_goals rfl

theorem reqIsFetch_iff (r : BusReq) : reqIsFetch r = true ↔ ∃ a p, r = .lineFetch a p := by
  cases r <;> simp [reqIsFetch]

/-- A request made while nothing else contends is accepted in its own event. -/
theorem execCSideRequest_granted (ha : r.aligned = true) (hc : s.cside.state = .idle)
    (hm : s.mside = .free) (ho : selectOwn s.waiting = none) (ht : TileTaken s) :
    exec (.cSideRequest r) s = .next (accept r (s.setCside ⟨.waiting r, s.cside.returned⟩)) := by
  have hexec : exec (.cSideRequest r) s
      = .next (finish (s.setCside ⟨.waiting r, s.cside.returned⟩)) := by
    simp only [exec, execCSideRequest, ha, hc]
    rfl
  have htake : takeTile (s.setCside ⟨.waiting r, s.cside.returned⟩) = _ := takeTile_of_taken ht
  rw [hexec, finish, htake,
    grant_of_alone (s := s.setCside ⟨.waiting r, s.cside.returned⟩) hm ho rfl]

end

/-- Settles O35. -/
theorem requestsAreAccepted : Obligations.RequestsAreAccepted := by
  refine ⟨fun s r ha hc hm ho ht => ?_, fun s r => ⟨fun ha hc hm ht => ?_, fun ha => ?_, fun ha hc => ?_⟩,
    fun a p e => ⟨?_, ?_, ?_⟩⟩
  · refine ⟨_, execCSideRequest_granted ha hc hm ho ht, ?_⟩
    generalize hs : s.setCside ⟨.waiting r, s.cside.returned⟩ = v
    obtain ⟨treat, m, h⟩ := accept_carry r v
    have hwin {a : Nat} : windowAt v a = windowAt s a := by rw [← hs]; rfl
    refine ⟨?_, ?_, ?_, ?_, ?_, ?_, ?_, ?_, ?_, ?_, fun hp => ?_, fun hp => ⟨fun pl hpl hl hr =>
      ⟨fun a p e => ?_, fun hne => ?_⟩, fun hout => ?_⟩⟩
    case refine_11 =>
      rw [accept_of_bypass (s := v) (by rw [← hs]; exact hp)]
      exact ⟨rfl, rfl⟩
    case refine_12 =>
      subst e
      have hwa : windowAt v a.toNat = some pl := hwin.trans (windowAt_inside hpl hl hr)
      have hplan : displayPlan v pl a p = displayPlan s pl a p := by rw [← hs]; rfl
      rw [accept_fetch (by rw [← hs]; exact hp) hwa, hplan, displayPlan_start]
      exact ⟨rfl, rfl⟩
    case refine_13 =>
      have hstore : reqIsFetch r = false := by
        rw [← Bool.not_eq_true, reqIsFetch_iff]
        exact fun ⟨a, p, e⟩ => hne a p e
      have hwa : windowAt v (reqAddr r).toNat = some pl := hwin.trans (windowAt_inside hpl hl hr)
      have hred : redirect v pl (reqAddr r) = redirect s pl (reqAddr r) := by rw [← hs]; rfl
      rw [accept_store (by rw [← hs]; exact hp) hwa hstore, hred]
      exact ⟨rfl, redirect s pl (reqAddr r), BitVec.toNat_ofNat _ _, rfl⟩
    case refine_14 =>
      have hclass : passClass v (reqAddr r).toNat = passClass s (reqAddr r).toNat := by rw [← hs]; rfl
      rw [accept_passed (by rw [← hs]; exact hp) (hwin.trans (windowAt_outside hout)), hclass]
      refine ⟨rfl, fun hx => ?_, fun x hx => ?_⟩
      · rw [passClass, hx]
        rfl
      · rw [passClass, hx]
        rfl
    all_goals rw [h, ← hs]
    · exact ⟨rfl, rfl, rfl, rfl⟩
    · exact ⟨rfl, rfl, rfl⟩
    · rfl
    · rfl
    · exact ⟨rfl, rfl, rfl, rfl, rfl, rfl, rfl⟩
    all_goals rfl
  · have hexec : exec (.cSideRequest r) s
        = .next (finish (s.setCside ⟨.waiting r, s.cside.returned⟩)) := by
      simp only [exec, execCSideRequest, ha, hc]
      rfl
    rw [hexec, finish_of_settled (s := s.setCside ⟨.waiting r, s.cside.returned⟩) ht hm]
  · simp [exec, execCSideRequest, ha]
  · cases hs : s.cside.state with
    | idle => exact absurd hs hc
    | waiting q => simp [exec, execCSideRequest, ha, hs]
    | active t => simp [exec, execCSideRequest, ha, hs]
  · simp [BusReq.aligned]
  · simp [BusReq.aligned]
  · simp [BusReq.aligned]

/-! ## The treatment of a display fetch -/

section
variable {s : State} {pl : Plane} {a : Addr} {p : Fin 4}

/-- The side of the i-th pixel of the line of a display fetch in a wipe. -/
def lineSide (r : Running) (pl : Plane) (a : Addr) (i : Nat) : Bool :=
  frontSide r.spec.kind pl r.level ((a.toNat - pl.baseA.toNat) % (4 * pl.width) / 4 + i)
    ((a.toNat - pl.baseA.toNat) / (4 * pl.width))

theorem displayPlan_row : (displayPlan s pl a p).row = (a.toNat - pl.baseA.toNat) / (4 * pl.width) := by
  unfold displayPlan
  dsimp only
  repeat' split
  all_goals rfl

theorem displayPlan_col :
    (displayPlan s pl a p).col = (a.toNat - pl.baseA.toNat) % (4 * pl.width) / 4 := by
  unfold displayPlan
  dsimp only
  repeat' split
  all_goals rfl

/-- The fetches of a display fetch and how its words are formed, with what its row and column give. -/
def planOf (pl : Plane) (a : Addr) (p : Fin 4) (first : Addr) (second : Option Addr) (mix : Mix) :
    DisplayPlan :=
  ⟨(a.toNat - pl.baseA.toNat) / (4 * pl.width), (a.toNat - pl.baseA.toNat) % (4 * pl.width) / 4, p,
    first, second, mix⟩

theorem displayPlan_steady (h : s.page.running = none) : displayPlan s pl a p
    = planOf pl a p (pageAddr pl s.page.front (a.toNat - pl.baseA.toNat)) none
        (match tintNow s with
          | some t => .tint t
          | none => .asFetched) := by
  simp only [displayPlan, h, planOf]
  cases tintNow s <;> rfl

theorem displayPlan_dissolve {r : Running} (h : s.page.running = some r) (hk : r.spec.kind = .dissolve) :
    displayPlan s pl a p
      = if r.level = 0 then
          planOf pl a p (pageAddr pl (backPage s) (a.toNat - pl.baseA.toNat)) none .asFetched
        else planOf pl a p (pageAddr pl (backPage s) (a.toNat - pl.baseA.toNat))
          (some (pageAddr pl s.page.front (a.toNat - pl.baseA.toNat))) (.dissolve r.level) := by
  simp only [displayPlan, h, hk, if_true, planOf]

theorem displayPlan_wipe {r : Running} (h : s.page.running = some r) (hk : r.spec.kind ≠ .dissolve) :
    displayPlan s pl a p
      = if (List.range 4).all (lineSide r pl a) then
          planOf pl a p (pageAddr pl s.page.front (a.toNat - pl.baseA.toNat)) none .asFetched
        else if (List.range 4).all fun i => !lineSide r pl a i then
          planOf pl a p (pageAddr pl (backPage s) (a.toNat - pl.baseA.toNat)) none .asFetched
        else planOf pl a p (pageAddr pl (backPage s) (a.toNat - pl.baseA.toNat))
          (some (pageAddr pl s.page.front (a.toNat - pl.baseA.toNat)))
          (.split (r.spec.kind == .wipeLeft) (if r.spec.kind = .wipeLeft then
            frontier r.spec.kind pl r.level else pl.width - frontier r.spec.kind pl r.level)) := by
  simp only [displayPlan, h, if_neg hk]
  rfl

theorem all_range_four (f : Nat → Bool) : (List.range 4).all f = true ↔ ∀ i, i < 4 → f i = true := by
  simp only [List.all_eq_true, List.mem_range]

/-- In a wipe whose line has pixels of both sides a split gives each word of its own side. -/
theorem split_side {r : Running} {i j y x : Nat} (hk : r.spec.kind ≠ .dissolve)
    (hi : frontSide r.spec.kind pl r.level (x + i) y = true)
    (hj : frontSide r.spec.kind pl r.level (x + j) y = false) (c : Nat) :
    (decide (c < if r.spec.kind = .wipeLeft then frontier r.spec.kind pl r.level
        else pl.width - frontier r.spec.kind pl r.level) == (r.spec.kind == .wipeLeft))
      = frontSide r.spec.kind pl r.level c y := by
  cases hkind : r.spec.kind with
  | dissolve => exact absurd hkind hk
  | wipeLeft =>
    rw [Bool.eq_iff_iff, frontSide_wipeLeft]
    simp
  | wipeRight =>
    rw [Bool.eq_iff_iff, frontSide_wipeRight, show (TransKind.wipeRight == .wipeLeft) = false from rfl]
    simp
  | wipeDown =>
    rw [hkind] at hi hj
    exact absurd (hi.symm.trans hj) (by decide)
  | wipeUp =>
    rw [hkind] at hi hj
    exact absurd (hi.symm.trans hj) (by decide)

theorem mixWord_of_split {plan : DisplayPlan} {below side : Bool} {boundary n : Nat} {be : Bool}
    {rw fw : BusWord} (hm : plan.mix = .split below boundary)
    (hs : (decide (plan.col + wrapPos plan.start n < boundary) == below) = side) :
    mixWord be plan n rw fw = if side then fresh be fw.data else fresh be rw.data := by
  subst hs
  simp only [mixWord, hm]

theorem tintNow_iff (s : State) (t : Tint) : tintNow s = some t ↔
      s.page.running = none ∧ s.engine = .active
      ∧ ∃ b l r, s.buttons.selection = some b
        ∧ (if s.buttons.activated then s.buttons.entries[b].activatedLook
           else s.buttons.entries[b].selectedLook) = some l
        ∧ s.buttons.entries[b].displayed = some r ∧ l.strength s.buttons.phase ≠ 0
        ∧ t = ⟨l.tint, l.strength s.buttons.phase, l.floor, r⟩ := by
  unfold tintNow lookInUse
  by_cases hrun : s.page.running = none
  · by_cases he : s.engine = .active
    · rw [if_neg (by simp [hrun, he])]
      simp only [hrun, he, true_and]
      cases hb : s.buttons.selection with
      | none => simp
      | some b =>
        dsimp only
        split
        next c l hc hl =>
          obtain rfl := Option.some.inj hc
          split
          next r hr =>
            split
            next hz =>
              refine ⟨nofun, fun ⟨c, l', _, hc', hl', _, hne, _⟩ => ?_⟩
              obtain rfl := Option.some.inj hc'
              obtain rfl := Option.some.inj (hl.symm.trans hl')
              exact absurd hz hne
            next hne =>
              refine ⟨fun h => ⟨b, l, r, rfl, hl, hr, hne, (Option.some.inj h).symm⟩,
                fun ⟨c, l', r', hc', hl', hr', _, ht⟩ => ?_⟩
              obtain rfl := Option.some.inj hc'
              obtain rfl := Option.some.inj (hl.symm.trans hl')
              obtain rfl := Option.some.inj (hr.symm.trans hr')
              rw [ht]
          next hr =>
            refine ⟨nofun, fun ⟨c, _, _, hc', _, hr', _⟩ => ?_⟩
            obtain rfl := Option.some.inj hc'
            rw [hr] at hr'
            cases hr'
        next hno =>
          refine ⟨nofun, fun ⟨c, l, _, hc', hl, _⟩ => ?_⟩
          obtain rfl := Option.some.inj hc'
          exact absurd hl (hno _ _ rfl)
    · rw [if_pos (by simp [he])]
      simp [he]
  · rw [if_pos (by simp [Option.isSome_iff_ne_none, hrun])]
    simp [hrun]

end

/-- Settles O36. -/
theorem displayFetchTreatmentAndTint : Obligations.DisplayFetchTreatmentAndTint := by
  refine ⟨?_, ⟨fun l phase => ⟨fun h => if_pos h, fun h1 h2 h3 => if_neg ?_⟩, tintNow_iff⟩⟩
  · rintro s pl a p plan rfl off rfl front rfl retiring rfl
    refine ⟨displayPlan_start s pl a p, displayPlan_row, displayPlan_col, fun hrun => ?_, fun r hrun =>
      ⟨fun hk hl => ?_, fun hk hl => ?_, fun hk hside => ?_, fun hk hside => ?_, fun hk => ?_⟩⟩
    · rw [displayPlan_steady hrun]
      exact ⟨rfl, rfl, fun ht => by rw [ht]; rfl, fun t ht => by rw [ht]; rfl⟩
    · rw [displayPlan_dissolve hrun hk, if_pos hl]
      exact ⟨rfl, rfl, rfl⟩
    · rw [displayPlan_dissolve hrun hk, if_neg hl]
      exact ⟨rfl, rfl, rfl⟩
    · rw [displayPlan_row, displayPlan_col] at hside
      rw [displayPlan_wipe hrun hk, if_pos ((all_range_four (lineSide r pl a)).2 hside)]
      exact ⟨rfl, rfl, rfl⟩
    · rw [displayPlan_row, displayPlan_col] at hside
      have hback : ∀ i, i < 4 → lineSide r pl a i = false := hside
      rw [displayPlan_wipe hrun hk, if_neg, if_pos]
      · exact ⟨rfl, rfl, rfl⟩
      · exact (all_range_four _).2 fun i hi => by rw [hback i hi]; rfl
      · intro hall
        have h0 := (all_range_four _).1 hall 0 (by decide)
        rw [hback 0 (by decide)] at h0
        cases h0
    · rw [displayPlan_row, displayPlan_col]
      rintro ⟨i, j, hi, hj, hfront, hback⟩
      have hfront' : lineSide r pl a i = true := hfront
      have hback' : lineSide r pl a j = false := hback
      rw [displayPlan_wipe hrun hk, if_neg, if_neg]
      · refine ⟨rfl, rfl, fun be n rw fw => ?_⟩
        exact mixWord_of_split rfl (split_side hk hfront hback _)
      · intro hall
        have h0 := (all_range_four _).1 hall i hi
        rw [hfront'] at h0
        cases h0
      · intro hall
        have h0 := (all_range_four _).1 hall j hj
        rw [hback'] at h0
        cases h0
  · omega

end Sys2Proof.Machine
end

