-- ==== Sys2Proof/Proofs/Transfers.lean ====
section
/-! SUPPORT. The words and the completion of the controller's transactions. -/
namespace Sys2Proof.Machine
set_option Elab.async false
open Sys2Proof

section
variable {s u : State} {t : CTxn} {c : Instr} {m : BusReq} {effect : State → State}

/-! ## The completion of a C-side transaction -/

theorem completeC_bypass (hp : s.path = .bypass) : completeC effect s = grant (leaveBypass (cDone s)) := by
  rw [completeC, hp]
  rfl

theorem completeC_due (hp : s.path = .service) (hd : s.resetDue = true) :
    completeC effect s = beginBypass (effect (cDone s)) := by
  rw [completeC, hp]
  exact if_pos hd

theorem completeC_service (hp : s.path = .service) (hd : s.resetDue = false) :
    completeC effect s = finish (effect (cDone s)) := by
  rw [completeC, hp]
  exact if_neg (by rw [hd]; decide)

theorem grant_of_bypass (hp : s.path = .bypass) (hc : s.cside.state.isWaiting = false) : grant s = s := by
  unfold grant
  rw [hp]
  split
  next r _ hr => rw [hr] at hc; cases hc
  all_goals rfl

/-- A store that nothing takes in has no effect at its completion. -/
theorem storeEffect_untaken {a : Nat} (ha : storeAnchor t a = none)
    (ht : t.treat = .redirected ∨ t.treat = .passed .other) : storeEffect t a u = u := by
  rcases ht with ht | ht <;> simp only [storeEffect, anchorWatch, ha, ht]

/-- A transaction whose last word has moved, and that nothing takes in, completes. -/
def Completes (c : Instr) (t : CTxn) (s : State) : Prop :=
  (c = .passedTransactionComplete ∧ reqIsFetch t.req = true ∧ (∃ k, t.treat = .passed k)
      ∧ t.moved.length = 4)
    ∨ (c = .displayFetchComplete ∧ t.moved.length = 4 ∧ ∃ p, t.treat = .display p
      ∧ ((p.second = none ∧ t.second = none)
        ∨ ∃ l fs, p.second = some l ∧ t.second = some fs ∧ fs.length = 4))
    ∨ (c = .cStoreComplete ∧ reqIsFetch t.req = false ∧ t.moved.length = reqWordCount t.req
      ∧ ∃ m, s.mside = .controller m
        ∧ (s.path = .service → storeAnchor t (reqAddr m).toNat = none
          ∧ (t.treat = .redirected ∨ t.treat = .passed .other)))

theorem Completes.exec (h : Completes c t s) (hc : s.cside.state = .active t) :
    ∃ effect, exec c s = .next (completeC effect s) ∧ (s.path = .service → effect (cDone s) = cDone s) := by
  rcases h with ⟨rfl, hf, hk, hl⟩ | ⟨rfl, hl, p, ht, hp⟩ | ⟨rfl, hf, hl, m, hm, hs⟩
  · have hwhole : (isPassedFetch t && t.moved.length == 4) = true := by
      simp [(isPassedFetch_iff t).2 ⟨hf, hk⟩, hl]
    refine ⟨id, ?_, fun _ => rfl⟩
    simp only [Machine.exec, execPassedTransactionComplete, hc]
    exact if_pos hwhole
  · have hwhole : displayWhole p t = true := (displayWhole_iff p t).2 ⟨hl, hp.imp_right
      fun ⟨l, fs, h1, h2, h3⟩ => ⟨fs, by rw [h1]; rfl, h2, h3⟩⟩
    refine ⟨id, ?_, fun _ => rfl⟩
    simp only [Machine.exec, execDisplayFetchComplete, hc, ht]
    exact if_pos hwhole
  · refine ⟨storeEffect t (reqAddr m).toNat, ?_, fun hp => storeEffect_untaken (hs hp).1 (hs hp).2⟩
    simp only [Machine.exec, execCStoreComplete, hc, hm]
    exact if_pos (by simp [hf, hl])

/-- A completion with a reset due, whose effect keeps what BYPASS keeps, begins BYPASS. -/
theorem beginBypass_completion (hm : u.mside = .free) (hc : u.cside = ⟨.idle, s.cside.returned⟩)
    (hb : BypassBegun s (beginBypass u)) : BypassAtCompletion s (beginBypass u) := by
  have hidle := beginBypass_of_idle (s := u) (by rw [hc]; rfl)
  refine ⟨hb, ?_, ?_⟩
  · rw [hidle]
    simpa [bypassEntered] using hm
  · rw [hidle]
    simpa [bypassEntered] using hc

end

/-- Settles O37. -/
theorem transfersAreCarried : Obligations.TransfersAreCarried := by
  refine ⟨fun s t w hc => ⟨fun hf hl => ⟨_, ?_, rfl⟩, fun hf hk hl => ⟨_, ?_, rfl⟩⟩,
    fun s t c hc hcomp => ?_⟩
  · simp only [exec, execCStoreWord, hc]
    exact if_pos (by simp [hf, hl])
  · simp only [exec, execPassedFetchWord, hc]
    exact if_pos (by simp [(isPassedFetch_iff t).2 ⟨hf, hk⟩, hl])
  · obtain ⟨effect, hexec, heffect⟩ := Completes.exec (c := c) (t := t) hcomp hc
    rw [hexec]
    refine ⟨fun hp hl hw => ⟨_, rfl, ?_⟩, fun hp hd => ⟨_, rfl, ?_⟩, fun hp hd ht => ⟨_, rfl, ?_⟩,
      fun hp hl => ⟨_, rfl, ?_⟩⟩
    · have hstay : grant (enterService (cDone s)) = enterService (cDone s) :=
        grant_of_idle (by simpa [cDone] using hw) (by simp [cDone, CState.isWaiting])
      rw [completeC_bypass hp, leaveBypass_released (by simpa [cDone] using hl), hstay]
      simp [enterService, cDone, SameTables]
    · rw [completeC_due hp hd, heffect hp]
      exact beginBypass_completion rfl rfl
        (beginBypass_begun.from_eq rfl rfl rfl rfl rfl rfl rfl rfl)
    · have htake : takeTile (cDone s) = cDone s := takeTile_of_taken ht
      rw [completeC_service hp hd, heffect hp, finish, htake]
      cases ho : selectOwn s.waiting with
      | none =>
        have hstay : grant (cDone s) = cDone s :=
          grant_of_idle ((selectOwn_none_iff s.waiting).1 ho) rfl
        rw [hstay]
        simp [SameTables, SameControl, SameOuter, cDone]
      | some q =>
        obtain ⟨o, left⟩ := q
        rw [grant_front (cDone s) rfl rfl hp ho]
        simp [SameTables, SameControl, SameOuter, grantOwn, cDone]
    · rw [completeC_bypass hp, leaveBypass_held (s := cDone s) hl,
        grant_of_bypass (s := cDone s) hp rfl]
      rfl

end Sys2Proof.Machine
end

