-- ==== Sys2Proof/Proofs/Captures.lean ====
section
/-! SUPPORT. The stores into the script ring that the intake captures. -/
namespace Sys2Proof.Machine
set_option Elab.async false
open Sys2Proof

/-! ## A store that is captured -/

section
variable {s u v : State} {t : CTxn} {m : BusReq} {due : Bool}

theorem StoreWhole.exec (h : StoreWhole due s t m) : exec .cStoreComplete s
    = .next (completeC (storeEffect t (reqAddr m).toNat) s) := by
  obtain ⟨hc, hm, hf, hl, _⟩ := h
  simp only [Machine.exec, execCStoreComplete, hc, hm]
  exact if_pos (by simp [hf, hl])

theorem StoreWhole.mside (h : StoreWhole due s t m) : s.mside = .controller m := h.2.1

theorem StoreWhole.service (h : StoreWhole due s t m) : s.path = .service ∧ s.resetDue = due := by
  obtain ⟨-, -, -, -, hp, hd⟩ := h
  exact ⟨hp, hd⟩

theorem StoreWhole.exec_service (h : StoreWhole false s t m) : Machine.exec .cStoreComplete s
    = .next (finish (storeEffect t (reqAddr m).toNat (cDone s))) := by
  rw [h.exec, completeC_service h.service.1 h.service.2]

theorem StoreWhole.exec_due (h : StoreWhole true s t m) : Machine.exec .cStoreComplete s
    = .next (beginBypass (storeEffect t (reqAddr m).toNat (cDone s))) := by
  rw [h.exec, completeC_due h.service.1 h.service.2]

theorem storeEffect_script {a : Nat} (ha : storeAnchor t a = none) (ht : t.treat = .passed .script) :
    storeEffect t a u = offerCapture t u := by
  simp only [storeEffect, anchorWatch, ha, ht]

theorem storeEffect_control {a : Nat} (ha : storeAnchor t a = none) (ht : t.treat = .passed .control) :
    storeEffect t a u = offerLatch t u := by
  simp only [storeEffect, anchorWatch, ha, ht]

/-- The state with this capture queue, and with the suspect flag set. -/
def queued (q : List CapEntry) (s : State) : State := s.setIntake { s.intake with queue := q }
def suspected (s : State) : State := s.setIntake { s.intake with suspect := true }

/-- A word dropped by a full queue. -/
def wordDropped (s : State) : State :=
  if s.intake.state = .waiting then beginProbe (suspected s) else suspected s

/-- The intake takes captured words. -/
def takesWords (s : State) : Prop := s.intake.state ≠ .halted ∧ s.intake.state ≠ .absent

theorem captureWord_discarded (e : CapEntry) (b : Bool)
    (h : s.intake.state = .halted ∨ s.intake.state = .absent) : captureWord e (s, b) = (s, b) := by
  rcases h with h | h <;> simp only [captureWord, h]

theorem captureWord_joined (e : CapEntry) (b : Bool) (h : takesWords s)
    (hq : s.intake.queue.length < 16) :
    captureWord e (s, b) = (queued (s.intake.queue ++ [e]) s, true) := by
  unfold captureWord
  dsimp only
  split
  next hs => exact absurd hs h.2
  next hs => exact absurd hs h.1
  all_goals exact if_pos hq

theorem captureWord_dropped (e : CapEntry) (b : Bool) (h : takesWords s)
    (hq : 16 ≤ s.intake.queue.length) : captureWord e (s, b) = (wordDropped s, b) := by
  unfold captureWord wordDropped
  dsimp only
  split
  next hs => exact absurd hs h.2
  next hs => exact absurd hs h.1
  all_goals
    rw [if_neg (Nat.not_lt.2 hq)]
    split <;> rfl

theorem wordDropped_steady (h : s.intake.state ≠ .waiting) :
    wordDropped s = suspected s := if_neg h

theorem beginProbe_unset (h : s.intake.anchor = none) : beginProbe s = s := by rw [beginProbe, h]

theorem beginProbe_eq {x : Anchor} (h : s.intake.anchor = some x) : beginProbe s
    = wantIntake (.probe (lineReqAt (ringAddr x s.intake.p)))
        (s.setIntake { s.intake with state := .probing }) := by
  rw [beginProbe, h]

theorem beginProbe_intake {x : Anchor} (h : s.intake.anchor = some x) : (beginProbe s).intake
    = { s.intake with
        state := .probing,
        deferred := if intakeOutstanding s then some (.probe (lineReqAt (ringAddr x s.intake.p))) else none,
        probeLive := if intakeOutstanding s then s.intake.probeLive else true } := by
  rw [beginProbe_eq h, wantIntake_intake,
    intakeOutstanding_congr (s.setIntake { s.intake with state := .probing }) s rfl rfl]
  cases intakeOutstanding s <;> rfl

theorem beginProbe_fetch {x : Anchor} (h : s.intake.anchor = some x) : (beginProbe s).waiting.intake
    = if intakeOutstanding s then s.waiting.intake
      else some (.probe (lineReqAt (ringAddr x s.intake.p))) := by
  rw [beginProbe_eq h, wantIntake_waiting,
    intakeOutstanding_congr (s.setIntake { s.intake with state := .probing }) s rfl rfl]
  rfl

/-- A probe begun in an event falls due. -/
theorem beginProbe_due {x : Anchor} (h : v.intake.anchor = some x)
    (ho : intakeOutstanding v = intakeOutstanding s)
    (hd : u.intake.deferred = (beginProbe v).intake.deferred)
    (hw : u.waiting.intake = (beginProbe v).waiting.intake) :
    FetchDue (.probe (lineReqAt (ringAddr x v.intake.p))) s (finish u) := by
  rw [FetchDue, finish_intake, hd, beginProbe_intake h, ← ho]
  rw [beginProbe_fetch h] at hw
  cases hout : intakeOutstanding v with
  | true => rfl
  | false =>
    rw [hout] at hw
    exact ⟨finish_fetchHanded u hw, rfl⟩

theorem wantIntake_queued (q : List CapEntry) (f : IntakeFetch) :
    wantIntake f (queued q s) = queued q (wantIntake f s) := by
  have hout : intakeOutstanding (queued q s) = intakeOutstanding s := rfl
  rw [wantIntake, wantIntake, hout]
  split <;> rfl

theorem beginProbe_queued (q : List CapEntry) : beginProbe (queued q s) = queued q (beginProbe s) := by
  cases ha : s.intake.anchor with
  | none => rw [beginProbe_unset ha, beginProbe_unset (s := queued q s) ha]
  | some x =>
    rw [beginProbe_eq ha, beginProbe_eq (s := queued q s) ha]
    exact wantIntake_queued (s := s.setIntake { s.intake with state := .probing }) q _

theorem wordDropped_queued (q : List CapEntry) : wordDropped (queued q s) = queued q (wordDropped s) := by
  by_cases h : s.intake.state = .waiting
  · rw [wordDropped, wordDropped, if_pos h, if_pos (show (queued q s).intake.state = .waiting from h)]
    exact beginProbe_queued (s := suspected s) q
  · rw [wordDropped_steady h, wordDropped_steady (s := queued q s) h]
    rfl

/-- What a drop leaves of the intake, in every state. -/
theorem wordDropped_kept : (wordDropped s).intake.queue = s.intake.queue
    ∧ (wordDropped s).intake.suspect = true := by
  unfold wordDropped
  split
  next =>
    cases ha : s.intake.anchor with
    | none =>
      rw [beginProbe_unset (s := suspected s) ha]
      exact ⟨rfl, rfl⟩
    | some x =>
      rw [beginProbe_intake (s := suspected s) ha]
      exact ⟨rfl, rfl⟩
  next => exact ⟨rfl, rfl⟩

theorem wordDropped_takes (h : takesWords s) : takesWords (wordDropped s) := by
  unfold wordDropped
  split
  next =>
    cases ha : s.intake.anchor with
    | none =>
      rw [beginProbe_unset (s := suspected s) ha]
      exact h
    | some x =>
      rw [takesWords, beginProbe_intake (s := suspected s) ha]
      exact ⟨nofun, nofun⟩
  next => exact h

/-- Once the suspect flag is set and PROBING entered, another drop changes nothing. -/
theorem wordDropped_again : wordDropped (wordDropped s) = wordDropped s := by
  have hstill : suspected (wordDropped s) = wordDropped s := by
    have hs : (wordDropped s).intake.suspect = true := wordDropped_kept.2
    rw [suspected, ← hs]
    rfl
  have hprobed : (wordDropped s).intake.state = .waiting → beginProbe (wordDropped s) = wordDropped s := by
    unfold wordDropped
    split
    next =>
      cases ha : s.intake.anchor with
      | none =>
        rw [beginProbe_unset (s := suspected s) ha, beginProbe_unset (s := suspected s) ha]
        exact fun _ => rfl
      | some x =>
        rw [beginProbe_intake (s := suspected s) ha]
        nofun
    next h => exact fun h' => absurd h' h
  conv_lhs => rw [wordDropped, hstill]
  split
  next h => exact hprobed h
  next => rfl

/-- The words of a store taken one after another. -/
def takeWords (l : List CapEntry) (acc : State × Bool) : State × Bool :=
  l.foldl (fun acc e => captureWord e acc) acc

theorem takeWords_append (l l' : List CapEntry) (acc : State × Bool) :
    takeWords (l ++ l') acc = takeWords l' (takeWords l acc) := List.foldl_append

theorem takeWords_discarded (l : List CapEntry) (b : Bool)
    (h : s.intake.state = .halted ∨ s.intake.state = .absent) : takeWords l (s, b) = (s, b) := by
  induction l with
  | nil => rfl
  | cons e l ih =>
    rw [takeWords, List.foldl_cons, captureWord_discarded e b h]
    exact ih

theorem takeWords_joined (l : List CapEntry) (b : Bool) (h : takesWords s)
    (hq : s.intake.queue.length + l.length ≤ 16) :
    takeWords l (s, b)
      = (queued (s.intake.queue ++ l) s, b || !l.isEmpty) := by
  induction l generalizing s b with
  | nil => simp [takeWords, queued]; rfl
  | cons e l ih =>
    rw [List.length_cons] at hq
    rw [takeWords, List.foldl_cons, captureWord_joined e b h (by omega)]
    have hrest := ih (s := queued (s.intake.queue ++ [e]) s) true h
      (by rw [queued, State.setIntake_intake, List.length_append, List.length_singleton]; omega)
    rw [takeWords] at hrest
    rw [hrest]
    simp [queued]
    rfl

theorem takeWords_dropped (l : List CapEntry) (b : Bool) (h : takesWords s)
    (hq : 16 ≤ s.intake.queue.length) (hl : l ≠ []) : takeWords l (s, b) = (wordDropped s, b) := by
  induction l generalizing s with
  | nil => exact absurd rfl hl
  | cons e l ih =>
    rw [takeWords, List.foldl_cons, captureWord_dropped e b h hq]
    cases l with
    | nil => rfl
    | cons f l =>
      have hrest := ih (wordDropped_takes h) (by rw [wordDropped_kept.1]; exact hq) (List.cons_ne_nil _ _)
      rw [takeWords] at hrest
      rw [hrest, wordDropped_again]

end

/-- The queue after words join it, the last of them with the end mark. -/
def joinQueue (q l : List CapEntry) : List CapEntry :=
  if l = [] then q else q ++ l.dropLast ++ l.getLast?.toList.map (fun e => { e with endMark := true })

theorem markLast_concat (q : List CapEntry) (e : CapEntry) :
    markLast (q ++ [e]) = q ++ [{ e with endMark := true }] := by
  induction q with
  | nil => rfl
  | cons f q ih =>
    cases q with
    | nil => rfl
    | cons g q => rw [List.cons_append, List.cons_append, markLast, ← List.cons_append, ih]; rfl

theorem markLast_joined {q l : List CapEntry} (h : l ≠ []) : markLast (q ++ l) = joinQueue q l := by
  obtain ⟨init, e, rfl⟩ := List.eq_nil_or_concat'  l |>.resolve_left h
  rw [joinQueue, if_neg h, ← List.append_assoc, markLast_concat]
  simp

section
variable {s u v : State} {l : List CapEntry}

theorem joinQueue_nil (q : List CapEntry) : joinQueue q [] = q := rfl

theorem captureWords_eq : captureWords l s = if (takeWords l (s, false)).2
    then queued (markLast (takeWords l (s, false)).1.intake.queue) (takeWords l (s, false)).1
    else (takeWords l (s, false)).1 := rfl

/-- An intake with no ring, or HALTED, captures nothing. -/
theorem captureWords_discarded (h : s.intake.state = .halted ∨ s.intake.state = .absent) :
    captureWords l s = s := by
  rw [captureWords_eq, takeWords_discarded l false h]
  rfl

/-- Words that fit join the queue. -/
theorem captureWords_joined (h : takesWords s) (hq : s.intake.queue.length + l.length ≤ 16) :
    captureWords l s = queued (joinQueue s.intake.queue l) s := by
  rw [captureWords_eq, takeWords_joined l false h hq]
  cases l with
  | nil => simp [joinQueue_nil]
  | cons e l =>
    have hmark := markLast_joined (q := s.intake.queue) (List.cons_ne_nil e l)
    rw [← hmark]
    rfl

/-- Of words that do not fit, the first join the queue and the rest are dropped. -/
theorem captureWords_overflow (h : takesWords s) (hq : s.intake.queue.length ≤ 16)
    (hl : 16 < s.intake.queue.length + l.length) : captureWords l s
      = queued (joinQueue s.intake.queue (l.take (16 - s.intake.queue.length))) (wordDropped s) := by
  have hjoin : takeWords (l.take (16 - s.intake.queue.length)) (s, false)
      = (queued (s.intake.queue ++ l.take (16 - s.intake.queue.length)) s,
        false || !(l.take (16 - s.intake.queue.length)).isEmpty) :=
    takeWords_joined _ false h (by rw [List.length_take]; omega)
  have hrest : l.drop (16 - s.intake.queue.length) ≠ [] := by
    rw [ne_eq, List.drop_eq_nil_iff]
    omega
  have hall : takeWords l (s, false)
      = (queued (s.intake.queue ++ l.take (16 - s.intake.queue.length)) (wordDropped s),
        !(l.take (16 - s.intake.queue.length)).isEmpty) := by
    conv_lhs => rw [← List.take_append_drop (16 - s.intake.queue.length) l]
    rw [takeWords_append, hjoin, takeWords_dropped
      (s := queued (s.intake.queue ++ l.take (16 - s.intake.queue.length)) s) _ _ h _ hrest, wordDropped_queued]
    · rfl
    · rw [queued, State.setIntake_intake, List.length_append, List.length_take]
      omega
  rw [captureWords_eq, hall]
  generalize l.take (16 - s.intake.queue.length) = joined
  cases joined with
  | nil => simp [joinQueue_nil]
  | cons e joined =>
    have hmark := markLast_joined (q := s.intake.queue) (List.cons_ne_nil e joined)
    rw [← hmark]
    rfl

end

section
variable {s u : State} {t : CTxn} {m : BusReq} {l : List CapEntry} {r : Option Report}

/-- The end of an event may take a tile from the map and the engine as the event left them. -/
theorem finish_took_from {tiles : TileMap} {render : RenderEngine} (ht : u.tiles = tiles)
    (hr : u.render = render) (hp : u.page = s.page) : TookFrom tiles render (backPage s) (finish u) := by
  rw [← ht, ← hr, ← backPage_congr hp]
  exact finish_took u

theorem finish_tilesKept (ht : u.tiles = s.tiles) (hr : u.render = s.render) (hp : u.page = s.page) :
    TilesKept s (finish u) := finish_took_from ht hr hp

/-- A grant leaves a C-side that waits for nothing. -/
theorem grant_idle_cside (h : s.cside.state.isWaiting = false) : (grant s).cside = s.cside := by
  rcases grant_cases s with he | ⟨r, p, -, hr, -⟩ | ⟨o, left, -, -, he⟩
  · rw [he]
  · rw [hr] at h
    cases h
  · rw [he]
    rfl

theorem finish_idle_cside (h : s.cside.state.isWaiting = false) : (finish s).cside = s.cside := by
  rw [finish, grant_idle_cside (by rwa [takeTile_cside]), takeTile_cside]

theorem cDone_outstanding (h : s.mside = .controller m) :
    intakeOutstanding (cDone s) = intakeOutstanding s := by
  simp [intakeOutstanding, cDone, h]

theorem offerCapture_eq : offerCapture t u
    = captureWords (captureEntries (byteOrder u) t)
        (giveReport? ((firstBad (byteOrder u) (sentWords t)).map (Report.parity .capture)) u) := rfl

theorem firstBad_none_of {b : Bool} {ws : List (Nat × BusWord)} (h : ∀ w ∈ ws, wordGood b w.2 = true) :
    firstBad b ws = none := by
  rw [firstBad, List.find?_eq_none.2 fun w hw => by simp [h w hw]]
  rfl

/-- A store into the ring, as its capture leaves the state before the tile is taken and the bus granted. -/
def captured (l : List CapEntry) (r : Option Report) (s : State) : State :=
  captureWords l (giveReport? r (cDone s))

theorem captured_frame : SameTables s (finish (captured l r s)) ∧ SameControl s (finish (captured l r s))
    ∧ SameOuter s (finish (captured l r s)) ∧ TilesKept s (finish (captured l r s))
    ∧ (finish (captured l r s)).cside = ⟨.idle, s.cside.returned⟩ := by
  refine ⟨?_, ?_, ?_, ?_, ?_⟩
  · simp [SameTables, captured, cDone]
  · simp [SameControl, captured, cDone]
  · simp [SameOuter, captured, cDone]
  · apply finish_tilesKept <;> simp [captured, cDone]
  · rw [finish_idle_cside] <;> simp [captured, cDone, CState.isWaiting]

theorem captured_base : (giveReport? r (cDone s)).intake = s.intake := by simp [cDone]

theorem captured_discarded (h : s.intake.state = .halted ∨ s.intake.state = .absent) :
    (finish (captured l r s)).intake = s.intake := by
  rw [finish_intake, captured, captureWords_discarded (by rwa [captured_base]), captured_base]

theorem captured_joined (h : takesWords s) (hq : s.intake.queue.length + l.length ≤ 16) :
    (finish (captured l r s)).intake = { s.intake with queue := joinQueue s.intake.queue l } := by
  rw [finish_intake, captured,
    captureWords_joined (by rwa [takesWords, captured_base]) (by rwa [captured_base]), captured_base,
    queued, captured_base]
  rfl

theorem captured_overflow (h : takesWords s) (hq : s.intake.queue.length ≤ 16)
    (hl : 16 < s.intake.queue.length + l.length) : captured l r s
      = queued (joinQueue s.intake.queue (l.take (16 - s.intake.queue.length)))
          (wordDropped (giveReport? r (cDone s))) := by
  rw [captured, captureWords_overflow (by rwa [takesWords, captured_base]) (by rwa [captured_base])
    (by rwa [captured_base]), captured_base]

/-- In WAITING a dropped word sends the intake back to PROBING. -/
theorem captured_probing {x : Anchor} {q : List CapEntry} (hm : s.mside = .controller m)
    (hx : s.intake.anchor = some x) (hw : s.intake.state = .waiting)
    (hu : u = queued q (wordDropped (giveReport? r (cDone s)))) :
    u.intake.state = .probing ∧ u.intake.slots = s.intake.slots ∧ u.intake.p = s.intake.p
      ∧ u.intake.expected = s.intake.expected
      ∧ FetchDue (.probe (lineReqAt (ringAddr x s.intake.p))) s (finish u) := by
  have hbase : (suspected (giveReport? r (cDone s))).intake = { s.intake with suspect := true } := by
    rw [suspected, State.setIntake_intake, captured_base]
  have hanchor : (suspected (giveReport? r (cDone s))).intake.anchor = some x := by rw [hbase, ← hx]
  have hdrop : wordDropped (giveReport? r (cDone s)) = beginProbe (suspected (giveReport? r (cDone s))) :=
    if_pos (by rw [captured_base]; exact hw)
  have hp : (suspected (giveReport? r (cDone s))).intake.p = s.intake.p := by rw [hbase]
  rw [hdrop] at hu
  have hintake : u.intake = { (beginProbe (suspected (giveReport? r (cDone s)))).intake with queue := q } := by
    rw [hu]; rfl
  rw [hintake, beginProbe_intake hanchor, hbase]
  refine ⟨rfl, rfl, rfl, rfl, ?_⟩
  rw [← hp]
  refine beginProbe_due hanchor ?_ (by rw [hintake]) (by rw [hu]; rfl)
  rw [← cDone_outstanding hm]
  exact intakeOutstanding_congr _ _ (by simp [suspected]) (by simp [suspected])

theorem captured_reports : (finish (captured l r s)).reports = (giveReport? r s).reports := by
  cases r with
  | none => simp [captured, giveReport?, cDone]
  | some r =>
    simp only [captured, giveReport?, finish_reports, captureWords_reports]
    exact giveReport_reports_congr _ _ r rfl

end

/-- An offered store with a reset due leaves BYPASS begun. -/
theorem Offered.completion {s u : State} {t : CTxn} (h : Offered t (cDone s) u) :
    BypassAtCompletion s (beginBypass u) := by
  refine beginBypass_completion ?_ ?_ (beginBypass_begun.from_eq ?_ ?_ ?_ ?_ ?_ ?_ ?_ ?_)
  all_goals cases h <;> simp [cDone, offerCapture]

/-- Settles O38. -/
theorem storeIntoRingIsCaptured : Obligations.StoreIntoRingIsCaptured := by
  refine ⟨fun s t m ws h ht ha hws => ?_, fun a p e => ⟨rfl, rfl⟩, fun s t m h ht ha => ⟨_, h.exec_due, ?_⟩⟩
  · obtain ⟨r, hr⟩ : ∃ r, r = (firstBad (byteOrder s) (sentWords t)).map (Report.parity .capture) := ⟨_, rfl⟩
    have hexec : exec .cStoreComplete s = .next (finish (captured ws r s)) := by
      rw [h.exec_service, storeEffect_script ha ht, offerCapture_eq, hws, hr]
      rfl
    obtain ⟨htables, hcontrol, houter, htiles, hcside⟩ := captured_frame (s := s) (l := ws) (r := r)
    refine ⟨_, hexec, htables, hcontrol, houter, htiles, hcside, fun b hb => ?_, fun hgood => ?_, fun hdisc => ?_,
      fun hh ha => ⟨fun hfit => ?_, fun hq hover => ?_⟩⟩
    · have hfirst : r = some (.parity .capture b.1) := by
        rw [hr, firstBad]
        exact congrArg (fun o => (o.map Prod.fst).map (Report.parity .capture)) hb
      rw [captured_reports, hfirst]
      rfl
    · have hfirst : r = none := by
        rw [hr, firstBad_none_of (ws := sentWords t) fun w hw => hgood w.2 (List.of_mem_zip hw).2]
        rfl
      rw [captured_reports, hfirst]
      rfl
    · exact captured_discarded hdisc
    · exact captured_joined ⟨hh, ha⟩ hfit
    · refine ⟨_, _, rfl, rfl, ?_⟩
      have hover := captured_overflow (r := r) ⟨hh, ha⟩ hq hover
      rw [finish_intake, hover]
      refine ⟨rfl, wordDropped_kept.2, fun hw => ?_, fun x hx hw => ?_⟩
      · rw [wordDropped_steady (by rwa [captured_base])]
        simp only [queued, suspected, State.setIntake_intake, captured_base]
        rfl
      · exact captured_probing h.mside hx hw rfl
  · rw [storeEffect_script ha ht]
    exact Offered.completion (.capture ht)

end Sys2Proof.Machine
end

