-- ==== Sys2Proof/Proofs/ControlStores.lean ====
section
/-! SUPPORT. The stores into control word 0. -/
namespace Sys2Proof.Machine
set_option Elab.async false
open Sys2Proof

section
variable {s u : State} {t : CTxn} {a : Nat} {w : BusWord}

theorem storeEnables_whole_iff (r : BusReq) :
    storeEnables r = 15 ↔ ∀ a e, r = .wordStore a e → e = 15 := by
  cases r with
  | wordStore a e => exact ⟨fun h _ _ he => (BusReq.wordStore.inj he).2 ▸ h, fun h => h a e rfl⟩
  | lineStore a p => exact ⟨fun _ => nofun, fun _ => rfl⟩
  | lineFetch a p => exact ⟨fun _ => nofun, fun _ => rfl⟩

theorem latchIndex_unset (v : Nat) (h : s.reports.ring = none) : latchIndex v s = s := by
  rw [latchIndex, h]

/-- The captured read index takes the value clamped to the ring, and the attention line follows. -/
theorem latchIndex_reports {r : ReportRing} (v : Nat) (h : s.reports.ring = some r) :
    (latchIndex v s).reports
      = ({ s.reports with read := if v < r.entries then v else r.entries - 1 }.followIndexes).hand := by
  rw [latchIndex, h]
  exact handReport_reports _

theorem offerLatch_bad (h : controlWord0 t = some (a, w)) (hw : wordGood (byteOrder s) w = false) :
    offerLatch t s = giveReport (.parity .capture a) s := by
  rw [offerLatch, h]
  exact if_pos (by rw [hw]; rfl)

theorem offerLatch_partial (h : controlWord0 t = some (a, w)) (hw : wordGood (byteOrder s) w = true)
    (he : storeEnables t.req ≠ 15) : offerLatch t s = s := by
  rw [offerLatch, h]
  exact (if_neg (by rw [hw]; decide)).trans (if_neg he)

theorem offerLatch_whole (h : controlWord0 t = some (a, w)) (hw : wordGood (byteOrder s) w = true)
    (he : storeEnables t.req = 15) : offerLatch t s = latchIndex w.data.toNat s := by
  rw [offerLatch, h]
  exact (if_neg (by rw [hw]; decide)).trans (if_pos he)

/-- What the latch offer leaves of the state, after the tile is taken and the bus granted. -/
theorem latched_frame : SameTables s (finish (offerLatch t (cDone s)))
    ∧ SameControl s (finish (offerLatch t (cDone s))) ∧ SameOuter s (finish (offerLatch t (cDone s)))
    ∧ TilesKept s (finish (offerLatch t (cDone s)))
    ∧ (finish (offerLatch t (cDone s))).intake = s.intake
    ∧ (finish (offerLatch t (cDone s))).cside = ⟨.idle, s.cside.returned⟩ := by
  refine ⟨?_, ?_, ?_, ?_, ?_, ?_⟩
  · simp [SameTables, cDone]
  · simp [SameControl, cDone]
  · simp [SameOuter, cDone]
  · apply finish_tilesKept <;> simp [cDone]
  · simp [cDone]
  · rw [finish_idle_cside] <;> simp [cDone, CState.isWaiting]

end

/-- Settles O39. -/
theorem storeIntoControlWordSetsReadIndex : Obligations.StoreIntoControlWordSetsReadIndex := by
  refine ⟨fun s t m w h ht ha hw => ?_, fun s t m h ht ha => ⟨_, h.exec_due, ?_⟩⟩
  · obtain ⟨htables, hcontrol, houter, htiles, hintake, hcside⟩ := latched_frame (s := s) (t := t)
    refine ⟨_, by rw [h.exec_service, storeEffect_control ha ht], htables, hcontrol, houter, htiles, hintake,
      hcside, fun hbad => ?_, fun hgood hnone => ?_, fun r hgood hwhole hring => ?_⟩
    · rw [finish_reports, offerLatch_bad (s := cDone s) hw hbad]
      exact giveReport_reports_congr _ _ _ rfl
    · rw [finish_reports]
      by_cases he : storeEnables t.req = 15
      · have hring : (cDone s).reports.ring = none := hnone.resolve_left fun ⟨a, e, hreq, hne⟩ =>
          hne ((storeEnables_whole_iff _).1 he a e hreq)
        rw [offerLatch_whole (s := cDone s) hw hgood he, latchIndex_unset _ hring]
        rfl
      · rw [offerLatch_partial (s := cDone s) hw hgood he]
        rfl
    · rw [finish_reports, offerLatch_whole (s := cDone s) hw hgood ((storeEnables_whole_iff _).2 hwhole),
        latchIndex_reports (s := cDone s) _ hring]
      simp only [ReportUnit.hand_read, ReportUnit.hand_ring, ReportUnit.hand_write, ReportUnit.hand_attention,
        ReportUnit.followIndexes]
      have hset : (cDone s).reports.ring = some r := hring
      refine ⟨trivial, hring, rfl, ?_⟩
      rw [hset]
      rfl
  · rw [storeEffect_control ha ht]
    exact Offered.completion (.latch ht)

end Sys2Proof.Machine
end

