-- ==== Sys2Proof/Proofs/AnchorStores.lean ====
section
/-! SUPPORT. The stores that carry an anchor. -/
namespace Sys2Proof.Machine
set_option Elab.async false
open Sys2Proof

section
variable {s u v : State} {t : CTxn} {a : Nat} {x : Anchor} {m : BusReq}

theorem storeEffect_latched (ha : storeAnchor t a = some x) (ht : t.treat = .passed .other)
    (he : u.engine = .clearing) : storeEffect t a u = u.setLatch (some x) := by
  simp only [storeEffect, anchorWatch, ha, ht, he]

theorem storeEffect_attached (ha : storeAnchor t a = some x) (ht : t.treat = .passed .other)
    (he : u.engine = .unanchored) : storeEffect t a u = attach x u := by
  simp only [storeEffect, anchorWatch, ha, ht, he]

theorem anchorWatch_reanchored (ha : storeAnchor t a = some x) (he : u.engine = .active ∨ u.engine = .parked) :
    anchorWatch t a u = reanchor x u := by
  rcases he with he | he <;> simp only [anchorWatch, ha, he]

theorem Offered.engine (h : Offered t s u) : u.engine = s.engine := by
  cases h <;> simp [offerCapture]

/-- A re-anchor comes after what the store offers. -/
theorem storeEffect_reanchored (ha : storeAnchor t a = some x) (he : u.engine = .active ∨ u.engine = .parked) :
    ∃ v, Offered t u v ∧ storeEffect t a u = reanchor x v := by
  have hoff : ∃ v, Offered t u v ∧ storeEffect t a u = anchorWatch t a v := by
    refine ⟨_, ?_, rfl⟩
    split
    next ht => exact .capture ht
    next ht => exact .latch ht
    all_goals exact .none
  obtain ⟨v, hv, heff⟩ := hoff
  exact ⟨v, hv, heff.trans (anchorWatch_reanchored ha (by rwa [hv.engine]))⟩

/-- What a re-anchor does not set of the state its store leaves. -/
theorem Offered.outer (h : Offered t (cDone s) u) : u.mside = .free ∧ u.cside = ⟨.idle, s.cside.returned⟩
    ∧ u.path = s.path ∧ u.frames = s.frames ∧ u.latch = s.latch ∧ u.urgent = s.urgent := by
  cases h <;> simp [cDone, offerCapture]

/-- An engine that is not ACTIVE takes no tile. -/
theorem finish_tiles_held (h : s.engine ≠ .active) : (finish s).tiles = s.tiles := by
  rw [finish, takeTile_of_held (renderHeld_iff.2 (.inr (.inl h))), grant_tiles]

theorem finish_passover_zero (hc : s.cside.state.isWaiting = false) (hp : s.passover = 0) :
    (finish s).passover = 0 := by
  rw [finish]
  rcases grant_cases (takeTile s) with he | ⟨r, p, -, hr, -⟩ | ⟨o, left, -, -, he⟩
  · rw [he, takeTile_passover, hp]
  · rw [takeTile_cside] at hr
    rw [hr] at hc
    cases hc
  · rw [he]
    rfl

/-- The state a re-anchor attaches. -/
theorem emptyForReanchor_outer : (emptyForReanchor s).waiting = OwnWaiting.empty
    ∧ (emptyForReanchor s).tiles.plane = none ∧ (emptyForReanchor s).mside = s.mside
    ∧ (emptyForReanchor s).cside = s.cside ∧ (emptyForReanchor s).path = s.path := by
  simp [emptyForReanchor, unsetPlane, emptyTables, TileMap.empty]

/-- A part re-anchored in SERVICE by a store that has completed. -/
theorem finish_reanchored (h : Offered t (cDone s) v) (hp : s.path = .service) :
    Attached x (finish (reanchor x v)) ∧ AttachmentIssued x (finish (reanchor x v)) := by
  obtain ⟨hm, hc, hpath, -, -, -⟩ := h.outer
  obtain ⟨hw, hplane, hm', hc', hpath'⟩ := emptyForReanchor_outer (s := v)
  refine ⟨finish_attached hw (by rw [hm', hm]; nofun), finish_attached_free hw hplane (hm'.trans hm) ?_ ?_⟩
  · rw [hc', hc]
    rfl
  · rw [hpath', hpath, hp]

theorem reanchor_emptied : ScenesEmpty (finish (reanchor x s)) ∧ UnitsCleared (finish (reanchor x s)) := by
  have hend : finish (reanchor x s) = grant (reanchor x s) := finish_of_unset (by
    simp [reanchor, emptyForReanchor_outer.2.1])
  rw [hend]
  refine ⟨scenesEmpty_of ?_ ?_ ?_ ?_, unitsCleared_of ?_ ?_ ?_ ?_⟩
  all_goals simp [reanchor, emptyForReanchor, unsetPlane, emptyTables]

theorem ColourTables.eq_empty {c : ColourTables} (he : c.entries = ColourTables.empty.entries)
    (hf : c.inFlight = ColourTables.empty.inFlight) (hl : c.load = none) : c = ColourTables.empty := by
  cases c
  cases he
  cases hf
  cases hl
  rfl

end

/-- Settles O40. -/
theorem anchorStoreAttachesPart : Obligations.AnchorStoreAttachesPart := by
  refine ⟨fun s t m x h ha => ⟨fun he ht => ⟨_, h.exec_service, ?_⟩, fun he ht hw => ⟨_, h.exec_service, ?_⟩,
    fun he => ⟨_, h.exec_service, ?_⟩⟩, fun s t m x h ha => ⟨fun he ht => ⟨_, h.exec_due, ?_⟩,
    fun he => ⟨_, h.exec_due, ?_⟩⟩⟩
  · rw [storeEffect_latched (u := cDone s) ha ht he]
    have htiles : (finish ((cDone s).setLatch (some x))).tiles = s.tiles :=
      finish_tiles_held (by simp [cDone, he])
    rw [htiles]
    simp [SameTables, cDone, he]
  · rw [storeEffect_attached (u := cDone s) ha ht he]
    refine ⟨finish_attached (s := cDone s) hw nofun,
      fun hplane => finish_attached_free (s := cDone s) hw hplane rfl rfl h.service.1, ?_⟩
    simp [SameTables, cDone]
  · obtain ⟨v, hv, heff⟩ := storeEffect_reanchored (u := cDone s) ha he
    rw [heff]
    obtain ⟨hattached, hissued⟩ := finish_reanchored (x := x) hv h.service.1
    obtain ⟨hscenes, hunits⟩ := reanchor_emptied (x := x) (s := v)
    obtain ⟨-, hc, hpath, hframes, hlatch, hurgent⟩ := hv.outer
    refine ⟨hattached, hissued, hscenes, hunits, ?_, finish_passover_zero ?_ ?_, ?_, ?_, ?_, ?_⟩
    · simp [reanchor, emptyForReanchor]
    · simp [reanchor, emptyForReanchor, unsetPlane, emptyTables, hc, CState.isWaiting]
    · simp [reanchor, emptyForReanchor]
    · simp [reanchor, emptyForReanchor, unsetPlane, emptyTables, hframes]
    · simp [reanchor, emptyForReanchor, unsetPlane, emptyTables, hlatch]
    · simp [reanchor, emptyForReanchor, unsetPlane, emptyTables, hpath, h.service.1]
    · simp [reanchor, emptyForReanchor, unsetPlane, emptyTables, hurgent]
  · refine beginBypass_completion ?_ ?_ (beginBypass_begun.from_eq ?_ ?_ ?_ ?_ ?_ ?_ ?_ ?_)
    all_goals
      rcases he with he | he
      · rw [storeEffect_latched (u := cDone s) ha ht he]
        simp [cDone]
      · rw [storeEffect_attached (u := cDone s) ha ht he]
        simp [cDone]
  · obtain ⟨v, hv, heff⟩ := storeEffect_reanchored (u := cDone s) ha he
    obtain ⟨hm, hc, -, hframes, -, hurgent⟩ := hv.outer
    rw [heff]
    have hbegun := beginBypass_begun (s := reanchor x v)
    refine ⟨scenesEmpty_of ?_ ?_ ?_ ?_,
      beginBypass_completion ?_ ?_ (hbegun.from_eq ?_ ?_ ?_ ?_ ?_ ?_ ?_ ?_)⟩
    case refine_2 =>
      have hcolours : (reanchor x v).colours = ColourTables.empty := by
        simp [reanchor, emptyForReanchor, unsetPlane, emptyTables]
      exact ColourTables.eq_empty (by rw [hbegun.entries, hcolours]) (by rw [hbegun.inFlight, hcolours])
        hbegun.load
    all_goals simp [reanchor, emptyForReanchor, unsetPlane, emptyTables, hm, hc, hframes, hurgent]

end Sys2Proof.Machine
end

