-- ==== Sys2Proof/Proofs/Signature.lean ====
section
/-! SUPPORT. The parity of a word, and the anchor signature. -/
namespace Sys2Proof.Machine
set_option Elab.async false
open Sys2Proof

/-! ## Parity -/

theorem wordGood_iff (b : Bool) (w : BusWord) :
    wordGood b w = true ↔ ∀ k, k < 4 → byteGood b w k = true := by
  simp [wordGood]

/-- The sum of a word's parity bits. -/
def parSum (p : BitVec 4) : Bool := p.getLsbD 0 ^^ (p.getLsbD 1 ^^ (p.getLsbD 2 ^^ p.getLsbD 3))

theorem parSum_flip : ∀ (p : BitVec 4) (k : Fin 4), parSum (p ^^^ BitVec.ofNat 4 (2 ^ k.val)) = !parSum p := by
  decide

/-- In a good word the parity bits sum to the sum of the data's bytes, whichever byte order made it good. -/
theorem parSum_of_good {b : Bool} {w : BusWord} (h : wordGood b w = true) : parSum w.par
    = (byteOdd w.data 0 ^^ (byteOdd w.data 1 ^^ (byteOdd w.data 2 ^^ byteOdd w.data 3))) := by
  rw [wordGood_iff] at h
  have hpar : ∀ k, k < 4 → byteOdd w.data (lane b k) = !w.par.getLsbD k := fun k hk =>
    Bool.eq_not.2 (bne_iff_ne.1 (h k hk))
  have h0 := hpar 0 (by decide)
  have h1 := hpar 1 (by decide)
  have h2 := hpar 2 (by decide)
  have h3 := hpar 3 (by decide)
  have hsum : ∀ p q r s : Bool, (p ^^ (q ^^ (r ^^ s))) = (!p ^^ (!q ^^ (!r ^^ !s)))
      ∧ (p ^^ (q ^^ (r ^^ s))) = (!s ^^ (!r ^^ (!q ^^ !p))) := by decide
  cases b with
  | false =>
    rw [parSum, (hsum _ _ _ _).1, ← h0, ← h1, ← h2, ← h3]
    rfl
  | true =>
    rw [parSum, (hsum _ _ _ _).2, ← h0, ← h1, ← h2, ← h3]
    rfl

/-- A flipped parity bit makes a good word bad by both byte orders. -/
theorem wordGood_flip {b : Bool} {w : BusWord} (b' : Bool) {k : Nat} (hk : k < 4) (h : wordGood b w = true) :
    wordGood b' ⟨w.data, w.par ^^^ BitVec.ofNat 4 (2 ^ k)⟩ = false := by
  rw [← Bool.not_eq_true]
  intro h'
  have hflip := parSum_of_good h'
  rw [parSum_flip w.par ⟨k, hk⟩, parSum_of_good h] at hflip
  simp at hflip

/-! ## The signature -/

theorem anchorParityGood_iff (ws : List BusWord) :
    anchorParityGood ws = true ↔ ∃ order : Bool, ∀ w ∈ ws, wordGood order w = true := by
  rw [anchorParityGood, Bool.or_eq_true, List.all_eq_true, List.all_eq_true, Bool.exists_bool]

theorem anchorOf_iff (a : Nat) (w0 w1 w2 w3 : BusWord) (x : Anchor) : anchorOf a w0 w1 w2 w3 = some x
    ↔ ((∃ order : Bool, ∀ w ∈ [w0, w1, w2, w3], wordGood order w = true)
        ∧ w0.data = 0x6E1BF0D4 ∧ w1.data = 0x91E40F2B ∧ w3.data = w2.data ^^^ 0x3C5AA5C3
        ∧ 16 ≤ bits w2.data 12 0 ∧ bits w2.data 12 0 ≤ 4096
        ∧ a + 32 + 16 * bits w2.data 12 0 ≤ 2 ^ 32)
      ∧ x = ⟨BitVec.ofNat 32 a, bits w2.data 12 0, bit w2.data 31⟩ := by
  rw [← anchorParityGood_iff]
  unfold anchorOf
  dsimp only
  split
  next h => exact ⟨fun he => ⟨h, (Option.some.inj he).symm⟩, fun he => congrArg some he.2.symm⟩
  next h => exact ⟨nofun, fun he => absurd he.1 h⟩

/-- The words of an aligned line by their places, whatever word they start at. -/
theorem wordAtPos_line {t : CTxn} {line : Addr} {st : Fin 4} {v : Fin 4 → BusWord}
    (hreq : t.req = .lineStore line st) (hl : line.toNat % 16 = 0)
    (hmoved : t.moved = [v st, v (st + 1), v (st + 2), v (st + 3)]) (i : Fin 4) :
    wordAtPos t i.val = some (v i) := by
  have hsent : sentWords t = [0, 1, 2, 3].map fun n : Fin 4 =>
      (line.toNat + 4 * (st + n).val, v (st + n)) := by
    rw [sentWords, hreq, hmoved]
    simp [reqWordAddrs, wrapAddrs, wrapPos, List.range, List.range.loop, Fin.val_add]
  have hplace : ∀ n : Fin 4, ((line.toNat + 4 * (st + n).val) % 16 == 4 * i.val) = (st + n == i) := fun n => by
    rw [Bool.eq_iff_iff, beq_iff_eq, beq_iff_eq, Fin.ext_iff]
    omega
  have hfind : ∀ st i : Fin 4, [0, 1, 2, 3].find? (fun n : Fin 4 => st + n == i) = some (i - st) := by decide
  rw [wordAtPos, hsent, List.find?_map]
  simp only [Function.comp_def, hplace, hfind, Option.map_some, add_sub_cancel]

/-- Settles O41. -/
theorem anchorSignatureRecognised : Obligations.AnchorSignatureRecognised := by
  refine ⟨anchorOf_iff, fun t line st v reached hreq hl hmoved => ?_, fun t reached hreq => ?_,
    fun o o' d p k hk h => wordGood_flip (w := ⟨d, p⟩) o' hk h⟩
  · rw [storeAnchor, hreq]
    have hplaces := wordAtPos_line hreq hl hmoved
    have h0 : wordAtPos t 0 = some (v 0) := hplaces 0
    have h1 : wordAtPos t 1 = some (v 1) := hplaces 1
    have h2 : wordAtPos t 2 = some (v 2) := hplaces 2
    have h3 : wordAtPos t 3 = some (v 3) := hplaces 3
    simp only [h0, h1, h2, h3]
  · unfold storeAnchor
    split
    next line st h => exact absurd h (hreq line st)
    all_goals rfl

end Sys2Proof.Machine
end

