-- ==== Sys2Proof/Proofs/DisplayWords.lean ====
section
/-! SUPPORT. The words of a display fetch and the answer they make. -/
namespace Sys2Proof.Machine
set_option Elab.async false
open Sys2Proof

section
variable {s u : State} {t t' : CTxn} {p : DisplayPlan} {w : BusWord}

theorem displayTake_first (h : t.second = none) (hl : t.moved.length < 4) :
    displayTake t w = some { t with moved := t.moved ++ [w] } := by
  rw [displayTake, h]
  exact if_pos hl

theorem displayTake_second {fs : List BusWord} (h : t.second = some fs) (hl : fs.length < 4) :
    displayTake t w = some { t with second := some (fs ++ [w]) } := by
  rw [displayTake, h]
  exact if_pos hl

theorem exec_displayWord (hc : s.cside.state = .active t) (ht : t.treat = .display p)
    (hw : displayTake t w = some t') : exec (.displayWordArrival w) s = .next (finish (holdDisplayWord p t' s)) := by
  simp only [exec, execDisplayWordArrival, hc, ht, hw]

theorem giveReport?_reports_congr {r : Option Report} (h : s.reports = u.reports) :
    (giveReport? r s).reports = (giveReport? r u).reports := by
  cases r with
  | none => exact h
  | some r => exact giveReport_reports_congr s u r h

/-- At a busy M-side the end of an event leaves the C-side. -/
theorem finish_cside_busy (h : s.mside ≠ .free) : (finish s).cside = s.cside := by
  rw [finish_busy s h, takeTile_cside]

/-- A word that is not the last of its fetch is held. -/
theorem exec_displayWord_held (hc : s.cside.state = .active t) (ht : t.treat = .display p)
    (hw : displayTake t w = some t') (hpart : displayWhole p t' ≠ true) :
    ∃ u, exec (.displayWordArrival w) s = .next u ∧ u.reports = s.reports
      ∧ (s.mside ≠ .free → u.cside = ⟨.active t', s.cside.returned⟩) := by
  refine ⟨_, exec_displayWord hc ht hw, ?_⟩
  rw [holdDisplayWord, if_neg hpart]
  exact ⟨by simp, fun hm => finish_cside_busy (by simpa using hm)⟩

/-- With the last word of its fetch the answer is returned. -/
theorem exec_displayWord_returned (hc : s.cside.state = .active t) (ht : t.treat = .display p)
    (hw : displayTake t w = some t') (hwhole : displayWhole p t' = true) (hm : s.mside ≠ .free) :
    ∃ u, exec (.displayWordArrival w) s = .next u
      ∧ u.cside = ⟨.active t', (displayAnswer (byteOrder s) p t'.moved t'.second).1⟩
      ∧ u.reports = (giveReport? ((displayAnswer (byteOrder s) p t'.moved t'.second).2.map
          (Report.parity .display)) s).reports := by
  refine ⟨_, exec_displayWord hc ht hw, ?_⟩
  rw [holdDisplayWord, if_pos hwhole, finish_cside_busy (by simpa using hm), finish_reports]
  refine ⟨?_, ?_⟩
  · generalize displayAnswer (byteOrder s) p t'.moved t'.second = answer
    simp
  · generalize displayAnswer (byteOrder s) p t'.moved t'.second = answer
    exact giveReport?_reports_congr rfl

end

/-- Settles O42. -/
theorem displayWordsHeldThenReturned : Obligations.DisplayWordsHeldThenReturned := by
  refine fun s t p w hc ht => ⟨fun l hp hs hl => ?_, fun hs hl => ?_, fun fs hs hl => ?_,
    fun hp hs hl hm => ?_, fun l fs hp hs hl hfl hm => ?_, fun l hp hs hl => ⟨_, ?_, rfl⟩⟩
  · refine exec_displayWord_held hc ht (displayTake_first hs hl) fun hwhole => ?_
    rcases ((displayWhole_iff _ _).1 hwhole).2 with ⟨hn, -⟩ | ⟨fs, -, hsome, -⟩
    · rw [hn] at hp
      cases hp
    · exact absurd (hs.symm.trans hsome) nofun
  · refine exec_displayWord_held hc ht (displayTake_first hs (by omega)) fun hwhole => ?_
    have hfour := ((displayWhole_iff _ _).1 hwhole).1
    rw [List.length_append, List.length_singleton] at hfour
    omega
  · refine exec_displayWord_held hc ht (displayTake_second hs (by omega)) fun hwhole => ?_
    rcases ((displayWhole_iff _ _).1 hwhole).2 with ⟨-, hn⟩ | ⟨gs, -, hsome, hfour⟩
    · cases hn
    · cases hsome
      rw [List.length_append, List.length_singleton] at hfour
      omega
  · have hret := exec_displayWord_returned hc ht (displayTake_first (w := w) hs (by omega))
      ((displayWhole_iff _ _).2 ⟨by simp [hl], .inl ⟨hp, hs⟩⟩) hm
    simpa only [hs] using hret
  · have hret := exec_displayWord_returned hc ht (displayTake_second (w := w) hs (by omega))
      ((displayWhole_iff _ _).2 ⟨hl, .inr ⟨_, by rw [hp]; rfl, rfl, by simp [hfl]⟩⟩) hm
    exact hret
  · simp only [exec, execDisplayFirstFetchComplete, hc, ht, hs, hp]
    exact if_pos hl

end Sys2Proof.Machine
end

