-- ==== Sys2Proof/Proofs/DisplayAnswers.lean ====
section
/-! SUPPORT. What a display fetch returns, and the parity of bytes. -/
namespace Sys2Proof.Machine
set_option Elab.async false
open Sys2Proof

/-! ## The parity of a byte -/

/-- A sum of bits is the parity of their number. -/
theorem foldl_xor (f : Nat → Bool) (l : List Nat) (acc : Bool) :
    l.foldl (fun acc i => acc ^^ f i) acc = (acc ^^ decide ((l.filter f).length % 2 = 1)) := by
  induction l generalizing acc with
  | nil => simp
  | cons i l ih =>
    rw [List.foldl_cons, ih]
    cases hi : f i with
    | false => rw [List.filter_cons_of_neg (by simp [hi]), Bool.xor_false]
    | true =>
      rw [List.filter_cons_of_pos hi, List.length_cons, Bool.xor_assoc]
      congr 1
      rcases Nat.mod_two_eq_zero_or_one (l.filter f).length with h | h <;> simp [h, Nat.add_mod]

theorem byteGood_iff (b : Bool) (w : BusWord) (k : Nat) : byteGood b w k = true
    ↔ (((List.range 8).filter fun i => w.data.getLsbD (8 * lane b k + i)).length
        + (if w.par.getLsbD k then 1 else 0)) % 2 = 1 := by
  rw [byteGood, byteOdd, foldl_xor (fun i => w.data.getLsbD (8 * lane b k + i)), Bool.false_xor]
  generalize ((List.range 8).filter fun i => w.data.getLsbD (8 * lane b k + i)).length = n
  cases w.par.getLsbD k <;> simp
  omega

theorem freshBit_eq (b : Bool) (d : Word) (k : Nat) :
    freshBit b d k = (!byteOdd d (lane b k)).toNat := by
  rw [freshBit]
  cases byteOdd d (lane b k) <;> rfl

/-- The four bits of a number made of four bits. -/
theorem nibble_bits : ∀ (p q r s : Bool) (k : Fin 4),
    (BitVec.ofNat 4 (p.toNat + 2 * q.toNat + 4 * r.toNat + 8 * s.toNat)).getLsbD k
      = ![p, q, r, s] k := by
  decide

theorem fresh_par (b : Bool) (d : Word) {k : Nat} (hk : k < 4) :
    (fresh b d).par.getLsbD k = !byteOdd d (lane b k) := by
  have hbits := nibble_bits (!byteOdd d (lane b 0)) (!byteOdd d (lane b 1)) (!byteOdd d (lane b 2))
    (!byteOdd d (lane b 3)) ⟨k, hk⟩
  simp only [fresh, freshBit_eq]
  rw [hbits]
  interval_cases k <;> rfl

theorem fresh_good (b : Bool) (d : Word) : wordGood b (fresh b d) = true := by
  rw [wordGood_iff]
  intro k hk
  rw [byteGood, fresh_par b d hk, fresh_data]
  cases byteOdd d (lane b k) <;> rfl

/-! ## The first bad word -/

theorem wrapAddrs_getElem? (line : Nat) (st : Fin 4) {n : Nat} (hn : n < 4) :
    (wrapAddrs line st)[n]? = some (line + 4 * ((st.val + n) % 4)) := by
  simp [wrapAddrs, wrapPos, hn]

theorem wrapAddrs_length (line : Nat) (st : Fin 4) : (wrapAddrs line st).length = 4 := by simp [wrapAddrs]

/-- The address of the first bad word. -/
theorem firstBad_zip {b : Bool} {addrs : List Nat} {ws : List BusWord} (hl : ws.length ≤ addrs.length)
    (h : ∃ w ∈ ws, wordGood b w = false) : ∃ n w, ws[n]? = some w ∧ wordGood b w = false
      ∧ (∀ (k : Nat) (v : BusWord), k < n → ws[k]? = some v → wordGood b v = true)
      ∧ firstBad b (addrs.zip ws) = addrs[n]? := by
  induction ws generalizing addrs with
  | nil =>
    obtain ⟨w, hw, -⟩ := h
    cases hw
  | cons v ws ih =>
    cases addrs with
    | nil => cases hl
    | cons a addrs =>
      cases hv : wordGood b v with
      | false =>
        refine ⟨0, v, rfl, hv, fun k w hk => absurd hk (Nat.not_lt_zero k), ?_⟩
        simp [firstBad, hv]
      | true =>
        obtain ⟨w, hw, hbad⟩ := h
        have hrest : ∃ w ∈ ws, wordGood b w = false := by
          rcases List.mem_cons.1 hw with rfl | hw
          · rw [hv] at hbad
            cases hbad
          · exact ⟨w, hw, hbad⟩
        obtain ⟨n, w, hn, hwbad, hbefore, hfirst⟩ := ih (Nat.le_of_succ_le_succ hl) hrest
        refine ⟨n + 1, w, hn, hwbad, fun k x hk hx => ?_, ?_⟩
        · cases k with
          | zero =>
            cases hx
            exact hv
          | succ k => exact hbefore k x (Nat.lt_of_succ_lt_succ hk) hx
        · rw [List.getElem?_cons_succ, ← hfirst]
          simp [firstBad, hv]

/-- The first bad word of a page line. -/
theorem firstBad_line {b : Bool} {line : Addr} {st : Fin 4} {ws : List BusWord} (hl : ws.length = 4)
    (h : ∃ w ∈ ws, wordGood b w = false) : ∃ n w, ws[n]? = some w ∧ wordGood b w = false
      ∧ (∀ (k : Nat) (v : BusWord), k < n → ws[k]? = some v → wordGood b v = true)
      ∧ firstBad b (lineWords line st ws) = some (line.toNat + 4 * ((st.val + n) % 4)) := by
  obtain ⟨n, w, hn, hbad, hbefore, hfirst⟩ :=
    firstBad_zip (b := b) (addrs := wrapAddrs line.toNat st) (by rw [hl, wrapAddrs_length]) h
  have hlt := (List.getElem?_eq_some_iff.1 hn).1
  exact ⟨n, w, hn, hbad, hbefore, hfirst.trans (wrapAddrs_getElem? _ _ (hl ▸ hlt))⟩

theorem firstBad_line_none {b : Bool} {line : Addr} {st : Fin 4} {ws : List BusWord}
    (h : ∀ w ∈ ws, wordGood b w = true) : firstBad b (lineWords line st ws) = none :=
  firstBad_none_of fun w hw => h w.2 (List.of_mem_zip hw).2

/-! ## The answer -/

section
variable {b : Bool} {p : DisplayPlan} {ws fs : List BusWord} {l : Addr} {a : Nat}

theorem displayAnswer_single_bad (hp : p.second = none) (h : firstBad b (lineWords p.first p.start ws) = some a) :
    displayAnswer b p ws none = (ws, some a) := by
  simp only [displayAnswer, hp, h]

theorem displayAnswer_single_good (hp : p.second = none)
    (h : firstBad b (lineWords p.first p.start ws) = none) :
    displayAnswer b p ws none = (oneFetchWords b p ws, none) := by
  simp only [displayAnswer, hp, h]

theorem displayAnswer_second_bad (hp : p.second = some l) (h : firstBad b (lineWords l p.start fs) = some a) :
    displayAnswer b p ws (some fs) = (fs, some a) := by
  simp only [displayAnswer, hp, h]

theorem displayAnswer_first_bad (hp : p.second = some l) (hs : firstBad b (lineWords l p.start fs) = none)
    (h : firstBad b (lineWords p.first p.start ws) = some a) :
    displayAnswer b p ws (some fs) = (fs, some a) := by
  simp only [displayAnswer, hp, hs, h]

theorem displayAnswer_both_good (hp : p.second = some l) (hs : firstBad b (lineWords l p.start fs) = none)
    (h : firstBad b (lineWords p.first p.start ws) = none) :
    displayAnswer b p ws (some fs) = (twoFetchWords b p ws fs, none) := by
  simp only [displayAnswer, hp, hs, h]

theorem twoFetchWords_getElem? {n : Nat} {w v : BusWord} (hw : ws[n]? = some w) (hv : fs[n]? = some v) :
    (twoFetchWords b p ws fs)[n]? = some (mixWord b p n w v) := by
  have hzip : (ws.zip fs)[n]? = some (w, v) := List.getElem?_zip_eq_some.2 ⟨hw, hv⟩
  rw [twoFetchWords, List.getElem?_mapIdx, hzip]
  rfl

theorem mixWord_dissolve {L n : Nat} {w v : BusWord} (h : p.mix = .dissolve L) :
    mixWord b p n w v = fresh b (dissolve L (Argb.ofWord w.data) (Argb.ofWord v.data)).toWord := by
  rw [mixWord, h]

end

/-- Settles O43. -/
theorem displayAnswerByParity : Obligations.DisplayAnswerByParity := by
  refine ⟨fun b p ws fs l hws hfs => ⟨fun hp => ⟨fun hbad => ?_, fun hgood => ?_⟩,
    fun hp => ⟨fun hbad => ?_, fun hgood hbad => ?_, fun hgood hgood' => ?_⟩⟩,
    fun b p n L w v h => mixWord_dissolve h, fun b w k _ => byteGood_iff b w k,
    fun b w d => ⟨wordGood_iff b w, rfl, fresh_good b d⟩⟩
  · obtain ⟨n, w, hn, hw, hbefore, hfirst⟩ := firstBad_line (line := p.first) (st := p.start) hws hbad
    rw [displayAnswer_single_bad hp hfirst]
    exact ⟨rfl, n, w, hn, hw, hbefore, rfl⟩
  · rw [displayAnswer_single_good hp (firstBad_line_none hgood)]
    refine ⟨rfl, fun hm => by rw [oneFetchWords, hm], fun t hm n w hn => ?_⟩
    rw [oneFetchWords, hm]
    dsimp only
    rw [List.getElem?_mapIdx, hn]
    rfl
  · obtain ⟨n, w, hn, hw, hbefore, hfirst⟩ := firstBad_line (line := l) (st := p.start) hfs hbad
    rw [displayAnswer_second_bad hp hfirst]
    exact ⟨rfl, n, w, hn, hw, hbefore, rfl⟩
  · obtain ⟨n, w, hn, hw, hbefore, hfirst⟩ := firstBad_line (line := p.first) (st := p.start) hws hbad
    rw [displayAnswer_first_bad hp (firstBad_line_none hgood) hfirst]
    exact ⟨rfl, n, w, hn, hw, hbefore, rfl⟩
  · rw [displayAnswer_both_good hp (firstBad_line_none hgood) (firstBad_line_none hgood')]
    refine ⟨rfl, fun n w v hw hv => ⟨twoFetchWords_getElem? hw hv, fun L hm => ?_⟩⟩
    rw [← mixWord_dissolve (n := n) hm]
    exact twoFetchWords_getElem? hw hv

end Sys2Proof.Machine
end

