-- ==== Sys2Proof/Proofs/Commits.lean ====
section
/-! SUPPORT. What a commit, a halt and a fetch of the intake come to, up to the end of the event. -/
namespace Sys2Proof.Machine
set_option Elab.async false
open Sys2Proof

section
variable {s t u v w : State} {x : Anchor} {h : Word}

/-! ## Fetches -/

/-- A fetch the intake wants falls due in the event. -/
theorem wantIntake_due (f : IntakeFetch) (ho : intakeOutstanding w = intakeOutstanding s) :
    FetchDue f s (finish (wantIntake f w)) := by
  rw [FetchDue, finish_intake, wantIntake_intake, ho]
  have hw := wantIntake_waiting w f
  rw [ho] at hw
  cases hout : intakeOutstanding s with
  | true => rfl
  | false =>
    rw [hout] at hw
    exact ⟨finish_fetchHanded _ hw, rfl⟩

theorem handIntake_handed (f : IntakeFetch) : FetchHanded f (finish (handIntake f s)) :=
  finish_fetchHanded _ (by simp [handIntake])

theorem handDeferred_none (hd : s.intake.deferred = none) : handDeferred s = s := by rw [handDeferred, hd]

theorem handDeferred_some {f : IntakeFetch} (hd : s.intake.deferred = some f) :
    handDeferred s = handIntake f s := by rw [handDeferred, hd]

/-- A completed fetch that is no longer wanted. -/
theorem handDeferred_disregarded (hi : v.intake = s.intake) (hr : v.reports = s.reports) :
    Disregarded s (finish (handDeferred v)) := by
  refine ⟨by simp [hr], fun hd => ?_, fun f hd => ?_⟩
  · rw [finish_intake, handDeferred_none (by rw [hi, hd]), hi]
  · rw [handDeferred_some (by rw [hi, hd])]
    exact ⟨handIntake_handed f, by simp [handIntake, hi]⟩

/-! ## The halt -/

theorem halt_halted (ha : s.intake.anchor = some x) (k : Nat) (hi : v.intake = s.intake)
    (hr : v.reports = s.reports) : Halted x k s (finish (halt k v)) := by
  have haddr : headerAddr v = ringAddr x s.intake.p := by rw [headerAddr, hi, ha]
  have hreports : (finish (halt k v)).reports = (giveReport (.recordFault .parity s.intake.p k)
      (giveReport (.parity .probe (ringAddr x s.intake.p)) s)).reports := by
    rw [finish_reports, halt_eq, handStateWord_reports, haltState, State.setIntake_reports, haddr, hi]
    exact giveReport_reports_congr _ _ _ (giveReport_reports_congr _ _ _ hr)
  refine ⟨?_, ?_, ?_, ?_, ?_, ?_, ?_, hreports⟩
  all_goals simp [halt_intake, hi, ha]

/-! ## Records taken -/

/-- A state w in which a record of the ring of x is taken has P, the expected number, the reports and the
fetches of s. -/
structure Takes (x : Anchor) (s w : State) : Prop where
  anchor : w.intake.anchor = some x
  p : w.intake.p = s.intake.p
  expected : w.intake.expected = s.intake.expected
  fetch : w.waiting.intake = s.waiting.intake
  mside : w.mside = s.mside
  reports : w.reports = s.reports

theorem Takes.outstanding (hw : Takes x s w) : intakeOutstanding w = intakeOutstanding s :=
  intakeOutstanding_congr w s hw.fetch hw.mside

/-- The end of a record rests on the expected number and the fetches of the state before. -/
theorem RecordEnded.congr {n : Nat} (hr : RecordEnded x n w t) (he : w.intake.expected = s.intake.expected)
    (ho : intakeOutstanding w = intakeOutstanding s) : RecordEnded x n s t := by
  refine ⟨hr.anchor, hr.p, he ▸ hr.expected, hr.queue, hr.slots, hr.suspect, hr.state, hr.index, ?_⟩
  have hprobe := hr.probe
  rwa [FetchDue, ho] at hprobe

theorem endRecord_skipped (hw : Takes x s w) (c : RecCause) (n : Nat) :
    SkippedWith c x w.intake.header n s (finish (endRecord (some c) n w)) := by
  refine ⟨(endRecord_ended w (some c) n rfl hw.anchor rfl rfl).congr hw.expected
    hw.outstanding, ?_⟩
  rw [finish_reports, endRecord_reports, ← hw.p]
  exact giveReport_reports_congr _ _ _ hw.reports

theorem advancedP_eq (ha : w.intake.anchor = some x) (hle : w.intake.p + recordWords w ≤ 4 * x.lines) :
    advancedP w = (w.intake.p + recordWords w) % (4 * x.lines) := by
  rw [advancedP, ha]
  dsimp only
  rw [Anchor.words]
  split
  next hlt => exact (Nat.mod_eq_of_lt hlt).symm
  next hge =>
    have heq : w.intake.p + recordWords w = 4 * x.lines := by omega
    rw [heq, Nat.mod_self]

/-- A kind is taken with this many words. -/
def sizeFits (k : RecKind) (n : Nat) : Prop := kindWords k = none ∨ kindWords k = some n

theorem sizeFits_not_iff (k : RecKind) (n : Nat) :
    ¬ sizeFits k n ↔ kindWords k ≠ none ∧ kindWords k ≠ some n := not_or

theorem enterExecuting_unknown (hk : recordKind w = none) :
    enterExecuting w = endRecord (some .kind) (advancedP w) w := by
  rw [enterExecuting, hk]

theorem enterExecuting_misfit {k : RecKind} (hk : recordKind w = some k) (hf : ¬ sizeFits k (recordWords w)) :
    enterExecuting w = endRecord (some .size) (advancedP w) w := by
  obtain ⟨hn, hne⟩ := (sizeFits_not_iff _ _).1 hf
  simp only [enterExecuting, hk]
  split
  next n hkn => exact if_neg fun heq : n = recordWords w => hne (heq ▸ hkn)
  next hkn => exact absurd hkn hn

theorem enterExecuting_ready {k : RecKind} (hk : recordKind w = some k) (hf : sizeFits k (recordWords w)) :
    enterExecuting w = w.setIntake { w.intake with state := .executing .ready } := by
  simp only [enterExecuting, hk]
  rcases hf with hf | hf
  · rw [hf]
  · rw [hf]
    exact if_pos rfl

/-- A whole record within the ring enters EXECUTING, or is skipped. -/
theorem enterExecuting_enters (hw : Takes x s w) (hle : s.intake.p + recordWords w ≤ 4 * x.lines) :
    EntersExecuting x w.intake.header s (finish (enterExecuting w)) := by
  have hadv : advancedP w = (s.intake.p + sizeWords (bits w.intake.header 23 21)) % (4 * x.lines) := by
    rw [advancedP_eq hw.anchor (by rwa [hw.p]), hw.p]
    rfl
  rw [EntersExecuting, ← hadv]
  split
  next hk =>
    rw [enterExecuting_unknown hk]
    exact endRecord_skipped hw _ _
  next k hk =>
    split
    next hf =>
      rw [enterExecuting_misfit hk ((sizeFits_not_iff _ _).2 hf)]
      exact endRecord_skipped hw _ _
    next hf =>
      rw [enterExecuting_ready hk (Classical.not_not.1 (mt (sizeFits_not_iff _ _).1 hf))]
      simp [hw.p, hw.expected, hw.reports]

theorem finish_endRecord_state (ha : w.intake.anchor = some x) (c : Option RecCause) (n : Nat) :
    (finish (endRecord c n w)).intake.state = .probing := by
  rw [finish_intake, endRecord_intake w ha]

/-- A record that has entered EXECUTING leaves the rest of the intake. -/
theorem enterExecuting_intake (ha : w.intake.anchor = some x)
    (he : (finish (enterExecuting w)).intake.state = .executing .ready) :
    (finish (enterExecuting w)).intake = { w.intake with state := .executing .ready } := by
  cases hk : recordKind w with
  | none =>
    rw [enterExecuting_unknown hk, finish_endRecord_state ha] at he
    cases he
  | some k =>
    by_cases hf : sizeFits k (recordWords w)
    · rw [enterExecuting_ready hk hf, finish_intake, State.setIntake_intake]
    · rw [enterExecuting_misfit hk hf, finish_endRecord_state ha] at he
      cases he

/-! ## Commits -/

theorem sizeWords_le (n : Nat) : sizeWords n ≤ 16 := by
  unfold sizeWords
  split <;> decide

theorem bodyWhole_iff : bodyWhole w = true
    ↔ ∀ i : Fin 16, 1 ≤ i.val → i.val < recordWords w → w.intake.slots[i].isSome = true := by
  have hle : recordWords w ≤ 16 := sizeWords_le _
  simp only [bodyWhole, List.all_eq_true, List.mem_range, Bool.or_eq_true, beq_iff_eq]
  constructor
  · intro hall i hi hlt
    have hsome := (hall i.val hlt).resolve_left (by omega)
    simpa using hsome
  · intro hall i hlt
    rcases Nat.eq_zero_or_pos i with hi | hi
    · exact .inl hi
    · have hsome := hall ⟨i, by omega⟩ hi hlt
      refine .inr ?_
      simpa [Vector.getElem?_eq_getElem (show i < Config.slotCount from Nat.lt_of_lt_of_le hlt hle)] using hsome

theorem passesEnd_iff (ha : w.intake.anchor = some x) :
    passesEnd w = true ↔ 4 * x.lines < w.intake.p + recordWords w := by
  rw [passesEnd, ha]
  exact decide_eq_true_iff

theorem wake_engine_eq : (wake s).engine = if s.engine = .parked then .active else s.engine := by
  unfold wake
  split <;> simp

theorem wake_fetch : (wake s).waiting.intake = s.waiting.intake := by
  unfold wake
  split <;> simp

theorem beginRefetch_eq (ha : w.intake.anchor = some x) : beginRefetch w
    = wantIntake (.refetch (lineReqAt (ringAddr x w.intake.p)))
        (w.setIntake { w.intake with state := .fetching ⟨0, none, none⟩ }) := by
  rw [beginRefetch, ha]
  rfl

/-- A record that is not whole is fetched anew. -/
theorem beginRefetch_begun (hw : Takes x s w) :
    (finish (beginRefetch w)).intake.state = .fetching ⟨0, none, none⟩
      ∧ (finish (beginRefetch w)).intake.header = w.intake.header
      ∧ (finish (beginRefetch w)).intake.p = s.intake.p
      ∧ (finish (beginRefetch w)).intake.expected = s.intake.expected
      ∧ (finish (beginRefetch w)).reports = s.reports
      ∧ FetchDue (.refetch (lineReqAt (ringAddr x s.intake.p))) s (finish (beginRefetch w)) := by
  obtain ⟨r, hr⟩ : ∃ r, r = w.setIntake { w.intake with state := .fetching ⟨0, none, none⟩ } := ⟨_, rfl⟩
  have ho : intakeOutstanding r = intakeOutstanding s := by
    rw [← hw.outstanding]
    exact intakeOutstanding_congr _ _ (by simp [hr]) (by simp [hr])
  rw [beginRefetch_eq hw.anchor, ← hw.p, ← hw.expected, ← hw.reports, ← hr, finish_intake, wantIntake_intake]
  refine ⟨?_, ?_, ?_, ?_, by simp [hr], wantIntake_due _ ho⟩
  all_goals cases intakeOutstanding r <;> simp [hr]

/-- The intake as a commit takes the header. -/
def headed (h : Word) (s : State) : State :=
  s.setIntake { s.intake with header := h, deferred := none, probeLive := false }

theorem commit_eq_headed (h : Word) : commit h s = committed (wake (headed h s)) := rfl

theorem committed_engine : (committed w).engine = w.engine := by
  unfold committed
  split
  next => simp
  next => split <;> simp

/-- A commit in a state v that has the intake of s but for its queue and its slots. -/
theorem commit_outcome {q : List CapEntry} {slots : Vector (Option Word) Config.slotCount}
    (hi : v.intake = { s.intake with queue := q, slots := slots }) (ha : s.intake.anchor = some x)
    (hf : v.waiting.intake = s.waiting.intake) (hm : v.mside = s.mside) (he : v.engine = s.engine)
    (hr : v.reports = s.reports) : CommitOutcome x h slots s (finish (commit h v)) := by
  obtain ⟨w, hwake⟩ : ∃ w, w = wake (headed h v) := ⟨_, rfl⟩
  have hintake : w.intake = { s.intake with
      queue := q, slots := slots, header := h, deferred := none, probeLive := false } := by
    rw [hwake, wake_intake, headed, State.setIntake_intake, hi]
  have hw : Takes x s w := by
    refine ⟨by rw [hintake, ← ha], by rw [hintake], by rw [hintake], ?_, ?_, ?_⟩
    · rw [hwake, wake_fetch, headed, State.setIntake_waiting, hf]
    · simp [hwake, headed, hm]
    · simp [hwake, headed, hr]
  have hwords : recordWords w = sizeWords (bits h 23 21) := by rw [recordWords, hintake]; rfl
  have hheader : w.intake.header = h := by rw [hintake]
  rw [commit_eq_headed, ← hwake]
  refine ⟨?_, ?_⟩
  · rw [finish_engine, committed_engine, hwake, wake_engine_eq]
    simp [headed, he]
  rw [committed, ← hwords, ← hheader]
  have hends := passesEnd_iff hw.anchor
  rw [hw.p] at hends
  split
  next hpast =>
    rw [if_pos (hends.2 hpast)]
    exact endRecord_skipped hw _ _
  next hwithin =>
    rw [if_neg (mt hends.1 hwithin)]
    have hwhole : (bodyWhole w && !w.intake.suspect) = true ↔ s.intake.suspect = false
        ∧ ∀ i : Fin 16, 1 ≤ i.val → i.val < recordWords w → slots[i].isSome = true := by
      rw [Bool.and_eq_true, bodyWhole_iff, and_comm, hintake]
      simp
    split
    next hall =>
      rw [if_pos (hwhole.2 hall)]
      refine ⟨enterExecuting_enters hw (Nat.le_of_not_lt hwithin), fun hready => ?_⟩
      rw [enterExecuting_intake hw.anchor hready, hintake]
      exact ⟨rfl, rfl⟩
    next hnot =>
      rw [if_neg (mt hwhole.1 hnot)]
      exact beginRefetch_begun hw

end

end Sys2Proof.Machine
end

