-- ==== Sys2Proof/Proofs/Drains.lean ====
section
/-! SUPPORT. The drains of the capture queue. -/
namespace Sys2Proof.Machine
set_option Elab.async false
open Sys2Proof

/-! ## The codes of the header -/

/-- The kinds of record with their codes and lengths. -/
def kindTable : List (Nat × RecKind × Option Nat) :=
  [(0x00, .pad, none), (0x01, .wrap, some 1), (0x02, .sceneReset, some 1),
    (0x03, .park, some 1), (0x10, .setupPlane, some 6), (0x11, .setupReports, some 3),
    (0x20, .setColour, some 2), (0x21, .loadColours, some 3), (0x22, .defineObject, some 4),
    (0x23, .dropObject, some 1), (0x30, .place, some 4), (0x31, .move, some 2),
    (0x32, .setOpacity, some 2), (0x33, .remove, some 1), (0x40, .defineButton, some 6),
    (0x41, .buttonLook, some 4), (0x42, .enableButton, some 1), (0x43, .disableButton, some 1),
    (0x44, .deleteButton, some 1), (0x45, .key, some 1), (0x46, .select, some 1),
    (0x50, .showRecord, some 2), (0x51, .batchOpen, some 1), (0x52, .batchClose, some 1)]

theorem kindTable_sound : ∀ e ∈ kindTable, kindOfCode e.1 = some e.2.1 ∧ kindWords e.2.1 = e.2.2 := by
  decide

theorem kindOfCode_listed {n : Nat} {k : RecKind} (h : kindOfCode n = some k) :
    n ∈ kindTable.map Prod.fst := by
  unfold kindOfCode at h
  split at h
  case h_25 => cases h
  all_goals decide

theorem kindOfCode_none {n : Nat} (h : ∀ e ∈ kindTable, e.1 ≠ n) : kindOfCode n = none := by
  rw [Option.eq_none_iff_forall_ne_some]
  intro k hk
  obtain ⟨e, he, hn⟩ := List.mem_map.1 (kindOfCode_listed hk)
  exact h e he hn

section
variable {s : State} {x : Anchor} {e : CapEntry} {rest : List CapEntry}
  {v : Vector (Option Word) Config.slotCount}

/-! ## The slot of an entry -/

theorem windowSlot_inside (ha : s.intake.anchor = some x) {j : Fin 16} (hen : e.enables = 15)
    (haddr : e.addr.toNat = x.addr.toNat + 32 + 4 * (s.intake.p + j.val))
    (hlt : s.intake.p + j.val < 4 * x.lines) : windowSlot s e = some j := by
  have hword : (e.addr.toNat - ringAddr x 0) / 4 = s.intake.p + j.val := by
    rw [haddr, ringAddr]
    omega
  simp only [windowSlot, ha, hword]
  rw [if_pos ⟨hen, by rw [haddr, ringAddr]; omega, by omega, hlt⟩, Nat.add_sub_cancel_left]
  exact dif_pos j.isLt

theorem windowSlot_outside (ha : s.intake.anchor = some x)
    (h : e.enables ≠ 15 ∨ e.addr.toNat < x.addr.toNat + 32 + 4 * s.intake.p
      ∨ x.addr.toNat + 32 + 4 * (s.intake.p + 16) ≤ e.addr.toNat
      ∨ x.addr.toNat + 32 + 16 * x.lines ≤ e.addr.toNat) : windowSlot s e = none := by
  simp only [windowSlot, ha]
  split
  next hin =>
    obtain ⟨hen, hlow, hp, hend⟩ := hin
    rw [ringAddr] at hlow hp hend
    rw [Anchor.words] at hend
    have hfar : 16 ≤ (e.addr.toNat - ringAddr x 0) / 4 - s.intake.p := by
      rw [ringAddr]
      rcases h with h | h | h | h
      · exact absurd hen h
      all_goals omega
    exact dif_neg (Nat.not_lt.2 hfar)
  next => rfl

/-- The state after the front entry has left the queue, with these slots. -/
def drained (rest : List CapEntry) (v : Vector (Option Word) Config.slotCount) (s : State) : State :=
  s.setIntake { s.intake with queue := rest, slots := v }

/-- What an entry does to the slots. -/
def FillsSlots (x : Anchor) (e : CapEntry) (s : State) (v : Vector (Option Word) Config.slotCount) : Prop :=
  (∃ j : Fin 16, e.addr.toNat = x.addr.toNat + 32 + 4 * (s.intake.p + j.val)
      ∧ s.intake.p + j.val < 4 * x.lines ∧ e.enables = 15
      ∧ v = s.intake.slots.set j (some e.word))
    ∨ ((e.enables ≠ 15 ∨ e.addr.toNat < x.addr.toNat + 32 + 4 * s.intake.p
        ∨ x.addr.toNat + 32 + 4 * (s.intake.p + 16) ≤ e.addr.toNat
        ∨ x.addr.toNat + 32 + 16 * x.lines ≤ e.addr.toNat) ∧ v = s.intake.slots)

theorem drainInto_eq (ha : s.intake.anchor = some x) (hv : FillsSlots x e s v) :
    drainInto e rest s = if e.endMark then commitCheck (drained rest v s) else drained rest v s := by
  rw [drainInto]
  rcases hv with ⟨j, haddr, hlt, hen, rfl⟩ | ⟨hout, rfl⟩
  · rw [windowSlot_inside ha hen haddr hlt]
    rfl
  · rw [windowSlot_outside ha hout]
    rfl

theorem commitCheck_passed (h : v[0] = none ∨ ∃ h, v[0] = some h ∧ hdrSeq h ≠ s.intake.expected) :
    commitCheck (drained rest v s) = drained rest v s := by
  have h0 : (drained rest v s).intake.slots[0] = v[0] := rfl
  rw [commitCheck, h0]
  rcases h with h | ⟨h, hv, hne⟩
  · rw [h]
  · rw [hv]
    exact if_neg hne

theorem commitCheck_commits {h : Word} (hv : v[0] = some h) (hs : hdrSeq h = s.intake.expected) :
    commitCheck (drained rest v s) = commit h (drained rest v s) := by
  have h0 : (drained rest v s).intake.slots[0] = v[0] := rfl
  rw [commitCheck, h0, hv]
  exact if_pos hs

/-- What a drain with no commit comes to. -/
theorem drained_frame : SameTables s (finish (drained rest v s)) ∧ SameControl s (finish (drained rest v s))
    ∧ SameOuter s (finish (drained rest v s)) ∧ BusKept s (finish (drained rest v s))
    ∧ TilesKept s (finish (drained rest v s)) ∧ (finish (drained rest v s)).reports = s.reports
    ∧ (finish (drained rest v s)).intake = { s.intake with queue := rest, slots := v } := by
  refine ⟨?_, ?_, ?_, finish_busKept _ _ rfl rfl rfl, finish_tilesKept rfl rfl rfl, ?_, ?_⟩
  · simp [SameTables, drained]
  · simp [SameControl, drained]
  · simp [SameOuter, drained]
  · simp [drained]
  · simp [drained]

/-- What a drain that commits leaves of the other units. -/
theorem drained_commit_frame (h : Word) : SameTables s (finish (commit h (drained rest v s)))
    ∧ (finish (commit h (drained rest v s))).page = s.page
    ∧ (finish (commit h (drained rest v s))).share = s.share
    ∧ SameOuter s (finish (commit h (drained rest v s))) ∧ BusKept s (finish (commit h (drained rest v s)))
    ∧ TilesKept s (finish (commit h (drained rest v s))) := by
  refine ⟨?_, ?_, ?_, ?_, ?_, ?_⟩
  · simp [SameTables, drained]
  · simp [drained]
  · simp [drained]
  · simp [SameOuter, drained]
  · apply finish_busKept <;> simp [drained]
  · apply finish_tilesKept <;> simp [drained]

theorem captureDrain_open (hq : s.intake.queue = e :: rest)
    (hs : s.intake.state = .probing ∨ s.intake.state = .waiting) :
    exec .captureDrain s = .next (finish (drainInto e rest s)) := by
  rcases hs with hs | hs <;> simp only [exec, execCaptureDrain, hq, hs]

end

/-- Settles O44. -/
theorem drainFillsSlotsAndCommits : Obligations.DrainFillsSlotsAndCommits := by
  refine ⟨⟨rfl, fun s => rfl, kindTable, rfl, kindTable_sound, fun n => kindOfCode_none⟩,
    fun s x e rest v hq ha hv => ⟨fun hs => ⟨fun hpass => ?_, fun h hmark h0 hseq => ?_⟩, fun r hs => ?_,
      fun ph hs => ?_⟩⟩
  · have hdrain : drainInto e rest s = drained rest v s := by
      rw [drainInto_eq ha hv]
      rcases hpass with hmark | hpass
      · rw [hmark]
        rfl
      · rw [commitCheck_passed hpass, ite_self]
    rw [captureDrain_open hq hs, hdrain]
    exact ⟨_, rfl, drained_frame⟩
  · rw [captureDrain_open hq hs, drainInto_eq ha hv, if_pos hmark, commitCheck_commits h0 hseq]
    obtain ⟨htables, hpage, hshare, houter, hbus, htiles⟩ := drained_commit_frame (s := s) (rest := rest) (v := v) h
    exact ⟨_, rfl, htables, hpage, hshare, houter, hbus, htiles, commit_outcome rfl ha rfl rfl rfl rfl⟩
  · obtain ⟨htables, hcontrol, houter, hbus, -, hreports, hintake⟩ := drained_frame (s := s) (rest := rest)
      (v := s.intake.slots)
    refine ⟨finish (drained rest s.intake.slots s), ?_, htables, hcontrol, houter, hbus, hreports, hintake⟩
    simp only [exec, execCaptureDrain, drained, hq, hs]
  · simp only [exec, execCaptureDrain, hq, hs]

end Sys2Proof.Machine
end

