-- ==== Sys2Proof/Proofs/Probes.lean ====
section
/-! SUPPORT. The completions of probes. -/
namespace Sys2Proof.Machine
set_option Elab.async false
open Sys2Proof

section
variable {s u : State} {x : Anchor} {st : Fin 4} {w0 : BusWord} {ws : List BusWord}

theorem completeOwn_service (h : s.resetDue = false) (effect : State → State) :
    completeOwn effect s = finish (effect (s.setMside .free)) := if_neg (by rw [h]; decide)

theorem byteOrder_anchor (h : s.intake.anchor = some x) : byteOrder s = x.bigEndian := by rw [byteOrder, h]

theorem probeEffect_stale (h : ¬ (s.intake.probeLive = true ∧ s.intake.state = .probing)) :
    probeEffect st w0 ws s = handDeferred s := if_neg h

theorem probeEffect_live (h : s.intake.probeLive = true) (hs : s.intake.state = .probing) :
    probeEffect st w0 ws s = treatProbe st w0 ws s := if_pos ⟨h, hs⟩

theorem treatProbe_bad (h : wordGood (byteOrder s) w0 = false) :
    treatProbe st w0 ws s = halt (hdrKind w0.data) s := if_pos (by rw [h]; rfl)

theorem treatProbe_other (h : wordGood (byteOrder s) w0 = true) (hs : hdrSeq w0.data ≠ s.intake.expected) :
    treatProbe st w0 ws s = s.setIntake { s.intake with state := .waiting, probeLive := false } :=
  (if_neg (by rw [h]; decide)).trans (if_neg hs)

theorem treatProbe_expected (h : wordGood (byteOrder s) w0 = true) (hs : hdrSeq w0.data = s.intake.expected) :
    treatProbe st w0 ws s = commit w0.data (s.setIntake
      { s.intake with slots := probeSlots (byteOrder s) st (w0 :: ws) s.intake.slots }) :=
  (if_neg (by rw [h]; decide)).trans (if_pos hs)

theorem probeSlots_getElem (b : Bool) (v : Vector (Option Word) Config.slotCount) (i : Fin 16) :
    (probeSlots b st ws v)[i] = match ws[i.val]? with
      | some w => if st.val + i.val < 4 ∧ wordGood b w = true then some w.data else v[i]
      | none => v[i] := by
  have hslot : (probeSlots b st ws v)[i] = if st.val + i.val < 4 then
      match ws[i.val]? with
        | some w => if wordGood b w then some w.data else v[i]
        | none => v[i]
      else v[i] := Vector.getElem_ofFn _
  rw [hslot]
  cases ws[i.val]? with
  | none => exact ite_self _
  | some w => by_cases hlt : st.val + i.val < 4 <;> simp [hlt]

end

/-- Settles O45. -/
theorem probeCompletes : Obligations.ProbeCompletes := by
  rintro s u x req n w0 w1 w2 w3 hm hd ha rfl
  refine ⟨finish (probeEffect req.start w0 [w1, w2, w3] (s.setMside .free)), ?_, ?_, ?_, ?_, ?_, ?_,
    fun hstale => ?_, fun hlive hs => ⟨fun hbad => ?_, fun hgood hseq => ?_, fun hgood hseq => ?_⟩⟩
  · simp only [exec, execProbeComplete, hm, completeOwn_service hd]
  · simp [SameTables]
  · simp
  · simp
  · simp [SameOuter]
  · apply finish_tilesKept <;> simp
  · rw [probeEffect_stale (s := s.setMside .free) hstale]
    exact ⟨by simp, handDeferred_disregarded rfl rfl⟩
  all_goals rw [probeEffect_live (s := s.setMside .free) hlive hs]
  · rw [treatProbe_bad (by rwa [byteOrder_anchor (s := s.setMside .free) ha])]
    exact ⟨by simp, halt_halted ha _ rfl rfl⟩
  · rw [treatProbe_other (s := s.setMside .free) (by rwa [byteOrder_anchor (s := s.setMside .free) ha]) hseq]
    simp
  · rw [treatProbe_expected (s := s.setMside .free) (by rwa [byteOrder_anchor (s := s.setMside .free) ha]) hseq,
      byteOrder_anchor (s := s.setMside .free) ha]
    exact ⟨_, probeSlots_getElem _ _, commit_outcome rfl ha rfl rfl rfl rfl⟩

end Sys2Proof.Machine
end

