-- ==== Sys2Proof/Proofs/Refetches.lean ====
section
/-! SUPPORT. The words and completions of refetches. -/
namespace Sys2Proof.Machine
set_option Elab.async false
open Sys2Proof

section
variable {s u : State} {x : Anchor} {r : Refetch} {i : Nat} {w : BusWord}

/-! ## Words -/

theorem refetchArrival_word {req : LineReq} {got : Nat} (hs : s.intake.state = .fetching r)
    (ha : s.intake.anchor = some x) (hd : s.resetDue = false) : refetchArrival req got w s
      = refetchWord r x (4 * refetchLine s r.line + wrapPos req.start got) w s := by
  simp only [refetchArrival, hs, ha]
  exact if_neg (by rw [hd]; decide)

/-- A refetch word changes the intake alone. -/
theorem refetchWord_intake_only : refetchWord r x i w s = s.setIntake (refetchWord r x i w s).intake := by
  unfold refetchWord
  split
  next => split <;> rfl
  next =>
    split
    next => split <;> rfl
    next => rfl

/-- The parity of the header word is noted. -/
theorem refetchWord_header (hs : s.intake.state = .fetching r) (hi : i = s.intake.p) :
    (refetchWord r x i w s).intake = { s.intake with
      state := .fetching (if wordGood x.bigEndian w = true then r
        else { r with headerBad := some (hdrKind w.data) }) } := by
  rw [refetchWord, if_pos hi]
  split
  next => rw [← hs]
  next => rfl

/-- A body word replaces its slot. -/
theorem refetchWord_body {j : Fin 16} (hj : 1 ≤ j.val) (hi : i = s.intake.p + j.val)
    (hlt : j.val < recordWords s) : (refetchWord r x i w s).intake = { s.intake with
      slots := s.intake.slots.set j (some w.data),
      state := .fetching (if wordGood x.bigEndian w = true ∨ r.bodyBad.isSome = true then r
        else { r with bodyBad := some (ringAddr x i) }) } := by
  have hslot : idBelow Config.slotCount (i - s.intake.p) = some j := by
    rw [hi, Nat.add_sub_cancel_left]
    exact dif_pos j.isLt
  rw [refetchWord, if_neg (by omega), if_pos (by omega), hslot]
  rfl

/-- Any other word is disregarded. -/
theorem refetchWord_outside (hi : i < s.intake.p ∨ s.intake.p + recordWords s ≤ i) (hw : 0 < recordWords s) :
    refetchWord r x i w s = s := by
  rw [refetchWord, if_neg (by omega), if_neg (by omega)]

theorem recordWords_pos : 0 < recordWords s := by
  rw [recordWords, hdrWords]
  unfold sizeWords
  split <;> decide

/-! ## Lines -/

theorem refetchEffect_halt {k : Nat} (hs : s.intake.state = .fetching r) (ha : s.intake.anchor = some x)
    (hb : r.headerBad = some k) : refetchEffect s = halt k s := by
  simp only [refetchEffect, hs, ha, hb]

theorem refetchEffect_next (hs : s.intake.state = .fetching r) (ha : s.intake.anchor = some x)
    (hb : r.headerBad = none) (hl : r.line + 1 < refetchLines s) : refetchEffect s
      = handIntake (.refetch (refetchReq x s (r.line + 1)))
          (s.setIntake { s.intake with state := .fetching { r with line := r.line + 1 } }) := by
  simp only [refetchEffect, hs, ha, hb]
  exact if_pos hl

theorem refetchEffect_bad {a : Nat} (hs : s.intake.state = .fetching r) (ha : s.intake.anchor = some x)
    (hb : r.headerBad = none) (hl : refetchLines s ≤ r.line + 1) (hbody : r.bodyBad = some a) :
    refetchEffect s = endRecord (some .parity) (advancedP s) (giveReport (.parity .probe a) s) := by
  simp only [refetchEffect, hs, ha, hb, hbody]
  exact if_neg (Nat.not_lt.2 hl)

theorem refetchEffect_whole (hs : s.intake.state = .fetching r) (ha : s.intake.anchor = some x)
    (hb : r.headerBad = none) (hl : refetchLines s ≤ r.line + 1) (hbody : r.bodyBad = none) :
    refetchEffect s = enterExecuting s := by
  simp only [refetchEffect, hs, ha, hb, hbody]
  exact if_neg (Nat.not_lt.2 hl)

theorem refetchReq_next (n : Nat) : refetchReq x s (n + 1)
    = lineReqAt (x.addr.toNat + 32 + 16 * (s.intake.p / 4 + (n + 1))) := by
  rw [refetchReq, if_neg (Nat.succ_ne_zero n), refetchLine, ringAddr, ← Nat.mul_assoc]

theorem Takes.refl (ha : s.intake.anchor = some x) : Takes x s s := ⟨ha, rfl, rfl, rfl, rfl, rfl⟩

end

/-- Settles O46. -/
theorem refetchReadsRecord : Obligations.RefetchReadsRecord := by
  refine ⟨fun x i a => ⟨rfl, rfl⟩, ?_⟩
  rintro s u x req got r hm hd ha hs rfl
  refine ⟨fun w i hg hi => ?_, fun hg => ?_⟩
  · obtain ⟨b, hb⟩ : ∃ b, b = s.setMside (.own (.intake (.refetch req)) (got + 1)) := ⟨_, rfl⟩
    have hbi : b.intake = s.intake := by rw [hb, State.setMside_intake]
    have hbw : recordWords b = recordWords s := by rw [recordWords, recordWords, hbi]
    have hexec : exec (.refetchWordArrival w) s = .next (refetchWord r x i w b) := by
      simp only [exec, execRefetchWordArrival, hm]
      rw [if_pos hg, ← hb, refetchArrival_word (by rw [hbi, hs]) (by rw [hbi, ha]) (by rw [hb]; exact hd), hi,
        refetchLine, hbi]
      rfl
    refine ⟨_, hexec, hb ▸ refetchWord_intake_only, fun hp => ?_, fun j hj hji hlt => ?_, fun hout => ?_⟩
    · rw [refetchWord_header (by rw [hbi, hs]) (by rw [hbi, hp]), hbi]
      rfl
    · rw [refetchWord_body hj (by rw [hbi, hji]) (by rwa [hbw]), hbi]
      rfl
    · rw [refetchWord_outside (by rwa [hbi, hbw]) recordWords_pos, hbi]
  · refine ⟨finish (refetchEffect (s.setMside .free)), ?_, ?_, ?_, ?_, ?_, fun k hk => ?_, fun hk hl => ?_,
      fun hk hl hle => ⟨fun a hbody => ?_, fun hbody => ?_⟩⟩
    · simp only [exec, execRefetchLineComplete, hm]
      rw [if_pos hg, completeOwn_service hd]
    · simp [SameTables]
    · simp [SameControl]
    · simp [SameOuter]
    · apply finish_tilesKept <;> simp
    · rw [refetchEffect_halt (s := s.setMside .free) hs ha hk]
      exact halt_halted ha k rfl rfl
    · rw [refetchEffect_next (s := s.setMside .free) hs ha hk hl, refetchReq_next]
      exact ⟨by simp, by simp [handIntake, IntakeFetch.isProbe], handIntake_handed _⟩
    · rw [refetchEffect_bad (s := s.setMside .free) hs ha hk hl hbody,
        advancedP_eq (w := s.setMside .free) ha hle]
      refine ⟨endRecord_ended (s.setMside .free) (some .parity) _ (by simp) ha (by simp) (by simp), ?_⟩
      rw [finish_reports, endRecord_reports]
      have hfault : recordFault (giveReport (.parity .probe a) (s.setMside .free)) .parity
          = .recordFault .parity s.intake.p (bits s.intake.header 31 24) := by
        rw [recordFault, giveReport_intake]
        rfl
      dsimp only
      rw [hfault]
      exact giveReport_reports_congr _ _ _ (giveReport_reports_congr _ _ _ rfl)
    · rw [refetchEffect_whole (s := s.setMside .free) hs ha hk hl hbody]
      refine ⟨enterExecuting_enters (s := s.setMside .free) (w := s.setMside .free) (Takes.refl ha) hle, fun hready => ?_⟩
      rw [enterExecuting_intake (w := s.setMside .free) ha hready]
      rfl

end Sys2Proof.Machine
end

