-- ==== Sys2Proof/Proofs/ColourLoads.lean ====
section
/-! SUPPORT. The words, lines and completion of a colour load. -/
namespace Sys2Proof.Machine
set_option Elab.async false
open Sys2Proof

section
variable {s u : State} {l : Load} {a : Nat} {w : BusWord} {r : LineReq}

/-! ## Words -/

theorem loadEntry_outside (h : a < l.source ∨ l.source + 4 * l.count ≤ a) : loadEntry l a = none :=
  if_neg (by omega)

theorem loadEntry_inside {i : Fin Config.entryCount} (hlow : l.source ≤ a) (hhigh : a < l.source + 4 * l.count)
    (hi : i.val = l.first + (a - l.source) / 4) : loadEntry l a = some i := by
  rw [loadEntry, if_pos ⟨hlow, hhigh⟩, idBelow_val hi.symm]

theorem loadWord_unneeded (hl : s.colours.load = some l) (he : loadEntry l a = none) : loadWord a w s = s := by
  simp only [loadWord, hl, he, ite_self]

theorem loadWord_good {i : Fin Config.entryCount} (hl : s.colours.load = some l) (hd : s.resetDue = false)
    (he : loadEntry l a = some i) (hw : wordGood (byteOrder s) w = true) :
    loadWord a w s = s.setColours (s.colours.write l.table i (Argb.ofWord w.data)) := by
  simp only [loadWord, hl, he]
  rw [if_neg (by rw [hd]; decide), if_pos hw]

theorem loadWord_bad {i : Fin Config.entryCount} (hl : s.colours.load = some l) (hd : s.resetDue = false)
    (he : loadEntry l a = some i) (hw : wordGood (byteOrder s) w = false) :
    loadWord a w s = badLoadWord l a s := by
  simp only [loadWord, hl, he]
  rw [if_neg (by rw [hd]; decide), if_neg (by rw [hw]; decide)]

theorem badLoadWord_colours : (badLoadWord l a s).colours
    = ⟨s.colours.entries, s.colours.inFlight, some { l with lineBad := true, anyBad := true }⟩ := by
  unfold badLoadWord
  dsimp only
  split <;> simp

/-- The first bad word of a line gives PARITY LOAD. -/
theorem badLoadWord_reports : (badLoadWord l a s).reports
    = if l.lineBad then s.reports else (giveReport (.parity .load a) s).reports := by
  unfold badLoadWord
  dsimp only
  split
  next => rfl
  next => exact giveReport_reports_congr _ _ _ rfl

/-- What a load word leaves of the state, and the words it waits for. -/
theorem loadWord_frame {o : OwnReq} {n : Nat} (u : State) (hu : u = loadWord a w (s.setMside (.own o n))) :
    (finish u).objects = s.objects ∧ (finish u).list = s.list ∧ (finish u).buttons = s.buttons
      ∧ SameControl s (finish u) ∧ SameOuter s (finish u) ∧ TilesKept s (finish u)
      ∧ (finish u).intake = s.intake ∧ (finish u).mside = .own o n := by
  subst hu
  refine ⟨by simp, by simp, by simp, by simp [SameControl], by simp [SameOuter], ?_, by simp, ?_⟩
  · apply finish_tilesKept <;> simp
  · rw [finish_busy] <;> simp

/-! ## Lines -/

theorem nextLoadLine_eq (hl : s.colours.load = some l) : nextLoadLine r s
    = handLoad ⟨r.line + 16, 0⟩ (s.setColours { s.colours with load := some { l with lineBad := false } }) := by
  rw [nextLoadLine, hl]

theorem endLoad_eq (hl : s.colours.load = some l) : endLoad s
    = endRecord (if l.anyBad then some .parity else none) (advancedP s) (markIndexed l.table (s.setColours
        { s.colours with load := none, inFlight := s.colours.inFlight.set l.table false })) := by
  rw [endLoad, hl]

end

/-- Settles O47. -/
theorem colourLoadWritesEntries : Obligations.ColourLoadWritesEntries := by
  intro s l r got hm hl hd
  refine ⟨fun w a hg ha => ?_, fun hg hline => ?_, fun x hg hlast hx hle => ?_⟩
  · obtain ⟨u, hu⟩ : ∃ u, u = loadWord a w (s.setMside (.own (.load r) (got + 1))) := ⟨_, rfl⟩
    have hexec : exec (.loadWordArrival w) s = .next (finish u) := by
      simp only [exec, execLoadWordArrival, hm]
      rw [if_pos hg, hu, ha]
      rfl
    obtain ⟨ho, hlist, hb, hc, hout, ht, hi, hmside⟩ := loadWord_frame u hu
    refine ⟨_, hexec, ho, hlist, hb, hc, hout, ht, hi, hmside, fun hunneeded => ?_,
      fun i hlow hhigh hentry => ⟨fun hgood => ?_, fun hbad => ?_⟩⟩
    all_goals rw [finish_colours, finish_reports, hu]
    · rw [loadWord_unneeded (s := s.setMside (.own (.load r) (got + 1))) hl (loadEntry_outside hunneeded)]
      simp
    · rw [loadWord_good (s := s.setMside (.own (.load r) (got + 1))) hl hd (loadEntry_inside hlow hhigh hentry) hgood]
      simp [ColourTables.write, hl]
    · rw [loadWord_bad (s := s.setMside (.own (.load r) (got + 1))) hl hd (loadEntry_inside hlow hhigh hentry) hbad,
        badLoadWord_colours, badLoadWord_reports]
      refine ⟨rfl, fun hline => by rw [if_pos hline]; rfl, fun hline => ?_⟩
      rw [if_neg (by rw [hline]; decide)]
      exact giveReport_reports_congr _ _ _ rfl
  · have hnot : lastLoadLine l r = false := by
      rw [← Bool.not_eq_true, lastLoadLine_iff]
      omega
    have hexec : exec .loadLineComplete s = .next (finish (nextLoadLine r (s.setMside .free))) := by
      simp only [exec, execLoadLineComplete, hm, hl]
      rw [if_pos ⟨hg, .inr (by rw [hnot]; rfl)⟩, completeOwn_service hd]
    refine ⟨_, hexec, ?_⟩
    rw [nextLoadLine_eq (s := s.setMside .free) hl]
    refine ⟨finish_loadHanded rfl, by simp [handLoad], by simp [handLoad], by simp [handLoad],
      by simp [handLoad], by simp [SameControl, handLoad], by simp [SameOuter, handLoad], ?_,
      by simp [handLoad], by simp [handLoad]⟩
    apply finish_tilesKept <;> simp [handLoad]
  · have hexec : exec .loadComplete s = .next (finish (endLoad (s.setMside .free))) := by
      simp only [exec, execLoadComplete, hm, hl]
      rw [if_pos ⟨hg, (lastLoadLine_iff l r).2 hlast⟩, completeOwn_service hd]
    obtain ⟨m, hmark⟩ : ∃ m, m = markIndexed l.table ((s.setMside .free).setColours
        { s.colours with load := none, inFlight := s.colours.inFlight.set l.table false }) := ⟨_, rfl⟩
    have hend : endLoad (s.setMside .free)
        = endRecord (if l.anyBad then some .parity else none) (nextIndex x s) m := by
      rw [endLoad_eq (s := s.setMside .free) hl, advancedP_eq (w := s.setMside .free) hx hle, hmark]
      rfl
    have hmi : m.intake = s.intake := by simp [hmark]
    have hmr : m.reports = s.reports := by simp [hmark]
    have hout : intakeOutstanding (s.setMside .free) = intakeOutstanding s := by simp [intakeOutstanding, hm]
    rw [hend] at hexec
    refine ⟨_, hexec, ?_, by simp [hmark], by simp [hmark], by simp [hmark], by simp [hmark], ?_, ?_, ?_,
      _, rfl, ?_⟩
    · exact (endRecord_ended (s.setMside .free) _ _ hmi hx (by simp [hmark]) (by simp [hmark])).congr rfl hout
    · simp [SameControl, hmark]
    · simp [SameOuter, hmark]
    · rw [finish_reports, endRecord_reports]
      cases l.anyBad with
      | false => exact hmr
      | true =>
        have hfault : recordFault m .parity = .recordFault .parity s.intake.p (bits s.intake.header 31 24) := by
          rw [recordFault, hmi]
          rfl
        rw [← hfault]
        exact giveReport_reports_congr _ _ _ hmr
    · refine finish_took_from ?_ (by simp [hmark]) (by simp [hmark])
      rw [endRecord_tiles, hmark, markIndexed_tiles, mark_tiles_congr (t := s.setMside .free) (s := s) rfl]
      rfl

end Sys2Proof.Machine
end

