-- ==== Sys2Proof/Proofs/ObjectWords.lean ====
section
/-! SUPPORT. The words of object data. -/
namespace Sys2Proof.Machine
set_option Elab.async false
open Sys2Proof

section
variable {s u v given : State} {f : Flight} {a : App} {rest : List Placement} {addr : Nat} {w : BusWord}

/-- With a tile in flight a busy M-side ends the event at once. -/
theorem finish_of_flight (hm : s.mside ≠ .free) (hf : s.render.flight.isSome = true) : finish s = s := by
  rw [finish_busy s hm, takeTile_of_flight hf]

/-! ## Faults -/

theorem currentObject_congr (hb : v.buttons = s.buttons) (p : Placement) :
    currentObject v p = currentObject s p := by
  simp only [currentObject, hb]

theorem shows_congr (hb : v.buttons = s.buttons) (id : Fin Config.objectCount) : shows v id = shows s id := by
  funext p
  rw [shows, shows, currentObject_congr hb]

/-- An object faulted in a state that has the tables and the tiles of s. -/
theorem objectFault_faulted (id : Fin Config.objectCount) (c : ObjCause) (ho : v.objects = s.objects)
    (hb : v.buttons = s.buttons) (hl : v.list = s.list) (ht : v.tiles = s.tiles)
    (hr : v.reports = given.reports) : ObjectFaulted id c given s (objectFault id c v) := by
  have hfoot : footprintsOf v (shows v id) = footprintsOf s (shows s id) := by
    rw [shows_congr hb, footprintsOf_congr (by rw [ht]) ho hb hl]
  unfold ObjectFaulted objectFault
  rw [hfoot, ho]
  split
  next hready =>
    refine ⟨by simp, ?_, ?_⟩
    · rw [mark_reports]
      exact giveReport_reports_congr _ _ _ hr
    · exact mark_tiles_congr (by simp [ht]) _
  next => exact ⟨ho, hr, ht⟩

/-! ## The application in progress -/

theorem currentApp_of (hf : s.render.flight = some f) (hp : f.phase = .applying a rest) :
    currentApp s = some (f, a, rest) := by
  simp only [currentApp, hf, hp]

theorem setApp_same (hf : s.render.flight = some f) (hp : f.phase = .applying a rest) :
    setApp f a rest s = s := by
  rw [setApp, ← hp, ← hf]
  rfl

theorem objectWord_flight (h : s.render.flight.isSome = true) :
    (objectWord addr w s).render.flight.isSome = true := by
  unfold objectWord
  split
  next => exact h
  next =>
    split
    next => exact h
    next =>
      split
      next => rw [faultIfShort_render]; rfl
      next => simp [setApp]

/-! ## A word -/

/-- An application that has ended, or whose decode has stopped, disregards a word. -/
theorem objectWord_stopped (hc : currentApp s = some (f, a, rest))
    (h : a.ended = true ∨ a.decodeStopped = true) : objectWord addr w s = s := by
  rw [objectWord, hc]
  exact if_pos (by rcases h with h | h <;> simp [h])

theorem objectWord_taken (hc : currentApp s = some (f, a, rest)) (he : a.ended = false)
    (hs : a.decodeStopped = false) (hd : s.resetDue = false) {b : App}
    (ht : a.takeWord (byteOrder s) addr w = (b, none)) :
    objectWord addr w s = faultIfShort b (setApp f b rest s) := by
  simp only [objectWord, hc, ht]
  exact if_neg (by simp [he, hs, hd])

theorem objectWord_bad (hc : currentApp s = some (f, a, rest)) (he : a.ended = false)
    (hs : a.decodeStopped = false) (hd : s.resetDue = false) {b : App} {bad : Nat}
    (ht : a.takeWord (byteOrder s) addr w = (b, some bad)) :
    objectWord addr w s = objectFault a.obj .parity
      (giveReport (.parity .render bad) (setApp f { b with ended := true } rest s)) := by
  simp only [objectWord, hc, ht]
  exact if_neg (by simp [he, hs, hd])

section
variable {g : List (Nat × Word)} {b : Bool}

theorem decodeStopped_words (h : a.data = .words g) : a.decodeStopped = false := by rw [App.decodeStopped, h]

theorem isShort_words (h : a.data = .words g) : a.isShort = false := by rw [App.isShort, h]

theorem isShort_run8 {d : Run8} (h : a.data = .run8 d) (hs : d.status = .short) : a.isShort = true := by
  rw [App.isShort, h]
  exact beq_iff_eq.2 hs

theorem isShort_run8_not {d : Run8} (h : a.data = .run8 d) (hs : d.status ≠ .short) : a.isShort = false := by
  rw [App.isShort, h]
  exact beq_eq_false_iff_ne.2 hs

theorem wordNeeded_iff : wordNeeded a addr = true ↔ firstByte a < addr + 4 ∧ addr ≤ lastByte a := by
  simp [wordNeeded]

theorem takeWord_unneeded (h : a.data = .words g) (hn : wordNeeded a addr = false) :
    a.takeWord b addr w = (a, none) := by
  simp [App.takeWord, h, hn]

theorem takeWord_good (h : a.data = .words g) (hn : wordNeeded a addr = true) (hw : wordGood b w = true) :
    a.takeWord b addr w = ({ a with data := .words (g ++ [(addr, w.data)]) }, none) := by
  simp [App.takeWord, h, hn, hw]

theorem takeWord_bad (h : a.data = .words g) (hn : wordNeeded a addr = true) (hw : wordGood b w = false) :
    a.takeWord b addr w = (a, some addr) := by
  simp [App.takeWord, h, hn, hw]

theorem takeWord_run8_good {d : Run8} (h : a.data = .run8 d)
    (hs : ∀ x, (d.arrive b a.entry a.c1 addr w).status ≠ .bad x) :
    a.takeWord b addr w = ({ a with data := .run8 (d.arrive b a.entry a.c1 addr w) }, none) := by
  simp only [App.takeWord, h]

theorem takeWord_run8_bad {d : Run8} {x : Nat} (h : a.data = .run8 d)
    (hs : (d.arrive b a.entry a.c1 addr w).status = .bad x) :
    a.takeWord b addr w = ({ a with data := .run8 (d.arrive b a.entry a.c1 addr w) }, some x) := by
  simp only [App.takeWord, h, hs]

end

/-! ## What a word leaves, the base state before it having the tables and the engine of s -/

/-- The base state of a word of a fetch of the tile in flight: the state s but for the M-side. -/
def wordBase (r : LineReq) (got : Nat) (s : State) : State :=
  s.setMside (.own (.render (.fetch r)) (got + 1))

theorem exec_objectWord {r : LineReq} {got : Nat} (hm : s.mside = .own (.render (.fetch r)) got)
    (hg : got < 4) (hf : s.render.flight = some f)
    (ha : addr = r.line.toNat + 4 * ((r.start.val + got) % 4)) :
    exec (.objectWordArrival w) s = .next (objectWord addr w (wordBase r got s)) := by
  have hstay : finish (objectWord addr w (wordBase r got s)) = objectWord addr w (wordBase r got s) := by
    refine finish_of_flight (by simp [wordBase]) (objectWord_flight ?_)
    rw [wordBase, State.setMside_render, hf]
    rfl
  rw [← hstay, ha]
  simp only [exec, execObjectWordArrival, hm]
  exact if_pos hg

/-- The application goes on with what it has taken. -/
theorem setApp_frame {r : LineReq} {got : Nat} {b : App} :
    (setApp f b rest (wordBase r got s)).objects = s.objects
      ∧ (setApp f b rest (wordBase r got s)).reports = s.reports
      ∧ (setApp f b rest (wordBase r got s)).tiles = s.tiles
      ∧ (setApp f b rest (wordBase r got s)).render
        = ⟨s.render.scan, some ⟨f.tile, f.page, f.row, f.pixels, .applying b rest⟩⟩ := ⟨rfl, rfl, rfl, rfl⟩

/-- A bad word ends its application and makes its object FAULTY. -/
theorem badWord_faulted {r : LineReq} {got : Nat} {b : App} (bad : Nat) (id : Fin Config.objectCount) :
    ObjectFaulted id .parity (giveReport (.parity .render bad) s) s (objectFault id .parity
        (giveReport (.parity .render bad) (setApp f b rest (wordBase r got s))))
      ∧ (objectFault id .parity
          (giveReport (.parity .render bad) (setApp f b rest (wordBase r got s)))).render
        = ⟨s.render.scan, some ⟨f.tile, f.page, f.row, f.pixels, .applying b rest⟩⟩ := by
  refine ⟨objectFault_faulted id .parity ?_ ?_ ?_ ?_ (giveReport_reports_congr _ _ _ rfl), ?_⟩
  all_goals simp [setApp, wordBase]

theorem faultIfShort_short (h : a.isShort = true) : faultIfShort a s = objectFault a.obj .short s := if_pos h

theorem faultIfShort_whole (h : a.isShort = false) : faultIfShort a s = s := if_neg (by rw [h]; decide)

end

/-- The bits of a pixel, by coding. -/
theorem pixelBits_of {e : ObjEntry} {n : Nat} (h : (e.coding = .direct32 ∧ n = 32) ∨ (e.coding = .index8 ∧ n = 8)
    ∨ (e.coding = .index4 ∧ n = 4) ∨ (e.coding = .index2 ∧ n = 2)) : e.coding.pixelBits = n := by
  rcases h with ⟨hc, rfl⟩ | ⟨hc, rfl⟩ | ⟨hc, rfl⟩ | ⟨hc, rfl⟩ <;> rw [hc] <;> rfl

/-- Settles O48. -/
theorem objectWordsTakenOrFaulted : Obligations.ObjectWordsTakenOrFaulted := by
  refine ⟨fun s f a rest r got w addr hm hg hf hp hd haddr => ?_, fun a n start hn hstart => ?_⟩
  · have hc : currentApp (wordBase r got s) = some (f, a, rest) := currentApp_of (s := wordBase r got s) hf hp
    have hsame : setApp f a rest (wordBase r got s) = wordBase r got s := setApp_same (s := wordBase r got s) hf hp
    refine ⟨_, exec_objectWord hm hg hf haddr, by simp [wordBase], by simp [wordBase], by simp [wordBase],
      by simp [SameControl, wordBase], by simp [SameOuter, wordBase], by simp [wordBase], by simp [wordBase],
      by simp [wordBase], fun he => ?_, fun g he hdata => ⟨fun hn => ?_, fun hlow hhigh hw => ?_,
      fun hlow hhigh hw => ?_⟩, fun d he hdata => ⟨fun hs => ?_, fun d' hs hd' => ⟨fun hgood => ?_,
      fun b hbad => ?_⟩⟩⟩
    · rw [objectWord_stopped hc (.inl he)]
      exact ⟨rfl, rfl, rfl, rfl⟩
    · have hneed : wordNeeded a addr = false := by
        rw [← Bool.not_eq_true, wordNeeded_iff]
        exact hn
      rw [objectWord_taken hc he (decodeStopped_words hdata) hd (takeWord_unneeded hdata hneed),
        faultIfShort_whole (isShort_words hdata), hsame]
      exact ⟨rfl, rfl, rfl, rfl⟩
    · rw [objectWord_taken hc he (decodeStopped_words hdata) hd
        (takeWord_good hdata (wordNeeded_iff.2 ⟨hlow, hhigh⟩) hw), faultIfShort_whole rfl]
      exact setApp_frame
    · rw [objectWord_bad hc he (decodeStopped_words hdata) hd
        (takeWord_bad hdata (wordNeeded_iff.2 ⟨hlow, hhigh⟩) hw)]
      exact badWord_faulted addr a.obj
    · have hstop : a.decodeStopped = true := by
        rw [App.decodeStopped, hdata]
        exact bne_iff_ne.2 hs
      rw [objectWord_stopped hc (.inr hstop)]
      exact ⟨rfl, rfl, rfl, rfl⟩
    all_goals
      have hstop : a.decodeStopped = false := by
        rw [App.decodeStopped, hdata]
        exact bne_eq_false_iff_eq.2 hs
      subst hd'
    · rw [objectWord_taken hc he hstop hd (takeWord_run8_good hdata hgood)]
      refine ⟨?_, fun hshort => ?_, fun hnot => ?_⟩
      · rw [faultIfShort_render]
        rfl
      · rw [faultIfShort_short (isShort_run8 rfl hshort)]
        exact objectFault_faulted _ _ rfl rfl rfl rfl rfl
      · rw [faultIfShort_whole (isShort_run8_not rfl hnot)]
        exact ⟨rfl, rfl, rfl⟩
    · rw [objectWord_bad hc he hstop hd (takeWord_run8_bad hdata hbad)]
      exact badWord_faulted b a.obj
  · rw [hstart, firstByte, lastByte, rowStart, rowStride, pixelBits_of hn]
    exact ⟨rfl, rfl⟩

end Sys2Proof.Machine
end

