-- ==== Sys2Proof/Proofs/RunSteps.lean ====
section
/-! SUPPORT. The steps of a RUN8 decode. -/
namespace Sys2Proof.Machine
set_option Elab.async false
open Sys2Proof

section
variable {d : Run8} {be : Bool} {e : ObjEntry} {c1 : Nat} {w : BusWord}

theorem Run8.step_complete (hm : d.mode ≠ .entry) (hc : c1 < d.out.length) :
    d.step be e c1 = ({ d with status := .complete }, false) := if_pos ⟨hm, hc⟩

theorem Run8.step_short (hm : d.mode ≠ .entry) (hc : d.out.length ≤ c1) (hp : dataLimit e ≤ d.pos) :
    d.step be e c1 = ({ d with status := .short }, false) :=
  (if_neg fun h => Nat.not_lt.2 hc h.2).trans (if_pos ⟨hm, hp⟩)

/-- A step that needs a byte: neither complete nor at the end of the data. -/
def Run8.Reads (d : Run8) (e : ObjEntry) (c1 : Nat) : Prop :=
  d.mode = .entry ∨ d.out.length ≤ c1 ∧ d.pos < dataLimit e

theorem Run8.step_reads (h : d.Reads e c1) : d.step be e c1 =
    match d.line.lookup (d.pos - d.pos % 4) with
    | none => ({ d with status := .needByte }, false)
    | some w =>
      if !wordGood be w then ({ d with status := .bad (d.pos - d.pos % 4) }, false)
      else if d.mode = .entry then (d.takeEntry e w.data, (d.takeEntry e w.data).status != .short)
      else (d.takeByte c1 (byteAt be w.data (d.pos % 4)), true) := by
  have hcomplete : ¬ (d.mode ≠ .entry ∧ c1 < d.out.length) := fun hn =>
    h.elim hn.1 fun hr => Nat.not_lt.2 hr.1 hn.2
  have hshort : ¬ (d.mode ≠ .entry ∧ dataLimit e ≤ d.pos) := fun hn =>
    h.elim hn.1 fun hr => Nat.not_lt.2 hn.2 hr.2
  exact (if_neg hcomplete).trans (if_neg hshort)

theorem Run8.step_waits (h : d.Reads e c1) (hl : d.line.lookup (d.pos - d.pos % 4) = none) :
    d.step be e c1 = ({ d with status := .needByte }, false) := by
  rw [step_reads h, hl]

theorem Run8.step_bad (h : d.Reads e c1) (hl : d.line.lookup (d.pos - d.pos % 4) = some w)
    (hw : wordGood be w = false) : d.step be e c1 = ({ d with status := .bad (d.pos - d.pos % 4) }, false) := by
  rw [step_reads h, hl]
  exact if_pos (by rw [hw]; rfl)

theorem Run8.step_entry (hm : d.mode = .entry) (hl : d.line.lookup (d.pos - d.pos % 4) = some w)
    (hw : wordGood be w = true) :
    d.step be e c1 = (d.takeEntry e w.data, (d.takeEntry e w.data).status != .short) := by
  rw [step_reads (.inl hm), hl]
  exact (if_neg (by rw [hw]; decide)).trans (if_pos hm)

theorem Run8.step_byte (h : d.Reads e c1) (hm : d.mode ≠ .entry)
    (hl : d.line.lookup (d.pos - d.pos % 4) = some w) (hw : wordGood be w = true) :
    d.step be e c1 = (d.takeByte c1 (byteAt be w.data (d.pos % 4)), true) := by
  rw [step_reads h, hl]
  exact (if_neg (by rw [hw]; decide)).trans (if_neg hm)

theorem Run8.takeEntry_short {o : Word} (h : e.length.toNat ≤ o.toNat) :
    d.takeEntry e o = { d with status := .short } := if_pos h

theorem Run8.takeEntry_within {o : Word} (h : o.toNat < e.length.toNat) :
    d.takeEntry e o = { d with pos := e.addr.toNat + o.toNat, mode := .code } := if_neg (Nat.not_le.2 h)

end

/-- Settles O49. -/
theorem run8DecodeSteps : Obligations.Run8DecodeSteps := by
  refine fun d be e c1 => ⟨Run8.step_complete, Run8.step_short, fun hm hc hp => ⟨Run8.step_waits (.inr ⟨hc, hp⟩),
    fun w hl => ⟨Run8.step_bad (.inr ⟨hc, hp⟩) hl, fun b hw hb => ?_⟩⟩, fun hm => Run8.step_waits (.inl hm),
    fun w hm hl => ⟨Run8.step_bad (.inl hm) hl, fun hw hle => ?_, fun hw hlt hs => ?_⟩, fun addr w => ?_⟩
  · rw [Run8.step_byte (.inr ⟨hc, hp⟩) hm hl hw, ← hb]
    refine ⟨fun hcode hlt => ?_, fun hcode hle => ?_, fun n hn => ?_, fun n hn => ?_⟩
    · simp only [Run8.takeByte, hcode]
      rw [if_pos hlt]
    · simp only [Run8.takeByte, hcode]
      rw [if_neg (Nat.not_lt.2 hle)]
    · simp only [Run8.takeByte, hn]
    · simp only [Run8.takeByte, hn]
  · rw [Run8.step_entry hm hl hw, Run8.takeEntry_short hle]
    rfl
  · rw [Run8.step_entry hm hl hw, Run8.takeEntry_within hlt, bne_iff_ne.2 hs]
  · exact Run8.go_repeats_step be e c1 _ _ (Run8.arrive_fuel d addr w)

end Sys2Proof.Machine
end

