-- ==== Sys2Proof/Proofs/ObjectFetches.lean ====
section
/-! SUPPORT. The completion of an object fetch, and the application of a placement to a row. -/
namespace Sys2Proof.Machine
set_option Elab.async false
open Sys2Proof

section
variable {s u v : State} {pl : Plane} {f g : Flight} {a b : App} {rest l : List Placement} {r : LineReq}

/-! ## The completion -/

/-- With a tile in flight the event ends with the grant. -/
theorem finish_in_flight (h : s.render.flight.isSome = true) : finish s = grant s := by
  rw [finish, takeTile_of_flight h]

theorem advanceRow_in_flight : (advanceRow pl f l s).render.flight.isSome = true := by
  obtain ⟨ph, hr, -⟩ := advanceRow_flight (s := s) pl f l
  rw [hr]
  rfl

/-- What a row comes to, up to the end of the event. -/
theorem rowGoesOn_finish (ho : v.objects = s.objects) (hb : v.buttons = s.buttons)
    (ha : v.intake.anchor = s.intake.anchor) : RowGoesOn pl f l s (finish (advanceRow pl f l v)) := by
  rw [finish_in_flight advanceRow_in_flight]
  exact rowGoesOn_congr (advanceRow_goesOn v pl f l) ho hb ha (by simp) fun r h => grant_renderHanded _ h

theorem FetchDone.keeps (h : FetchDone r s u) : u.objects = s.objects ∧ u.reports = s.reports ∧ u.tiles = s.tiles := by
  cases h <;> simp [applyApp]

theorem FetchDone.in_flight (h : FetchDone r s u) (hf : s.render.flight.isSome = true) :
    u.render.flight.isSome = true := by
  cases h with
  | none => exact hf
  | next => rfl
  | ended => exact advanceRow_in_flight
  | applied => exact advanceRow_in_flight

/-- The handed fetch of an application stays handed as the event ends. -/
theorem setFlight_handed (req : RenderReq) : RenderHanded req (finish (setFlight f req s)) := by
  rw [finish_in_flight (s := setFlight f req s) rfl]
  exact grant_renderHanded _ (.inl rfl)

theorem setFlight_render (req : RenderReq) :
    (finish (setFlight f req s)).render = { s.render with flight := some f } := by
  rw [finish_in_flight (s := setFlight f req s) rfl, grant_render]
  rfl

section
variable (hc : currentApp s = some (f, a, rest)) (hp : s.tiles.plane = some pl)
include hc hp

theorem objectFetchEffect_ended (he : a.ended = true) : objectFetchEffect r s = advanceRow pl f rest s := by
  simp only [objectFetchEffect, hc, hp]
  exact if_pos he

theorem objectFetchEffect_next {n : LineReq} (he : a.ended = false) (hn : a.nextFetch r = some (b, n)) :
    objectFetchEffect r s = setFlight { f with phase := .applying b rest } (.fetch n) s := by
  simp only [objectFetchEffect, hc, hp, hn]
  exact if_neg (by rw [he]; decide)

theorem objectFetchEffect_applied (he : a.ended = false) (hn : a.nextFetch r = none) :
    objectFetchEffect r s = applyApp pl f a rest s := by
  simp only [objectFetchEffect, hc, hp, hn]
  exact if_neg (by rw [he]; decide)

end

theorem nextFetch_words {d : List (Nat × Word)} (h : a.data = .words d) :
    a.nextFetch r = if r.line.toNat + 16 ≤ lastByte a then some (a, ⟨r.line + 16, 0⟩) else none := by
  rw [App.nextFetch, h]

theorem nextFetch_run8 {d : Run8} (h : a.data = .run8 d) (hs : d.status = .needByte) :
    a.nextFetch r = some ({ a with data := .run8 { d with line := [] } }, lineReqAt d.pos) := by
  simp only [App.nextFetch, h, hs]

theorem nextFetch_stopped {d : Run8} (h : a.data = .run8 d) (hs : d.status = .complete ∨ d.status = .short) :
    a.nextFetch r = none := by
  rcases hs with hs | hs <;> simp only [App.nextFetch, h, hs]

theorem mapFrom_getElem? {α : Type} (g : Nat → α → α) (k : Nat) (l : List α) (i : Nat) :
    (mapFrom g k l)[i]? = l[i]?.map (g (k + i)) := by
  induction l generalizing k i with
  | nil => rfl
  | cons x l ih =>
    cases i with
    | zero => rfl
    | succ i => rw [mapFrom, List.getElem?_cons_succ, List.getElem?_cons_succ, ih, Nat.add_right_comm, Nat.add_assoc]

theorem applySpan_getElem? {left i : Nat} {c : Argb} {px : List Argb} (h : px[i]? = some c) :
    (applySpan s a left px)[i]? = some (if a.px0 ≤ left + i ∧ left + i ≤ a.px1 then
      layOver (sourcePixel (appColour s a (left + i - a.px0 + a.c0)) a.place.opacity) c else c) := by
  rw [applySpan, mapFrom_getElem?, h, Option.map_some, Nat.zero_add]
  simp

/-! ## The application of a placement -/

/-- The columns of the tile from `left` on that an object so wide at x covers. -/
theorem span_covered_iff (x left : Int) (w : Nat) : max x left ≤ min (x + w - 1) (left + 63)
    ↔ ∃ c : Int, left ≤ c ∧ c < left + 64 ∧ x ≤ c ∧ c < x + w := by
  constructor
  · intro h
    exact ⟨max x left, by omega⟩
  · rintro ⟨c, hc⟩
    omega

/-- A placement of this object applies to the row y of a tile whose first column is `left` (R61, R62). -/
def Applies (p : Placement) (e : ObjEntry) (left y : Int) : Prop :=
  e.state = .ready ∧ p.opacity ≠ 0 ∧ p.y ≤ y ∧ y < p.y + e.height
    ∧ ∃ c : Int, left ≤ c ∧ c < left + 64 ∧ p.x ≤ c ∧ c < p.x + e.width

section
variable {p : Placement} {id : Fin Config.objectCount} {tile n : Nat} {left y : Int}

/-- The span of an application and its place in the object. -/
structure SpanOf (p : Placement) (e : ObjEntry) (left y : Int) (a : App) : Prop where
  px0 : (a.px0 : Int) = max p.x left
  px1 : (a.px1 : Int) = min (p.x + e.width - 1) (left + 63)
  c0 : (a.c0 : Int) = a.px0 - p.x
  c1 : (a.c1 : Int) = a.px1 - p.x
  row : (a.row : Int) = y - p.y

theorem tileLeft_cast (pl : Plane) (tile : Nat) :
    ((tileLeft pl tile : Nat) : Int) = 64 * ((tile % (pl.width / 64) : Nat) : Int) := by
  rw [tileLeft, Nat.cast_mul]
  rfl

theorem tileRowY_cast (pl : Plane) (tile n : Nat) :
    ((tileRowY pl tile n : Nat) : Int) = 8 * ((tile / (pl.width / 64) : Nat) : Int) + n := by
  rw [tileRowY, Nat.cast_add, Nat.cast_mul]
  rfl

theorem startApp_unless (hid : currentObject s p = some id)
    (h : ¬ Applies p s.objects[id] (tileLeft pl tile) (tileRowY pl tile n)) : startApp s pl tile n p = none := by
  simp only [startApp, hid]
  refine if_neg fun hn => h ?_
  obtain ⟨hstate, hop, hspan, hlow, hhigh⟩ := hn
  exact ⟨hstate, hop, hlow, by omega, (span_covered_iff _ _ _).1 hspan⟩

theorem startApp_applies (hid : currentObject s p = some id)
    (h : Applies p s.objects[id] (tileLeft pl tile) (tileRowY pl tile n)) :
    ∃ a, startApp s pl tile n p = some a ∧ a.place = p ∧ a.obj = id ∧ a.entry = s.objects[id] ∧ a.ended = false
      ∧ SpanOf p s.objects[id] (tileLeft pl tile) (tileRowY pl tile n) a
      ∧ a.data = if s.objects[id].coding = .run8 then
          .run8 ⟨s.objects[id].addr.toNat + 4 * a.row, .entry, [], .needByte, []⟩ else .words [] := by
  obtain ⟨hstate, hop, hlow, hhigh, hspan⟩ := h
  rw [← span_covered_iff] at hspan
  simp only [startApp, hid]
  rw [if_pos ⟨hstate, hop, hspan, hlow, by omega⟩]
  refine ⟨_, rfl, rfl, rfl, rfl, rfl, ⟨?_, ?_, ?_, ?_, ?_⟩, rfl⟩
  all_goals
    dsimp only
    omega

end

end

/-! ## The data of an application -/

section
variable {s : State} {a : App} {g : List (Nat × Word)} {w : Word} {x i : Nat}

theorem byteAt_little {k : Nat} (hk : k < 4) : byteAt false w k = w.toNat / 2 ^ (8 * k) % 256 := by
  interval_cases k <;> rfl

theorem byteAt_big {k : Nat} (hk : k < 4) : byteAt true w k = w.toNat / 2 ^ (24 - 8 * k) % 256 := by
  interval_cases k <;> rfl

theorem tableColour_entry (k : Fin Config.tableCount) (j : Fin 256) (h : j.val = i) :
    tableColour s k i = s.colours.entries[k][j] := by
  subst h
  simp [tableColour]

theorem wordFor_lookup {n : Nat} (h : g.lookup (n - n % 4) = some w) : wordFor g n = w := by
  rw [wordFor, h]
  rfl

theorem dataByte_lookup {be : Bool} {n : Nat} (h : g.lookup (n - n % 4) = some w) :
    dataByte be g n = byteAt be w (n % 4) := by
  rw [dataByte, wordFor_lookup h]

theorem appColour_direct (hd : a.data = .words g) (hc : a.entry.coding = .direct32) :
    appColour s a x = Argb.ofWord (wordFor g (rowStart a.entry a.row + 4 * x)) := by
  simp only [appColour, hd, hc]

theorem appColour_indexed (hd : a.data = .words g) (hc : a.entry.coding ≠ .direct32) :
    appColour s a x
      = tableColour s a.entry.table (indexAt (byteOrder s) g a.entry (rowStart a.entry a.row) x) := by
  simp only [appColour, hd]
  cases h : a.entry.coding with
  | direct32 => exact absurd h hc
  | _ => rfl

/-- The word that holds the first byte of column x, in a row whose words have arrived. -/
def columnByte (a : App) (x : Nat) : Nat := rowStart a.entry a.row + x * a.entry.coding.pixelBits / 8

theorem columnByte_eq {n : Nat} (hn : a.entry.coding.pixelBits = n) :
    columnByte a x = rowStart a.entry a.row + x * n / 8 := by rw [columnByte, hn]

theorem appColour_direct_of (hd : a.data = .words g) (hc : a.entry.coding = .direct32)
    (hl : g.lookup (columnByte a x - columnByte a x % 4) = some w) : appColour s a x = Argb.ofWord w := by
  have hat : columnByte a x = rowStart a.entry a.row + 4 * x := by
    rw [columnByte_eq (n := 32) (by rw [hc]; rfl)]
    omega
  rw [appColour_direct hd hc, ← hat, wordFor_lookup hl]

/-- The index of column x, from the byte that holds it. -/
theorem indexAt_of {be : Bool} {b : Nat} (hl : g.lookup (columnByte a x - columnByte a x % 4) = some w)
    (hb : b = byteAt be w (columnByte a x % 4))
    (h : (a.entry.coding = .index8 ∧ i = b)
      ∨ (a.entry.coding = .index4 ∧ i = (if x % 2 = 0 then b / 16 else b % 16))
      ∨ (a.entry.coding = .index2 ∧ i = b / 4 ^ (3 - x % 4) % 4)) :
    indexAt be g a.entry (rowStart a.entry a.row) x = i := by
  have hbyte : dataByte be g (columnByte a x) = b := by rw [dataByte_lookup hl, hb]
  rcases h with ⟨hc, rfl⟩ | ⟨hc, rfl⟩ | ⟨hc, rfl⟩
  · rw [columnByte_eq (n := 8) (by rw [hc]; rfl), Nat.mul_div_cancel _ (by decide)] at hbyte
    simp only [indexAt, hc, hbyte]
  · rw [columnByte_eq (n := 4) (by rw [hc]; rfl), show x * 4 / 8 = x / 2 by omega] at hbyte
    simp only [indexAt, hc, hbyte]
  · rw [columnByte_eq (n := 2) (by rw [hc]; rfl), show x * 2 / 8 = x / 4 by omega] at hbyte
    simp only [indexAt, hc, hbyte]

end

/-- Settles O50. -/
theorem objectFetchAppliesPlacement : Obligations.ObjectFetchAppliesPlacement := by
  refine ⟨?_, ?_, ?_, ?_, ?_, ?_, ?_⟩
  · intro s pl f a rest r hm hf hph hp hd
    have hc : currentApp (s.setMside .free) = some (f, a, rest) := currentApp_of (s := s.setMside .free) hf hph
    have hdone := objectFetchEffect_done (s := s.setMside .free) r
    obtain ⟨hobjects, hreports, htiles⟩ := hdone.keeps
    have hend := finish_in_flight (hdone.in_flight (by rw [State.setMside_render, hf]; rfl))
    refine ⟨finish (objectFetchEffect r (s.setMside .free)), ?_, by simp, by simp, by simp, by simp [SameControl],
      by simp [SameOuter], by simp, ?_, ?_, ?_, fun he => ?_, fun g he hdata hle => ?_,
      fun d he hdata hs => ?_, fun he hdata => ?_⟩
    · simp only [exec, execObjectFetchComplete, hm]
      rw [if_true, completeOwn_service hd]
    · rw [finish_objects, hobjects]
      rfl
    · rw [finish_reports, hreports]
      rfl
    · rw [hend, grant_tiles, htiles]
      rfl
    · rw [objectFetchEffect_ended hc hp he]
      exact rowGoesOn_finish rfl rfl rfl
    · rw [objectFetchEffect_next hc hp he ((nextFetch_words hdata).trans (if_pos hle)), setFlight_render]
      refine ⟨setFlight_handed _, ?_⟩
      have hsame : (⟨s.render.scan, some f⟩ : RenderEngine) = s.render := by rw [← hf]
      rw [← hph]
      exact hsame
    · rw [objectFetchEffect_next hc hp he (nextFetch_run8 hdata hs), setFlight_render]
      exact ⟨setFlight_handed _, rfl⟩
    · have hnext : a.nextFetch r = none := by
        rcases hdata with ⟨g, hg, hlt⟩ | ⟨d, hd, hs⟩
        · exact (nextFetch_words hg).trans (if_neg (Nat.not_le.2 hlt))
        · exact nextFetch_stopped hd hs
      rw [objectFetchEffect_applied hc hp he hnext]
      refine ⟨applySpan (s.setMside .free) a (tileLeft pl f.tile) f.pixels, mapFrom_length .., fun i c hi =>
        applySpan_getElem? hi, rowGoesOn_finish rfl rfl rfl⟩
  · rintro s pl tile r p left y rfl rfl
    rw [← tileLeft_cast, ← tileRowY_cast]
    refine ⟨fun hn => by simp only [startApp, hn], fun id e hid he => ?_⟩
    subst he
    refine ⟨startApp_unless hid, fun hs ho hlow hhigh hspan => ?_⟩
    obtain ⟨a, ha, hplace, hobj, hentry, hended, hspan, hdata⟩ :=
      startApp_applies (pl := pl) (tile := tile) (n := r) hid ⟨hs, ho, hlow, hhigh, hspan⟩
    exact ⟨a, ha, hplace, hobj, hentry, hended, hspan.px0, hspan.px1, hspan.c0, hspan.c1, hspan.row, hdata⟩
  · intro a g hg
    rw [firstFetch, hg]
    rfl
  · intro a d hd
    rw [firstFetch, hd]
    rfl
  · exact fun w k hk => ⟨byteAt_little hk, byteAt_big hk⟩
  · rintro s a g w x start at_ b hg rfl rfl hl rfl
    refine ⟨fun hc => ?_, fun i hi => ?_⟩
    · exact appColour_direct_of hg hc hl
    · have hne : a.entry.coding ≠ .direct32 := by
        rcases hi with ⟨hc, -⟩ | ⟨hc, -⟩ | ⟨hc, -⟩ <;> rw [hc] <;> decide
      rw [appColour_indexed hg hne, indexAt_of hl rfl hi]
      exact tableColour_entry _ i rfl
  · intro s a d x hd
    refine ⟨fun i hi => ?_, fun hn => ?_, fun pl tile => rfl⟩
    · simp only [appColour, hd, hi]
      exact tableColour_entry _ i rfl
    · simp only [appColour, hd, hn]
      rfl

end Sys2Proof.Machine
end

