-- ==== Sys2Proof/Proofs/TileRows.lean ====
section
/-! SUPPORT. The stores of a tile's rows and its completion. -/
namespace Sys2Proof.Machine
set_option Elab.async false
open Sys2Proof

/-! ## The words of a row -/

theorem toWord_toNat (c : Argb) : c.toWord.toNat
    = c.a.toNat * 2 ^ 24 + c.r.toNat * 2 ^ 16 + c.g.toNat * 2 ^ 8 + c.b.toNat := by
  have hb := c.b.isLt
  have hg := c.g.isLt
  have hr := c.r.isLt
  simp only [Argb.toWord, BitVec.toNat_append]
  rw [← Nat.shiftLeft_add_eq_or_of_lt hb, ← Nat.shiftLeft_add_eq_or_of_lt hg, ← Nat.shiftLeft_add_eq_or_of_lt hr]
  simp only [Nat.shiftLeft_eq]
  omega

theorem ofWord_toWord (c : Argb) : Argb.ofWord c.toWord = c := by
  have hw := toWord_toNat c
  have ha := c.a.isLt
  have hr := c.r.isLt
  have hg := c.g.isLt
  have hb := c.b.isLt
  cases c
  simp only [Argb.ofWord, Argb.mk.injEq, ← BitVec.toNat_inj, BitVec.extractLsb'_toNat, Nat.shiftRight_eq_div_pow, hw]
  simp only at ha hr hg hb
  omega

theorem rowLineWords_length {be : Bool} {px : List Argb} {n : Nat} (hl : px.length = 64) (hn : n < 16) :
    (rowLineWords be px n).length = 4 := by
  rw [rowLineWords, List.length_map, List.length_take, List.length_drop, hl]
  omega

theorem rowLineWords_getElem? {be : Bool} {px : List Argb} {n i : Nat} {c : Argb} (hi : i < 4)
    (hc : px[4 * n + i]? = some c) : (rowLineWords be px n)[i]? = some (fresh be c.toWord) := by
  rw [rowLineWords, List.getElem?_map, List.getElem?_take_of_lt hi, List.getElem?_drop, hc]
  rfl

section
variable {s u v : State} {pl : Plane} {f : Flight} {n : Nat} {x : Anchor}

/-! ## The stores -/

theorem currentStore_of (hf : s.render.flight = some f) (hp : f.phase = .storing n) :
    currentStore s = some (f, n) := by
  simp only [currentStore, hf, hp]

theorem lastStore_iff : lastStore f n = true ↔ f.row = 7 ∧ n = 15 := by
  simp [lastStore]

theorem renderStoreEffect_line (hc : currentStore s = some (f, n)) (hp : s.tiles.plane = some pl)
    (hn : n < 15) : renderStoreEffect s = handRowStore pl f (n + 1) s := by
  simp only [renderStoreEffect, hc, hp]
  exact if_pos hn

theorem renderStoreEffect_row (hc : currentStore s = some (f, 15)) (hp : s.tiles.plane = some pl) :
    renderStoreEffect s = beginRow pl f.page f.tile (f.row + 1) s := by
  simp only [renderStoreEffect, hc, hp]
  exact if_neg (by decide)

theorem tileEffect_completed (hc : currentStore s = some (f, n)) (hp : s.tiles.plane = some pl)
    (hw : planeWaits s = false) : tileEffect s = completeTile pl f s := by
  have hw' : planeWaits (completeTile pl f s) = false := by rw [planeWaits, completeTile_intake]; exact hw
  simp only [tileEffect, hc, hp]
  exact if_neg (by rw [hw']; decide)

theorem tileEffect_planeSet (hc : currentStore s = some (f, n)) (hp : s.tiles.plane = some pl)
    (hw : planeWaits s = true) : tileEffect s = carryOut planeEffect (completeTile pl f s) := by
  have hw' : planeWaits (completeTile pl f s) = true := by rw [planeWaits, completeTile_intake]; exact hw
  simp only [tileEffect, hc, hp]
  exact if_pos hw'

theorem exec_renderStore {a : Addr} {p : Fin 4} {ws : List BusWord} {k : Nat}
    (hm : s.mside = .own (.render (.store a p ws)) k) (hc : currentStore s = some (f, n))
    (hl : lastStore f n = false) (hd : s.resetDue = false) :
    exec .renderStoreComplete s = .next (finish (renderStoreEffect (s.setMside .free))) := by
  simp only [exec, execRenderStoreComplete, hm, hc]
  rw [if_pos (.inr (by rw [hl]; rfl)), completeOwn_service hd]

theorem exec_tileComplete {a : Addr} {p : Fin 4} {ws : List BusWord} {k : Nat}
    (hm : s.mside = .own (.render (.store a p ws)) k) (hc : currentStore s = some (f, n))
    (hl : lastStore f n = true) (hd : s.resetDue = false) :
    exec .tileComplete s = .next (finish (tileEffect (s.setMside .free))) := by
  simp only [exec, execTileComplete, hm, hc]
  rw [if_pos hl, completeOwn_service hd]

/-- What a row's store leaves of the other units, where the flight goes on. -/
theorem renderStore_frame (hf : u.render.flight.isSome = true) (hu : SameTables s u ∧ SameControl s u ∧ SameOuter s u
    ∧ u.intake = s.intake ∧ u.reports = s.reports ∧ u.tiles = s.tiles) :
    SameTables s (finish u) ∧ SameControl s (finish u) ∧ SameOuter s (finish u) ∧ (finish u).intake = s.intake
      ∧ (finish u).reports = s.reports ∧ (finish u).tiles = s.tiles := by
  rw [finish_in_flight hf]
  simpa [SameTables, SameControl, SameOuter] using hu

theorem carryOut_plane : carryOut planeEffect v = endRecord none (advancedP v) (handStateWord v (applyPlane v)) := rfl

/-- A SETUP PLANE that waited for the tile is carried out with its completion. -/
theorem planeSet_ended {t : State} {o : RenderReq} {k : Nat} (hm : s.mside = .own (.render o) k) (hx : s.intake.anchor = some x)
    (hle : s.intake.p + recordWords s ≤ 4 * x.lines)
    (ht : t = finish (carryOut planeEffect (completeTile pl f (s.setMside .free)))) :
    RecordEnded x (nextIndex x s) s t ∧ SameTables s t ∧ t.engine = s.engine ∧ SameOuter s t
      ∧ t.reports = s.reports ∧ t.share = bits s.intake.header 3 0
      ∧ t.page = { s.page with front := .a, running := none }
      ∧ TookFrom ⟨true, planeNamed s, List.replicate (planeNamed s).tileCount .dirty,
          List.replicate (planeNamed s).tileCount .dirty, true⟩ ⟨0, none⟩ .b t := by
  obtain ⟨w, hw⟩ : ∃ w, w = handStateWord (completeTile pl f (s.setMside .free))
      (applyPlane (completeTile pl f (s.setMside .free))) := ⟨_, rfl⟩
  have hintake : w.intake = s.intake := by simp [hw]
  have hadv : advancedP (completeTile pl f (s.setMside .free)) = nextIndex x s := by
    rw [advancedP_eq (w := completeTile pl f (s.setMside .free)) hx hle]
    rfl
  have hout : intakeOutstanding (s.setMside .free) = intakeOutstanding s := by simp [intakeOutstanding, hm]
  have hpage : w.page = { s.page with front := .a, running := none } := by simp [hw, applyPlane]
  have hend : t = finish (endRecord none (nextIndex x s) w) := by rw [ht, carryOut_plane, hadv, hw]
  subst hend
  refine ⟨(endRecord_ended (s.setMside .free) none _ hintake hx (by simp [hw]) (by simp [hw])).congr rfl hout,
    by simp [SameTables, hw], by simp [hw], by simp [SameOuter, hw], ?_, ?_, by simp [hpage], ?_⟩
  · rw [finish_reports, endRecord_reports]
    simp [hw]
  · rw [finish_share, endRecord_share, hw, handStateWord_share]
    rfl
  · have htook := finish_took (endRecord none (nextIndex x s) w)
    have hback : backPage (endRecord none (nextIndex x s) w) = .b := by
      rw [backPage, endRecord_page, hpage]
      rfl
    have htiles : w.tiles = ⟨true, planeNamed s, List.replicate (planeNamed s).tileCount .dirty,
        List.replicate (planeNamed s).tileCount .dirty, true⟩ := by
      rw [hw, handStateWord_tiles]
      rfl
    have hrender : w.render = ⟨0, none⟩ := by
      rw [hw, handStateWord_render]
      rfl
    rwa [hback, endRecord_tiles, endRecord_render, htiles, hrender] at htook

end

/-- Settles O51. -/
theorem tileRowsAreStoredInOrder : Obligations.TileRowsAreStoredInOrder := by
  refine ⟨fun s pl f n a p ws hm hf hph hp hd => ?_, fun s => beq_iff_eq, ?_, fun be px n hl hn =>
    ⟨rowLineWords_length hl hn, fun i c hi hc => ⟨rowLineWords_getElem? hi hc, toWord_toNat c, ofWord_toWord c⟩⟩⟩
  · have hc : currentStore s = some (f, n) := currentStore_of hf hph
    have hc' : currentStore (s.setMside .free) = some (f, n) := currentStore_of (s := s.setMside .free) hf hph
    refine ⟨fun hn => ⟨_, exec_renderStore hm hc ?_ hd, ?_⟩, fun hn hr => ⟨_, exec_renderStore hm hc ?_ hd, ?_⟩,
      fun hn hr hw => ⟨_, exec_tileComplete hm hc (lastStore_iff.2 ⟨hr, hn⟩) hd, ?_⟩,
      fun x hn hr hw hx hle => ⟨_, exec_tileComplete hm hc (lastStore_iff.2 ⟨hr, hn⟩) hd, ?_⟩⟩
    · rw [← Bool.not_eq_true, lastStore_iff]
      omega
    · rw [renderStoreEffect_line hc' hp hn]
      obtain ⟨htables, hcontrol, houter, hintake, hreports, htiles⟩ := renderStore_frame (s := s)
        (u := handRowStore pl f (n + 1) (s.setMside .free)) rfl (by simp [SameTables, SameControl, SameOuter])
      exact ⟨htables, hcontrol, houter, hintake, hreports, htiles, setFlight_render _, setFlight_handed _⟩
    · rw [← Bool.not_eq_true, lastStore_iff]
      omega
    · subst hn
      rw [renderStoreEffect_row hc' hp]
      obtain ⟨htables, hcontrol, houter, hintake, hreports, htiles⟩ := renderStore_frame (s := s)
        (u := beginRow pl f.page f.tile (f.row + 1) (s.setMside .free)) advanceRow_in_flight
        (by simp [SameTables, SameControl, SameOuter])
      exact ⟨htables, hcontrol, houter, hintake, hreports, htiles,
        rowGoesOn_finish (v := s.setMside .free) rfl rfl rfl⟩
    · rw [tileEffect_completed (s := s.setMside .free) hc' hp hw]
      exact ⟨by simp [SameTables], by simp [SameControl], by simp [SameOuter], by simp, by simp,
        finish_took_from rfl rfl (by simp)⟩
    · rw [tileEffect_planeSet (s := s.setMside .free) hc' hp hw]
      exact planeSet_ended hm hx hle rfl
  · rintro pl g tile r n y rfl
    cases g <;> rfl

end Sys2Proof.Machine
end

