-- ==== Sys2Proof/Proofs/ReportRing.lean ====
section
/-! SUPPORT. The reports on their way to the ring. -/
namespace Sys2Proof.Machine
set_option Elab.async false
open Sys2Proof

/-! ## Arrivals -/

section
variable {u : ReportUnit} {r : Report} {ring : ReportRing}

theorem ReportUnit.arrive_unset (h : u.ring = none) : u.arrive r = u := if_pos (by rw [h]; rfl)

theorem ReportUnit.arrive_lost (h : u.ring.isSome = true) (ho : u.overflow = true) :
    u.arrive r = { u with seq := u.seq + 1, lost := min 65535 (u.lost + 1) } :=
  (if_neg (by simp [Option.isSome_iff_ne_none.1 h])).trans (if_pos ho)

theorem ReportUnit.arrive_overflow (h : u.ring.isSome = true) (ho : u.overflow = false) (hq : 8 ≤ u.queue.length) :
    u.arrive r = { u with seq := u.seq + 1, overflow := true, firstLost := u.seq, lost := 1 } :=
  (if_neg (by simp [Option.isSome_iff_ne_none.1 h])).trans
    ((if_neg (by rw [ho]; decide)).trans (if_pos hq))

theorem ReportUnit.arrive_queued (h : u.ring.isSome = true) (ho : u.overflow = false) (hq : u.queue.length < 8) :
    u.arrive r = { u with seq := u.seq + 1, queue := u.queue ++ [⟨r, u.seq⟩] } :=
  (if_neg (by simp [Option.isSome_iff_ne_none.1 h])).trans
    ((if_neg (by rw [ho]; decide)).trans (if_neg (Nat.not_le.2 hq)))

theorem ReportUnit.full_iff (h : u.ring = some ring) :
    u.full = true ↔ (u.write + 1) % ring.entries = u.read := by
  simp [ReportUnit.full, h]

end

/-! ## The report handed -/

section
variable {s : State} {r : ReportRing} {q : Queued} {rest : List Queued}

theorem handReport_queued (hr : s.reports.ring = some r) (hh : s.reports.inHand = none)
    (hf : s.reports.full = false) (hq : s.reports.queue = q :: rest) :
    handReport s = (handLine r q s).setReports { s.reports with inHand := some false } := by
  simp only [handReport, hr, hh, hq]
  exact if_neg (by rw [hf]; decide)

theorem handReport_overflow (hr : s.reports.ring = some r) (hh : s.reports.inHand = none)
    (hf : s.reports.full = false) (hq : s.reports.queue = []) (ho : s.reports.overflow = true) :
    handReport s = (handLine r (overflowReport s.reports) s).setReports
      { s.reports with
        inHand := some true, seq := s.reports.seq + 1, overflow := false, firstLost := 0, lost := 0 } := by
  simp only [handReport, hr, hh, hq]
  exact (if_neg (by rw [hf]; decide)).trans (if_pos ho)

theorem handReport_none (h : s.reports.ring = none ∨ s.reports.inHand.isSome = true ∨ s.reports.full = true
    ∨ (s.reports.queue = [] ∧ s.reports.overflow = false)) : handReport s = s := by
  unfold handReport
  split
  next r hr hh =>
    rcases h with h | h | h | ⟨hq, ho⟩
    · rw [hr] at h
      cases h
    · rw [hh] at h
      cases h
    · exact if_pos h
    · rw [hq, ho]
      simp
  next => rfl

/-- A store that waits in class 1 is kept as a report is handed. -/
theorem handReport_keeps {c : Class1} (h : c ∈ s.waiting.class1) : c ∈ (handReport s).waiting.class1 := by
  rcases handReport_class1 s with he | ⟨a, ws, he⟩ <;> rw [he]
  · exact h
  · exact List.mem_append_left _ h

theorem finish_class1 {c : Class1} (h : c ∈ s.waiting.class1) :
    c ∈ (finish s).waiting.class1 ∨ (finish s).mside = .own (.class1 c) 0 :=
  grant_class1 _ (by simpa using h)

/-! ## The completion of a report line -/

/-- The report unit after a line of its ring is stored. -/
def lineStored (ov : Bool) (r : ReportRing) (u : ReportUnit) : ReportUnit :=
  { u with
    queue := if ov = true then u.queue else u.queue.tail,
    write := (u.write + 1) % r.entries, inHand := none,
    attention := (u.write + 1) % r.entries != u.read }

theorem lineDone_eq {u : ReportUnit} (ov : Bool) (h : u.ring = some r) : u.lineDone ov r.entries = lineStored ov r u := by
  simp [ReportUnit.lineDone, ReportUnit.followIndexes, lineStored, h]

/-- The state after a line is stored, before the next report is handed. -/
def indexHanded (ov : Bool) (r : ReportRing) (s : State) : State :=
  handControl .reportIndex (BitVec.ofNat 32 ((s.reports.write + 1) % r.entries))
    (s.setReports (lineStored ov r s.reports))

theorem reportStoreEffect_eq {ov : Bool} (hr : s.reports.ring = some r) (hh : s.reports.inHand = some ov) :
    reportStoreEffect s = handReport (indexHanded ov r s) := by
  simp only [reportStoreEffect, hr, hh, lineDone_eq ov hr]
  rfl

theorem exec_reportStore {a : Addr} {p : Fin 4} {ws : List BusWord} {n : Nat} {ov : Bool}
    (hm : s.mside = .own (.class1 (.reportLine a p ws)) n) (hd : s.resetDue = false)
    (hr : s.reports.ring = some r) (hh : s.reports.inHand = some ov) : exec .reportStoreComplete s
      = .next (finish (handReport (indexHanded ov r (s.setMside .free)))) := by
  simp only [exec, execReportStoreComplete, hm]
  rw [completeOwn_service hd, reportStoreEffect_eq (s := s.setMside .free) hr hh]

theorem indexHanded_reports (ov : Bool) : (indexHanded ov r s).reports = lineStored ov r s.reports := by
  simp [indexHanded]

/-- A line the next report hands stays handed as the event ends. -/
theorem indexHanded_line {u : State} {ov : Bool} {l : Class1}
    (hu : u = s.setReports (lineStored ov r s.reports))
    (hl : (handReport u).waiting.class1 = u.waiting.class1 ++ [l]) :
    l ∈ (handReport (indexHanded ov r (s.setMside .free))).waiting.class1 := by
  obtain ⟨added, hadd, hadd'⟩ := handReport_adds_congr u (indexHanded ov r (s.setMside .free))
    (by rw [indexHanded_reports, hu]; rfl) (byteOrder_congr _ _ (by simp [hu, indexHanded]))
  have hone : added = [l] := List.append_cancel_left (hadd.symm.trans hl)
  rw [hadd', hone]
  exact List.mem_append_right _ (List.mem_singleton.2 rfl)

theorem indexHanded_control {x : Anchor} {ov : Bool} (ha : s.intake.anchor = some x) :
    ControlHanded .reportIndex (BitVec.ofNat 32 ((s.reports.write + 1) % r.entries))
      (finish (handReport (indexHanded ov r s))) := by
  refine finish_controlHanded _ (x := x) (by simpa [indexHanded] using ha) (handReport_keeps ?_)
  rw [indexHanded, handControl_class1 (x := x) _ (by simpa using ha)]
  exact handClass1_holds ..

end

/-! ## The completion of a control-word store -/

section
variable {s : State}

theorem exec_controlStore {k : ControlWord} {a : Addr} {e : BitVec 4} {w : BusWord} {n : Nat}
    (hm : s.mside = .own (.class1 (.control k a e w)) n) (hd : s.resetDue = false) :
    exec .controlWordStoreComplete s = .next (finish (s.setMside .free)) := by
  simp only [exec, execControlWordStoreComplete, hm, completeOwn_service hd, id]

/-- With no tile to take a freed M-side ends the event with the grant. -/
theorem finish_freed (ht : TileTaken s) : finish (s.setMside .free) = grant (s.setMside .free) := by
  have htake : takeTile (s.setMside .free) = s.setMside .free := takeTile_of_taken (s := s.setMside .free) ht
  rw [finish, htake]

/-- A freed M-side goes to the next own request, or is free. -/
theorem grant_freed (hc : s.cside.state = .idle) (hp : s.path = .service) :
    (selectOwn s.waiting = none →
        (grant (s.setMside .free)).mside = .free ∧ (grant (s.setMside .free)).waiting = s.waiting)
      ∧ ∀ o left, selectOwn s.waiting = some (o, left) →
        (grant (s.setMside .free)).mside = .own o 0 ∧ (grant (s.setMside .free)).waiting = left
          ∧ (grant (s.setMside .free)).passover = 0 := by
  have hidle : (s.setMside .free).cside.state.isWaiting = false := by
    rw [State.setMside_cside, hc]
    rfl
  refine ⟨fun ho => ?_, fun o left ho => ?_⟩
  · rw [grant_of_idle (s := s.setMside .free) ((selectOwn_none_iff _).1 ho) hidle]
    exact ⟨rfl, rfl⟩
  · rw [grant_front (s.setMside .free) rfl hidle hp ho]
    exact ⟨rfl, rfl, rfl⟩

end

/-- Settles O52. -/
theorem reportsReachRing : Obligations.ReportsReachRing := by
  refine ⟨⟨fun r u => ⟨ReportUnit.arrive_unset, ReportUnit.arrive_lost, ReportUnit.arrive_overflow,
    ReportUnit.arrive_queued⟩, fun r s => rfl, fun u r => ReportUnit.full_iff, fun s =>
    ⟨fun r q rest hr hh hf hq => ?_, fun r hr hh hf hq ho => ?_, handReport_none⟩⟩,
    fun s x hd ha => ⟨fun a p ws n r ov hm hr hh => ?_, fun k a e w n hm ht => ?_⟩, fun n => ?_⟩
  · rw [handReport_queued hr hh hf hq]
    exact ⟨rfl, rfl⟩
  · rw [handReport_overflow hr hh hf hq ho]
    exact ⟨rfl, rfl⟩
  · refine ⟨_, exec_reportStore hm hd hr hh, ?_⟩
    obtain ⟨v, hv⟩ : ∃ v, v = indexHanded ov r (s.setMside .free) := ⟨_, rfl⟩
    have hreports : (finish (handReport v)).reports = (lineStored ov r s.reports).hand := by
      rw [finish_reports, handReport_reports, hv, indexHanded_reports]
      rfl
    rw [← hv]
    refine ⟨by simp [hv, SameTables, indexHanded], by simp [hv, SameControl, indexHanded],
      by simp [hv, SameOuter, indexHanded], ?_, by simp [hv, indexHanded], ?_, ?_, ?_, ?_, ?_,
      hv ▸ indexHanded_control (s := s.setMside .free) ha, _, rfl, ?_, fun l hl => ?_⟩
    · apply finish_tilesKept <;> simp [hv, indexHanded]
    · rw [hreports, ReportUnit.hand_ring]
      exact hr
    · rw [hreports, ReportUnit.hand_write]
      rfl
    · rw [hreports, ReportUnit.hand_read]
      rfl
    · rw [hreports, ReportUnit.hand_queue]
      rfl
    · rw [hreports, ReportUnit.hand_attention]
      rfl
    · rw [hreports, handReport_reports]
      rfl
    · exact finish_class1 (hv ▸ indexHanded_line rfl hl)
  · refine ⟨_, exec_controlStore hm hd, ?_⟩
    rw [finish_freed ht]
    exact ⟨by simp [SameTables], by simp [SameControl], by simp [SameOuter], by simp, by simp, by simp, by simp,
      grant_freed⟩
  · refine ⟨fun now prev => ?_, fun b v => rfl, fun g c => ?_, fun k => ?_, fun c p k => ?_, fun c id => ?_,
      fun c a => ?_, fun c m => rfl⟩
    · cases now <;> cases prev <;> rfl
    · cases g <;> rfl
    · cases k <;> rfl
    · cases c <;> rfl
    · cases c <;> rfl
    · cases c <;> rfl

end Sys2Proof.Machine
end

