-- ==== Sys2Proof/Proofs/Footprints.lean ====
section
/-! SUPPORT. The footprints of placements and the marking of tiles. -/
namespace Sys2Proof.Machine
set_option Elab.async false
open Sys2Proof

/-! ## Geometry -/

/-- The blocks of m that an interval of numbers reaches. -/
theorem exists_div_eq_iff {m lo hi i : Nat} (hm : 0 < m) (h : lo ≤ hi) :
    (∃ n, lo ≤ n ∧ n ≤ hi ∧ n / m = i) ↔ lo / m ≤ i ∧ i ≤ hi / m := by
  constructor
  · rintro ⟨n, hlo, hhi, rfl⟩
    exact ⟨Nat.div_le_div_right hlo, Nat.div_le_div_right hhi⟩
  · rintro ⟨hlo, hhi⟩
    have hstart : i * m ≤ hi := (Nat.le_div_iff_mul_le hm).1 hhi
    have hend : lo < (i + 1) * m := (Nat.div_lt_iff_lt_mul hm).1 (Nat.lt_succ_of_le hlo)
    have hblock : i * m < (i + 1) * m := by
      rw [Nat.succ_mul]
      omega
    exact ⟨max lo (i * m), Nat.le_max_left .., Nat.max_le.2 ⟨h, hstart⟩,
      Nat.div_eq_of_lt_le (Nat.le_max_right ..) (Nat.max_lt.2 ⟨hend, hblock⟩)⟩

/-- Along one axis of the plane, the tiles that hold a position an object covers. -/
theorem axis_covered_iff {m size i w : Nat} {x : Int} (hm : 0 < m) (hw : 1 ≤ w) (hs : 0 < size) :
    (∃ n : Nat, n < size ∧ x ≤ n ∧ (n : Int) ≤ x + w - 1 ∧ n / m = i)
      ↔ ¬ (x + w - 1 < 0 ∨ (size : Int) - 1 < x)
        ∧ (max x 0).toNat / m ≤ i ∧ i ≤ (min (x + w - 1) (size - 1)).toNat / m := by
  constructor
  · rintro ⟨n, hn, hlow, hhigh, hi⟩
    refine ⟨by omega, (exists_div_eq_iff hm (by omega)).1 ⟨n, by omega, by omega, hi⟩⟩
  · rintro ⟨hon, hi⟩
    obtain ⟨n, hlow, hhigh, hn⟩ := (exists_div_eq_iff hm (by omega)).2 hi
    exact ⟨n, by omega, by omega, by omega, hn⟩

section
variable {s : State} {pl : Plane} {p : Placement} {x y : Int} {w h k : Nat}

theorem TileRect.holds_iff (r : TileRect) (cols t : Nat) : r.holds cols t = true
    ↔ (r.c0 ≤ t % cols ∧ t % cols ≤ r.c1) ∧ r.r0 ≤ t / cols ∧ t / cols ≤ r.r1 := by
  simp [TileRect.holds, and_assoc]

/-- The tiles of the footprint of a rectangle are those that hold one of its pixels. -/
theorem rectFootprint_holds_iff (hw : 1 ≤ w) (hh : 1 ≤ h) (hwidth : 0 < pl.width) (hheight : 0 < pl.height) :
    (∃ r, rectFootprint pl x y w h = some r ∧ r.holds pl.tileCols k = true)
      ↔ (∃ px : Nat, px < pl.width ∧ x ≤ px ∧ (px : Int) ≤ x + w - 1 ∧ px / 64 = k % pl.tileCols)
        ∧ ∃ py : Nat, py < pl.height ∧ y ≤ py ∧ (py : Int) ≤ y + h - 1 ∧ py / 8 = k / pl.tileCols := by
  rw [axis_covered_iff (by decide) hw hwidth, axis_covered_iff (by decide) hh hheight, rectFootprint]
  split
  next hoff =>
    refine ⟨nofun, fun ⟨⟨hx, _⟩, hy, _⟩ => ?_⟩
    rw [← or_assoc] at hoff
    exact absurd hoff (not_or.2 ⟨hx, hy⟩)
  next hon =>
    rw [← or_assoc, not_or] at hon
    simp only [Option.some.injEq, exists_eq_left', TileRect.holds_iff, hon, true_and, not_false_eq_true]

/-- The tile of a pixel, by its column and row. -/
theorem tileAt_eq_iff {px py : Nat} (hp : pl.width % 64 = 0) (hx : px < pl.width) :
    tileAt pl px py = k ↔ px / 64 = k % pl.tileCols ∧ py / 8 = k / pl.tileCols := by
  have hcol : px / 64 < pl.tileCols := by
    rw [Plane.tileCols]
    omega
  have hpos : 0 < pl.tileCols := Nat.lt_of_le_of_lt (Nat.zero_le _) hcol
  rw [show tileAt pl px py = py / 8 * pl.tileCols + px / 64 from rfl]
  constructor
  · rintro rfl
    rw [Nat.mul_add_mod_of_lt hcol, Nat.add_comm, Nat.add_mul_div_right _ _ hpos, Nat.div_eq_of_lt hcol,
      Nat.zero_add]
    exact ⟨rfl, rfl⟩
  · rintro ⟨hc, hr⟩
    rw [hc, hr, Nat.div_add_mod']

theorem footprint_eq {id : Fin Config.objectCount} (hp : s.tiles.plane = some pl)
    (hid : currentObject s p = some id) : footprint s p
      = if s.objects[id].state = .undefined then none
        else rectFootprint pl p.x p.y s.objects[id].width s.objects[id].height := by
  simp only [footprint, hp, hid]

theorem footprint_unset (hp : s.tiles.plane = none) : footprint s p = none := by
  simp only [footprint, hp]

theorem footprint_empty (hid : currentObject s p = none) : footprint s p = none := by
  unfold footprint
  rw [hid]
  split
  next h => cases h
  next => rfl

/-- The sides of an object that is defined. -/
theorem ObjectsSound.sides (hs : ObjectsSound s) (id : Fin Config.objectCount)
    (hd : s.objects[id].state ≠ .undefined) : 1 ≤ s.objects[id].width ∧ 1 ≤ s.objects[id].height := by
  have hsound := hs id
  rw [ObjEntry.Sound, if_neg hd] at hsound
  obtain ⟨hw, -, hh, -⟩ := hsound
  exact ⟨hw, hh⟩

/-- The footprint of a placement is the set of tiles that hold a pixel it covers. -/
theorem footprint_holds_iff (hs : ObjectsSound s) (hp : s.tiles.plane = some pl) (hl : pl.Legal) :
    (∃ r, footprint s p = some r ∧ r.holds pl.tileCols k = true)
      ↔ ∃ px py, Covers s pl p px py ∧ tileAt pl px py = k := by
  obtain ⟨hw64, hw, -, -, hh, -⟩ := hl
  cases hid : currentObject s p with
  | none =>
    rw [footprint_empty hid]
    refine ⟨nofun, fun ⟨px, py, ⟨_, _, id, hid', _⟩, _⟩ => ?_⟩
    rw [hid] at hid'
    cases hid'
  | some id =>
    rw [footprint_eq hp hid]
    by_cases hd : s.objects[id].state = .undefined
    · rw [if_pos hd]
      refine ⟨nofun, fun ⟨px, py, ⟨_, _, id', hid', hd', _⟩, _⟩ => ?_⟩
      rw [hid] at hid'
      cases hid'
      exact absurd hd hd'
    · obtain ⟨hw1, hh1⟩ := hs.sides id hd
      rw [if_neg hd, rectFootprint_holds_iff hw1 hh1 (by omega) (by omega)]
      constructor
      · rintro ⟨⟨px, hx, hx0, hx1, hcol⟩, py, hy, hy0, hy1, hrow⟩
        exact ⟨px, py, ⟨hx, hy, id, hid, hd, hx0, hx1, hy0, hy1⟩, (tileAt_eq_iff hw64 hx).2 ⟨hcol, hrow⟩⟩
      · rintro ⟨px, py, ⟨hx, hy, id', hid', -, hx0, hx1, hy0, hy1⟩, hk⟩
        rw [hid] at hid'
        cases hid'
        obtain ⟨hcol, hrow⟩ := (tileAt_eq_iff hw64 hx).1 hk
        exact ⟨⟨px, hx, hx0, hx1, hcol⟩, py, hy, hy0, hy1, hrow⟩

/-! ## Marking -/

theorem mark_eq {rects : List TileRect} (hp : s.tiles.plane = some pl) (hr : rects ≠ []) : mark rects s
    = s.setTiles { s.tiles with
        a := markTiles rects pl.tileCols s.tiles.a, b := markTiles rects pl.tileCols s.tiles.b,
        flipWanted := true } := by
  cases rects with
  | nil => exact absurd rfl hr
  | cons r rects => simp only [mark, hp]

theorem mark_nil : mark [] s = s := by
  unfold mark
  split
  next h => cases h
  next => rfl

theorem mark_unset {rects : List TileRect} (hp : s.tiles.plane = none) : mark rects s = s := by
  simp only [mark, hp]

/-- Every tile a marking reaches is marked. -/
theorem markTiles_getElem? {rects : List TileRect} {cols : Nat} {l : List TileState} {st : TileState}
    (h : l[k]? = some st) : (markTiles rects cols l)[k]?
      = some (if ∃ r ∈ rects, r.holds cols k = true then st.marked else st) := by
  rw [markTiles, mapFrom_getElem?, h, Option.map_some, Nat.zero_add]
  simp only [List.any_eq_true]

theorem mark_ofPage {rects : List TileRect} (hp : s.tiles.plane = some pl) (hr : rects ≠ []) (g : Page) :
    (mark rects s).tiles.ofPage g = markTiles rects pl.tileCols (s.tiles.ofPage g) := by
  rw [mark_eq hp hr]
  cases g <;> rfl

/-! ## Current objects -/

theorem currentObject_button {b : Fin Config.buttonCount} (h : p.source = .button b) :
    currentObject s p = buttonObject s.buttons b := by rw [currentObject, h]

theorem indexedOn_iff (t : Fin Config.tableCount) : indexedOn s t p = true
    ↔ ∃ id, currentObject s p = some id ∧ s.objects[id].state ≠ .undefined
      ∧ s.objects[id].coding ≠ .direct32 ∧ s.objects[id].table = t := by
  cases hid : currentObject s p <;> simp [indexedOn, hid, and_assoc]

theorem mem_footprintsOf {which : Placement → Bool} {r : TileRect} :
    r ∈ footprintsOf s which ↔ ∃ q ∈ s.list, which q = true ∧ footprint s q = some r := by
  simp [footprintsOf, and_assoc]

end

/-- Settles O10. -/
theorem footprintsAndMarking : Obligations.FootprintsAndMarking := by
  refine ⟨⟨fun s pl p k hs hp hl _ => footprint_holds_iff hs hp hl, fun s p => footprint_unset⟩,
    ⟨fun s pl rects hp hr => ⟨⟨_, _, mark_eq hp hr, mapFrom_length .., mapFrom_length ..⟩, fun g k st h => ?_⟩,
      fun s => mark_nil, fun s rects => mark_unset⟩,
    fun s p => ⟨fun id h => ?_, fun b h => ?_, fun id => beq_iff_eq, indexedOn_iff, fun which r =>
      mem_footprintsOf⟩⟩
  · rw [mark_ofPage hp hr, markTiles_getElem? h]
    cases st <;> rfl
  · rw [currentObject, h]
  · rw [currentObject_button h, buttonObject]
    cases s.buttons.entries[b].defined with
    | false => rfl
    | true =>
      by_cases hsel : s.buttons.selection = some b
      · cases s.buttons.activated <;> simp [hsel]
      · simp [hsel]

end Sys2Proof.Machine
end
